-- ==== Sys2Proof/Word.lean ====
section
/-! DEFINITION. The word and index types of the LKP-46 (00_scope.md sections 5 and 6). -/

namespace Sys2Proof

/-- One byte of a frame or of a store page. -/
abbrev Byte := BitVec 8

/-- One word of the table space (R148). -/
abbrev Word := BitVec 16

/-- A bud's air address: 24 bits, 0..16,777,215. -/
abbrev Address := BitVec 24

/-- One audio sample: signed 16-bit, two's complement; its value is `BitVec.toInt`. -/
abbrev Sample := BitVec 16

/-- One block of audio: 80 samples, oldest first. -/
abbrev Block := Vector Sample 80

/-- A radio handle, 0..15. -/
abbrev Handle := Fin 16

/-- A bud number. The spec numbers buds 1..8; index `i` stands for bud `i + 1`. -/
abbrev BudIx := Fin 8

/-- A listener number. The spec numbers listeners 1..4; index `i` stands for listener `i + 1`. -/
abbrev ListenerIx := Fin 4

/-- A lane number. The spec numbers lanes 1..3; index `i` stands for lane `i + 1`. -/
abbrev LaneIx := Fin 3

/-- A store page number, 0..20 (R164). -/
abbrev PageIx := Fin 21

/-- A table-space region number, 0..14 (R148). -/
abbrev RegionIx := Fin 15

/-- A gain index, 0..63. -/
abbrev GainIx := Fin 64

/-- A gain, 0..32,768; 32,768 is unity. -/
abbrev Gain := Fin 32769

/-- One page image, or the staging page: 16 bytes (R164, R168). -/
abbrev Page := Vector Byte 16

end Sys2Proof
end

