-- ==== Sys2Proof/Syntax.lean ====
section
/-! DEFINITION. The commands of the LKP-46: one constructor of `Instr` per row of spec/opcode_table.json.
A command is a frame taken at a port, a directive, or an event the bridge takes (00_scope.md section 4). -/

namespace Sys2Proof

/-- The two serial frame links (00_scope.md section 2). -/
inductive Link where
  | air | voice
deriving DecidableEq, Repr

/-- The four call-control directives (R122 to R125). -/
inductive CallDirective where
  | beginCall | endCall | hold | resume
deriving DecidableEq, Repr

/-- What the blocks do at one cadence (the table of R117), and the change of call state that a fill may
bring (R121). `form` is the Mix Engine's forming of the outputs, which waits for the Lane Unit's handover
and for its own taking of the cadence (R104). `call` is a call-control directive, with its sequence byte and no
payload, taken after the Call Controller has made the cadence and before every block has taken it (R104). -/
inductive CadenceAct where
  | supervise | countdown | lanes | mix | form | hold
  | call (what : CallDirective) (seq : Byte)
deriving DecidableEq, Repr

/-- The order in which one cadence reaches the blocks, with the call-control directives that come between. The
manual lets any block take a cadence first (R6, R72, R77, R104, R112, R121) and is silent on the order among buds and
among lanes, so the order is an operand of the command: a statement for every command holds for every order
(log entry 1). -/
structure CadenceOrder where
  acts : List CadenceAct
  buds : List BudIx
  lanes : List LaneIx
deriving DecidableEq, Repr

/-- The links on which a frame's beginning has arrived and its end has not, at the moment a RESTART is taken: what the
links give and no register holds (R141, log entry 12). -/
structure Arriving where
  air : Bool
  voice : Bool
deriving DecidableEq, Repr

/-- No frame is arriving on either link. -/
def Arriving.none : Arriving where
  air := false
  voice := false

/-- One presence and value pair of ADJUST (R143). -/
structure AdjustField where
  presence : Byte
  value : Byte
deriving DecidableEq, Repr

/-- The five pairs of ADJUST, in frame order (R143). -/
structure AdjustFields where
  volume : AdjustField
  sidetone : AdjustField
  mute : AdjustField
  micGain : AdjustField
  priority : AdjustField
deriving DecidableEq, Repr

/-- The commands. Air Link commands carry the header's handle and sequence; directives carry the header's
sequence byte and the raw payload, whose length the Directive Unit judges (R147). -/
inductive Instr where
  -- frames taken at the Air Port (R132)
  | audio (handle : Handle) (seq : Byte) (samples : Block)
  | silence (handle : Handle) (seq : Byte)
  | join (handle : Handle) (seq : Byte) (addr : Address) (setTag : Word) (role : Byte)
  | confirm (handle : Handle) (seq : Byte)
  | leave (handle : Handle) (seq : Byte)
  | park (handle : Handle) (seq : Byte)
  | adjust (handle : Handle) (seq : Byte) (fields : AdjustFields)
  | handleDropped (handle : Handle) (seq : Byte)
  -- frames taken at the Voice Port, and frames that fail the checks (R131, R133)
  | farVoice (byte2 : Byte) (byte3 : Byte) (samples : Block) (order : CadenceOrder)
  | frameMalformed (link : Link) (bytes : List Byte) (looseBits : Nat)
  | directiveUnknown (code : Byte) (seq : Byte) (payload : List Byte)
  -- directives (R147)
  | point (seq : Byte) (payload : List Byte)
  | read (seq : Byte) (payload : List Byte)
  | write (seq : Byte) (payload : List Byte)
  | mask (seq : Byte) (payload : List Byte)
  | beginCall (seq : Byte) (payload : List Byte)
  | endCall (seq : Byte) (payload : List Byte)
  | hold (seq : Byte) (payload : List Byte)
  | resume (seq : Byte) (payload : List Byte)
  | swap (seq : Byte) (payload : List Byte)
  | openAdmission (seq : Byte) (payload : List Byte)
  | closeAdmission (seq : Byte) (payload : List Byte)
  | evict (seq : Byte) (payload : List Byte)
  | bond (seq : Byte) (payload : List Byte)
  | storePage (seq : Byte) (payload : List Byte)
  | erasePage (seq : Byte) (payload : List Byte)
  | loadPage (seq : Byte) (payload : List Byte)
  | clearCounters (seq : Byte) (payload : List Byte)
  | status (seq : Byte) (payload : List Byte)
  | restart (seq : Byte) (payload : List Byte) (arriving : Arriving := .none)
  -- events
  | cadenceTimerExpiry (order : CadenceOrder)
  | fillTimeout (order : CadenceOrder)
  | confirmTimeout
  | noArrivals (bud : BudIx)
  | swapTaken
  | promotion (lane : LaneIx)
  | drainLastPull (lane : LaneIx)
  | reservationComplete (lane : LaneIx)
  | waitListGrant (lane : LaneIx)
  | moveIntoRing (bud : BudIx)
  | operationCompletion (arriving : Arriving := .none)
  | deferredRestartTaken (arriving : Arriving := .none)
  | powerUp
  | powerRemoval
  | airFrameSent
  | voiceFrameSent
  | holdOffReleased (link : Link)
  | holdOffAsserted (link : Link)
  | frameBegunWhileClosed (link : Link)
deriving DecidableEq, Repr

end Sys2Proof
end

