-- ==== Sys2Proof/Config.lean ====
section
/-! DEFINITION. What the LKP-46 fixes for every part: sizes, limits and codes. The manual leaves no value
to the implementation, so there is no free value here (log entry 1 says how the open ORDERS are treated). -/

namespace Sys2Proof.Config

/-- Places of a lane's ring, in samples (R58, R82). -/
def ringPlaces : Nat := 320

/-- A ring holding at most this many samples has room for a block (R51). -/
def ringRoom : Nat := 240

/-- Entries a bound queue may hold (R44). -/
def boundQueueLimit : Nat := 8

/-- Entries an unbound queue may hold (R44). -/
def unboundQueueLimit : Nat := 2

/-- Frames the Air Port's transmit queue may hold (R134). -/
def airQueueLimit : Nat := 16

/-- Reports the report queue may hold (R161). -/
def reportQueueLimit : Nat := 8

/-- Where a 16-bit counter saturates (R44, R59, R108, R116, R140, R162). -/
def counterMax : Nat := 65535

/-- Where the run counters and the consecutive-fill count saturate (R1, R116). -/
def runMax : Nat := 255

/-- One whole sample in the units of the pull position and the step (R82). -/
def unit : Nat := 65536

/-- Words of region 0, Identity (R149). -/
def identity : List Nat := [46, 1, 1, 8, 4, 3, 21, 80]

/-- The word counts of the regions 0..14 (R148). -/
def regionWords : List Nat := [8, 64, 32, 25, 25, 64, 4, 17, 48, 9, 35, 24, 4, 15, 8]

/-- All bud numbers, lowest first. -/
def buds : List BudIx := [0, 1, 2, 3, 4, 5, 6, 7]

/-- All listener numbers, lowest first. -/
def listeners : List ListenerIx := [0, 1, 2, 3]

/-- All lane numbers, lowest first. -/
def lanes : List LaneIx := [0, 1, 2]

/-- All bond entries, lowest first. -/
def bondEntries : List (Fin 8) := [0, 1, 2, 3, 4, 5, 6, 7]

/-- All admission windows, lowest first. -/
def windows : List (Fin 4) := [0, 1, 2, 3]

end Sys2Proof.Config

namespace Sys2Proof

/-- The act is a directive taken inside the cadence. -/
def CadenceAct.isCall : CadenceAct → Bool
  | .call _ _ => true
  | .supervise | .countdown | .lanes | .mix | .form | .hold => false

/-- The order written down in the manual's own accounts of a cadence: supervision and the confirm countdown,
then the lanes, then the mix, and an automatic hold last (sections 7.2 and 7.6). It is one order among all. -/
def CadenceOrder.usual : CadenceOrder where
  acts := [.supervise, .countdown, .lanes, .mix, .form, .hold]
  buds := Config.buds
  lanes := Config.lanes

end Sys2Proof
end

