-- ==== Sys2Proof/Decode.lean ====
section
/-! DEFINITION. From bytes on a link to the command they are (R130, R131, R142, R143, R147), and back. The opcode
table gives no bits to any row, so no table word spells a command (log entry 16). -/

namespace Sys2Proof

/-- The command a word spells by the table's bits. No row of spec/opcode_table.json gives bits, so there is none. -/
def decodeTableWord (_nbits _w : Nat) : Option Instr := none

/-! ## Frames -/

/-- A frame whose byte count has been checked: the header's kind, its second and third bytes, and the payload (R130). -/
structure Frame where
  kind : Byte
  second : Byte
  third : Byte
  payload : List Byte
deriving DecidableEq, Repr

/-- Check 1 of R131: at least four bytes, a whole number of bytes (R145), and 4 plus the payload length in all. -/
def splitFrame (bytes : List Byte) (looseBits : Nat) : Option Frame :=
  match bytes with
  | kind :: second :: third :: len :: payload =>
    if looseBits = 0 ∧ payload.length = len.toNat then some ⟨kind, second, third, payload⟩ else none
  | _ => none

/-- The payload length a kind carried inbound on a link requires; `none` for a kind the link does not carry inbound,
`some none` where any length will do (R131, R142). -/
def inboundLength : Link → Nat → Option (Option Nat)
  | .air, 1 => some (some 160)
  | .air, 2 => some (some 0)
  | .air, 3 => some (some 6)
  | .air, 4 => some (some 0)
  | .air, 5 => some (some 0)
  | .air, 6 => some (some 0)
  | .air, 7 => some (some 10)
  | .air, 8 => some (some 0)
  | .voice, 33 => some (some 160)
  | .voice, 34 => some none
  | _, _ => none

/-- Checks 2 to 4 of R131. -/
def Frame.suits (link : Link) (f : Frame) : Bool :=
  (match inboundLength link f.kind.toNat with
    | none => false
    | some none => true
    | some (some n) => f.payload.length == n) &&
  match link with
  | .air => decide (f.second.toNat < 16)
  | .voice => true

/-- The frame, if it passes every check of R131. -/
def checkFrame (link : Link) (bytes : List Byte) (looseBits : Nat) : Option Frame :=
  (splitFrame bytes looseBits).filter (Frame.suits link)

/-! ## Payload fields, low byte first (R130, R143) -/

/-- A byte of a payload. -/
def byteAt (p : List Byte) (i : Nat) : Byte := p.getD i 0

/-- The 80 samples of an audio payload, oldest first. -/
def samplesOf (p : List Byte) : Block := Vector.ofFn fun k => byteAt p (2 * k.val + 1) ++ byteAt p (2 * k.val)

/-- The bytes of a sample, low byte first. -/
def sampleBytes (x : Sample) : List Byte := [x.extractLsb' 0 8, x.extractLsb' 8 8]

/-- The bytes of a block, oldest sample first. -/
def blockBytes (b : Block) : List Byte := b.toList.flatMap sampleBytes

/-- The pair of ADJUST at a place. -/
def adjustAt (p : List Byte) (i : Nat) : AdjustField := ⟨byteAt p (2 * i), byteAt p (2 * i + 1)⟩

/-- The bytes of a pair. -/
def AdjustField.bytes (f : AdjustField) : List Byte := [f.presence, f.value]

/-! ## Commands -/

/-- The handle a well-formed Air Link frame carries. -/
def handleOf (b : Byte) : Handle := Fin.ofNat 16 b.toNat

/-- The command of a directive code (R147). What is arriving on the links as it is taken matters to a RESTART alone. -/
def directiveOf (code seq : Byte) (p : List Byte) (arriving : Arriving) : Instr :=
  match code.toNat with
  | 1 => .point seq p
  | 2 => .read seq p
  | 3 => .write seq p
  | 4 => .mask seq p
  | 5 => .beginCall seq p
  | 6 => .endCall seq p
  | 7 => .hold seq p
  | 8 => .resume seq p
  | 9 => .swap seq p
  | 10 => .openAdmission seq p
  | 11 => .closeAdmission seq p
  | 12 => .evict seq p
  | 13 => .bond seq p
  | 14 => .storePage seq p
  | 15 => .erasePage seq p
  | 16 => .loadPage seq p
  | 17 => .clearCounters seq p
  | 18 => .status seq p
  | 19 => .restart seq p arriving
  | _ => .directiveUnknown code seq p

/-- The command of an Air Link frame that has passed R131 (R132, R142). Kind 8 is the last the link carries inbound. -/
def airCommand (f : Frame) : Instr :=
  let h := handleOf f.second
  match f.kind.toNat with
  | 1 => .audio h f.third (samplesOf f.payload)
  | 2 => .silence h f.third
  | 3 =>
    .join h f.third (byteAt f.payload 2 ++ byteAt f.payload 1 ++ byteAt f.payload 0)
      (byteAt f.payload 4 ++ byteAt f.payload 3) (byteAt f.payload 5)
  | 4 => .confirm h f.third
  | 5 => .leave h f.third
  | 6 => .park h f.third
  | 7 =>
    .adjust h f.third
      { volume := adjustAt f.payload 0, sidetone := adjustAt f.payload 1, mute := adjustAt f.payload 2,
        micGain := adjustAt f.payload 3, priority := adjustAt f.payload 4 }
  | _ => .handleDropped h f.third

/-- The command of a Voice Link frame that has passed R131 (R133, R142). -/
def voiceCommand (order : CadenceOrder) (arriving : Arriving) (f : Frame) : Instr :=
  if f.kind.toNat = 33 then .farVoice f.second f.third (samplesOf f.payload) order
  else directiveOf f.second f.third f.payload arriving

/-- What a port makes of the bytes of a frame, its end received (R130 to R133). A frame that fails a check is the
command FRAME_MALFORMED. The cadence order of a voice frame (log entry 1) and what else is arriving as a RESTART is taken
(log entry 12) are not in the frame. -/
def receive (link : Link) (order : CadenceOrder) (arriving : Arriving) (bytes : List Byte) (looseBits : Nat) : Instr :=
  match checkFrame link bytes looseBits with
  | none => .frameMalformed link bytes looseBits
  | some f =>
    match link with
    | .air => airCommand f
    | .voice => voiceCommand order arriving f

/-! ## The encoder -/

/-- A frame's bytes: the 4-byte header and the payload (R130). -/
def frameBytes (kind : Nat) (second third : Byte) (payload : List Byte) : List Byte :=
  [BitVec.ofNat 8 kind, second, third, BitVec.ofNat 8 payload.length] ++ payload

/-- An Air Link frame. -/
def airBytes (kind : Nat) (h : Handle) (third : Byte) (payload : List Byte) : Option (Link × List Byte × Nat) :=
  some (.air, frameBytes kind (BitVec.ofNat 8 h.val) third payload, 0)

/-- A DIRECTIVE frame. -/
def directiveBytes (code : Nat) (seq : Byte) (payload : List Byte) : Option (Link × List Byte × Nat) :=
  some (.voice, frameBytes 34 (BitVec.ofNat 8 code) seq payload, 0)

/-- The link, the bytes and the bits beyond a whole number of bytes of the frame that a command is; none for a command
that is an event and no frame. -/
def frameOf : Instr → Option (Link × List Byte × Nat)
  | .audio h seq samples => airBytes 1 h seq (blockBytes samples)
  | .silence h seq => airBytes 2 h seq []
  | .join h seq addr tag role =>
    airBytes 3 h seq
      [addr.extractLsb' 0 8, addr.extractLsb' 8 8, addr.extractLsb' 16 8, tag.extractLsb' 0 8, tag.extractLsb' 8 8, role]
  | .confirm h seq => airBytes 4 h seq []
  | .leave h seq => airBytes 5 h seq []
  | .park h seq => airBytes 6 h seq []
  | .adjust h seq f =>
    airBytes 7 h seq
      (f.volume.bytes ++ f.sidetone.bytes ++ f.mute.bytes ++ f.micGain.bytes ++ f.priority.bytes)
  | .handleDropped h seq => airBytes 8 h seq []
  | .farVoice b2 b3 samples _ => some (.voice, frameBytes 33 b2 b3 (blockBytes samples), 0)
  | .frameMalformed link bytes loose => some (link, bytes, loose)
  | .directiveUnknown code seq p => some (.voice, frameBytes 34 code seq p, 0)
  | .point seq p => directiveBytes 1 seq p
  | .read seq p => directiveBytes 2 seq p
  | .write seq p => directiveBytes 3 seq p
  | .mask seq p => directiveBytes 4 seq p
  | .beginCall seq p => directiveBytes 5 seq p
  | .endCall seq p => directiveBytes 6 seq p
  | .hold seq p => directiveBytes 7 seq p
  | .resume seq p => directiveBytes 8 seq p
  | .swap seq p => directiveBytes 9 seq p
  | .openAdmission seq p => directiveBytes 10 seq p
  | .closeAdmission seq p => directiveBytes 11 seq p
  | .evict seq p => directiveBytes 12 seq p
  | .bond seq p => directiveBytes 13 seq p
  | .storePage seq p => directiveBytes 14 seq p
  | .erasePage seq p => directiveBytes 15 seq p
  | .loadPage seq p => directiveBytes 16 seq p
  | .clearCounters seq p => directiveBytes 17 seq p
  | .status seq p => directiveBytes 18 seq p
  | .restart seq p _ => directiveBytes 19 seq p
  | .cadenceTimerExpiry _ => none
  | .fillTimeout _ => none
  | .confirmTimeout => none
  | .noArrivals _ => none
  | .swapTaken => none
  | .promotion _ => none
  | .drainLastPull _ => none
  | .reservationComplete _ => none
  | .waitListGrant _ => none
  | .moveIntoRing _ => none
  | .operationCompletion _ => none
  | .deferredRestartTaken _ => none
  | .powerUp => none
  | .powerRemoval => none
  | .airFrameSent => none
  | .voiceFrameSent => none
  | .holdOffReleased _ => none
  | .holdOffAsserted _ => none
  | .frameBegunWhileClosed _ => none

/-- The order a command carries, the usual one where it carries none. -/
def Instr.order : Instr → CadenceOrder
  | .farVoice _ _ _ o | .cadenceTimerExpiry o | .fillTimeout o => o
  | _ => .usual

/-- What is arriving as a command is taken, nothing where the command does not carry it. -/
def Instr.arriving : Instr → Arriving
  | .restart _ _ a | .operationCompletion a | .deferredRestartTaken a => a
  | _ => .none

end Sys2Proof
end

