-- ==== Sys2Proof/Machine/Types.lean ====
section
/-! DEFINITION. The records of the bridge's blocks, as plain data. Each block owns its state
(00_scope.md section 3). -/

namespace Sys2Proof.Machine

/-! ## Roster (01_buds_and_listeners.md) -/

/-- Link state of a bud (R1, section 1.2). -/
inductive LinkState where
  | free | offered | joining | live | fading | parked
deriving DecidableEq, Repr

/-- Role presented in JOIN (R1). -/
inductive Role where
  | left | right | mono
deriving DecidableEq, Repr

/-- Talk state (R1, R9). -/
inductive Talk where
  | silent | talking
deriving DecidableEq, Repr

/-- A bud record (R1). The default of each field is its value when FREE. -/
structure Bud where
  link : LinkState := .free
  handle : Option Handle := none
  addr : Address := 0
  setTag : Word := 0
  role : Role := .left
  listener : Option ListenerIx := none
  goodRun : Nat := 0
  missRun : Nat := 0
  arrival : Bool := false
  talk : Talk := .silent
  silenceRun : Nat := 0
  dlSeq : Byte := 0
  bonded : Bool := false
deriving DecidableEq, Repr

/-- A listener record (R12). The primary stale flag is derived: `Listener.stale`. -/
structure Listener where
  inUse : Bool
  setTag : Word
  members : List BudIx
  primary : Option BudIx
  priority : Fin 4
  volume : GainIx
  sidetone : GainIx
  micGain : GainIx
  mute : Bool
  budControls : Bool
deriving DecidableEq, Repr

/-- The listener defaults (R12). -/
structure ListenerDefaults where
  volume : GainIx
  sidetone : GainIx
  micGain : GainIx
  mute : Bool
  budControls : Bool
deriving DecidableEq, Repr

/-- The Roster: Bud Table, Listener Table and listener defaults. -/
structure Roster where
  buds : Vector Bud 8
  listeners : Vector Listener 4
  defaults : ListenerDefaults
deriving DecidableEq, Repr

/-! ## Pairing Unit (02_pairing.md) -/

/-- The busy pairing context (R24); an empty context is `none`. -/
structure Context where
  handle : Handle
  bud : BudIx
  listener : ListenerIx
  created : Bool
  countdown : Nat
deriving DecidableEq, Repr

/-- An admission window (R25). -/
structure Window where
  enable : Bool := false
  base : Address := 0
  compareLength : Fin 25 := 24
deriving DecidableEq, Repr

/-- A bond entry (R27). -/
structure BondEntry where
  inUse : Bool := false
  addr : Address := 0
  setTag : Word := 0
  role : Role := .left
  priority : Fin 4 := 0
deriving DecidableEq, Repr

/-- The Pairing Unit. -/
structure Pairing where
  context : Option Context
  windows : Vector Window 4
  bonds : Vector BondEntry 8
  admissionOpen : Bool
deriving DecidableEq, Repr

/-! ## Intake (03_receive_queues.md) -/

/-- Kind and samples of a queue entry (R44). -/
inductive Body where
  | audio (samples : Block)
  | silence
deriving DecidableEq, Repr

/-- A queue entry (R44). -/
structure Entry where
  seq : Byte
  body : Body
deriving DecidableEq, Repr

/-- The three discard counters of a bud number (R44). -/
structure Discards where
  late : Nat := 0
  duplicate : Nat := 0
  overflow : Nat := 0
deriving DecidableEq, Repr

/-- Intake: a receive queue and three counters for each bud number. An unbound queue is in arrival order,
oldest first; a bound one in distance order, nearest first (R46). -/
structure Intake where
  queues : Vector (List Entry) 8
  discards : Vector Discards 8
deriving DecidableEq, Repr

/-! ## Lane Unit and Aligner (04_talk_lanes.md, 05_rate_alignment_and_concealment.md) -/

/-- Lane states (R58). -/
inductive LaneState where
  | vacant | priming | mixing | draining
deriving DecidableEq, Repr

/-- A talk lane record (R58). The default of each field is its value when VACANT. -/
structure Lane where
  state : LaneState := .vacant
  bud : Option BudIx := none
  listener : Option ListenerIx := none
  reservedFor : Option ListenerIx := none
  ring : List Sample := []
  position : Nat := 0
  step : Nat := 65536
  filter : Int := 0
  expected : Option Byte := none
  lastGood : Block := Vector.replicate 80 0
  concealCount : Nat := 0
  rampIn : Bool := false
  slips : Nat := 0
  conceals : Nat := 0
deriving DecidableEq, Repr

/-- A wait-list entry (R68). `denied` says whether the entry has been the subject of a LANE DENIED
(R67, R79). -/
structure WaitEntry where
  listener : ListenerIx
  bud : BudIx
  order : Nat
  denied : Bool
deriving DecidableEq, Repr

/-- One lane's 80 output samples for one cadence, with the listener column they belong to (R72, R83). -/
structure Contribution where
  listener : ListenerIx
  samples : List Int
deriving DecidableEq, Repr

/-- What the Lane Unit hands the Mix Engine for a cadence: the contributions and the MIXING count (R72). -/
structure Handover where
  contributions : List Contribution := []
  mixing : Nat := 0
deriving DecidableEq, Repr

/-- The Lane Unit. -/
structure LaneUnit where
  lanes : Vector Lane 3
  waitList : List WaitEntry
  evictPtr : LaneIx
  speaking : Vector (Option BudIx) 4
  handover : Handover
deriving DecidableEq, Repr

/-! ## Mix Engine (06_the_mix.md) -/

/-- The Mix Engine (R98 to R109). Cells are in row order UP, DN1..DN4 and in each row FAR, L1..L4. -/
structure Mix where
  staging : Vector GainIx 25
  active : Vector GainIx 25
  swapPending : Bool
  curve : Vector Gain 64
  openMic : Vector Gain 4
  clips : Vector Nat 5
  uplinkSeq : Byte
deriving DecidableEq, Repr

/-! ## Call Controller (07_call_control_and_cadence.md) -/

/-- Hold cause (R116). -/
inductive HoldCause where
  | directed | auto
deriving DecidableEq, Repr

/-- Call state with its hold cause (R116). -/
inductive CallState where
  | noCall | inCall | holding (cause : HoldCause)
deriving DecidableEq, Repr

/-- The interval the cadence timer was last armed for (R116): 5 ms or 7.5 ms. -/
inductive TimerInterval where
  | ms5 | ms7_5
deriving DecidableEq, Repr

/-- The Call Controller (R116). The timer is `none` only while the bridge has no power (R129, R164). -/
structure CallCtl where
  state : CallState
  timer : Option TimerInterval
  fills : Nat
  fillTotal : Nat
  discardedVoice : Nat
deriving DecidableEq, Repr

/-- The kinds of cadence (R117, R118). -/
inductive CadenceKind where
  | voice | fill | idle
deriving DecidableEq, Repr

/-- Causes of a change of call state (R126). -/
inductive ChangeCause where
  | beginCall | endCall | hold | resume | fillTimeout | voiceReturned
deriving DecidableEq, Repr

/-! ## Frames and reports (08_frame_links.md) -/

/-- Reasons of REFUSE (R143). -/
inductive RefuseReason where
  | notAdmitted | roleTaken | full | noOffer
deriving DecidableEq, Repr

/-- Outbound Air Link frames (R142, R143). Mic gain and priority are never applied by an ADJUST (R21), so
their pairs in the reply are always 0 and are not held. -/
inductive AirFrame where
  | downlinkAudio (handle : Handle) (seq : Byte) (samples : Block)
  | downlinkSilence (handle : Handle) (seq : Byte)
  | offer (handle : Handle) (seq : Byte) (bud : BudIx) (listener : Option ListenerIx)
  | defer (handle : Handle) (seq : Byte) (interval : Nat)
  | refuse (handle : Handle) (seq : Byte) (reason : RefuseReason)
  | dismiss (handle : Handle) (bud : BudIx)
  | adjustReply (handle : Handle) (seq : Byte) (listener : Option ListenerIx)
      (volume : Option GainIx) (sidetone : Option GainIx) (mute : Option Bool)
deriving DecidableEq, Repr

/-- Refusal reasons of REFUSED (R144). -/
inductive RefusedReason where
  | unknown | format | range | fixed | protection | state | busy | full
deriving DecidableEq, Repr

/-- Start causes of READY (R144). -/
inductive StartCause where
  | powerUp | restart
deriving DecidableEq, Repr

/-- Store operations as reports name them (R144). -/
inductive StoreOp where
  | store | erase
deriving DecidableEq, Repr

/-- Causes of freeing a bud (R8). -/
inductive FreeCause where
  | leave | handleReused | noArrivals | handleDropped | evict | confirmTimeout
deriving DecidableEq, Repr

/-- Causes of LANE DENIED (R67). -/
inductive DeniedCause where
  | noLane | preempted
deriving DecidableEq, Repr

/-- What a freeing's report carries (R19). -/
structure Departure where
  bud : BudIx
  listener : Option ListenerIx
  addr : Address
  bonded : Bool
  cause : FreeCause
deriving DecidableEq, Repr

/-- Bodies of replies (R144, R147). -/
inductive Reply where
  | done
  | refused (reason : RefusedReason)
  | data (region : RegionIx) (start : Nat) (words : List Word)
  | status (words : List Word)
deriving DecidableEq, Repr

/-- Event reports (R144, R161). LEFT, LOST, EVICTED and JOIN TIMEOUT are `departed`, told apart by the
cause as R19's table gives. -/
inductive Event where
  | ready (cause : StartCause)
  | joined (bud : BudIx) (listener : ListenerIx) (addr : Address) (bonded : Bool) (created : Bool)
  | departed (what : Departure)
  | laneDenied (listener : ListenerIx) (bud : Option BudIx) (priority : Fin 4) (cause : DeniedCause)
  | callState (new : CallState) (previous : CallState) (cause : ChangeCause)
  | storeDone (page : PageIx) (op : StoreOp)
  | restartDeferred (page : PageIx) (op : StoreOp)
deriving DecidableEq, Repr

/-- A report: a reply, with the directive's code and sequence byte, or an event report (R161). -/
inductive Report where
  | reply (code : Byte) (seq : Byte) (body : Reply)
  | event (what : Event)
deriving DecidableEq, Repr

/-- An uplink voice frame (R109). -/
structure UplinkFrame where
  seq : Byte
  samples : Block
deriving DecidableEq, Repr

/-- What the Voice Port's transmitter sends: an uplink frame, or a report with its events-lost mark (R139). -/
inductive VoiceFrame where
  | uplink (frame : UplinkFrame)
  | report (body : Report) (eventsLost : Bool)
deriving DecidableEq, Repr

/-- The Air Port (R134 to R141). `sending` is the frame on the link; `none` is an idle transmitter. `cut` says that a
frame whose beginning arrived before the port closed has still to end (R141). -/
structure AirPort where
  isOpen : Bool
  cut : Bool
  queue : List AirFrame
  sending : Option AirFrame
  holdOff : Bool
  malformed : Nat
  stray : Nat
  drops : Nat
deriving DecidableEq, Repr

/-- The Voice Port (R138 to R141); `cut` as at the Air Port. -/
structure VoicePort where
  isOpen : Bool
  cut : Bool
  slot : Option UplinkFrame
  sending : Option VoiceFrame
  holdOff : Bool
  malformed : Nat
deriving DecidableEq, Repr

/-! ## Directive Unit (09_directives_and_the_table_space.md) -/

/-- Protection modes (R149, R156). -/
inductive Mode where
  | opened | readOnly | hidden
deriving DecidableEq, Repr

/-- The nine settings (R154). -/
structure Settings where
  joinThreshold : Nat
  fadeThreshold : Nat
  lostThreshold : Nat
  hangover : Nat
  targetDepth : Nat
  confirmTimeout : Nat
  deferInterval : Nat
  autoHold : Nat
  defaultPriority : Nat
deriving DecidableEq, Repr

/-- The Directive Unit: table pointer (region, index), pending mask, protection modes (regions 0..12, then
region 14, as the words of region 13), lock, settings, and the report queue with its loss indication. -/
structure DirectiveUnit where
  region : RegionIx
  index : Nat
  mask : Option Word
  modes : Vector Mode 14
  lock : Bool
  settings : Settings
  reports : List Report
  lossIndication : Bool
  reportsLost : Nat
deriving DecidableEq, Repr

/-! ## Store Controller (10_profile_store_and_start_up.md) -/

/-- State of the Store Controller, with the page in flight and the captured image (R168). -/
inductive StoreState where
  | idle
  | programming (page : PageIx) (image : Page)
  | erasing (page : PageIx)
deriving DecidableEq, Repr

/-- The profile store and the Store Controller. A blank page is `none` (R164, R168). -/
structure Store where
  pages : Vector (Option Page) 21
  state : StoreState
  restartPending : Bool
  staging : Page
deriving DecidableEq, Repr

/-- What the 21 pages say of the tables, once clamped (R165, R166). -/
structure Tables where
  modes : Vector Mode 14
  lock : Bool
  windows : Vector Window 4
  bonds : Vector BondEntry 8
  curve : Vector Gain 64
  openMic : Vector Gain 4
  defaults : ListenerDefaults
  settings : Settings
  mix : Vector GainIx 25
deriving DecidableEq, Repr

end Sys2Proof.Machine
end

