-- ==== Sys2Proof/Machine/Ops.lean ====
section
/-! DEFINITION. The numeric conventions (00_scope.md section 6) and the small operations every block shares. -/

namespace Sys2Proof.Machine

/-- Applying gain `g` to `x`: floor((x·g + 16,384) / 32,768) (00_scope.md, Gains). -/
def scale (x : Int) (g : Nat) : Int := (x * (g : Int) + 16384) / 32768

/-- The nearer bound for a value outside `lo..hi` (00_scope.md, Clamping). -/
def clampNat (lo hi n : Nat) : Nat := if n < lo then lo else if hi < n then hi else n

/-- The same for integers. -/
def clampInt (lo hi n : Int) : Int := if n < lo then lo else if hi < n then hi else n

/-- A gain index from a written value: clamps to 0..63 (R153). -/
def clampIndex (n : Nat) : GainIx := ⟨min n 63, by omega⟩

/-- A gain from a written value: clamps to 0..32,768 (R102, R103). -/
def clampGain (n : Nat) : Gain := ⟨min n 32768, by omega⟩

/-- A listener or bond priority from a written value: clamps to 0..3 (R16, R27). -/
def clampPriority (n : Nat) : Fin 4 := ⟨min n 3, by omega⟩

/-- A compare length from a written value: clamps to 0..24 (R25). -/
def clampLength (n : Nat) : Fin 25 := ⟨min n 24, by omega⟩

/-- A counter rises by 1 and saturates at `top` (00_scope.md, Saturation). -/
def satInc (top n : Nat) : Nat := min (n + 1) top

/-- The distance of sequence `s` ahead of the expected sequence `e`: (s − e) mod 256 (R46). -/
def distance (s e : Byte) : Nat := (s - e).toNat

/-- The value of a sample. -/
def sampleInt (x : Sample) : Int := x.toInt

/-- The sample whose value is `n`, for `n` in −32,768..32,767. -/
def sampleOf (n : Int) : Sample := BitVec.ofInt 16 n

/-- An output sample saturates to −32,768..32,767 (R108). -/
def saturate (n : Int) : Sample := sampleOf (clampInt (-32768) 32767 n)

/-- Whether saturation replaces the value (R108). -/
def isClipped (n : Int) : Bool := n < -32768 || 32767 < n

/-- The block of 80 zeros. -/
def zeroBlock : Block := Vector.replicate 80 0

/-- The block whose k-th sample is `f` of the k-th value of a list, missing values taken as 0. -/
def blockOf (f : Int → Sample) (values : List Int) : Block := Vector.ofFn fun k => f (values.getD k.val 0)

/-- The samples of a block as integers. -/
def blockInts (b : Block) : List Int := b.toList.map sampleInt

/-- The high part (bits 23..16) of an air address (R149). -/
def addressHigh (a : Address) : Byte := a.extractLsb' 16 8

/-- The low part (bits 15..0) of an air address (R149). -/
def addressLow (a : Address) : Word := a.extractLsb' 0 16

/-- An air address from its high and low parts. -/
def addressOf (high : Byte) (low : Word) : Address := high ++ low

/-- The word with `low` in its low byte and `high` in its high byte (R149). -/
def wordOf (low high : Byte) : Word := high ++ low

/-- Low byte of a word. -/
def lowByte (w : Word) : Byte := w.extractLsb' 0 8

/-- High byte of a word. -/
def highByte (w : Word) : Byte := w.extractLsb' 8 8

/-- Replaces one entry of a table by a function of itself. -/
def update {α : Type} {n : Nat} (v : Vector α n) (i : Fin n) (f : α → α) : Vector α n := v.set i (f v[i])

/-- Takes the first element that satisfies `p` out of a list. -/
def takeFirst {α : Type} (p : α → Bool) : List α → Option (α × List α)
  | [] => none
  | x :: xs => if p x then some (x, xs) else (takeFirst p xs).map fun r => (r.1, x :: r.2)

/-- `all` in the order a preference list asks for, what it does not name following in `all`'s own order. For
a preference list with every element of `all` once, it is that list. -/
def visitOrder {α : Type} [DecidableEq α] : List α → List α → List α
  | [], all => all
  | x :: xs, all => if x ∈ all then x :: visitOrder xs (all.erase x) else visitOrder xs all

/-- Lane fields at their VACANT values, the two counters kept (R58). -/
def Lane.cleared (l : Lane) : Lane := { slips := l.slips, conceals := l.conceals }

/-- A lane in PRIMING or MIXING carries a talker (R46, R63). -/
def Lane.carries (l : Lane) : Bool := l.state == .priming || l.state == .mixing

/-- The primary stale flag: the primary is not 0 and is not a member (R15). -/
def Listener.stale (l : Listener) : Bool :=
  match l.primary with
  | none => false
  | some b => !(l.members.contains b)

/-- Link states the Roster supervises, and to which downlink frames go (R6, R110). -/
def LinkState.supervised : LinkState → Bool
  | .joining | .live | .fading => true
  | .free | .offered | .parked => false

/-- A listener record not in use (R12). -/
def Listener.unused (d : ListenerDefaults) (priority : Nat) : Listener where
  inUse := false
  setTag := 0
  members := []
  primary := none
  priority := clampPriority priority
  volume := d.volume
  sidetone := d.sidetone
  micGain := d.micGain
  mute := d.mute
  budControls := d.budControls

end Sys2Proof.Machine
end

