-- ==== Sys2Proof/Machine/Defaults.lean ====
section
/-! DEFINITION. The built-in defaults (R12, R43, R98, R102, R103, R154, R163, R166). -/

namespace Sys2Proof.Machine

/-- The built-in gain curve entry at index `i` (R102). -/
def defaultGain (i : Nat) : Gain :=
  if i = 0 then 0
  else clampGain ((32768 / 2 ^ ((63 - i) / 8)) * (16 - (63 - i) % 8) / 16)

/-- The built-in default gain curve (R102). -/
def defaultCurve : Vector Gain 64 := Vector.ofFn fun i => defaultGain i.val

/-- The fixed cells (UP, FAR) and (DNk, Lk) of the mix table (R99). A cell's index is 5 × row + column. -/
def fixedCell (i : Nat) : Bool := i / 5 == i % 5

/-- The default mix table (R98). -/
def defaultCell (i : Nat) : GainIx :=
  if fixedCell i then 0 else if i / 5 = 0 ∨ i % 5 = 0 then 63 else 55

/-- The default mix table, 25 cells (R98). -/
def defaultMix : Vector GainIx 25 := Vector.ofFn fun i => defaultCell i.val

/-- The built-in open-mic gains (R103). -/
def defaultOpenMic : Vector Gain 4 := #v[32768, 32768, 23170, 18919]

/-- The built-in listener defaults 63, 20, 63, off and yes (R12). -/
def builtInListener : ListenerDefaults where
  volume := 63
  sidetone := 20
  micGain := 63
  mute := false
  budControls := true

/-- The range of each setting, in the word order of region 9 (R154). -/
def settingRange (i : Nat) : Nat × Nat :=
  [(1, 32), (1, 16), (20, 255), (4, 255), (80, 240), (4, 100), (1, 255), (8, 255), (0, 3)].getD i (0, 0)

/-- A setting loaded or written outside its range takes the nearer bound (R154). -/
def clampSetting (i n : Nat) : Nat := clampNat (settingRange i).1 (settingRange i).2 n

/-- The defaults of the settings (R154). -/
def defaultSettings : Settings where
  joinThreshold := 4
  fadeThreshold := 2
  lostThreshold := 200
  hangover := 40
  targetDepth := 160
  confirmTimeout := 20
  deferInterval := 10
  autoHold := 40
  defaultPriority := 1

/-- The tables of a store whose pages are all blank (R166). -/
def builtInTables : Tables where
  modes := Vector.replicate 14 .opened
  lock := false
  windows := Vector.replicate 4 {}
  bonds := Vector.replicate 8 {}
  curve := defaultCurve
  openMic := defaultOpenMic
  defaults := builtInListener
  settings := defaultSettings
  mix := defaultMix

/-- The staging page after start-up: 16 bytes of 255 (R168). -/
def blankImage : Page := Vector.replicate 16 255

/-- The Roster after start-up (R23). -/
def Roster.start (t : Tables) : Roster where
  buds := Vector.replicate 8 {}
  listeners := Vector.replicate 4 (Listener.unused t.defaults t.settings.defaultPriority)
  defaults := t.defaults

/-- The Pairing Unit after start-up (R43). -/
def Pairing.start (t : Tables) : Pairing where
  context := none
  windows := t.windows
  bonds := t.bonds
  admissionOpen := false

/-- Intake after start-up (R57). -/
def Intake.start : Intake where
  queues := Vector.replicate 8 []
  discards := Vector.replicate 8 {}

/-- The Lane Unit after start-up (R80). -/
def LaneUnit.start : LaneUnit where
  lanes := Vector.replicate 3 {}
  waitList := []
  evictPtr := 0
  speaking := Vector.replicate 4 none
  handover := {}

/-- The Mix Engine after start-up (R115). -/
def Mix.start (t : Tables) : Mix where
  staging := t.mix
  active := t.mix
  swapPending := false
  curve := t.curve
  openMic := t.openMic
  clips := Vector.replicate 5 0
  uplinkSeq := 0

/-- The Call Controller's volatile reset (R129). The timer is armed when READY is posted. -/
def CallCtl.start (timer : Option TimerInterval) : CallCtl where
  state := .noCall
  timer := timer
  fills := 0
  fillTotal := 0
  discardedVoice := 0

/-- The Directive Unit's volatile reset (R163), the report queue still empty. -/
def DirectiveUnit.start (t : Tables) : DirectiveUnit where
  region := 0
  index := 0
  mask := none
  modes := t.modes
  lock := t.lock
  settings := t.settings
  reports := []
  lossIndication := false
  reportsLost := 0

end Sys2Proof.Machine
end

