-- ==== Sys2Proof/Machine/State.lean ====
section
/-! DEFINITION. The state of the bridge: one field per block of 00_scope.md section 3 (the Aligner's state is
in the lane records, R58), and the queue of commands that wait. Also the reasons a step can stop. -/

namespace Sys2Proof.Machine

/-- The bridge. -/
structure State where
  roster : Roster
  pairing : Pairing
  intake : Intake
  laneUnit : LaneUnit
  mix : Mix
  callCtl : CallCtl
  airPort : AirPort
  voicePort : VoicePort
  directives : DirectiveUnit
  store : Store
  /-- The commands that wait, first in, first out: the model's own field. -/
  pending : List Instr
deriving DecidableEq, Repr

/-- No command of the LKP-46 stops the bridge: every rule gives a next state, so there is no fault. -/
inductive Fault where
deriving DecidableEq, Repr

/-- Refusals. -/
inductive Refusal where
  /-- Raised by exec's arm for a command that has no meaning yet; no arm raises it now. Safe. -/
  | notModelled (mnemonic : String)
deriving DecidableEq, Repr

/-- READY with its start cause (R174). -/
def readyReport (cause : StartCause) : Report := .event (.ready cause)

/-- The bridge right after power-up with every page of the store blank (R23, R43, R57, R80, R115, R129, R163,
R168). READY was the only report in the queue; the idle transmitter has chosen it (R139), so it is being sent
(log entry 4). -/
def State.reset : State where
  roster := Roster.start builtInTables
  pairing := Pairing.start builtInTables
  intake := Intake.start
  laneUnit := LaneUnit.start
  mix := Mix.start builtInTables
  callCtl := CallCtl.start (some .ms5)
  airPort :=
    { isOpen := true, cut := false, queue := [], sending := none, holdOff := false, malformed := 0, stray := 0,
      drops := 0 }
  voicePort :=
    { isOpen := true, cut := false, slot := none, sending := some (.report (readyReport .powerUp) false),
      holdOff := false, malformed := 0 }
  directives := DirectiveUnit.start builtInTables
  store :=
    { pages := Vector.replicate 21 none, state := .idle, restartPending := false, staging := blankImage }
  pending := []

end Sys2Proof.Machine
end

