-- ==== Sys2Proof/Machine/Aligner.lean ====
section
/-! DEFINITION. Intake's work on a lane and its bud's queue, and the Aligner
(03_receive_queues.md; 05_rate_alignment_and_concealment.md). -/

namespace Sys2Proof.Machine

/-- A lane with the queue and the discard counters of the bud that feeds it: what Intake and the Aligner
change together (R46, R54). -/
structure Feed where
  lane : Lane
  queue : List Entry
  discards : Discards
deriving DecidableEq, Repr

/-- A late discard is counted (R44). -/
def Discards.addLate (d : Discards) : Discards := { d with late := satInc Config.counterMax d.late }

/-- A duplicate discard is counted (R44). -/
def Discards.addDuplicate (d : Discards) : Discards :=
  { d with duplicate := satInc Config.counterMax d.duplicate }

/-- An overflow discard is counted (R44). -/
def Discards.addOverflow (d : Discards) : Discards :=
  { d with overflow := satInc Config.counterMax d.overflow }

/-- The newest `n` entries of a queue in arrival order, or the farthest `n` of one in distance order. -/
def keepLast (n : Nat) (q : List Entry) : List Entry := q.drop (q.length - n)

/-- The expected sequence advances by 1, modulo 256 (R49, R51, R85). -/
def Lane.advanceExpected (l : Lane) : Lane := { l with expected := l.expected.map (· + 1) }

/-! ## Movement into the ring (R51) -/

/-- An entry is due when its distance is 0 (R46). -/
def Lane.isDue (l : Lane) (e : Entry) : Bool := l.expected == some e.seq

/-- Steps 2 to 4 of a move (R51). -/
def Lane.takeBlock (l : Lane) (e : Entry) : Lane :=
  match e.body with
  | .audio b => { l.advanceExpected with ring := l.ring ++ b.toList, lastGood := b, concealCount := 0 }
  | .silence => { l.advanceExpected with ring := l.ring ++ zeroBlock.toList, lastGood := zeroBlock }

/-- Intake moves due heads while the ring has room (R51). -/
def moveDue : List Entry → Lane → List Entry × Lane
  | [], l => ([], l)
  | e :: q, l =>
    if l.isDue e && decide (l.ring.length ≤ Config.ringRoom) then moveDue q (l.takeBlock e) else (e :: q, l)

/-- Intake's test for movement on a bound queue (R51). -/
def Feed.move (f : Feed) : Feed :=
  let r := moveDue f.queue f.lane
  { f with queue := r.1, lane := r.2 }

/-! ## Arrivals (R47 to R50) -/

/-- An arrival for an unbound bud (R47). -/
def queueUnbound (e : Entry) (q : List Entry) (d : Discards) : List Entry × Discards :=
  if q.any (·.seq == e.seq) then (q, d.addDuplicate)
  else (keepLast Config.unboundQueueLimit (q ++ [e]), d)

/-- Places an entry in distance order against expected sequence `x`: after every entry nearer than it (R48). -/
def insertByDistance (x : Byte) (e : Entry) : List Entry → List Entry
  | [] => [e]
  | a :: q => if distance a.seq x < distance e.seq x then a :: insertByDistance x e q else e :: a :: q

/-- Room is made in a full bound queue by removing its head: a slip when it is due, an overflow otherwise
(R49). -/
def Feed.makeRoom (f : Feed) : Feed :=
  match f.queue with
  | [] => f
  | h :: q =>
    if f.lane.isDue h then
      { f with
        queue := q
        lane := { f.lane.advanceExpected with slips := satInc Config.counterMax f.lane.slips } }
    else { f with queue := q, discards := f.discards.addOverflow }

/-- Step 4 of R48: the arrival is put at its place, and Intake moves what it can. -/
def Feed.place (f : Feed) (e : Entry) : Feed :=
  match f.lane.expected with
  | some x => { f with queue := insertByDistance x e f.queue }.move
  | none => f

/-- An arrival for a bound bud (R48, R49, R50). -/
def Feed.arrive (f : Feed) (e : Entry) : Feed :=
  match f.lane.expected with
  | none => { f with lane := { f.lane with expected := some e.seq }, queue := [e] }.move
  | some x =>
    if 128 ≤ distance e.seq x then { f with discards := f.discards.addLate }
    else if f.queue.any (·.seq == e.seq) then { f with discards := f.discards.addDuplicate }
    else if Config.boundQueueLimit ≤ f.queue.length then f.makeRoom.place e
    else f.place e

/-! ## Binding and depth (R52, R55) -/

/-- Intake prepares a bud's queue for a lane that has just been emptied (R52). A newer entry at distance 128..255 counts
as a late discard whatever brought the binding, the grants of a RESUME among it, though R57 says that RESUME does not change
the discard counters: the model's choice (log entry 17). -/
def Feed.prepare (f : Feed) : Feed :=
  match keepLast Config.unboundQueueLimit f.queue with
  | [] => { f with queue := [] }
  | older :: newer =>
    let x := older.seq
    let keep := newer.filter fun e => distance e.seq x < 128
    let d := (newer.filter fun e => !decide (distance e.seq x < 128)).foldl (fun d _ => d.addLate) f.discards
    { queue := older :: keep, discards := d, lane := { f.lane with expected := some x } : Feed }.move

/-- How many queued entries stand at distances 0, 1, 2 … from `x` without a gap (R55). -/
def runFrom (x : Byte) : List Entry → Nat
  | [] => 0
  | e :: q => if e.seq = x then runFrom (x + 1) q + 1 else 0

/-- The contiguous run of the bud's queue (R55). -/
def Feed.run (f : Feed) : Nat :=
  match f.lane.expected with
  | some x => runFrom x f.queue
  | none => 0

/-- Ring samples plus 80 for each block of the contiguous run: the priming depth (R71), and the depth D of R90
once the advance has left the pull position below one whole sample. -/
def Feed.depth (f : Feed) : Nat := f.lane.ring.length - f.lane.position / Config.unit + 80 * f.run

/-! ## The pull (R83 to R89) -/

/-- The need N (R84). -/
def need (p s : Nat) : Nat := (p + 79 * s) / Config.unit + 2

/-- The gain of a concealment block for the conceal count before it (R85). -/
def concealGain : Nat → Nat
  | 0 => 16384
  | 1 => 8192
  | _ => 0

/-- The concealment block made from the last good block (R85). -/
def concealBlock (count : Nat) (good : Block) : Block :=
  good.map fun x => sampleOf (scale (sampleInt x) (concealGain count))

/-- One concealment block is appended; a queued head driven past distance 0 is discarded as late (R85, R54). -/
def Feed.conceal (f : Feed) : Feed :=
  let l := f.lane
  let lane :=
    { l.advanceExpected with
      ring := l.ring ++ (concealBlock l.concealCount l.lastGood).toList
      concealCount := min (l.concealCount + 1) 2
      conceals := satInc Config.counterMax l.conceals }
  match f.queue with
  | [] => { f with lane := lane }
  | h :: q =>
    if l.isDue h then { lane := lane, queue := q, discards := f.discards.addLate }
    else { f with lane := lane }

/-- Stage 2: concealment until the ring holds `n` samples; no pull appends more than two blocks (R86). -/
def Feed.concealTo (f : Feed) (n : Nat) : Feed :=
  if n ≤ f.lane.ring.length then f
  else
    let g := f.conceal
    if n ≤ g.lane.ring.length then g else g.conceal

/-- The k-th interpolated output (R87). -/
def interpolate (ring : List Sample) (p s k : Nat) : Int :=
  let point := p + k * s
  let i := point / Config.unit
  let frac := point % Config.unit
  let a := sampleInt (ring.getD i 0)
  let b := sampleInt (ring.getD (i + 1) 0)
  a + ((b - a) * (frac : Int) + 32768) / 65536

/-- Stage 3: the 80 outputs y_0..y_79 (R87). -/
def Lane.outputs (l : Lane) : List Int := (List.range 80).map (interpolate l.ring l.position l.step)

/-- The ramp-in weight g_k (R88). -/
def rampInWeight (k : Nat) : Nat := 32768 * (k + 1) / 80

/-- The fade-out weight g_k (R88). -/
def fadeOutWeight (k : Nat) : Nat := 32768 * (79 - k) / 80

/-- Scales the k-th value of a list by the k-th weight (R88). -/
def applyWeights (w : Nat → Nat) (y : List Int) : List Int := y.mapIdx fun k v => scale v (w k)

/-- Stage 4: the ramp-in when it is pending, the fade-out when the lane is DRAINING (R83, R88). -/
def Lane.weighted (l : Lane) (y : List Int) : List Int :=
  let y := if l.rampIn then applyWeights rampInWeight y else y
  if l.state = .draining then applyWeights fadeOutWeight y else y

/-- Stage 5: the pull position moves on by 80 steps and the samples passed leave the ring (R89). -/
def Lane.advance (l : Lane) : Lane :=
  let p := l.position + 80 * l.step
  { l with ring := l.ring.drop (p / Config.unit), position := p % Config.unit }

/-- Stages 1 to 5 of a pull, with the 80 samples it forms (R83). -/
def Feed.pull (f : Feed) : Feed × List Int :=
  let f := f.concealTo (need f.lane.position f.lane.step)
  let y := f.lane.weighted f.lane.outputs
  ({ f with lane := { f.lane.advance with rampIn := false } }, y)

/-! ## Tracking (R90 to R92) -/

/-- The depth filter's update (R91). -/
def filterUpdate (f : Int) (depth : Nat) : Int := f + (256 * (depth : Int) - f) / 16

/-- The step set from the filter and the target depth (R92). -/
def stepFor (f : Int) (target : Nat) : Nat :=
  (65536 + clampInt (-64) 64 ((f - 256 * (target : Int)) / 64)).toNat

/-- Stage 6 (R83). -/
def Feed.track (f : Feed) (target : Nat) : Feed :=
  let filter := filterUpdate f.lane.filter f.depth
  { f with lane := { f.lane with filter := filter, step := stepFor filter target } }

/-- A MIXING lane's pull: stages 1 to 5, Intake's movement, and the tracking (R83, R55). -/
def Feed.pullMixing (f : Feed) (target : Nat) : Feed × List Int :=
  let r := f.pull
  (r.1.move.track target, r.2)

/-- Promotion of a PRIMING lane (R71, R95). -/
def Feed.promote (f : Feed) : Feed :=
  { f with
    lane :=
      { f.lane with
        state := .mixing, position := 0, step := 65536, filter := 256 * (f.depth : Int), rampIn := true } }

end Sys2Proof.Machine
end

