-- ==== Sys2Proof/Machine/Ports.lean ====
section
/-! DEFINITION. The transmit sides of both ports, their arbiters, the report queue, and what every frame and every
directive taken at a port has in common (08_frame_links.md; 09 sections 9.1 and 9.8). -/

namespace Sys2Proof.Machine

/-- Answer frames, as against downlink frames (R134). -/
def AirFrame.isAnswer : AirFrame → Bool
  | .downlinkAudio .. | .downlinkSilence .. => false
  | .offer .. | .defer .. | .refuse .. | .dismiss .. | .adjustReply .. => true

/-- Event reports, as against replies (R161). -/
def Report.isEvent : Report → Bool
  | .reply .. => false
  | .event _ => true

/-- The Air Port's arbiter (R136): when the transmitter is idle, the port open and the hold-off released, the
oldest answer frame, or else the oldest downlink frame, leaves the queue to be sent. -/
def AirPort.choose (a : AirPort) : AirPort :=
  if a.isOpen && a.sending.isNone && !a.holdOff then
    match takeFirst AirFrame.isAnswer a.queue with
    | some (f, rest) => { a with sending := some f, queue := rest }
    | none =>
      match a.queue with
      | [] => a
      | f :: rest => { a with sending := some f, queue := rest }
  else a

/-- A frame enters the transmit queue, making room by R135 when it holds 16 frames. -/
def AirPort.enqueue (a : AirPort) (f : AirFrame) : AirPort :=
  if a.queue.length < Config.airQueueLimit then { a with queue := a.queue ++ [f] }
  else
    match takeFirst (fun g => !g.isAnswer) a.queue with
    | some (_, rest) => { a with queue := rest ++ [f], drops := satInc Config.counterMax a.drops }
    | none => { a with drops := satInc Config.counterMax a.drops }

/-- A frame is handed over to the Air Port; an idle transmitter chooses at once (R136). -/
def AirPort.handOver (a : AirPort) (f : AirFrame) : AirPort := (a.enqueue f).choose

/-- A report enters the report queue, making room by R162 when it holds 8 reports. -/
def DirectiveUnit.enqueue (d : DirectiveUnit) (r : Report) : DirectiveUnit :=
  if d.reports.length < Config.reportQueueLimit then { d with reports := d.reports ++ [r] }
  else
    let lost := { d with lossIndication := true, reportsLost := satInc Config.counterMax d.reportsLost }
    match takeFirst Report.isEvent d.reports with
    | some (_, rest) => { lost with reports := rest ++ [r] }
    | none => lost

/-- The Air Port is handed a frame. -/
def State.sendAir (s : State) (f : AirFrame) : State := { s with airPort := s.airPort.handOver f }

/-- The Voice Port's arbiter (R139): the uplink frame in the slot, or else the oldest report, which takes the
events-lost mark with it (R162). -/
def State.chooseVoice (s : State) : State :=
  if s.voicePort.isOpen && s.voicePort.sending.isNone && !s.voicePort.holdOff then
    match s.voicePort.slot with
    | some f => { s with voicePort := { s.voicePort with sending := some (.uplink f), slot := none } }
    | none =>
      match s.directives.reports with
      | [] => s
      | r :: rest =>
        { s with
          voicePort := { s.voicePort with sending := some (.report r s.directives.lossIndication) }
          directives := { s.directives with reports := rest, lossIndication := false } }
  else s

/-- A report is posted (R161, R162); an idle transmitter chooses at once (R139). -/
def State.post (s : State) (r : Report) : State :=
  { s with directives := s.directives.enqueue r }.chooseVoice

/-- An event report is posted. -/
def State.postEvent (s : State) (e : Event) : State := s.post (.event e)

/-- An uplink voice frame is placed in the outbound voice slot, replacing one not yet sent (R138). -/
def State.placeUplink (s : State) (f : UplinkFrame) : State :=
  { s with voicePort := { s.voicePort with slot := some f } }.chooseVoice

/-- The Air Port's transmitter finishes its frame (R136). -/
def AirPort.finish (a : AirPort) : AirPort := { a with sending := none }.choose

/-- The Voice Port's transmitter finishes its frame (R139). -/
def State.finishVoice (s : State) : State :=
  { s with voicePort := { s.voicePort with sending := none } }.chooseVoice

/-- A stray frame is discarded and counted (R31, R132). -/
def State.countStray (s : State) : State :=
  { s with airPort := { s.airPort with stray := satInc Config.counterMax s.airPort.stray } }

/-- A malformed frame is discarded and counted at its port (R131, R140). -/
def State.countMalformed (s : State) : Link → State
  | .air => { s with airPort := { s.airPort with malformed := satInc Config.counterMax s.airPort.malformed } }
  | .voice =>
    { s with voicePort := { s.voicePort with malformed := satInc Config.counterMax s.voicePort.malformed } }

/-- Whether a link's port is open (R141). -/
def State.portOpen (s : State) : Link → Bool
  | .air => s.airPort.isOpen
  | .voice => s.voicePort.isOpen

/-! ## Taking a frame -/

/-- Whether the next frame to end on a link began before its port closed (R141). -/
def State.frameCut (s : State) : Link → Bool
  | .air => s.airPort.cut
  | .voice => s.voicePort.cut

/-- The frame that was arriving when its port closed has ended (R141). -/
def State.endCut (s : State) : Link → State
  | .air => { s with airPort := { s.airPort with cut := false } }
  | .voice => { s with voicePort := { s.voicePort with cut := false } }

/-- A frame that ends at a port: discarded uncounted while the port is closed, and discarded uncounted if it began before
the port closed, though the port has opened since (R130, R141). -/
def State.atPort (s : State) (link : Link) (take : State → State) : State :=
  if s.portOpen link then if s.frameCut link then s.endCut link else take s else s

/-! ## Taking a directive -/

/-- The payload length each directive requires (R147). READ's and WRITE's further checks stand with them. -/
def directiveLength (code length : Nat) : Bool :=
  match code with
  | 1 => length == 2
  | 2 => length == 1
  | 3 => decide (2 ≤ length) && decide (length ≤ 64) && length % 2 == 0
  | 4 => length == 2
  | 12 | 13 | 14 | 15 | 16 => length == 1
  | _ => length == 0

/-- The pending mask is consumed by the directive taken (R155). -/
def State.consumeMask (s : State) : State := { s with directives := { s.directives with mask := none } }

/-- The reply to a directive is posted (R146). -/
def State.reply (s : State) (code : Byte) (seq : Byte) (body : Reply) : State := s.post (.reply code seq body)

/-- A directive's effect followed by its reply, when it has one (R146, R160). -/
def State.conclude (code seq : Byte) (r : State × Option Reply) : State :=
  match r.2 with
  | some body => r.1.reply code seq body
  | none => r.1

/-- Taking a directive (R146, R147): the mask is consumed, the payload length is judged, the directive is carried
out or refused, and its reply is posted. `act` is given the mask that was pending. -/
def State.takeDirective (s : State) (code seq : Byte) (payload : List Byte)
    (act : Option Word → State → State × Option Reply) : State :=
  s.atPort .voice fun s =>
    if directiveLength code.toNat payload.length then State.conclude code seq (act s.directives.mask s.consumeMask)
    else s.consumeMask.reply code seq (.refused .format)

/-- A directive that is always answered. -/
def answered (act : State → State × Reply) : Option Word → State → State × Option Reply := fun _ s =>
  ((act s).1, some (act s).2)

end Sys2Proof.Machine
end

