-- ==== Sys2Proof/Machine/Roster.lean ====
section
/-! DEFINITION. The Roster's records: what arrivals and cadences do to a bud record, handles, membership and the
speaking bud (01_buds_and_listeners.md; R60). -/

namespace Sys2Proof.Machine

/-- The bud that holds a radio handle among the buds that are not FREE, or none for unknown (R2). -/
def Roster.budByHandle (r : Roster) (h : Handle) : Option BudIx :=
  Config.buds.find? fun b => r.buds[b].link != .free && r.buds[b].handle == some h

/-- The lowest-numbered FREE bud record (R3). -/
def Roster.freeBud (r : Roster) : Option BudIx := Config.buds.find? fun b => r.buds[b].link == .free

/-- The lowest-numbered listener not in use (R13). -/
def Roster.freeListener (r : Roster) : Option ListenerIx :=
  Config.listeners.find? fun x => !r.listeners[x].inUse

/-- A bud that is TALKING and in LIVE or FADING (R60). -/
def Bud.speaks (b : Bud) : Bool := b.talk == .talking && (b.link == .live || b.link == .fading)

/-- The speaking bud of a listener (R60). -/
def Roster.speakingBud (r : Roster) (x : ListenerIx) : Option BudIx :=
  let l := r.listeners[x]
  let speaks := fun b : BudIx => r.buds[b].speaks
  if !l.inUse || l.mute then none
  else
    match l.primary with
    | none => l.members.find? speaks
    | some p =>
      if l.members.contains p then
        if speaks p then some p else (l.members.filter (· != p)).find? speaks
      else l.members.find? speaks

/-- The record of a bud just taken through CONFIRM (R4). -/
def Bud.confirmed (b : Bud) : Bud :=
  { b with
    link := .joining, goodRun := 0, missRun := 0, silenceRun := 0, arrival := false, talk := .silent, dlSeq := 0 }

/-- The record of a bud just parked (R7). -/
def Bud.parkedNow (b : Bud) : Bud :=
  { b with link := .parked, goodRun := 0, missRun := 0, silenceRun := 0, arrival := false, talk := .silent }

/-- Steps 1 to 3 of an arrival (R5, R10). -/
def Bud.credit (b : Bud) : Bud :=
  let b := if b.link = .parked then { b with link := .joining, talk := .silent } else b
  let b := if b.arrival then b else { b with goodRun := satInc Config.runMax b.goodRun }
  { b with missRun := 0, arrival := true }

/-- Step 4 of an arrival (R5). -/
def Bud.qualify (b : Bud) (joinThreshold : Nat) : Bud :=
  match b.link with
  | .joining => if joinThreshold ≤ b.goodRun then { b with link := .live } else b
  | .fading => { b with link := .live }
  | _ => b

/-- An arrival's effect on talk state and silence-run (R9). -/
def Bud.hear (b : Bud) (body : Body) (hangover : Nat) : Bud :=
  match body with
  | .audio _ => { b with silenceRun := 0, talk := .talking }
  | .silence =>
    let run := satInc Config.runMax b.silenceRun
    if b.talk = .talking ∧ hangover ≤ run then { b with silenceRun := run, talk := .silent }
    else { b with silenceRun := run }

/-- An arrival for a bud in JOINING, LIVE, FADING or PARKED (R5, R9). -/
def Bud.arrive (b : Bud) (body : Body) (set : Settings) : Bud :=
  (b.credit.qualify set.joinThreshold).hear body set.hangover

/-- Steps 1 and 2 of supervision (R6). -/
def Bud.passPeriod (b : Bud) : Bud :=
  if b.arrival then { b with arrival := false }
  else { b with missRun := satInc Config.runMax b.missRun, goodRun := 0 }

/-- The listener's record once a bud has left it (steps 2 and 3 of R17). -/
def Listener.drop (l : Listener) (b : BudIx) : Listener :=
  let members := l.members.erase b
  { l with members := members, primary := if l.primary = some b then members.head? else l.primary }

/-- The listener's record once a bud is appended to its members (R14). -/
def Listener.add (l : Listener) (b : BudIx) : Listener :=
  { l with members := l.members ++ [b], primary := if l.primary = none then some b else l.primary }

/-- A listener record just opened for a set tag (R13). -/
def Listener.opened (d : ListenerDefaults) (priority : Nat) (tag : Word) : Listener :=
  { Listener.unused d priority with inUse := true, setTag := tag }

/-- The record R3 fills at an allocation. -/
def Bud.offered (h : Handle) (addr : Address) (tag : Word) (role : Role) (x : ListenerIx) (bonded : Bool) :
    Bud where
  link := .offered
  handle := some h
  addr := addr
  setTag := tag
  role := role
  listener := some x
  bonded := bonded

/-- A record change made in place. -/
def State.setBud (s : State) (b : BudIx) (r : Bud) : State :=
  { s with roster := { s.roster with buds := s.roster.buds.set b r } }

/-- A listener record change made in place. -/
def State.setListener (s : State) (x : ListenerIx) (l : Listener) : State :=
  { s with roster := { s.roster with listeners := s.roster.listeners.set x l } }

/-- Intake empties a bud's queue without counting (R53). -/
def State.emptyQueue (s : State) (b : BudIx) : State :=
  { s with intake := { s.intake with queues := s.intake.queues.set b [] } }

end Sys2Proof.Machine
end

