-- ==== Sys2Proof/Machine/Lanes.lean ====
section
/-! DEFINITION. The Lane Unit: requests, bindings, evictions, the wait list, releases, and the lanes at a
cadence and at a change of call state (04_talk_lanes.md). -/

namespace Sys2Proof.Machine

/-- A lane record change made in place. -/
def State.setLane (s : State) (k : LaneIx) (l : Lane) : State :=
  { s with laneUnit := { s.laneUnit with lanes := s.laneUnit.lanes.set k l } }

/-- The wait list is replaced. -/
def State.setWait (s : State) (w : List WaitEntry) : State :=
  { s with laneUnit := { s.laneUnit with waitList := w } }

/-- A lane with the queue and counters of bud `b`. -/
def State.feed (s : State) (k : LaneIx) (b : BudIx) : Feed where
  lane := s.laneUnit.lanes[k]
  queue := s.intake.queues[b]
  discards := s.intake.discards[b]

/-- Puts a lane, a queue and its counters back. -/
def State.setFeed (s : State) (k : LaneIx) (b : BudIx) (f : Feed) : State :=
  { s.setLane k f.lane with
    intake := { queues := s.intake.queues.set b f.queue, discards := s.intake.discards.set b f.discards } }

/-- The lane in PRIMING or MIXING that names the bud (R46). -/
def LaneUnit.boundLane (u : LaneUnit) (b : BudIx) : Option LaneIx :=
  Config.lanes.find? fun k => u.lanes[k].carries && u.lanes[k].bud == some b

/-- The lane in PRIMING or MIXING of a listener (R63). -/
def LaneUnit.laneOf (u : LaneUnit) (x : ListenerIx) : Option LaneIx :=
  Config.lanes.find? fun k => u.lanes[k].carries && u.lanes[k].listener == some x

/-- The lowest-numbered VACANT lane without a reservation (stage 2 of R63). -/
def LaneUnit.vacantLane (u : LaneUnit) : Option LaneIx :=
  Config.lanes.find? fun k => u.lanes[k].state == .vacant && u.lanes[k].reservedFor == none

/-- The listener's own DRAINING lane without a reservation (stage 3 of R63). -/
def LaneUnit.ownDrain (u : LaneUnit) (x : ListenerIx) : Option LaneIx :=
  Config.lanes.find? fun k =>
    u.lanes[k].state == .draining && u.lanes[k].listener == some x && u.lanes[k].reservedFor == none

/-! ## The wait list (R68, R69) -/

/-- The priority of a listener as the Listener Table stands. -/
def State.priorityOf (s : State) (x : ListenerIx) : Nat := s.roster.listeners[x].priority.val

/-- Whether entry `a` stands before entry `b`: higher priority first, then lower request order (R68). -/
def waitBefore (priority : ListenerIx → Nat) (a b : WaitEntry) : Bool :=
  decide (priority b.listener < priority a.listener) ||
    (priority a.listener == priority b.listener && decide (a.order < b.order))

/-- An entry is put at its place in a wait list in order. -/
def insertWait (priority : ListenerIx → Nat) (e : WaitEntry) : List WaitEntry → List WaitEntry
  | [] => [e]
  | a :: w => if waitBefore priority e a then e :: a :: w else a :: insertWait priority e w

/-- The wait list put in order (R68). -/
def sortWait (priority : ListenerIx → Nat) (w : List WaitEntry) : List WaitEntry :=
  w.foldr (insertWait priority) []

/-- The greatest request order held, 0 for an empty list. -/
def greatestOrder (w : List WaitEntry) : Nat := w.foldl (fun n e => max n e.order) 0

/-- Whether a listener waits. -/
def waits (x : ListenerIx) (w : List WaitEntry) : Bool := w.any (·.listener == x)

/-- A listener is placed in the wait list at its place in order, unless it has an entry (R68). -/
def State.placeWaiting (s : State) (x : ListenerIx) (b : BudIx) : State :=
  let w := s.laneUnit.waitList
  if waits x w then s
  else
    s.setWait (insertWait s.priorityOf { listener := x, bud := b, order := greatestOrder w + 1, denied := false } w)

/-- The wait list without a listener's entry, greater request orders lowered by 1 (R68). -/
def removeWait (x : ListenerIx) (w : List WaitEntry) : List WaitEntry :=
  match w.find? (·.listener == x) with
  | none => w
  | some gone =>
    (w.filter (·.listener != x)).map fun e => if gone.order < e.order then { e with order := e.order - 1 } else e

/-- A listener's entry is removed (R61, R64). -/
def State.cancelWait (s : State) (x : ListenerIx) : State := s.setWait (removeWait x s.laneUnit.waitList)

/-- A waiting listener's entry names another bud and keeps its place (R61). -/
def State.renameWait (s : State) (x : ListenerIx) (b : BudIx) : State :=
  s.setWait (s.laneUnit.waitList.map fun e => if e.listener = x then { e with bud := b } else e)

/-- The wait list is re-sorted after a change of priority (R69). -/
def State.resortWait (s : State) : State := s.setWait (sortWait s.priorityOf s.laneUnit.waitList)

/-- LANE DENIED is posted for a listener, and its entry is marked as reported (R67). -/
def State.postDenied (s : State) (x : ListenerIx) (cause : DeniedCause) : State :=
  (s.setWait (s.laneUnit.waitList.map fun e => if e.listener = x then { e with denied := true } else e)).postEvent
    (.laneDenied x s.laneUnit.speaking[x] s.roster.listeners[x].priority cause)

/-! ## Binding, vacancy and release (R64, R70, R73) -/

/-- A lane is bound to bud `b` for listener `x` (R64), with Intake's part (R52). -/
def State.bindLane (s : State) (k : LaneIx) (b : BudIx) (x : ListenerIx) : State :=
  let lane := { s.laneUnit.lanes[k].cleared with state := .priming, bud := some b, listener := some x }
  let f : Feed := { s.feed k b with lane := lane }
  (s.setFeed k b f.prepare).cancelWait x

/-- A VACANT lane is granted to the wait-list head, in IN CALL only (R68, R75). -/
def State.grantHead (s : State) (k : LaneIx) : State :=
  if s.callCtl.state = .inCall then
    match s.laneUnit.waitList with
    | [] => s
    | e :: _ => s.bindLane k e.bud e.listener
  else s

/-- A lane reaches VACANT (R73). In IN CALL a reservation completes (R65); failing one, and unless the lane is
left for a binding of the same act (`keep`), it goes to the wait-list head. -/
def State.vacateLane (s : State) (k : LaneIx) (keep : Bool) : State :=
  let reserved := s.laneUnit.lanes[k].reservedFor
  let s := s.setLane k s.laneUnit.lanes[k].cleared
  match s.callCtl.state, reserved.bind fun x => s.laneUnit.speaking[x].map fun b => (x, b) with
  | .inCall, some (x, b) => s.bindLane k b x
  | _, _ => if keep then s else s.grantHead k

/-- Intake converts the queue of a bud that stops being bound: the two farthest entries stay (R53). -/
def State.convertQueue (s : State) (b : BudIx) : State :=
  { s with intake := { s.intake with queues := update s.intake.queues b (keepLast Config.unboundQueueLimit) } }

/-- The queue of the bud a lane names, if any, is converted (R53). -/
def State.unbindBud (s : State) (k : LaneIx) : State :=
  match s.laneUnit.lanes[k].bud with
  | some b => if s.laneUnit.lanes[k].carries then s.convertQueue b else s
  | none => s

/-- A lane in PRIMING or MIXING is released (R70); `keep` as in `vacateLane`. -/
def State.releaseLane (s : State) (k : LaneIx) (keep : Bool) : State :=
  match s.laneUnit.lanes[k].state with
  | .priming => (s.unbindBud k).vacateLane k keep
  | .mixing =>
    let s := s.unbindBud k
    if s.callCtl.state = .inCall then
      s.setLane k { s.laneUnit.lanes[k] with state := .draining, bud := none }
    else s.vacateLane k keep
  | .draining | .vacant => s

/-! ## Requests and evictions (R63, R65) -/

/-- A lane's reservation is set. -/
def State.reserve (s : State) (k : LaneIx) (x : Option ListenerIx) : State :=
  s.setLane k { s.laneUnit.lanes[k] with reservedFor := x }

/-- A candidate for eviction: in PRIMING or MIXING, not reserved, its listener's priority strictly lower
than `p` (R65). -/
def State.evictable (s : State) (p : Nat) (k : LaneIx) : Bool :=
  let l := s.laneUnit.lanes[k]
  l.carries && l.reservedFor == none &&
    match l.listener with
    | some v => decide (s.priorityOf v < p)
    | none => false

/-- The victim: the first candidate scanning from the lane the pointer names, upward, 3 round to 1 (R65). -/
def State.victim (s : State) (p : Nat) : Option LaneIx :=
  [s.laneUnit.evictPtr, s.laneUnit.evictPtr + 1, s.laneUnit.evictPtr + 2].find? (s.evictable p)

/-- The listener whose lane has been evicted goes into the wait list and is reported (step 2 of R65). -/
def State.placeVictim (s : State) (v : Option ListenerIx) : State :=
  match v with
  | none => s
  | some v =>
    match s.laneUnit.speaking[v] with
    | some b => (s.placeWaiting v b).postDenied v .preempted
    | none => s

/-- The eviction of lane `k` for listener `x` and its speaking bud `b` (R65). -/
def State.evictLane (s : State) (k : LaneIx) (x : ListenerIx) (b : BudIx) : State :=
  let v := s.laneUnit.lanes[k].listener
  let s := { s with laneUnit := { s.laneUnit with evictPtr := k + 1 } }
  let s := (s.releaseLane k true).placeVictim v
  if s.laneUnit.lanes[k].state = .draining then s.reserve k (some x) else s.bindLane k b x

/-- A lane request of listener `x` for bud `b` in IN CALL (R63). -/
def State.requestLane (s : State) (x : ListenerIx) (b : BudIx) : State :=
  let u := s.laneUnit
  if Config.lanes.any fun k => u.lanes[k].carries && u.lanes[k].listener == some x && u.lanes[k].bud == some b then s
  else
    match u.vacantLane with
    | some k => s.bindLane k b x
    | none =>
      match u.ownDrain x with
      | some k => s.reserve k (some x)
      | none =>
        match s.victim (s.priorityOf x) with
        | some k => s.evictLane k x b
        | none => (s.placeWaiting x b).postDenied x .noLane

/-! ## The speaking bud (R60 to R62) -/

/-- A listener's reservations are cancelled; the lanes go on DRAINING (R65). -/
def State.cancelReservation (s : State) (x : ListenerIx) : State :=
  Config.lanes.foldl (fun s k => if s.laneUnit.lanes[k].reservedFor = some x then s.reserve k none else s) s

/-- In IN CALL, a listener's speaking bud has become none (R61). -/
def State.fallSilent (s : State) (x : ListenerIx) : State :=
  let s := (s.cancelWait x).cancelReservation x
  match s.laneUnit.laneOf x with
  | some k => s.releaseLane k false
  | none => s

/-- In IN CALL, a listener's speaking bud has changed to another bud (R61, R73). -/
def State.changeSpeaker (s : State) (x : ListenerIx) (c : BudIx) : State :=
  match s.laneUnit.laneOf x with
  | some k =>
    let s := (s.releaseLane k true).requestLane x c
    if s.laneUnit.lanes[k].state = .vacant then s.grantHead k else s
  | none => s.renameWait x c

/-- The Lane Unit records a listener's speaking bud (R60). -/
def State.recordSpeaking (s : State) (x : ListenerIx) (b : Option BudIx) : State :=
  { s with laneUnit := { s.laneUnit with speaking := s.laneUnit.speaking.set x b } }

/-- The Lane Unit acts on a difference between the recorded and the new speaking bud (R61, R62). -/
def State.actOnSpeaking (s : State) (x : ListenerIx) (old new : Option BudIx) : State :=
  match s.callCtl.state, old, new with
  | .noCall, _, _ => s
  | .holding _, _, none => s.cancelWait x
  | .holding _, none, some b => s.placeWaiting x b
  | .holding _, some _, some c => s.renameWait x c
  | .inCall, _, none => s.fallSilent x
  | .inCall, none, some b => s.requestLane x b
  | .inCall, some _, some c => s.changeSpeaker x c

/-- The Roster tells the Lane Unit that a listener's inputs have changed, and the Lane Unit re-evaluates
(R11, R61). -/
def State.notice (s : State) (x : ListenerIx) : State :=
  let old := s.laneUnit.speaking[x]
  let new := s.roster.speakingBud x
  if old = new then s else (s.recordSpeaking x new).actOnSpeaking x old new

/-- A notice for the listener a record names, if it names one. -/
def State.noticeFor (s : State) : Option ListenerIx → State
  | some x => s.notice x
  | none => s

/-! ## Changes of call state (R77 to R79) -/

/-- Every lane becomes VACANT without a last pull (R77, R78). The call has already left IN CALL, so no lane is
granted. -/
def State.emptyLanes (s : State) : State :=
  Config.lanes.foldl (fun s k => (s.unbindBud k).setLane k s.laneUnit.lanes[k].cleared) s

/-- The listener that holds a lane in PRIMING or MIXING or has it reserved, with its speaking bud (R77). -/
def LaneUnit.claim (u : LaneUnit) (k : LaneIx) : Option (ListenerIx × BudIx) :=
  let l := u.lanes[k]
  let x := if l.carries then l.listener else l.reservedFor
  x.bind fun x => u.speaking[x].map fun b => (x, b)

/-- The Lane Unit when the call leaves IN CALL for HOLDING (R77). -/
def State.lanesHold (s : State) : State :=
  let claims := Config.lanes.filterMap s.laneUnit.claim
  claims.foldl (fun s c => s.placeWaiting c.1 c.2) s.emptyLanes

/-- The Lane Unit at END CALL (R78). -/
def State.lanesEnd (s : State) : State := s.emptyLanes.setWait []

/-- One grant at entry to IN CALL: the lowest vacant lane to the wait-list head (step 3 of R79). -/
def State.grantOne (s : State) : State :=
  match s.laneUnit.vacantLane with
  | some k => s.grantHead k
  | none => s

/-- Step 4 of R79: LANE DENIED for each entry not yet reported, in list order. -/
def State.denyWaiting (s : State) : State :=
  (s.laneUnit.waitList.filter fun e => !e.denied).foldl (fun s e => s.postDenied e.listener .noLane) s

/-- The Lane Unit when the call enters IN CALL (R79); `fresh` when it comes from NO CALL. -/
def State.lanesEnter (s : State) (fresh : Bool) : State :=
  let s :=
    if fresh then
      Config.listeners.foldl
        (fun s x => match s.laneUnit.speaking[x] with | some b => s.placeWaiting x b | none => s) s
    else s
  s.grantOne.grantOne.grantOne.denyWaiting

/-! ## Lanes at a cadence (R71, R72, R94) -/

/-- The output of a lane is handed to the Mix Engine for its listener's column (R72). -/
def State.contribute (s : State) (k : LaneIx) (y : List Int) : State :=
  match s.laneUnit.lanes[k].listener with
  | some x =>
    { s with
      laneUnit :=
        { s.laneUnit with
          handover :=
            { s.laneUnit.handover with
              contributions := s.laneUnit.handover.contributions ++ [{ listener := x, samples := y }] } } }
  | none => s

/-- A lane's feed changes by a pull that forms outputs. -/
def State.pullWith (s : State) (k : LaneIx) (b : BudIx) (pull : Feed → Feed × List Int) : State :=
  let r := pull (s.feed k b)
  (s.setFeed k b r.1).contribute k r.2

/-- A MIXING lane's pull (R72, R83). -/
def State.pullLane (s : State) (k : LaneIx) : State :=
  match s.laneUnit.lanes[k].bud with
  | some b => s.pullWith k b fun f => f.pullMixing s.directives.settings.targetDepth
  | none => s

/-- Whether a PRIMING lane is deep enough to be promoted (R71). -/
def State.promotable (s : State) (k : LaneIx) : Bool :=
  match s.laneUnit.lanes[k].bud with
  | some b => decide (s.directives.settings.targetDepth ≤ (s.feed k b).depth)
  | none => false

/-- A PRIMING lane is examined, and pulls if it is promoted (R71, R95). -/
def State.examineLane (s : State) (k : LaneIx) : State :=
  match s.laneUnit.lanes[k].bud with
  | some b =>
    if s.promotable k then
      s.pullWith k b fun f => f.promote.pullMixing s.directives.settings.targetDepth
    else s
  | none => s

/-- A DRAINING lane makes its last pull and reaches VACANT (R72, R94). No queue is reckoned against it. -/
def State.drainLane (s : State) (k : LaneIx) : State :=
  let f : Feed := { lane := s.laneUnit.lanes[k], queue := [], discards := {} }
  let r := f.pull
  ((s.setLane k r.1.lane).contribute k r.2).vacateLane k false

/-- One lane at a voice or fill cadence, by the state it had when the cadence was taken (R72). -/
def State.laneAtCadence (s : State) (k : LaneIx) : LaneState → State
  | .mixing => s.pullLane k
  | .priming => s.examineLane k
  | .draining => s.drainLane k
  | .vacant => s

/-- How many lanes are in MIXING (R72). -/
def LaneUnit.mixingCount (u : LaneUnit) : Nat := Config.lanes.countP fun k => u.lanes[k].state == .mixing

/-- The Lane Unit's handover is begun afresh. -/
def State.clearHandover (s : State) : State := { s with laneUnit := { s.laneUnit with handover := {} } }

/-- The Lane Unit's count of MIXING lanes goes into the handover (R72). -/
def State.countMixing (s : State) : State :=
  { s with
    laneUnit :=
      { s.laneUnit with handover := { s.laneUnit.handover with mixing := s.laneUnit.mixingCount } } }

/-- The Lane Unit takes a voice or fill cadence, the lanes in a given order, each by the state `before` says it
had (R72). Outside IN CALL it pulls nothing and hands over nothing. -/
def State.lanesTake (s : State) (before : Vector LaneState 3) (order : List LaneIx) : State :=
  let s := s.clearHandover
  if s.callCtl.state = .inCall then (order.foldl (fun s k => s.laneAtCadence k before[k]) s).countMixing else s

/-- The states of the three lanes. -/
def LaneUnit.states (u : LaneUnit) : Vector LaneState 3 := u.lanes.map (·.state)

/-- Intake's test for movement for one bud (R51). -/
def State.moveFor (s : State) (b : BudIx) : State :=
  match s.laneUnit.boundLane b with
  | some k => s.setFeed k b (s.feed k b).move
  | none => s

/-- Intake takes an arrival (step 1 of R45). -/
def State.intakeArrival (s : State) (b : BudIx) (e : Entry) : State :=
  match s.laneUnit.boundLane b with
  | some k => s.setFeed k b ((s.feed k b).arrive e)
  | none =>
    let r := queueUnbound e s.intake.queues[b] s.intake.discards[b]
    { s with intake := { queues := s.intake.queues.set b r.1, discards := s.intake.discards.set b r.2 } }

end Sys2Proof.Machine
end

