-- ==== Sys2Proof/Machine/Party.lean ====
section
/-! DEFINITION. The Roster's acts that reach its neighbours: freeing a bud, supervision, arrivals, PARK and
ADJUST (01_buds_and_listeners.md sections 1.2, 1.5 and 1.6). -/

namespace Sys2Proof.Machine

/-! ## Freeing (R17 to R19) -/

/-- What the report of a freeing will carry, read before the record is cleared (R19). -/
def State.departure (s : State) (b : BudIx) (cause : FreeCause) : Departure where
  bud := b
  listener := s.roster.buds[b].listener
  addr := s.roster.buds[b].addr
  bonded := s.roster.buds[b].bonded
  cause := cause

/-- The pairing context becomes empty (R24). -/
def State.emptyContext (s : State) : State := { s with pairing := { s.pairing with context := none } }

/-- A bud leaves its listener's members (steps 2 and 3 of R17). -/
def State.leaveListener (s : State) (b : BudIx) : Option ListenerIx → State
  | some x => s.setListener x (s.roster.listeners[x].drop b)
  | none => s

/-- Steps 1 to 5 of R17. -/
def State.unlinkBud (s : State) (b : BudIx) : State :=
  let r := s.roster.buds[b]
  let s := ((s.setBud b {}).leaveListener b r.listener).emptyQueue b
  if r.link = .offered then s.emptyContext else s

/-- A listener without members that is still in use is emptied (R18). -/
def State.emptyIfAlone (s : State) (x : ListenerIx) : State :=
  let l := s.roster.listeners[x]
  if l.inUse ∧ l.members = [] then
    s.setListener x (Listener.unused s.roster.defaults s.directives.settings.defaultPriority)
  else s

/-- Steps 6 to 8 of R17. -/
def State.finishDeparture (s : State) (d : Departure) : State :=
  let s :=
    match d.listener with
    | some x => (s.notice x).emptyIfAlone x
    | none => s
  s.postEvent (.departed d)

/-- A bud is freed for a cause (R17). -/
def State.freeBud (s : State) (b : BudIx) (cause : FreeCause) : State :=
  (s.unlinkBud b).finishDeparture (s.departure b cause)

/-! ## Supervision (R6) -/

/-- Supervision under way: the buds lost so far, and the listeners of the buds that have entered FADING. -/
structure Supervision where
  state : State
  lost : List Departure
  faded : List (Option ListenerIx)

/-- Whether a supervised bud's miss-run has reached the lost threshold (step 3 of R6). -/
def Bud.isLost (b : Bud) (set : Settings) : Bool := decide (set.lostThreshold ≤ b.missRun)

/-- Whether a LIVE bud's miss-run has reached the fade threshold (step 4 of R6). -/
def Bud.fades (b : Bud) (set : Settings) : Bool := b.link == .live && decide (set.fadeThreshold ≤ b.missRun)

/-- Supervision of one bud (R6). A lost bud goes through steps 1 to 5 of R17 here; the notice, the emptying and
the report follow once the whole of the Roster's act for the cadence is done (R11, R61). -/
def Supervision.visit (a : Supervision) (b : BudIx) : Supervision :=
  let set := a.state.directives.settings
  let r := a.state.roster.buds[b]
  if r.link.supervised then
    let r := r.passPeriod
    let s := a.state.setBud b r
    if r.isLost set then
      { a with state := s.unlinkBud b, lost := a.lost ++ [s.departure b .noArrivals] }
    else if r.fades set then
      { a with state := s.setBud b { r with link := .fading }, faded := a.faded ++ [r.listener] }
    else { a with state := s }
  else a

/-- The Roster supervises the buds at a cadence, in a given order (R6). -/
def State.supervise (s : State) (order : List BudIx) : State :=
  let a := order.foldl Supervision.visit { state := s, lost := [], faded := [] }
  a.faded.foldl State.noticeFor (a.lost.foldl State.finishDeparture a.state)

/-! ## Arrivals (R45) -/

/-- Steps 2 and 3 of R45: the Roster acts on an arrival and, if a link state or talk state changed, the Lane
Unit re-evaluates the listener. -/
def State.rosterArrival (s : State) (b : BudIx) (body : Body) : State :=
  let old := s.roster.buds[b]
  let new := old.arrive body s.directives.settings
  let s := s.setBud b new
  if old.link = new.link ∧ old.talk = new.talk then s else s.noticeFor new.listener

/-- An AUDIO block or SILENCE mark taken at the Air Port (R132, R45): stray from the OFFERED bud or an unknown
handle (R31), otherwise one arrival. -/
def State.arrival (s : State) (h : Handle) (e : Entry) : State :=
  match s.roster.budByHandle h with
  | some b =>
    if s.roster.buds[b].link = .offered then s.countStray else (s.intakeArrival b e).rosterArrival b e.body
  | none => s.countStray

/-! ## PARK (R7, R39, R53) -/

/-- A bud in JOINING, LIVE or FADING is parked. -/
def State.parkBud (s : State) (b : BudIx) : State :=
  let r := s.roster.buds[b]
  ((s.setBud b r.parkedNow).emptyQueue b).noticeFor r.listener

/-- A PARK taken at the Air Port (R39). -/
def State.parkRequest (s : State) (h : Handle) : State :=
  match s.roster.budByHandle h with
  | some b =>
    match s.roster.buds[b].link with
    | .joining | .live | .fading => s.parkBud b
    | .parked => s
    | .offered | .free => s.countStray
  | none => s.countStray

/-! ## ADJUST (R21, R22) -/

/-- Whether a field of ADJUST is named (R143). -/
def AdjustField.named (f : AdjustField) : Bool := f.presence != 0

/-- A listener's controls after the fields of an ADJUST are applied (R21). -/
def Listener.adjust (l : Listener) (f : AdjustFields) : Listener :=
  { l with
    volume := if AdjustField.named f.volume then clampIndex f.volume.value.toNat else l.volume
    sidetone := if AdjustField.named f.sidetone then clampIndex f.sidetone.value.toNat else l.sidetone
    mute := if AdjustField.named f.mute then f.mute.value != 0 else l.mute }

/-- The ADJUST REPLY to an ADJUST whose fields were applied: each named field with the value now held (R22). -/
def adjustReply (h : Handle) (seq : Byte) (x : ListenerIx) (l : Listener) (f : AdjustFields) : AirFrame :=
  .adjustReply h seq (some x)
    (if AdjustField.named f.volume then some l.volume else none)
    (if AdjustField.named f.sidetone then some l.sidetone else none)
    (if AdjustField.named f.mute then some l.mute else none)

/-- An ADJUST from bud `b` (R21): nothing is applied for the OFFERED bud, nor when bud controls allowed is no. -/
def State.adjustFrom (s : State) (b : BudIx) (h : Handle) (seq : Byte) (f : AdjustFields) : State :=
  match s.roster.buds[b].listener with
  | none => s.sendAir (.adjustReply h seq none none none none)
  | some x =>
    let l := s.roster.listeners[x]
    if s.roster.buds[b].link ≠ .offered ∧ l.budControls then
      let new := l.adjust f
      let s := s.setListener x new
      let s := if new.mute = l.mute then s else s.notice x
      s.sendAir (adjustReply h seq x new f)
    else s.sendAir (.adjustReply h seq (some x) none none none)

/-- An ADJUST taken at the Air Port (R31). -/
def State.adjustRequest (s : State) (h : Handle) (seq : Byte) (f : AdjustFields) : State :=
  match s.roster.budByHandle h with
  | some b => s.adjustFrom b h seq f
  | none => s.countStray

/-! ## LEAVE and HANDLE DROPPED (R38, R40) -/

/-- A LEAVE taken at the Air Port (R38). -/
def State.leaveRequest (s : State) (h : Handle) : State :=
  match s.roster.budByHandle h with
  | some b => s.freeBud b .leave
  | none => s.countStray

/-- A HANDLE DROPPED notice taken at the Air Port (R40); discarded uncounted from an unknown handle. -/
def State.handleDroppedNotice (s : State) (h : Handle) : State :=
  match s.roster.budByHandle h with
  | some b => s.freeBud b .handleDropped
  | none => s

end Sys2Proof.Machine
end

