-- ==== Sys2Proof/Machine/MixEngine.lean ====
section
/-! DEFINITION. The Mix Engine: SWAP, the forming of the five outputs, and their emission (06_the_mix.md). -/

namespace Sys2Proof.Machine

/-- A pending SWAP is taken (R101). -/
def Mix.takeSwap (m : Mix) : Mix :=
  if m.swapPending then { m with active := m.staging, swapPending := false } else m

/-- The same, in the bridge. -/
def State.takeSwap (s : State) : State := { s with mix := s.mix.takeSwap }

/-! ## Sources, accumulators and outputs (R105 to R108) -/

/-- The gain a gain index stands for (R102). -/
def Mix.gain (m : Mix) (i : GainIx) : Nat := m.curve[i].val

/-- 80 zeros. -/
def silentSource : List Int := List.replicate 80 0

/-- Adds two sources, sample by sample. -/
def addSources (a b : List Int) : List Int := List.zipWith (· + ·) a b

/-- Source Lj: the sum of the contributions with listener field j, each scaled by j's mic gain (R105). -/
def State.talkSource (s : State) (h : Handover) (j : ListenerIx) : List Int :=
  let g := s.mix.gain s.roster.listeners[j].micGain
  (h.contributions.filter (·.listener == j)).foldl
    (fun sum c => addSources sum (c.samples.map fun y => scale y g)) silentSource

/-- The five sources FAR, L1..L4 (R105). -/
def State.sources (s : State) (far : List Int) (h : Handover) : List (List Int) :=
  far :: Config.listeners.map (s.talkSource h)

/-- The weight W(o, col): the active bank's cell, with the sidetone in place of the fixed cell (DNk, Lk)
(R106). Rows and columns are 0 for UP and FAR, k for DNk and Lk. -/
def State.weight (s : State) (row col : Fin 5) : Nat :=
  if h : row = col ∧ row ≠ 0 then
    s.mix.gain s.roster.listeners[(⟨row.val - 1, by omega⟩ : ListenerIx)].sidetone
  else s.mix.gain s.mix.active[(⟨5 * row.val + col.val, by omega⟩ : Fin 25)]

/-- The accumulators of a row, exact (R106). -/
def State.accumulate (s : State) (row : Fin 5) (sources : List (List Int)) : List Int :=
  let weights : List Nat := [0, 1, 2, 3, 4].map (s.weight row)
  (List.zipWith (fun src w => src.map fun x => x * (w : Int)) sources weights).foldl addSources silentSource

/-- The mid value of an accumulator (R106). -/
def midOf (acc : Int) : Int := (acc + 16384) / 32768

/-- The final gain of a row: OM[n] for UP, the listener's volume for DNk (R103, R107). -/
def State.finalGain (s : State) (row : Fin 5) (mixing : Nat) : Nat :=
  if h : row ≠ 0 then s.mix.gain s.roster.listeners[(⟨row.val - 1, by omega⟩ : ListenerIx)].volume
  else (s.mix.openMic[(⟨min mixing 3, by omega⟩ : Fin 4)]).val

/-- A row's values after the final scaling and before saturation (R107). -/
def State.rowValues (s : State) (row : Fin 5) (sources : List (List Int)) (mixing : Nat) : List Int :=
  (s.accumulate row sources).map fun acc => scale (midOf acc) (s.finalGain row mixing)

/-- The five rows UP, DN1..DN4 before saturation. -/
def State.rows (s : State) (far : List Int) (h : Handover) : List (List Int) :=
  [0, 1, 2, 3, 4].map fun row => s.rowValues row (s.sources far h) h.mixing

/-- A row as a block of saturated samples (R108). -/
def outputBlock (values : List Int) : Block := blockOf saturate values

/-- The clip counters after a mixing cadence (R108). -/
def Mix.countClips (m : Mix) (rows : List (List Int)) : Mix :=
  { m with
    clips := m.clips.mapIdx fun i n => if (rows.getD i []).any isClipped then satInc Config.counterMax n else n }

/-! ## Emission (R109 to R112) -/

/-- A downlink frame to be made for a bud: its listener, its number, and its handle and downlink sequence as
they stand when the Mix Engine takes the cadence (R110, R112). -/
structure Recipient where
  listener : ListenerIx
  bud : BudIx
  handle : Handle
  seq : Byte
deriving DecidableEq, Repr

/-- The recipient a bud is, if its link state is JOINING, LIVE or FADING (R110). -/
def Roster.recipient (r : Roster) (x : ListenerIx) (b : BudIx) : Option Recipient :=
  if r.buds[b].link.supervised then
    r.buds[b].handle.map fun h => { listener := x, bud := b, handle := h, seq := r.buds[b].dlSeq }
  else none

/-- The eligible buds: listeners 1 to 4, members in join order (R110, R111). -/
def Roster.recipients (r : Roster) : List Recipient :=
  Config.listeners.flatMap fun x => r.listeners[x].members.filterMap (r.recipient x)

/-- A downlink frame is handed over and the bud's downlink sequence advances (R110, R111). A bud freed between
the taking of the cadence and the hand-over keeps its FREE record (R112). -/
def State.sendDownlink (s : State) (r : Recipient) (f : AirFrame) : State :=
  let s := s.sendAir f
  let b := s.roster.buds[r.bud]
  if b.link = .free then s else s.setBud r.bud { b with dlSeq := r.seq + 1 }

/-- DOWNLINK SILENCE to every eligible bud (R111). -/
def State.emitSilence (s : State) : State :=
  s.roster.recipients.foldl (fun s r => s.sendDownlink r (.downlinkSilence r.handle r.seq)) s

/-- The row DNk of a listener. -/
def downlinkRow (x : ListenerIx) : Nat := x.val + 1

/-- One uplink voice frame is placed and the uplink sequence advances (R109). -/
def State.emitUplink (s : State) (up : Block) : State :=
  { s with mix := { s.mix with uplinkSeq := s.mix.uplinkSeq + 1 } }.placeUplink
    { seq := s.mix.uplinkSeq, samples := up }

/-- The outputs of a mixing cadence are formed and emitted (R105 to R110). -/
def State.formOutputs (s : State) (far : List Int) (audience : List Recipient) : State :=
  let rows := s.rows far s.laneUnit.handover
  let s := { s with mix := s.mix.countClips rows }
  let s := s.emitUplink (outputBlock (rows.getD 0 []))
  audience.foldl
    (fun s r => s.sendDownlink r (.downlinkAudio r.handle r.seq (outputBlock (rows.getD (downlinkRow r.listener) []))))
    s

/-! ## Directives (R100) -/

/-- SWAP (R100). -/
def State.swapDirective (s : State) : State × Reply :=
  ({ s with mix := { s.mix with swapPending := true } }, .done)

end Sys2Proof.Machine
end

