-- ==== Sys2Proof/Machine/Pairing.lean ====
section
/-! DEFINITION. The Pairing Unit: admission, placement, JOIN, CONFIRM, the confirm countdown, and the
directives EVICT, BOND, OPEN ADMISSION and CLOSE ADMISSION (02_pairing.md). -/

namespace Sys2Proof.Machine

/-- A role code as JOIN and region 8 read it: above MONO is MONO (R32, R153). -/
def roleOf (n : Nat) : Role := if n = 0 then .left else if n = 1 then .right else .mono

/-! ## Admission (R25 to R28) -/

/-- Whether a window matches an air address: enabled, and the top L bits equal (R25). -/
def Window.matches (w : Window) (a : Address) : Bool :=
  w.enable && a.toNat / 2 ^ (24 - w.compareLength.val) == w.base.toNat / 2 ^ (24 - w.compareLength.val)

/-- The lowest-numbered in-use bond entry with an address (R27). -/
def Pairing.bondOf (p : Pairing) (a : Address) : Option (Fin 8) :=
  Config.bondEntries.find? fun i => p.bonds[i].inUse && p.bonds[i].addr == a

/-- The lowest-numbered bond entry not in use (R42). -/
def Pairing.freeBond (p : Pairing) : Option (Fin 8) := Config.bondEntries.find? fun i => !p.bonds[i].inUse

/-- How a JOIN's address stands at admission (R28): bonded through an entry, admitted through a window, or not
admitted. -/
inductive Admission where
  | bonded (entry : Fin 8)
  | window
  | refused
deriving DecidableEq, Repr

/-- Admission of an air address (R28). -/
def Pairing.admission (p : Pairing) (a : Address) : Admission :=
  match p.bondOf a with
  | some i => .bonded i
  | none =>
    if p.admissionOpen && Config.windows.any fun i => p.windows[i].matches a then .window else .refused

/-! ## Placement (R29) -/

/-- Where a bud is placed (R29). -/
inductive Placement where
  | existing (listener : ListenerIx)
  | opened (listener : ListenerIx)
  | refused (reason : RefuseReason)
deriving DecidableEq, Repr

/-- Whether a role conflicts with a listener's members (R29). -/
def Roster.conflicts (r : Roster) (x : ListenerIx) (role : Role) : Bool :=
  let members := r.listeners[x].members
  members.any (fun b => r.buds[b].role == role || r.buds[b].role == .mono) ||
    (role == .mono && !members.isEmpty) || decide (2 ≤ members.length)

/-- A new listener, or FULL (R29). -/
def Roster.placeNew (r : Roster) : Placement :=
  match r.freeListener with
  | some x => .opened x
  | none => .refused .full

/-- Placement of a bud with a set tag and a role (R29). -/
def Roster.place (r : Roster) (tag : Word) (role : Role) : Placement :=
  if tag = 0 then r.placeNew
  else
    match Config.listeners.find? fun x => r.listeners[x].inUse && r.listeners[x].setTag == tag with
    | some x => if r.conflicts x role then .refused .roleTaken else .existing x
    | none => r.placeNew

/-! ## JOIN (R32, R33) -/

/-- What a JOIN presents (R32). -/
structure JoinRequest where
  handle : Handle
  seq : Byte
  addr : Address
  setTag : Word
  role : Role
deriving DecidableEq, Repr

/-- The Roster opens a listener for a set tag (R13). -/
def State.openListener (s : State) (x : ListenerIx) (tag : Word) : State :=
  s.setListener x (Listener.opened s.roster.defaults s.directives.settings.defaultPriority tag)

/-- The Roster allocates a bud record in OFFERED and appends the bud to its listener (R3, R14). The bud number's
discard counters become 0 (R44). -/
def State.allocateBud (s : State) (b : BudIx) (j : JoinRequest) (x : ListenerIx) (bonded : Bool) : State :=
  let s := s.setBud b (Bud.offered j.handle j.addr j.setTag j.role x bonded)
  let s := s.setListener x (s.roster.listeners[x].add b)
  { s with intake := { s.intake with discards := s.intake.discards.set b {} } }

/-- The bond entry's priority comes to the listener (R30): set for a new listener, raised for an existing one. -/
def State.bondPriority (s : State) (x : ListenerIx) (i : Fin 8) (created : Bool) : State :=
  let p := s.pairing.bonds[i].priority
  let l := s.roster.listeners[x]
  if created ∨ l.priority < p then (s.setListener x { l with priority := p }).resortWait else s

/-- The bond entry is refreshed with the set tag and role presented, if region 8 is OPEN (R30). -/
def State.refreshBond (s : State) (i : Fin 8) (j : JoinRequest) : State :=
  if s.directives.modes[8] = .opened then
    { s with
      pairing :=
        { s.pairing with
          bonds := update s.pairing.bonds i fun e => { e with setTag := j.setTag, role := j.role } } }
  else s

/-- Step 3 of the offer (R33). -/
def State.applyBond (s : State) (x : ListenerIx) (a : Admission) (created : Bool) (j : JoinRequest) : State :=
  match a with
  | .bonded i => (s.bondPriority x i created).refreshBond i j
  | .window | .refused => s

/-- Whether an admission is a bonded one (R28). -/
def Admission.isBonded : Admission → Bool
  | .bonded _ => true
  | .window | .refused => false

/-- The context becomes busy (step 4 of R33). -/
def State.fillContext (s : State) (j : JoinRequest) (b : BudIx) (x : ListenerIx) (created : Bool) : State :=
  { s with
    pairing :=
      { s.pairing with
        context :=
          some { handle := j.handle, bud := b, listener := x, created := created,
                 countdown := s.directives.settings.confirmTimeout } } }

/-- Steps 1 to 5 of the offer for bud record `b` (R33). The notice of step 2 is given once the whole act of the
Roster is done (R11). -/
def State.offerAs (s : State) (j : JoinRequest) (b : BudIx) (x : ListenerIx) (created : Bool) (a : Admission) :
    State :=
  let s := if created then s.openListener x j.setTag else s
  let s := (((s.allocateBud b j x a.isBonded).applyBond x a created j).notice x).fillContext j b x created
  s.sendAir (.offer j.handle j.seq b (some x))

/-- The offer (R33), in the lowest-numbered FREE record. A placement always finds one (R29), so the last line is
never reached from a state that keeps R14. -/
def State.offer (s : State) (j : JoinRequest) (x : ListenerIx) (created : Bool) (a : Admission) : State :=
  match s.roster.freeBud with
  | some b => s.offerAs j b x created a
  | none => s.sendAir (.refuse j.handle j.seq .full)

/-- Stages 4 to 6 of R32. -/
def State.admitJoin (s : State) (j : JoinRequest) : State :=
  match s.pairing.admission j.addr with
  | .refused => s.sendAir (.refuse j.handle j.seq .notAdmitted)
  | a =>
    match s.roster.place j.setTag j.role with
    | .refused reason => s.sendAir (.refuse j.handle j.seq reason)
    | .existing x => s.offer j x false a
    | .opened x => s.offer j x true a

/-- Stages 3 to 6 of R32: DEFER while the context is busy. -/
def State.newJoin (s : State) (j : JoinRequest) : State :=
  match s.pairing.context with
  | some _ => s.sendAir (.defer j.handle j.seq s.directives.settings.deferInterval)
  | none => s.admitJoin j

/-- A JOIN taken at the Air Port (R32). -/
def State.joinRequest (s : State) (j : JoinRequest) : State :=
  match s.roster.budByHandle j.handle with
  | some b =>
    if s.roster.buds[b].addr = j.addr then s.sendAir (.offer j.handle j.seq b s.roster.buds[b].listener)
    else (s.freeBud b .handleReused).newJoin j
  | none => s.newJoin j

/-! ## CONFIRM and the countdown (R35, R36) -/

/-- A handshake completes (R35). -/
def State.completeHandshake (s : State) (c : Context) : State :=
  let r := s.roster.buds[c.bud]
  let s := ((s.setBud c.bud r.confirmed).emptyContext).noticeFor r.listener
  s.postEvent (.joined c.bud c.listener r.addr r.bonded c.created)

/-- A CONFIRM taken at the Air Port (R35). -/
def State.confirmRequest (s : State) (h : Handle) (seq : Byte) : State :=
  match s.pairing.context with
  | some c => if c.handle = h then s.completeHandshake c else s.sendAir (.refuse h seq .noOffer)
  | none => s.sendAir (.refuse h seq .noOffer)

/-- The confirm countdown at a cadence; at 0 the handshake lapses (R36). -/
def State.countdown (s : State) : State :=
  match s.pairing.context with
  | none => s
  | some c =>
    let s := { s with pairing := { s.pairing with context := some { c with countdown := c.countdown - 1 } } }
    if c.countdown ≤ 1 then s.freeBud c.bud .confirmTimeout else s

/-! ## Directives of the Pairing Unit (R26, R41, R42) -/

/-- The admission-open flag is set (R26). -/
def State.setAdmission (s : State) (isOpen : Bool) : State :=
  { s with pairing := { s.pairing with admissionOpen := isOpen } }

/-- A bud number operand, 1..8 (R41, R42). -/
def budOperand (n : Byte) : Option BudIx :=
  if h : 1 ≤ n.toNat ∧ n.toNat ≤ 8 then some ⟨n.toNat - 1, by omega⟩ else none

/-- EVICT's effect on a bud that is not FREE (R41). -/
def State.evictBud (s : State) (b : BudIx) : State :=
  match s.roster.buds[b].handle with
  | some h => (s.sendAir (.dismiss h b)).freeBud b .evict
  | none => s.freeBud b .evict

/-- EVICT (R41). -/
def State.evictDirective (s : State) (n : Byte) : State × Reply :=
  match budOperand n with
  | none => (s, .refused .range)
  | some b => if s.roster.buds[b].link = .free then (s, .refused .state) else (s.evictBud b, .done)

/-- The bond entry a BOND uses: the one that holds the address, or else the lowest not in use (R42). -/
def Pairing.bondTarget (p : Pairing) (a : Address) : Option (Fin 8) := (p.bondOf a).or p.freeBond

/-- The priority of the listener a record names. -/
def State.recordPriority (s : State) (r : Bud) : Fin 4 :=
  match r.listener with
  | some x => s.roster.listeners[x].priority
  | none => 0

/-- A bud is entered into a bond entry, and its bonded flag set (R42). -/
def State.enterBond (s : State) (b : BudIx) (i : Fin 8) : State :=
  let r := s.roster.buds[b]
  let e : BondEntry :=
    { inUse := true, addr := r.addr, setTag := r.setTag, role := r.role, priority := s.recordPriority r }
  { s.setBud b { r with bonded := true } with pairing := { s.pairing with bonds := s.pairing.bonds.set i e } }

/-- BOND (R42), its checks in order. -/
def State.bondDirective (s : State) (n : Byte) : State × Reply :=
  match budOperand n with
  | none => (s, .refused .range)
  | some b =>
    if s.directives.modes[8] ≠ .opened then (s, .refused .protection)
    else if s.roster.buds[b].link = .free then (s, .refused .state)
    else
      match s.pairing.bondTarget s.roster.buds[b].addr with
      | none => (s, .refused .full)
      | some i => (s.enterBond b i, .done)

/-- OPEN ADMISSION and CLOSE ADMISSION (R26). -/
def State.admissionDirective (s : State) (isOpen : Bool) : State × Reply :=
  if s.directives.modes[7] = .opened then (s.setAdmission isOpen, .done) else (s, .refused .protection)

end Sys2Proof.Machine
end

