-- ==== Sys2Proof/Machine/Call.lean ====
section
/-! DEFINITION. The Call Controller: cadences as every block takes them, automatic hold, and the call-control
directives (07_call_control_and_cadence.md). -/

namespace Sys2Proof.Machine

/-- The cadence timer is armed (R116). -/
def State.armTimer (s : State) (i : TimerInterval) : State :=
  { s with callCtl := { s.callCtl with timer := some i } }

/-- The consecutive-fill count becomes 0 (R120). -/
def State.zeroFills (s : State) : State := { s with callCtl := { s.callCtl with fills := 0 } }

/-- The call state changes, and CALL STATE is posted (R126). -/
def State.changeCall (s : State) (new : CallState) (cause : ChangeCause) : State :=
  { s with callCtl := { s.callCtl with state := new } }.postEvent (.callState new s.callCtl.state cause)

/-- A fill is counted (R120). -/
def State.countFill (s : State) : State :=
  { s with
    callCtl :=
      { s.callCtl with
        fills := satInc Config.runMax s.callCtl.fills
        fillTotal := satInc Config.counterMax s.callCtl.fillTotal } }

/-- A voice frame is discarded and counted (R127). -/
def State.discardVoice (s : State) : State :=
  { s with callCtl := { s.callCtl with discardedVoice := satInc Config.counterMax s.callCtl.discardedVoice } }

/-- The automatic hold (R121). -/
def State.autoHold (s : State) : State := ((s.zeroFills).changeCall (.holding .auto) .fillTimeout).lanesHold

/-! ## Call-control directives (R122 to R125) -/

/-- BEGIN CALL (R122). -/
def State.beginCallDirective (s : State) : State × Reply :=
  match s.callCtl.state with
  | .noCall =>
    let s := { s with callCtl := { s.callCtl with fills := 0, fillTotal := 0, timer := some .ms7_5 } }
    ((s.changeCall .inCall .beginCall).lanesEnter true, .done)
  | .inCall | .holding _ => (s, .refused .state)

/-- END CALL (R123). -/
def State.endCallDirective (s : State) : State × Reply :=
  match s.callCtl.state with
  | .inCall | .holding _ => (((s.zeroFills.armTimer .ms5).changeCall .noCall .endCall).lanesEnd, .done)
  | .noCall => (s, .refused .state)

/-- HOLD (R124). -/
def State.holdDirective (s : State) : State × Reply :=
  match s.callCtl.state with
  | .inCall => (((s.zeroFills.armTimer .ms5).changeCall (.holding .directed) .hold).lanesHold, .done)
  | .holding .auto => (s.changeCall (.holding .directed) .hold, .done)
  | .noCall | .holding .directed => (s, .refused .state)

/-- RESUME (R125). -/
def State.resumeDirective (s : State) : State × Reply :=
  match s.callCtl.state with
  | .holding .directed => (((s.zeroFills.armTimer .ms7_5).changeCall .inCall .resume).lanesEnter false, .done)
  | .noCall | .inCall | .holding .auto => (s, .refused .state)

/-- A call-control directive is taken: its code, its checks and its effect (R122 to R125, R146, R147). -/
def State.takeCall (s : State) (what : CallDirective) (seq : Byte) (payload : List Byte) : State :=
  match what with
  | .beginCall => s.takeDirective 5 seq payload (answered State.beginCallDirective)
  | .endCall => s.takeDirective 6 seq payload (answered State.endCallDirective)
  | .hold => s.takeDirective 7 seq payload (answered State.holdDirective)
  | .resume => s.takeDirective 8 seq payload (answered State.resumeDirective)

/-! ## A cadence -/

/-- A cadence under way: `taken` holds the recipients read when the Mix Engine took a mixing cadence in IN CALL;
`handed` says that the Lane Unit has taken it. Outputs wait for both (R104). `due` says that the fill has reached the
auto-hold timeout and the hold has still to be taken (R121). -/
structure Cadence where
  state : State
  due : Bool
  taken : Option (List Recipient)
  handed : Bool

/-- What is fixed for a cadence: its kind, its far-end samples, and the lane states it finds when they are not
those that stand when the Lane Unit takes it (R118). -/
structure CadenceInput where
  kind : CadenceKind
  far : List Int
  lanesBefore : Option (Vector LaneState 3)
  lanes : List LaneIx
  buds : List BudIx

/-- The Mix Engine takes the cadence (the table of R104). -/
def Cadence.takeMix (c : Cadence) (kind : CadenceKind) : Cadence :=
  let s := c.state.takeSwap
  match kind, s.callCtl.state with
  | .voice, .inCall | .fill, .inCall => { c with state := s, taken := some s.roster.recipients }
  | _, .holding _ => { c with state := s.emitSilence }
  | .idle, .inCall | _, .noCall => { c with state := s }

/-- The Lane Unit takes the cadence (R72); an idle one causes nothing. -/
def Cadence.takeLanes (c : Cadence) (i : CadenceInput) : Cadence :=
  match i.kind with
  | .idle => c
  | .voice | .fill =>
    { c with
      state := c.state.lanesTake (i.lanesBefore.getD c.state.laneUnit.states) (visitOrder i.lanes Config.lanes)
      handed := true }

/-- The Mix Engine forms and emits the outputs, once it and the Lane Unit have taken the cadence (R104). -/
def Cadence.form (c : Cadence) (far : List Int) : Cadence :=
  match c.taken with
  | some audience => if c.handed then { c with state := c.state.formOutputs far audience, taken := none } else c
  | none => c

/-- The automatic hold, if it is due and has not been taken (R121). -/
def Cadence.takeHold (c : Cadence) : Cadence := if c.due then { c with state := c.state.autoHold, due := false } else c

/-- A call-control directive comes between the blocks' acts (R104). The Call Controller compared the fill count at the fill,
so a hold that is due comes first (R121). -/
def Cadence.takeCall (c : Cadence) (what : CallDirective) (seq : Byte) : Cadence :=
  { c.takeHold with state := c.takeHold.state.takeCall what seq [] }

/-- One act of a cadence. -/
def Cadence.act (i : CadenceInput) (c : Cadence) : CadenceAct → Cadence
  | .supervise => { c with state := c.state.supervise (visitOrder i.buds Config.buds) }
  | .countdown => { c with state := c.state.countdown }
  | .lanes => c.takeLanes i
  | .mix => c.takeMix i.kind
  | .form => c.form i.far
  | .hold => c.takeHold
  | .call what seq => c.takeCall what seq

/-- The acts of a cadence: every block's, the automatic hold, and the directives that an order brings in. -/
def cadenceActs (order : List CadenceAct) : List CadenceAct :=
  [.supervise, .countdown, .lanes, .mix, .form, .hold] ++ order.filter CadenceAct.isCall

/-- Every block takes a cadence, in the order given (R117). Outputs not formed by then are formed last, and the
handover has served. `due` as in `Cadence`. -/
def State.runCadence (s : State) (i : CadenceInput) (due : Bool) (order : List CadenceAct) : State :=
  let start : Cadence := { state := s, due := due, taken := none, handed := false }
  (((visitOrder order (cadenceActs order)).foldl (Cadence.act i) start).form i.far).state.clearHandover

/-- A fill cadence (R117, R120), with the automatic hold when the count reaches the timeout (R121). -/
def State.fillCadence (s : State) (o : CadenceOrder) : State :=
  let s := s.countFill.armTimer .ms5
  s.runCadence { kind := .fill, far := silentSource, lanesBefore := none, lanes := o.lanes, buds := o.buds }
    (decide (s.directives.settings.autoHold ≤ s.callCtl.fills)) o.acts

/-- An idle cadence (R117). -/
def State.idleCadence (s : State) (o : CadenceOrder) : State :=
  (s.armTimer .ms5).runCadence
    { kind := .idle, far := silentSource, lanesBefore := none, lanes := o.lanes, buds := o.buds } false o.acts

/-- An expiry of the cadence timer (R117). With the timer not armed there is no expiry. -/
def State.timerExpiry (s : State) (o : CadenceOrder) : State :=
  match s.callCtl.timer, s.callCtl.state with
  | none, _ => s
  | some _, .inCall => s.fillCadence o
  | some _, .noCall | some _, .holding _ => s.idleCadence o

/-- A voice cadence (R118); `lanesBefore` as in `CadenceInput`. -/
def State.voiceCadence (s : State) (far : Block) (before : Option (Vector LaneState 3)) (o : CadenceOrder) :
    State :=
  (s.zeroFills.armTimer .ms7_5).runCadence
    { kind := .voice, far := blockInts far, lanesBefore := before, lanes := o.lanes, buds := o.buds } false o.acts

/-- A far-end voice frame taken by the Call Controller (R118). -/
def State.voiceFrame (s : State) (far : Block) (o : CadenceOrder) : State :=
  match s.callCtl.state with
  | .inCall => s.voiceCadence far none o
  | .holding .auto =>
    ((s.zeroFills.changeCall .inCall .voiceReturned).lanesEnter false).voiceCadence far
      (some s.laneUnit.states) o
  | .holding .directed | .noCall => s.discardVoice

/-- Whether the next fill would bring the count to the auto-hold timeout (R121). -/
def State.fillTimeoutDue (s : State) : Bool :=
  s.callCtl.state == .inCall && s.callCtl.timer.isSome &&
    decide (s.directives.settings.autoHold ≤ satInc Config.runMax s.callCtl.fills)

end Sys2Proof.Machine
end

