-- ==== Sys2Proof/Machine/Operands.lean ====
section
/-! DEFINITION. Codes and operand forms: how fields stand in words and bytes, and how a written value is read
(R143, R144, R149, R153). -/

namespace Sys2Proof.Machine

/-- A number of a record, 0 for absent or none (R149). -/
def numberOf {n : Nat} : Option (Fin n) → Nat
  | none => 0
  | some i => i.val + 1

/-- A record by its index; the callers keep the index in range. -/
def pick {α : Type} {n : Nat} [NeZero n] (v : Vector α n) (k : Nat) : α := v[Fin.ofNat n k]

/-- A yes/no field: 1 for yes (R149). -/
def flagCode (b : Bool) : Nat := if b then 1 else 0

/-- Link state codes (R149). -/
def LinkState.code : LinkState → Nat
  | .free => 0 | .offered => 1 | .joining => 2 | .live => 3 | .fading => 4 | .parked => 5

/-- Talk state codes (R149). -/
def Talk.code : Talk → Nat
  | .silent => 0 | .talking => 1

/-- Role codes (R149). -/
def Role.code : Role → Nat
  | .left => 0 | .right => 1 | .mono => 2

/-- Lane state codes (R149). -/
def LaneState.code : LaneState → Nat
  | .vacant => 0 | .priming => 1 | .mixing => 2 | .draining => 3

/-- Call state codes (R144). -/
def CallState.code : CallState → Nat
  | .noCall => 0 | .inCall => 1 | .holding _ => 2

/-- Hold cause codes, 0 for absent (R144). -/
def CallState.holdCode : CallState → Nat
  | .holding .directed => 1 | .holding .auto => 2 | .noCall | .inCall => 0

/-- Change cause codes (R144). -/
def ChangeCause.code : ChangeCause → Nat
  | .beginCall => 1 | .endCall => 2 | .hold => 3 | .resume => 4 | .fillTimeout => 5 | .voiceReturned => 6

/-- Mode codes (R149). -/
def Mode.code : Mode → Nat
  | .opened => 0 | .readOnly => 1 | .hidden => 2

/-- A mode from a written or loaded value: 2 or more is HIDDEN (R153, R163). -/
def modeOf (n : Nat) : Mode := if n = 0 then .opened else if n = 1 then .readOnly else .hidden

/-- REFUSE reason codes (R143). -/
def RefuseReason.code : RefuseReason → Nat
  | .notAdmitted => 1 | .roleTaken => 2 | .full => 3 | .noOffer => 4

/-- REFUSED reason codes (R144). -/
def RefusedReason.code : RefusedReason → Nat
  | .unknown => 1 | .format => 2 | .range => 3 | .fixed => 4 | .protection => 5 | .state => 6 | .busy => 7 | .full => 8

/-- Start cause codes (R144). -/
def StartCause.code : StartCause → Nat
  | .powerUp => 1 | .restart => 2

/-- Store operation codes (R144). -/
def StoreOp.code : StoreOp → Nat
  | .store => 1 | .erase => 2

/-- LANE DENIED cause codes (R144). -/
def DeniedCause.code : DeniedCause → Nat
  | .noLane => 1 | .preempted => 2

/-- A word of the table space from a number. -/
def wordNat (n : Nat) : Word := BitVec.ofNat 16 n

/-- A word with two one-byte fields: the first plus 256 times the second (R149). -/
def wordPair (low high : Nat) : Word := BitVec.ofNat 16 (low + 256 * high)

/-- The words carried in a payload, each low byte first (R130, R152). -/
def payloadWords : List Byte → List Word
  | lo :: hi :: rest => wordOf lo hi :: payloadWords rest
  | _ => []

/-- The payload's byte at a place. -/
def payloadByte (p : List Byte) (i : Nat) : Byte := p.getD i 0

/-- A written primary bud: clamped to 0..8, 0 for none (R16). -/
def primaryOf (n : Nat) : Option BudIx :=
  if n = 0 then none else some ⟨min (n - 1) 7, by omega⟩

/-- The code of every directive of R147's table is in 1..19. -/
def directiveKnown (code : Byte) : Bool := decide (1 ≤ code.toNat) && decide (code.toNat ≤ 19)

end Sys2Proof.Machine
end

