-- ==== Sys2Proof/Machine/Tables.lean ====
section
/-! DEFINITION. The table space: regions, reads, writes, the pointer and protection
(09_directives_and_the_table_space.md sections 9.2 to 9.5). -/

namespace Sys2Proof.Machine

/-- The word count of a region (R148). -/
def regionCount (r : RegionIx) : Nat := Config.regionWords.getD r.val 0

/-- The fixed regions (R148). -/
def regionFixed (r : RegionIx) : Bool := [0, 1, 4, 10, 11, 12].contains r.val

/-- The protection mode of a region; region 13 has none and reads as OPEN (R149, R156). -/
def DirectiveUnit.modeOf (d : DirectiveUnit) (r : RegionIx) : Mode :=
  if r.val < 13 then pick d.modes r.val else if r.val = 14 then pick d.modes 13 else .opened

/-- Whether a WRITE to a region is refused as PROTECTED (step 3 of R152). -/
def DirectiveUnit.writeProtected (d : DirectiveUnit) (r : RegionIx) : Bool :=
  if r.val = 13 then d.lock else d.modeOf r != .opened

/-- A setting by its word number (R154). -/
def Settings.word (s : Settings) (i : Nat) : Nat :=
  [s.joinThreshold, s.fadeThreshold, s.lostThreshold, s.hangover, s.targetDepth, s.confirmTimeout,
    s.deferInterval, s.autoHold, s.defaultPriority].getD i 0

/-- A setting is written, clamped to its range (R153, R154). -/
def Settings.setWord (s : Settings) (i n : Nat) : Settings :=
  let v := clampSetting i n
  match i with
  | 0 => { s with joinThreshold := v }
  | 1 => { s with fadeThreshold := v }
  | 2 => { s with lostThreshold := v }
  | 3 => { s with hangover := v }
  | 4 => { s with targetDepth := v }
  | 5 => { s with confirmTimeout := v }
  | 6 => { s with deferInterval := v }
  | 7 => { s with autoHold := v }
  | 8 => { s with defaultPriority := v }
  | _ => s

/-! ## Reading (R149) -/

/-- Region 1, per bud. -/
def Bud.word (b : Bud) : Nat → Word
  | 0 => wordPair b.link.code b.talk.code
  | 1 => wordPair (match b.handle with | some h => h.val | none => 0) (numberOf b.listener)
  | 2 => wordNat (addressHigh b.addr).toNat
  | 3 => addressLow b.addr
  | 4 => b.setTag
  | 5 => wordPair b.role.code (flagCode b.bonded)
  | 6 => wordPair b.goodRun b.missRun
  | _ => wordPair b.silenceRun b.dlSeq.toNat

/-- Region 2, per listener. -/
def Listener.word (l : Listener) : Nat → Word
  | 0 => wordNat (flagCode l.inUse)
  | 1 => l.setTag
  | 2 => wordPair (numberOf l.members[0]?) (numberOf l.members[1]?)
  | 3 => wordPair (numberOf l.primary) (flagCode l.stale)
  | 4 => wordNat l.priority.val
  | 5 => wordPair l.volume.val l.sidetone.val
  | 6 => wordPair l.micGain.val (flagCode l.mute)
  | _ => wordNat (flagCode l.budControls)

/-- Region 7, per window. -/
def Window.word (w : Window) : Nat → Word
  | 0 => wordNat (flagCode w.enable)
  | 1 => wordNat (addressHigh w.base).toNat
  | 2 => addressLow w.base
  | _ => wordNat w.compareLength.val

/-- Region 8, per entry. -/
def BondEntry.word (e : BondEntry) : Nat → Word
  | 0 => wordNat (flagCode e.inUse)
  | 1 => wordNat (addressHigh e.addr).toNat
  | 2 => addressLow e.addr
  | 3 => e.setTag
  | 4 => wordNat e.role.code
  | _ => wordNat e.priority.val

/-- Region 10. -/
def State.counterWord (s : State) (i : Nat) : Nat :=
  if i < 24 then
    let d := pick s.intake.discards (i / 3)
    [d.late, d.duplicate, d.overflow].getD (i % 3) 0
  else
    ([s.airPort.malformed, s.airPort.stray, s.airPort.drops, s.voicePort.malformed] ++ s.mix.clips.toList ++
      [s.callCtl.discardedVoice, s.directives.reportsLost]).getD (i - 24) 0

/-- Region 11, per lane. -/
def Lane.word (l : Lane) : Nat → Word
  | 0 => wordNat l.state.code
  | 1 => wordNat (numberOf l.bud)
  | 2 => wordNat (numberOf l.listener)
  | 3 => wordNat (numberOf l.reservedFor)
  | 4 => match l.expected with | some x => wordNat x.toNat | none => wordNat 32768
  | 5 => BitVec.ofInt 16 ((l.step : Int) - 65536)
  | 6 => wordNat l.slips
  | _ => wordNat l.conceals

/-- Region 12. -/
def CallCtl.word (c : CallCtl) : Nat → Word
  | 0 => wordNat c.state.code
  | 1 => wordNat c.state.holdCode
  | 2 => wordNat c.fills
  | _ => wordNat c.fillTotal

/-- The word of a region at an index, as its owner holds it (R148, R149). -/
def State.readWord (s : State) (r : RegionIx) (i : Nat) : Word :=
  match r.val with
  | 0 => wordNat (Config.identity.getD i 0)
  | 1 => (pick s.roster.buds (i / 8)).word (i % 8)
  | 2 => (pick s.roster.listeners (i / 8)).word (i % 8)
  | 3 => wordNat (pick s.mix.staging i).val
  | 4 => wordNat (pick s.mix.active i).val
  | 5 => wordNat (pick s.mix.curve i).val
  | 6 => wordNat (pick s.mix.openMic i).val
  | 7 => if i < 16 then (pick s.pairing.windows (i / 4)).word (i % 4) else wordNat (flagCode s.pairing.admissionOpen)
  | 8 => (pick s.pairing.bonds (i / 6)).word (i % 6)
  | 9 => wordNat (s.directives.settings.word i)
  | 10 => wordNat (s.counterWord i)
  | 11 => (pick s.laneUnit.lanes (i / 8)).word (i % 8)
  | 12 => s.callCtl.word i
  | 13 => if i < 14 then wordNat (pick s.directives.modes i).code else wordNat (flagCode s.directives.lock)
  | _ => wordOf (pick s.store.staging (2 * i)) (pick s.store.staging (2 * i + 1))

/-- A run of words (R151). -/
def State.readRun (s : State) (r : RegionIx) (start n : Nat) : List Word :=
  (List.range n).map fun k => s.readWord r (start + k)

/-! ## Writing (R153) -/

/-- A word of a listener record (R16, R153). -/
def Listener.setWord (l : Listener) (j : Nat) (w : Word) : Listener :=
  match j with
  | 3 => { l with primary := primaryOf (lowByte w).toNat }
  | 4 => { l with priority := clampPriority w.toNat }
  | 5 => { l with volume := clampIndex (lowByte w).toNat, sidetone := clampIndex (highByte w).toNat }
  | 6 => { l with micGain := clampIndex (lowByte w).toNat, mute := highByte w != 0 }
  | 7 => { l with budControls := w != 0 }
  | _ => l

/-- An address high part from a written word: clamped to 0..255 (R25). -/
def highOf (w : Word) : Byte := BitVec.ofNat 8 (min w.toNat 255)

/-- A word of an admission window (R25, R153). -/
def Window.setWord (v : Window) (j : Nat) (w : Word) : Window :=
  match j with
  | 0 => { v with enable := w != 0 }
  | 1 => { v with base := addressOf (highOf w) (addressLow v.base) }
  | 2 => { v with base := addressOf (addressHigh v.base) w }
  | 3 => { v with compareLength := clampLength w.toNat }
  | _ => v

/-- A word of a bond entry (R27, R153). -/
def BondEntry.setWord (e : BondEntry) (j : Nat) (w : Word) : BondEntry :=
  match j with
  | 0 => { e with inUse := w != 0 }
  | 1 => { e with addr := addressOf (highOf w) (addressLow e.addr) }
  | 2 => { e with addr := addressOf (addressHigh e.addr) w }
  | 3 => { e with setTag := w }
  | 4 => { e with role := roleOf w.toNat }
  | 5 => { e with priority := clampPriority w.toNat }
  | _ => e

/-- A cell of the staging bank: a fixed cell stays 0 (R99), any other clamps to 0..63. -/
def Mix.setCell (m : Mix) (i : Nat) (n : Nat) : Mix :=
  if fixedCell i then m else { m with staging := update m.staging (Fin.ofNat 25 i) fun _ => clampIndex n }

/-- A word of region 13 (R153, R157). -/
def DirectiveUnit.setProtection (d : DirectiveUnit) (i : Nat) (n : Nat) : DirectiveUnit :=
  if i < 14 then { d with modes := update d.modes (Fin.ofNat 14 i) fun _ => Machine.modeOf n }
  else { d with lock := n != 0 }

/-- A word of the staging page (R149). -/
def Store.setStaging (t : Store) (i : Nat) (w : Word) : Store :=
  { t with
    staging := (t.staging.set (Fin.ofNat 16 (2 * i)) (lowByte w)).set (Fin.ofNat 16 (2 * i + 1)) (highByte w) }

/-- One word of a carried-out WRITE is applied to its place (R153). -/
def State.writeWord (s : State) (r : RegionIx) (i : Nat) (w : Word) : State :=
  match r.val with
  | 2 =>
    { s with
      roster :=
        { s.roster with
          listeners := update s.roster.listeners (Fin.ofNat 4 (i / 8)) fun l => l.setWord (i % 8) w } }
  | 3 => { s with mix := s.mix.setCell i w.toNat }
  | 5 => { s with mix := { s.mix with curve := update s.mix.curve (Fin.ofNat 64 i) fun _ => clampGain w.toNat } }
  | 6 => { s with mix := { s.mix with openMic := update s.mix.openMic (Fin.ofNat 4 i) fun _ => clampGain w.toNat } }
  | 7 =>
    if i < 16 then
      { s with
        pairing :=
          { s.pairing with
            windows := update s.pairing.windows (Fin.ofNat 4 (i / 4)) fun v => v.setWord (i % 4) w } }
    else s.setAdmission (w != 0)
  | 8 =>
    { s with
      pairing :=
        { s.pairing with
          bonds := update s.pairing.bonds (Fin.ofNat 8 (i / 6)) fun e => e.setWord (i % 6) w } }
  | 9 =>
    { s with directives := { s.directives with settings := s.directives.settings.setWord i w.toNat } }
  | 13 => { s with directives := s.directives.setProtection i w.toNat }
  | 14 => { s with store := s.store.setStaging i w }
  | _ => s

/-- The words of a run are applied in order (R153). -/
def State.writeWords (s : State) (r : RegionIx) : Nat → List Word → State
  | _, [] => s
  | i, w :: ws => (s.writeWord r i w).writeWords r (i + 1) ws

/-- What the owners do once a whole run is written (R16, R69, R148): the wait list is re-sorted for a change of
priority, and the Lane Unit is told of a change of mute or primary, the listeners in number order: once after the run and in this
order by the model's choice (log entry 9). -/
def State.afterWrite (s : State) (old : Vector Listener 4) : State :=
  let changed := fun x : ListenerIx => old[x].priority != s.roster.listeners[x].priority
  let s := if Config.listeners.any changed then s.resortWait else s
  Config.listeners.foldl
    (fun s x =>
      if old[x].mute = s.roster.listeners[x].mute ∧ old[x].primary = s.roster.listeners[x].primary then s
      else s.notice x)
    s

/-! ## The table directives (R150 to R155) -/

/-- The pointer is set. -/
def State.setPointer (s : State) (r : RegionIx) (i : Nat) : State :=
  { s with directives := { s.directives with region := r, index := i } }

/-- POINT's operands: a region of the table space and an index within it (R150). -/
def pointTarget (region index : Byte) : Option (RegionIx × Nat) :=
  if h : region.toNat < 15 then
    let r : RegionIx := ⟨region.toNat, h⟩
    if index.toNat < regionCount r then some (r, index.toNat) else none
  else none

/-- POINT (R150). -/
def State.pointDirective (s : State) (p : List Byte) : State × Reply :=
  match pointTarget (payloadByte p 0) (payloadByte p 1) with
  | some (r, i) => (s.setPointer r i, .done)
  | none => (s, .refused .range)

/-- READ (R151), its checks in order. -/
def State.readDirective (s : State) (p : List Byte) : State × Reply :=
  let n := (payloadByte p 0).toNat
  let r := s.directives.region
  let i := s.directives.index
  if n < 1 ∨ 32 < n then (s, .refused .format)
  else if regionCount r < i + n then (s, .refused .range)
  else if s.directives.modeOf r = .hidden then (s, .refused .protection)
  else (s.setPointer r (i + n), .data r i (s.readRun r i n))

/-- The mask merge: the old word's bit where the mask has a 1, the written word's where it has a 0 (R155). -/
def mergeMask (mask old written : Word) : Word := (old &&& mask) ||| (written &&& ~~~mask)

/-- The words a WRITE applies: its own, or the merged word for a masked one-word WRITE (R155). -/
def State.wordsToWrite (s : State) (mask : Option Word) (ws : List Word) : List Word :=
  match mask, ws with
  | some m, [w] => [mergeMask m (s.readWord s.directives.region s.directives.index) w]
  | _, _ => ws

/-- WRITE (R152); `mask` is the pending mask it consumed (R155). -/
def State.writeDirective (s : State) (mask : Option Word) (p : List Byte) : State × Reply :=
  let ws := payloadWords p
  let r := s.directives.region
  let i := s.directives.index
  if regionCount r < i + ws.length then (s, .refused .range)
  else if s.directives.writeProtected r then (s, .refused .protection)
  else if regionFixed r then (s, .refused .fixed)
  else
    let t := (s.writeWords r i (s.wordsToWrite mask ws)).afterWrite s.roster.listeners
    (t.setPointer r (i + ws.length), .done)

/-- MASK (R155). -/
def State.maskDirective (s : State) (p : List Byte) : State × Reply :=
  ({ s with directives := { s.directives with mask := some (wordOf (payloadByte p 0) (payloadByte p 1)) } }, .done)

end Sys2Proof.Machine
end

