-- ==== Sys2Proof/Machine/Flags.lean ====
section
/-! DEFINITION. Counters and indications seen together: CLEAR COUNTERS and STATUS (R158, R159). -/

namespace Sys2Proof.Machine

/-- The counters of a lane become 0 (R81). -/
def Lane.clearCounters (l : Lane) : Lane := { l with slips := 0, conceals := 0 }

/-- Every counter that CLEAR COUNTERS names becomes 0, in one act (R158). -/
def State.clearCounters (s : State) : State :=
  { s with
    intake := { s.intake with discards := Vector.replicate 8 {} }
    airPort := { s.airPort with malformed := 0, stray := 0, drops := 0 }
    voicePort := { s.voicePort with malformed := 0 }
    mix := { s.mix with clips := Vector.replicate 5 0 }
    callCtl := { s.callCtl with discardedVoice := 0, fillTotal := 0 }
    directives := { s.directives with reportsLost := 0 }
    laneUnit := { s.laneUnit with lanes := s.laneUnit.lanes.map Lane.clearCounters } }

/-- CLEAR COUNTERS (R158). -/
def State.clearCountersDirective (s : State) : State × Reply :=
  if s.directives.modes[10] = .opened then (s.clearCounters, .done) else (s, .refused .protection)

/-- STATUS words 3 to 5 (R144). -/
def contextWords : Option Context → List Nat
  | none => [0, 0, 0]
  | some c => [1, c.handle.val, c.bud.val + 1]

/-- STATUS words 6 and 7 (R144). -/
def StoreState.words : StoreState → List Nat
  | .idle => [0, 0]
  | .programming p _ => [1, p.val]
  | .erasing p => [2, p.val]

/-- STATUS words 15 to 22: the wait-list entries in list order, unused pairs 0 (R144). -/
def waitWords (w : List WaitEntry) : List Nat :=
  ((w.flatMap fun e : WaitEntry => [e.listener.val + 1, e.bud.val + 1]) ++ List.replicate 8 0).take 8

/-- The 24 STATUS words (R144, R159). -/
def State.statusWords (s : State) : List Word :=
  ([s.callCtl.state.code, s.callCtl.state.holdCode, flagCode s.mix.swapPending] ++
    contextWords s.pairing.context ++ s.store.state.words ++ [flagCode s.store.restartPending] ++
    [s.laneUnit.evictPtr.val + 1] ++ s.laneUnit.speaking.toList.map numberOf ++
    [s.laneUnit.waitList.length] ++ waitWords s.laneUnit.waitList ++
    [flagCode s.pairing.admissionOpen]).map wordNat

/-- STATUS (R159). -/
def State.statusDirective (s : State) : State × Reply := (s, .status s.statusWords)

end Sys2Proof.Machine
end

