-- ==== Sys2Proof/Machine/StoreCtl.lean ====
section
/-! DEFINITION. The Store Controller and start-up: page layouts, loading, STORE PAGE, ERASE PAGE, LOAD PAGE,
completion, RESTART and power (10_profile_store_and_start_up.md). -/

namespace Sys2Proof.Machine

/-! ## Page layouts and loading (R165, R166) -/

/-- A byte of a page image. -/
def pageByte (p : Page) (i : Nat) : Byte := pick p i

/-- A word of a page image, low byte first (R165). -/
def pageWord (p : Page) (i : Nat) : Word := wordOf (pageByte p (2 * i)) (pageByte p (2 * i + 1))

/-- The store's pages. -/
abbrev Pages := Vector (Option Page) 21

/-- Page 0: the modes, in the word order of region 13, or every mode OPEN (R163, R165). -/
def loadModes (pages : Pages) : Vector Mode 14 :=
  match pages[0] with
  | some p => Vector.ofFn fun i => Machine.modeOf (pageByte p i.val).toNat
  | none => Vector.replicate 14 .opened

/-- Byte 14 of a written page 0 (R165, R167). -/
def pageZeroLocked (pages : Pages) : Bool :=
  match pages[0] with
  | some p => pageByte p 14 != 0
  | none => false

/-- Window `i` from its four words on page 1 or 2 (R165). -/
def loadWindow (pages : Pages) (i : Fin 4) : Window :=
  match pick pages (1 + i.val / 2) with
  | some p => [0, 1, 2, 3].foldl (fun w j => w.setWord j (pageWord p (4 * (i.val % 2) + j))) {}
  | none => {}

/-- Word `w` of region 8 as the store holds it, none on a blank page (R165). -/
def bondWord (pages : Pages) (w : Nat) : Option Word := (pick pages (3 + w / 8)).map fun p => pageWord p (w % 8)

/-- Bond entry `i`: loaded from its six words, or whole with the blank defaults when any of them lies on a blank
page (R166). -/
def loadBond (pages : Pages) (i : Fin 8) : BondEntry :=
  match [0, 1, 2, 3, 4, 5].mapM fun j => bondWord pages (6 * i.val + j) with
  | some ws => (ws.zipIdx).foldl (fun e w => e.setWord w.2 w.1) {}
  | none => {}

/-- Gain curve entry `i` (R115, R165). -/
def loadGain (pages : Pages) (i : Fin 64) : Gain :=
  match pick pages (9 + i.val / 8) with
  | some p => clampGain (pageWord p (i.val % 8)).toNat
  | none => defaultGain i.val

/-- The open-mic table (R115, R165). -/
def loadOpenMic (pages : Pages) : Vector Gain 4 :=
  match pages[17] with
  | some p => Vector.ofFn fun i => clampGain (pageWord p i.val).toNat
  | none => defaultOpenMic

/-- The listener defaults (R165, R166). -/
def loadDefaults (pages : Pages) : ListenerDefaults :=
  match pages[17] with
  | some p =>
    { volume := clampIndex (pageByte p 8).toNat, sidetone := clampIndex (pageByte p 9).toNat,
      micGain := clampIndex (pageByte p 10).toNat, mute := pageByte p 11 != 0, budControls := pageByte p 12 != 0 }
  | none => builtInListener

/-- The settings (R154, R165). -/
def loadSettings (pages : Pages) : Settings :=
  match pages[18] with
  | some p =>
    [0, 1, 2, 3, 4, 5, 6, 7, 8].foldl (fun s i => s.setWord i (pageByte p i).toNat) defaultSettings
  | none => defaultSettings

/-- Mix cell `i`: cells 0..15 on page 19, 16..24 on page 20; a fixed cell is 0 (R115, R165, R166). -/
def loadCell (pages : Pages) (i : Fin 25) : GainIx :=
  if fixedCell i.val then 0
  else
    match if i.val < 16 then (pages[19]).map (pageByte · i.val) else (pages[20]).map (pageByte · (i.val - 16)) with
    | some b => clampIndex b.toNat
    | none => defaultCell i.val

/-- Every page read into the tables it holds (stage 3 of R174). -/
def loadTables (pages : Pages) : Tables where
  modes := loadModes pages
  lock := pageZeroLocked pages
  windows := Vector.ofFn (loadWindow pages)
  bonds := Vector.ofFn (loadBond pages)
  curve := Vector.ofFn (loadGain pages)
  openMic := loadOpenMic pages
  defaults := loadDefaults pages
  settings := loadSettings pages
  mix := Vector.ofFn (loadCell pages)

/-! ## Start-up (R174) -/

/-- A frame that is arriving as the ports close, or that was arriving at an earlier closing and has not ended, will be
discarded at its end (R141). -/
def State.cutArrivals (s : State) (a : Arriving) : State :=
  { s with
    airPort := { s.airPort with cut := s.airPort.cut || a.air }
    voicePort := { s.voicePort with cut := s.voicePort.cut || a.voice } }

/-- Stage 1: both ports close; a frame being sent is completed, what waits is removed (R141). -/
def State.closePorts (s : State) : State :=
  { s with
    airPort := { s.airPort with isOpen := false, queue := [] }
    voicePort := { s.voicePort with isOpen := false, slot := none } }

/-- Stage 2: the volatile state takes its value after power-up and RESTART, the tables their built-in values
until they are loaded. The store's pages and the partners' hold-off lines are not touched (log entry 3). -/
def State.volatileReset (s : State) : State :=
  { s with
    roster := Roster.start builtInTables
    pairing := Pairing.start builtInTables
    intake := Intake.start
    laneUnit := LaneUnit.start
    mix := Mix.start builtInTables
    callCtl := CallCtl.start none
    airPort := { s.airPort with malformed := 0, stray := 0, drops := 0 }
    voicePort := { s.voicePort with malformed := 0 }
    directives := DirectiveUnit.start builtInTables
    store := { pages := s.store.pages, state := .idle, restartPending := false, staging := blankImage } }

/-- Stage 3: the pages are read into their tables (R166). -/
def State.loadPages (s : State) : State :=
  let t := loadTables s.store.pages
  { s with
    roster := Roster.start t
    pairing := Pairing.start t
    mix := Mix.start t
    directives := DirectiveUnit.start t }

/-- Stages 4 to 6, one act: the ports open and READY is posted; the cadence timer is armed from READY (R129,
R141). -/
def State.openPorts (s : State) (cause : StartCause) : State :=
  { s with
    callCtl := CallCtl.start (some .ms5)
    airPort := { s.airPort with isOpen := true }
    voicePort := { s.voicePort with isOpen := true }
    directives := { s.directives with reports := [readyReport cause] } }

/-- The start-up stages (R174). -/
def State.startUp (s : State) (cause : StartCause) : State :=
  s.closePorts.volatileReset.loadPages.openPorts cause

/-- Start-up, and then the arbiter's choice of READY if the transmitter is free to send (R139; log entry 4). -/
def State.start (s : State) (cause : StartCause) : State := (s.startUp cause).chooseVoice

/-- A RESTART is taken (R173), with what is arriving on the links as the ports close (R141). -/
def State.restart (s : State) (a : Arriving) : State := (s.cutArrivals a).start .restart

/-! ## Protection of pages (R167) -/

/-- The region whose contents a page holds (R167). -/
def pageRegion (p : PageIx) : RegionIx :=
  if p.val = 0 then 13
  else if p.val ≤ 2 then 7
  else if p.val ≤ 8 then 8
  else if p.val ≤ 16 then 5
  else if p.val = 17 then 6
  else if p.val = 18 then 9
  else 3

/-- Whether STORE PAGE and ERASE PAGE of a page are refused as PROTECTED (R167). -/
def State.pageProtected (s : State) (p : PageIx) : Bool :=
  if p = 0 then pageZeroLocked s.store.pages else s.directives.modeOf (pageRegion p) != .opened

/-- Whether LOAD PAGE of a page is refused as PROTECTED (R167). -/
def State.loadProtected (s : State) (p : PageIx) : Bool :=
  if p = 0 then false else s.directives.modeOf (pageRegion p) == .hidden

/-! ## Store directives (R169 to R173) -/

/-- A page operand, 0..20. -/
def pageOperand (n : Byte) : Option PageIx := if h : n.toNat < 21 then some ⟨n.toNat, h⟩ else none

/-- The Store Controller changes state. -/
def State.setStore (s : State) (t : StoreState) : State := { s with store := { s.store with state := t } }

/-- STORE PAGE (R169), its checks in order. -/
def State.storePageDirective (s : State) (n : Byte) : State × Reply :=
  match pageOperand n with
  | none => (s, .refused .range)
  | some p =>
    if s.pageProtected p then (s, .refused .protection)
    else if s.store.state ≠ .idle then (s, .refused .busy)
    else if s.store.pages[p].isSome then (s, .refused .state)
    else (s.setStore (.programming p s.store.staging), .done)

/-- ERASE PAGE (R170), its checks in order. -/
def State.erasePageDirective (s : State) (n : Byte) : State × Reply :=
  match pageOperand n with
  | none => (s, .refused .range)
  | some p =>
    if s.pageProtected p then (s, .refused .protection)
    else if s.store.state ≠ .idle then (s, .refused .busy)
    else (s.setStore (.erasing p), .done)

/-- The page in flight (R168). -/
def StoreState.inFlight : StoreState → Option PageIx
  | .idle => none
  | .programming p _ => some p
  | .erasing p => some p

/-- The operation in flight (R168). -/
def StoreState.operation : StoreState → Option (PageIx × StoreOp)
  | .idle => none
  | .programming p _ => some (p, .store)
  | .erasing p => some (p, .erase)

/-- LOAD PAGE (R172), its checks in order. -/
def State.loadPageDirective (s : State) (n : Byte) : State × Reply :=
  match pageOperand n with
  | none => (s, .refused .range)
  | some p =>
    if s.loadProtected p then (s, .refused .protection)
    else if s.store.state.inFlight = some p then (s, .refused .busy)
    else ({ s with store := { s.store with staging := s.store.pages[p].getD blankImage } }, .done)

/-- Restart pending is set. -/
def State.deferRestart (s : State) : State := { s with store := { s.store with restartPending := true } }

/-- RESTART (R160, R173): taken at once with no reply, or deferred behind the operation in flight. -/
def State.restartDirective (s : State) (a : Arriving) : State × Option Reply :=
  match s.store.state.operation with
  | none => (s.restart a, none)
  | some (p, op) =>
    if s.store.restartPending then (s, some .done)
    else (s.deferRestart.postEvent (.restartDeferred p op), some .done)

/-- The page in flight takes its new condition, and the controller becomes IDLE (steps 1 and 2 of R171). -/
def Store.settle (t : Store) : Store :=
  match t.state with
  | .idle => t
  | .programming p image => { t with pages := t.pages.set p (some image), state := .idle }
  | .erasing p => { t with pages := t.pages.set p none, state := .idle }

/-- A completion (R171): STORE DONE, or the deferred RESTART. With nothing in flight there is none. -/
def State.complete (s : State) (a : Arriving) : State :=
  match s.store.state.operation with
  | none => s
  | some (p, op) =>
    let t := { s with store := s.store.settle }
    if s.store.restartPending then t.restart a else t.postEvent (.storeDone p op)

/-! ## Power (R164, R174) -/

/-- The page of an operation that loses power is blank (R164). -/
def Store.loseFlight (t : Store) : Store :=
  match t.state.inFlight with
  | some p => { t with pages := t.pages.set p none, state := .idle }
  | none => t

/-- At power-up both transmitters are idle and no frame is in progress (R141). -/
def State.stopLinks (s : State) : State :=
  { s with
    airPort := { s.airPort with sending := none, cut := false }
    voicePort := { s.voicePort with sending := none, cut := false } }

/-- Power is removed (R164): the page in flight is lost, and nothing volatile is left. The ports stay closed and
the timer unarmed until power-up. -/
def State.losePower (s : State) : State :=
  { s with store := s.store.loseFlight }.stopLinks.closePorts.volatileReset

end Sys2Proof.Machine
end

