-- ==== Sys2Proof/Machine/AirCommands.lean ====
section
/-! DEFINITION. The meanings of the commands taken at the Air Port, and of the Air Port's own events
(R31, R132, R136). A frame that is taken while the port is closed is discarded uncounted (R130, R141). -/

namespace Sys2Proof.Machine

/-- What a command answers. -/
abbrev Result := Host.Outcome State Fault Refusal

/-- AUDIO (R45, R132). -/
def execAudio (h : Handle) (seq : Byte) (samples : Block) (s : State) : Result :=
  .next (s.atPort .air fun s => s.arrival h { seq := seq, body := .audio samples })

/-- SILENCE (R45, R132). -/
def execSilence (h : Handle) (seq : Byte) (s : State) : Result :=
  .next (s.atPort .air fun s => s.arrival h { seq := seq, body := .silence })

/-- JOIN (R32); a role code above that of MONO is taken as MONO. -/
def execJoin (h : Handle) (seq : Byte) (addr : Address) (tag : Word) (role : Byte) (s : State) : Result :=
  .next (s.atPort .air fun s =>
    s.joinRequest { handle := h, seq := seq, addr := addr, setTag := tag, role := roleOf role.toNat })

/-- CONFIRM (R35). -/
def execConfirm (h : Handle) (seq : Byte) (s : State) : Result :=
  .next (s.atPort .air fun s => s.confirmRequest h seq)

/-- LEAVE (R38); its sequence byte is not examined (R142). -/
def execLeave (h : Handle) (_seq : Byte) (s : State) : Result := .next (s.atPort .air fun s => s.leaveRequest h)

/-- PARK (R39); its sequence byte is not examined (R142). -/
def execPark (h : Handle) (_seq : Byte) (s : State) : Result := .next (s.atPort .air fun s => s.parkRequest h)

/-- ADJUST (R21, R31). -/
def execAdjust (h : Handle) (seq : Byte) (fields : AdjustFields) (s : State) : Result :=
  .next (s.atPort .air fun s => s.adjustRequest h seq fields)

/-- HANDLE DROPPED (R40); its sequence byte is not examined (R142). -/
def execHandleDropped (h : Handle) (_seq : Byte) (s : State) : Result :=
  .next (s.atPort .air fun s => s.handleDroppedNotice h)

/-- The Air Port's transmitter finishes its frame, and the arbiter chooses anew (R136). -/
def execAirFrameSent (s : State) : Result := .next { s with airPort := s.airPort.finish }

end Sys2Proof.Machine
end

