-- ==== Sys2Proof/Machine/VoiceCommands.lean ====
section
/-! DEFINITION. The meanings of the commands taken at the Voice Port other than directives, of the events at
either port, and of the cadence timer (R117, R118, R130, R131, R139, R145). -/

namespace Sys2Proof.Machine

/-- FAR VOICE (R118); its second and third header bytes are not examined (R133, R142). -/
def execFarVoice (_b2 _b3 : Byte) (samples : Block) (order : CadenceOrder) (s : State) : Result :=
  .next (s.atPort .voice fun s => s.voiceFrame samples order)

/-- A frame that fails R131's checks is discarded and counted at its port, whatever its bytes. -/
def execFrameMalformed (link : Link) (_bytes : List Byte) (_looseBits : Nat) (s : State) : Result :=
  .next (s.atPort link fun s => s.countMalformed link)

/-- An expiry of the cadence timer (R117). -/
def execCadenceTimerExpiry (order : CadenceOrder) (s : State) : Result := .next (s.timerExpiry order)

/-- The fill cadence whose count reaches the auto-hold timeout (R121). A fill that does not reach it is no FILL
TIMEOUT, and then nothing happens (log entry 6). -/
def execFillTimeout (order : CadenceOrder) (s : State) : Result :=
  .next (if s.fillTimeoutDue then s.timerExpiry order else s)

/-- The Voice Port's transmitter finishes its frame, and the arbiter chooses anew (R139). -/
def execVoiceFrameSent (s : State) : Result := .next s.finishVoice

/-- A partner's hold-off line changes. -/
def State.setHoldOff (s : State) (link : Link) (held : Bool) : State :=
  match link with
  | .air => { s with airPort := { s.airPort with holdOff := held } }
  | .voice => { s with voicePort := { s.voicePort with holdOff := held } }

/-- A port's arbiter is given the chance to choose. -/
def State.chooseAt (s : State) : Link → State
  | .air => { s with airPort := s.airPort.choose }
  | .voice => s.chooseVoice

/-- A partner releases its hold-off: an idle transmitter chooses a waiting frame (R136, R139). -/
def execHoldOffReleased (link : Link) (s : State) : Result := .next ((s.setHoldOff link false).chooseAt link)

/-- A partner asserts its hold-off: no new frame is begun, a frame being sent is completed (R145). -/
def execHoldOffAsserted (link : Link) (s : State) : Result := .next (s.setHoldOff link true)

/-- A frame whose beginning arrived while its port was closed is discarded whole, uncounted, and reaches no
block (R130): no state changes. -/
def execFrameBegunWhileClosed (_link : Link) (s : State) : Result := .next s

end Sys2Proof.Machine
end

