-- ==== Sys2Proof/Machine/Directives.lean ====
section
/-! DEFINITION. The meanings of the directives (09_directives_and_the_table_space.md). -/

namespace Sys2Proof.Machine

/-- A DIRECTIVE frame whose code is not in the directive set (R147). -/
def execDirectiveUnknown (code seq : Byte) (_payload : List Byte) (s : State) : Result :=
  .next (s.atPort .voice fun s => s.consumeMask.reply code seq (.refused .unknown))

/-- POINT (R150). -/
def execPoint (seq : Byte) (p : List Byte) (s : State) : Result :=
  .next (s.takeDirective 1 seq p (answered fun s => s.pointDirective p))

/-- READ (R151). -/
def execRead (seq : Byte) (p : List Byte) (s : State) : Result :=
  .next (s.takeDirective 2 seq p (answered fun s => s.readDirective p))

/-- WRITE (R152); it alone uses the mask it consumes (R155). -/
def execWrite (seq : Byte) (p : List Byte) (s : State) : Result :=
  .next (s.takeDirective 3 seq p fun m s => ((s.writeDirective m p).1, some (s.writeDirective m p).2))

/-- MASK (R155). -/
def execMask (seq : Byte) (p : List Byte) (s : State) : Result :=
  .next (s.takeDirective 4 seq p (answered fun s => s.maskDirective p))

/-- BEGIN CALL (R122). -/
def execBeginCall (seq : Byte) (p : List Byte) (s : State) : Result :=
  .next (s.takeCall .beginCall seq p)

/-- END CALL (R123). -/
def execEndCall (seq : Byte) (p : List Byte) (s : State) : Result :=
  .next (s.takeCall .endCall seq p)

/-- HOLD (R124). -/
def execHold (seq : Byte) (p : List Byte) (s : State) : Result :=
  .next (s.takeCall .hold seq p)

/-- RESUME (R125). -/
def execResume (seq : Byte) (p : List Byte) (s : State) : Result :=
  .next (s.takeCall .resume seq p)

/-- SWAP (R100). -/
def execSwap (seq : Byte) (p : List Byte) (s : State) : Result :=
  .next (s.takeDirective 9 seq p (answered State.swapDirective))

/-- OPEN ADMISSION (R26). -/
def execOpenAdmission (seq : Byte) (p : List Byte) (s : State) : Result :=
  .next (s.takeDirective 10 seq p (answered fun s => s.admissionDirective true))

/-- CLOSE ADMISSION (R26). -/
def execCloseAdmission (seq : Byte) (p : List Byte) (s : State) : Result :=
  .next (s.takeDirective 11 seq p (answered fun s => s.admissionDirective false))

/-- EVICT (R41). -/
def execEvict (seq : Byte) (p : List Byte) (s : State) : Result :=
  .next (s.takeDirective 12 seq p (answered fun s => s.evictDirective (payloadByte p 0)))

/-- BOND (R42). -/
def execBond (seq : Byte) (p : List Byte) (s : State) : Result :=
  .next (s.takeDirective 13 seq p (answered fun s => s.bondDirective (payloadByte p 0)))

/-- STORE PAGE (R169). -/
def execStorePage (seq : Byte) (p : List Byte) (s : State) : Result :=
  .next (s.takeDirective 14 seq p (answered fun s => s.storePageDirective (payloadByte p 0)))

/-- ERASE PAGE (R170). -/
def execErasePage (seq : Byte) (p : List Byte) (s : State) : Result :=
  .next (s.takeDirective 15 seq p (answered fun s => s.erasePageDirective (payloadByte p 0)))

/-- LOAD PAGE (R172). -/
def execLoadPage (seq : Byte) (p : List Byte) (s : State) : Result :=
  .next (s.takeDirective 16 seq p (answered fun s => s.loadPageDirective (payloadByte p 0)))

/-- CLEAR COUNTERS (R158). -/
def execClearCounters (seq : Byte) (p : List Byte) (s : State) : Result :=
  .next (s.takeDirective 17 seq p (answered State.clearCountersDirective))

/-- STATUS (R159). -/
def execStatus (seq : Byte) (p : List Byte) (s : State) : Result :=
  .next (s.takeDirective 18 seq p (answered State.statusDirective))

/-- RESTART (R160, R173). -/
def execRestart (seq : Byte) (p : List Byte) (s : State) (a : Arriving := .none) : Result :=
  .next (s.takeDirective 19 seq p fun _ s => s.restartDirective a)

end Sys2Proof.Machine
end

