-- ==== Sys2Proof/Machine/Events.lean ====
section
/-! DEFINITION. The meanings of the events that a block takes inside a cadence, at a completion or at a change of
power. Sent as a command of its own, such an event is its owner's act in which it occurs, taken when the rule's
conditions stand; when they do not stand the event does not occur, and nothing changes (log entry 6). -/

namespace Sys2Proof.Machine

/-- CONFIRM TIMEOUT (R36): the countdown's fall to 0. -/
def execConfirmTimeout (s : State) : Result :=
  match s.pairing.context with
  | some c => .next (if c.countdown ≤ 1 then s.countdown else s)
  | none => .next s

/-- Whether supervision of a bud now would find it lost (R6). -/
def State.losesBud (s : State) (b : BudIx) : Bool :=
  s.roster.buds[b].link.supervised && s.roster.buds[b].passPeriod.isLost s.directives.settings

/-- NO ARRIVALS (R6): the supervision of a bud that reaches the lost threshold. -/
def execNoArrivals (b : BudIx) (s : State) : Result := .next (if s.losesBud b then s.supervise [b] else s)

/-- SWAP TAKEN (R101). -/
def execSwapTaken (s : State) : Result := .next s.takeSwap

/-- PROMOTION (R71): a PRIMING lane's share of a voice or fill cadence, when it is deep enough. -/
def execPromotion (k : LaneIx) (s : State) : Result :=
  .next
    (if s.callCtl.state = .inCall ∧ s.laneUnit.lanes[k].state = .priming ∧ s.promotable k then
      (s.examineLane k).countMixing
    else s)

/-- A DRAINING lane's share of a voice or fill cadence: its last pull, VACANT, and what follows (R72, R94). -/
def State.drainShare (s : State) (k : LaneIx) : State := (s.drainLane k).countMixing

/-- DRAIN LAST PULL (R94). -/
def execDrainLastPull (k : LaneIx) (s : State) : Result :=
  .next
    (if s.callCtl.state = .inCall ∧ s.laneUnit.lanes[k].state = .draining then s.drainShare k else s)

/-- RESERVATION COMPLETE (R65): a reserved lane's drain, at whose end it is bound to the reserving listener's
speaking bud. -/
def execReservationComplete (k : LaneIx) (s : State) : Result :=
  .next
    (if s.callCtl.state = .inCall ∧ s.laneUnit.lanes[k].state = .draining ∧
        s.laneUnit.lanes[k].reservedFor.isSome then
      s.drainShare k
    else s)

/-- WAIT LIST GRANT (R68): a lane without a reservation reaches VACANT, or is VACANT, and goes to the head. -/
def execWaitListGrant (k : LaneIx) (s : State) : Result :=
  .next
    (if s.callCtl.state = .inCall ∧ s.laneUnit.lanes[k].reservedFor = none ∧ s.laneUnit.waitList ≠ [] then
      match s.laneUnit.lanes[k].state with
      | .draining => s.drainShare k
      | .vacant => s.grantHead k
      | .priming | .mixing => s
    else s)

/-- MOVE INTO RING (R51): Intake's test for movement for a bound bud. -/
def execMoveIntoRing (b : BudIx) (s : State) : Result := .next (s.moveFor b)

/-- OPERATION COMPLETION (R171). -/
def execOperationCompletion (s : State) (a : Arriving := .none) : Result := .next (s.complete a)

/-- DEFERRED RESTART TAKEN (R173): the completion of the operation a RESTART waits on. -/
def execDeferredRestartTaken (s : State) (a : Arriving := .none) : Result :=
  .next (if s.store.restartPending then s.complete a else s)

/-- POWER UP (R174): the start-up stages, after a removal of power (R164). -/
def execPowerUp (s : State) : Result :=
  .next ({ s with store := s.store.loseFlight }.stopLinks.start .powerUp)

/-- POWER REMOVAL (R164). -/
def execPowerRemoval (s : State) : Result := .next s.losePower

end Sys2Proof.Machine
end

