-- ==== Sys2Proof/Machine/Dispatch.lean ====
section
/-! DEFINITION. The dispatch: one arm per command, each one direct call of its meaning. -/

namespace Sys2Proof.Machine

/-- A command's effect on everything but the queue of waiting commands. -/
def exec (i : Instr) (s : State) : Host.Outcome State Fault Refusal :=
  match i with
  | .audio handle seq samples => Sys2Proof.Machine.execAudio handle seq samples s
  | .silence handle seq => Sys2Proof.Machine.execSilence handle seq s
  | .join handle seq addr setTag role => Sys2Proof.Machine.execJoin handle seq addr setTag role s
  | .confirm handle seq => Sys2Proof.Machine.execConfirm handle seq s
  | .leave handle seq => Sys2Proof.Machine.execLeave handle seq s
  | .park handle seq => Sys2Proof.Machine.execPark handle seq s
  | .adjust handle seq fields => Sys2Proof.Machine.execAdjust handle seq fields s
  | .handleDropped handle seq => Sys2Proof.Machine.execHandleDropped handle seq s
  | .farVoice byte2 byte3 samples order => Sys2Proof.Machine.execFarVoice byte2 byte3 samples order s
  | .frameMalformed link bytes looseBits => Sys2Proof.Machine.execFrameMalformed link bytes looseBits s
  | .directiveUnknown code seq payload => Sys2Proof.Machine.execDirectiveUnknown code seq payload s
  | .point seq payload => Sys2Proof.Machine.execPoint seq payload s
  | .read seq payload => Sys2Proof.Machine.execRead seq payload s
  | .write seq payload => Sys2Proof.Machine.execWrite seq payload s
  | .mask seq payload => Sys2Proof.Machine.execMask seq payload s
  | .beginCall seq payload => Sys2Proof.Machine.execBeginCall seq payload s
  | .endCall seq payload => Sys2Proof.Machine.execEndCall seq payload s
  | .hold seq payload => Sys2Proof.Machine.execHold seq payload s
  | .resume seq payload => Sys2Proof.Machine.execResume seq payload s
  | .swap seq payload => Sys2Proof.Machine.execSwap seq payload s
  | .openAdmission seq payload => Sys2Proof.Machine.execOpenAdmission seq payload s
  | .closeAdmission seq payload => Sys2Proof.Machine.execCloseAdmission seq payload s
  | .evict seq payload => Sys2Proof.Machine.execEvict seq payload s
  | .bond seq payload => Sys2Proof.Machine.execBond seq payload s
  | .storePage seq payload => Sys2Proof.Machine.execStorePage seq payload s
  | .erasePage seq payload => Sys2Proof.Machine.execErasePage seq payload s
  | .loadPage seq payload => Sys2Proof.Machine.execLoadPage seq payload s
  | .clearCounters seq payload => Sys2Proof.Machine.execClearCounters seq payload s
  | .status seq payload => Sys2Proof.Machine.execStatus seq payload s
  | .restart seq payload arriving => Sys2Proof.Machine.execRestart seq payload s arriving
  | .cadenceTimerExpiry order => Sys2Proof.Machine.execCadenceTimerExpiry order s
  | .fillTimeout order => Sys2Proof.Machine.execFillTimeout order s
  | .confirmTimeout => Sys2Proof.Machine.execConfirmTimeout s
  | .noArrivals bud => Sys2Proof.Machine.execNoArrivals bud s
  | .swapTaken => Sys2Proof.Machine.execSwapTaken s
  | .promotion lane => Sys2Proof.Machine.execPromotion lane s
  | .drainLastPull lane => Sys2Proof.Machine.execDrainLastPull lane s
  | .reservationComplete lane => Sys2Proof.Machine.execReservationComplete lane s
  | .waitListGrant lane => Sys2Proof.Machine.execWaitListGrant lane s
  | .moveIntoRing bud => Sys2Proof.Machine.execMoveIntoRing bud s
  | .operationCompletion arriving => Sys2Proof.Machine.execOperationCompletion s arriving
  | .deferredRestartTaken arriving => Sys2Proof.Machine.execDeferredRestartTaken s arriving
  | .powerUp => Sys2Proof.Machine.execPowerUp s
  | .powerRemoval => Sys2Proof.Machine.execPowerRemoval s
  | .airFrameSent => Sys2Proof.Machine.execAirFrameSent s
  | .voiceFrameSent => Sys2Proof.Machine.execVoiceFrameSent s
  | .holdOffReleased link => Sys2Proof.Machine.execHoldOffReleased link s
  | .holdOffAsserted link => Sys2Proof.Machine.execHoldOffAsserted link s
  | .frameBegunWhileClosed link => Sys2Proof.Machine.execFrameBegunWhileClosed link s

end Sys2Proof.Machine
end

