-- ==== Sys2Proof/Machine/Step.lean ====
section
/-! DEFINITION. One step: the command at the front of the queue, if any, takes its effect. -/

namespace Sys2Proof.Machine

/-- The queue of waiting commands is replaced. -/
def State.withPending (s : State) (p : List Instr) : State := { s with pending := p }

/-- One step. On an empty queue the bridge idles (log entry 5). -/
def step (s : State) : Host.Outcome State Fault Refusal :=
  match s.pending with
  | [] => .next s
  | c :: rest => exec c (s.withPending rest)

/-- `s` with the command that a table word spells at the front of its queue. No word spells one (log entry 16). -/
def State.withFetchWord (s : State) (nbits w : Nat) : State :=
  match decodeTableWord nbits w with
  | some c => s.withPending (c :: s.pending)
  | none => s

end Sys2Proof.Machine
end

