-- ==== Sys2Proof/Machine/Frames.lean ====
section
/-! DEFINITION. The outbound frames as bytes on their link (R142, R143, R144): what the partners see of the frame
that a transmitter is sending. -/

namespace Sys2Proof.Machine

/-- A byte from a number. -/
def byteNat (n : Nat) : Byte := BitVec.ofNat 8 n

/-- An air address as three bytes, low byte first (R130, R144). -/
def addressBytes (a : Address) : List Byte := [a.extractLsb' 0 8, a.extractLsb' 8 8, a.extractLsb' 16 8]

/-- A word as two bytes, low byte first. -/
def wordBytes (w : Word) : List Byte := [lowByte w, highByte w]

/-- An applied byte and a value byte of ADJUST REPLY (R143). -/
def appliedBytes : Option Nat → List Byte
  | some v => [1, byteNat v]
  | none => [0, 0]

/-- An outbound Air Link frame (R142, R143). Mic gain and priority are never applied (R21). -/
def AirFrame.bytes : AirFrame → List Byte
  | .downlinkAudio h seq samples => frameBytes 17 (byteNat h.val) seq (blockBytes samples)
  | .downlinkSilence h seq => frameBytes 18 (byteNat h.val) seq []
  | .offer h seq b x => frameBytes 19 (byteNat h.val) seq [byteNat (b.val + 1), byteNat (numberOf x)]
  | .defer h seq interval => frameBytes 20 (byteNat h.val) seq [byteNat interval]
  | .refuse h seq reason => frameBytes 21 (byteNat h.val) seq [byteNat reason.code]
  | .dismiss h b => frameBytes 22 (byteNat h.val) 0 [byteNat (b.val + 1)]
  | .adjustReply h seq x volume sidetone mute =>
    frameBytes 23 (byteNat h.val) seq
      ([byteNat (numberOf x)] ++ appliedBytes (volume.map (·.val)) ++ appliedBytes (sidetone.map (·.val)) ++
        appliedBytes (mute.map flagCode) ++ appliedBytes none ++ appliedBytes none)

/-- The report kind of a reply (R144). -/
def Reply.kind : Reply → Nat
  | .done => 1 | .refused _ => 2 | .data .. => 3 | .status _ => 4

/-- A reply's payload after the mark byte and the directive code (R144). -/
def Reply.fields : Reply → List Byte
  | .done => []
  | .refused reason => [byteNat reason.code]
  | .data region start words => [byteNat region.val, byteNat start] ++ words.flatMap wordBytes
  | .status words => words.flatMap wordBytes

/-- The report kind of a freeing, from its cause (R19, R144). -/
def FreeCause.kind : FreeCause → Nat
  | .confirmTimeout => 18 | .leave | .handleReused => 19 | .noArrivals | .handleDropped => 20 | .evict => 21

/-- The last field of a freeing's report (R144): the cause for LEFT and LOST, 0 for JOIN TIMEOUT and EVICTED. -/
def FreeCause.code : FreeCause → Nat
  | .leave => 1 | .handleReused => 2 | .noArrivals => 3 | .handleDropped => 4 | .confirmTimeout | .evict => 0

/-- The report kind of an event report (R144). -/
def Event.kind : Event → Nat
  | .ready _ => 16
  | .joined .. => 17
  | .departed d => d.cause.kind
  | .laneDenied .. => 22
  | .callState .. => 23
  | .storeDone .. => 24
  | .restartDeferred .. => 25

/-- An event report's payload after the mark byte (R144). -/
def Event.fields : Event → List Byte
  | .ready cause => [byteNat cause.code]
  | .joined b x addr bonded created =>
    [byteNat (b.val + 1), byteNat (x.val + 1)] ++ addressBytes addr ++ [byteNat (flagCode bonded), byteNat (flagCode created)]
  | .departed d =>
    [byteNat (d.bud.val + 1), byteNat (numberOf d.listener)] ++ addressBytes d.addr ++
      [byteNat (flagCode d.bonded), byteNat d.cause.code]
  | .laneDenied x b priority cause =>
    [byteNat (x.val + 1), byteNat (numberOf b), byteNat priority.val, byteNat cause.code]
  | .callState new previous cause =>
    [byteNat new.code, byteNat new.holdCode, byteNat previous.code, byteNat previous.holdCode, byteNat cause.code]
  | .storeDone p op => [byteNat p.val, byteNat op.code]
  | .restartDeferred p op => [byteNat p.val, byteNat op.code]

/-- A REPORT frame with its mark byte (R144, R162). -/
def Report.bytes (lost : Bool) : Report → List Byte
  | .reply code seq body => frameBytes 50 (byteNat body.kind) seq ([byteNat (flagCode lost), code] ++ body.fields)
  | .event what => frameBytes 50 (byteNat what.kind) 0 ([byteNat (flagCode lost)] ++ what.fields)

/-- An outbound Voice Link frame (R142). -/
def VoiceFrame.bytes : VoiceFrame → List Byte
  | .uplink f => frameBytes 49 0 f.seq (blockBytes f.samples)
  | .report r lost => r.bytes lost

/-- The bytes of the frame that a port is sending, none when its transmitter is idle. -/
def State.wire (s : State) : Link → Option (List Byte)
  | .air => s.airPort.sending.map AirFrame.bytes
  | .voice => s.voicePort.sending.map VoiceFrame.bytes

end Sys2Proof.Machine
end

