-- ==== Sys2Proof/Safety.lean ====
section
/-! DEFINITION. What a sound state of the bridge is: the laws the manual states of all its states, one predicate for
each block. Every step keeps them (Certificates/Slice0/Obligations.lean). All are decidable. -/

namespace Sys2Proof.Machine

/-! ## Ceilings and limits -/

/-- The run counters never exceed 255 (R5). -/
abbrev Bud.Bounded (b : Bud) : Prop := b.goodRun ≤ 255 ∧ b.missRun ≤ 255 ∧ b.silenceRun ≤ 255

/-- The discard counters of a bud number (R44). -/
abbrev Discards.Bounded (d : Discards) : Prop := d.late ≤ 65535 ∧ d.duplicate ≤ 65535 ∧ d.overflow ≤ 65535

/-- The two counters of a lane (R59). -/
abbrev Lane.CountersBounded (l : Lane) : Prop := l.slips ≤ 65535 ∧ l.conceals ≤ 65535

/-- The Call Controller's counts (R116). -/
abbrev CallCtl.Bounded (c : CallCtl) : Prop := c.fills ≤ 255 ∧ c.fillTotal ≤ 65535 ∧ c.discardedVoice ≤ 65535

/-- The Air Port's counters (R140) and its transmit queue (R134). -/
abbrev AirPort.Bounded (a : AirPort) : Prop :=
  a.malformed ≤ 65535 ∧ a.stray ≤ 65535 ∧ a.drops ≤ 65535 ∧ a.queue.length ≤ 16

/-- The ranges of a lane's Aligner fields (R58, R82, R91, R92). -/
abbrev Lane.InRange (l : Lane) : Prop :=
  l.ring.length ≤ 320 ∧ l.position < 65536 ∧ 65472 ≤ l.step ∧ l.step ≤ 65600 ∧ 0 ≤ l.filter ∧ l.filter ≤ 245760 ∧
    l.concealCount ≤ 2

/-- Every counter of the bridge is at or below its ceiling, every lane's Aligner fields are in their ranges, and the receive
queues, the transmit queue and the report queue are at or below their limits (R5, R44, R58, R59, R82, R91, R92, R108, R116,
R134, R140, R161, R162). -/
structure State.Bounded (s : State) : Prop where
  buds : ∀ b : BudIx, s.roster.buds[b].Bounded
  discards : ∀ b : BudIx, s.intake.discards[b].Bounded
  queues : ∀ b : BudIx, s.intake.queues[b].length ≤ 8
  lanes : ∀ k : LaneIx, s.laneUnit.lanes[k].CountersBounded
  ranges : ∀ k : LaneIx, s.laneUnit.lanes[k].InRange
  clips : ∀ i : Fin 5, s.mix.clips[i] ≤ 65535
  call : s.callCtl.Bounded
  air : s.airPort.Bounded
  voice : s.voicePort.malformed ≤ 65535
  reports : s.directives.reports.length ≤ 8
  lost : s.directives.reportsLost ≤ 65535

/-! ## The Mix Engine and the settings -/

/-- The five fixed mix cells read 0 in both banks (R99). -/
abbrev Mix.FixedCellsZero (m : Mix) : Prop :=
  ∀ i : Fin 25, fixedCell i.val = true → m.staging[i] = 0 ∧ m.active[i] = 0

/-- Every setting is in its range (R154). -/
abbrev Settings.InRange (t : Settings) : Prop :=
  ∀ i : Fin 9, (settingRange i.val).1 ≤ t.word i.val ∧ t.word i.val ≤ (settingRange i.val).2

/-! ## The party -/

/-- The laws of the Bud Table: a FREE record holds the FREE values (R1); a bud that is not FREE holds a handle, and no
two hold the same one (R2). -/
abbrev Roster.BudsSound (r : Roster) : Prop :=
  (∀ b : BudIx, r.buds[b].link = .free → r.buds[b] = {}) ∧
  (∀ b : BudIx, r.buds[b].link ≠ .free → r.buds[b].handle.isSome = true) ∧
  (∀ b c : BudIx, b ≠ c → r.buds[b].link ≠ .free → r.buds[b].handle ≠ r.buds[c].handle)

/-- The law of membership (R14): a bud is a member of exactly the listener it names, and every bud that is not FREE
names one. -/
abbrev Roster.MembershipLaw (r : Roster) : Prop :=
  (∀ b : BudIx, ∀ x : ListenerIx, b ∈ r.listeners[x].members ↔ r.buds[b].listener = some x) ∧
  (∀ b : BudIx, r.buds[b].link = .free ↔ r.buds[b].listener = none)

/-- A listener has at most two members, never two of one role, and a MONO bud only as the sole member (R14). -/
abbrev Roster.MembersCompatible (r : Roster) : Prop :=
  (∀ x : ListenerIx, r.listeners[x].members.Nodup ∧ r.listeners[x].members.length ≤ 2) ∧
  (∀ x : ListenerIx, ∀ b ∈ r.listeners[x].members, ∀ c ∈ r.listeners[x].members,
    b ≠ c → r.buds[b].role ≠ r.buds[c].role ∧ r.buds[b].role ≠ .mono)

/-- A listener is in use exactly while it has a member, and carries its members' set tag, or 0 when not in use (R12). -/
abbrev Roster.UseSound (r : Roster) : Prop :=
  (∀ x : ListenerIx, r.listeners[x].inUse = true ↔ r.listeners[x].members ≠ []) ∧
  (∀ x : ListenerIx, ∀ b ∈ r.listeners[x].members, r.buds[b].setTag = r.listeners[x].setTag) ∧
  (∀ x : ListenerIx, r.listeners[x].inUse = false → r.listeners[x].setTag = 0)

/-- At most one in-use listener carries any set tag other than 0 (R29). -/
abbrev Roster.TagsSound (r : Roster) : Prop :=
  ∀ x y : ListenerIx, x ≠ y → r.listeners[x].inUse = true → r.listeners[y].inUse = true →
    r.listeners[x].setTag = r.listeners[y].setTag → r.listeners[x].setTag = 0

/-- At most one bud is OFFERED, and it is the bud the busy context names, with its handle and its listener (R24). -/
abbrev State.ContextSound (s : State) : Prop :=
  (∀ b : BudIx, s.roster.buds[b].link = .offered ↔ s.pairing.context.map (·.bud) = some b) ∧
  (∀ c ∈ s.pairing.context, s.roster.buds[c.bud].handle = some c.handle ∧
    s.roster.buds[c.bud].listener = some c.listener ∧ 1 ≤ c.countdown ∧ c.countdown ≤ 100)

/-- The party is sound (R1, R2, R12, R14, R24, R29). -/
structure State.PartySound (s : State) : Prop where
  settings : s.directives.settings.InRange
  buds : s.roster.BudsSound
  membership : s.roster.MembershipLaw
  compatible : s.roster.MembersCompatible
  use : s.roster.UseSound
  tags : s.roster.TagsSound
  context : s.ContextSound

/-! ## The lanes -/

/-- The recorded speaking bud of every listener is the one the Roster's tables give (R60, R61). -/
abbrev State.SpeakingCurrent (s : State) : Prop :=
  ∀ x : ListenerIx, s.laneUnit.speaking[x] = s.roster.speakingBud x

/-- Which fields a lane holds in each state (R50, R58, R83): a VACANT lane holds the VACANT values beside its two
counters; the bud is present in PRIMING and MIXING, the listener in all but VACANT, a reservation only in DRAINING; a
PRIMING lane has not been pulled; a ring is empty while the expected sequence is unset, and a lane that has been pulled
has one; no ramp-in is left pending. -/
abbrev Lane.FieldsSound (l : Lane) : Prop :=
  (l.state = .vacant → l = l.cleared) ∧ (l.bud.isSome = l.carries) ∧ (l.listener.isSome = (l.state != .vacant)) ∧
  (l.reservedFor.isSome = true → l.state = .draining) ∧ (l.expected = none → l.ring = []) ∧
  (l.state = .mixing ∨ l.state = .draining → l.expected.isSome = true) ∧
  (l.state = .priming → l.position = 0 ∧ l.step = 65536 ∧ l.filter = 0 ∧ l.concealCount = 0) ∧ l.rampIn = false

/-- No listener has two lanes in PRIMING or MIXING, no bud is the bud of two lanes (R63), no listener has two
reservations, and every lane is VACANT outside IN CALL (R75). -/
abbrev State.LanesExclusive (s : State) : Prop :=
  (∀ j k : LaneIx, j ≠ k → s.laneUnit.lanes[j].carries = true → s.laneUnit.lanes[k].carries = true →
    s.laneUnit.lanes[j].listener ≠ s.laneUnit.lanes[k].listener ∧ s.laneUnit.lanes[j].bud ≠ s.laneUnit.lanes[k].bud) ∧
  (∀ j k : LaneIx, j ≠ k → s.laneUnit.lanes[j].reservedFor.isSome = true →
    s.laneUnit.lanes[j].reservedFor ≠ s.laneUnit.lanes[k].reservedFor) ∧
  (s.callCtl.state ≠ .inCall → ∀ k : LaneIx, s.laneUnit.lanes[k].state = .vacant)

/-- A reservation is held for a listener that has a speaking bud and no lane in PRIMING or MIXING (R63, R65). -/
abbrev State.ReservationsSound (s : State) : Prop :=
  ∀ k : LaneIx, ∀ x ∈ s.laneUnit.lanes[k].reservedFor, s.laneUnit.speaking[x].isSome = true ∧
    ∀ j : LaneIx, s.laneUnit.lanes[j].carries = true → s.laneUnit.lanes[j].listener ≠ some x

/-- A lane in PRIMING or MIXING carries its listener's speaking bud (R61, R63, R65). -/
abbrev State.LanesCarrySpeakers (s : State) : Prop :=
  ∀ k : LaneIx, s.laneUnit.lanes[k].carries = true → ∀ x ∈ s.laneUnit.lanes[k].listener,
    s.laneUnit.speaking[x] = s.laneUnit.lanes[k].bud

/-- Whether a listener holds a lane in PRIMING or MIXING or has a lane reserved. -/
def LaneUnit.served (u : LaneUnit) (x : ListenerIx) : Bool :=
  Config.lanes.any fun k =>
    (u.lanes[k].carries && u.lanes[k].listener == some x) || u.lanes[k].reservedFor == some x

/-- The laws of the wait list (R62, R68): one entry for a listener, naming its speaking bud; never a listener that is
served; request orders 1..n; entries by priority, then request order; empty in NO CALL; and outside NO CALL every
listener with a speaking bud is served or waits. -/
abbrev State.WaitListSound (s : State) : Prop :=
  (s.laneUnit.waitList.map (·.listener)).Nodup ∧
  (∀ e ∈ s.laneUnit.waitList, s.laneUnit.speaking[e.listener] = some e.bud ∧ s.laneUnit.served e.listener = false) ∧
  (s.laneUnit.waitList.map (·.order)).Nodup ∧
  (∀ e ∈ s.laneUnit.waitList, 1 ≤ e.order ∧ e.order ≤ s.laneUnit.waitList.length) ∧
  s.laneUnit.waitList.Pairwise (fun a b => waitBefore s.priorityOf a b = true) ∧
  (s.callCtl.state = .noCall → s.laneUnit.waitList = []) ∧
  (s.callCtl.state ≠ .noCall → ∀ x : ListenerIx, s.laneUnit.speaking[x].isSome = true →
    s.laneUnit.served x = true ∨ waits x s.laneUnit.waitList = true)

/-! ## The receive queues -/

/-- A due head of a bound queue waits only for room in the ring (R51). -/
abbrev Lane.MovedAll (l : Lane) (q : List Entry) : Prop :=
  ∀ e ∈ q.head?, l.isDue e = true → Config.ringRoom < l.ring.length

/-- A bound queue is in distance order and holds nothing late (R46); it is empty while the expected sequence is unset
(R50). -/
abbrev Lane.InOrder (l : Lane) (q : List Entry) : Prop :=
  (l.expected = none → q = []) ∧
  (∀ x ∈ l.expected, q.Pairwise fun a b => distance a.seq x < distance b.seq x) ∧
  (∀ x ∈ l.expected, ∀ e ∈ q, distance e.seq x < 128)

/-- The laws of the receive queues (R44, R46, R53): no sequence twice, at most 8 entries bound and 2 unbound, and none
for a bud that is FREE, OFFERED or PARKED. -/
abbrev State.QueuesSound (s : State) : Prop :=
  (∀ b : BudIx, (s.intake.queues[b].map (·.seq)).Nodup) ∧
  (∀ b : BudIx, s.laneUnit.boundLane b = none → s.intake.queues[b].length ≤ 2) ∧
  (∀ b : BudIx, ∀ k ∈ s.laneUnit.boundLane b,
    s.intake.queues[b].length ≤ 8 ∧ s.laneUnit.lanes[k].InOrder s.intake.queues[b] ∧
      s.laneUnit.lanes[k].MovedAll s.intake.queues[b]) ∧
  (∀ b : BudIx, s.roster.buds[b].link.supervised = false → s.intake.queues[b] = [])

/-- The lanes, the wait list and the queues are sound, in a sound party. -/
structure State.LanesSound (s : State) : Prop where
  party : s.PartySound
  speaking : s.SpeakingCurrent
  ranges : ∀ k : LaneIx, s.laneUnit.lanes[k].InRange
  fields : ∀ k : LaneIx, s.laneUnit.lanes[k].FieldsSound
  exclusive : s.LanesExclusive
  reservations : s.ReservationsSound
  carry : s.LanesCarrySpeakers
  waitList : s.WaitListSound
  queues : s.QueuesSound

/-! ## The store and the ports -/

/-- Page 0 is stored with the lock set, and no operation on it is in flight (R167). -/
abbrev Store.PageZeroLocked (t : Store) : Prop := pageZeroLocked t.pages = true ∧ t.state.inFlight ≠ some 0

/-- A restart waits only behind an operation in flight (R168, R173). -/
abbrev Store.RestartSound (t : Store) : Prop := t.restartPending = true → t.state ≠ .idle

/-- No transmitter is idle while a frame waits that it may send (R136, R139). -/
abbrev State.ArbitersBusy (s : State) : Prop :=
  (s.airPort.isOpen = true → s.airPort.holdOff = false → s.airPort.sending = none → s.airPort.queue = []) ∧
  (s.voicePort.isOpen = true → s.voicePort.holdOff = false → s.voicePort.sending = none →
    s.voicePort.slot = none ∧ s.directives.reports = [])

/-- Both ports are open or both are closed, and the cadence timer is armed exactly while they are open (R116, R141,
R164, R174). -/
abbrev State.PowerSound (s : State) : Prop :=
  s.airPort.isOpen = s.voicePort.isOpen ∧ s.callCtl.timer.isSome = s.airPort.isOpen

/-! ## Classes of commands, and what a class may change -/

/-- Commands by which the bridge may start up afresh or lose power (R164, R173, R174). -/
def mayStartUp : Instr → Bool
  | .restart .. | .operationCompletion _ | .deferredRestartTaken _ | .powerUp | .powerRemoval => true
  | _ => false

/-- Commands at which a page of the store may change its condition (R164, R171). -/
def mayChangePages : Instr → Bool
  | .operationCompletion _ | .deferredRestartTaken _ | .powerUp | .powerRemoval => true
  | _ => false

/-- Commands that are a cadence, or the Mix Engine's part of one (R101, R117, R118). -/
def mayTakeSwap : Instr → Bool
  | .farVoice .. | .cadenceTimerExpiry _ | .fillTimeout _ | .swapTaken => true
  | _ => false

/-- Commands that move the table pointer (R150). -/
def mayMovePointer : Instr → Bool
  | .point .. | .read .. | .write .. => true
  | _ => false

/-- Commands that may change the call state (the table of R116). -/
def mayChangeCall : Instr → Bool
  | .beginCall .. | .endCall .. | .hold .. | .resume .. | .farVoice .. | .cadenceTimerExpiry _ | .fillTimeout _ => true
  | _ => false

/-- Commands that may set the admission-open flag (R26). -/
def maySetAdmission : Instr → Bool
  | .write .. | .openAdmission .. | .closeAdmission .. => true
  | _ => false

/-- Commands that may write a bond entry (R27, R30, R42). -/
def mayWriteBonds : Instr → Bool
  | .write .. | .bond .. | .join .. => true
  | _ => false

/-- WRITE. -/
def isWrite : Instr → Bool
  | .write .. => true
  | _ => false

/-- Commands that may set, consume or discard the pending mask: the directives (R155). -/
def isDirective : Instr → Bool
  | .directiveUnknown .. | .point .. | .read .. | .write .. | .mask .. | .beginCall .. | .endCall .. | .hold ..
  | .resume .. | .swap .. | .openAdmission .. | .closeAdmission .. | .evict .. | .bond .. | .storePage ..
  | .erasePage .. | .loadPage .. | .clearCounters .. | .status .. | .restart .. => true
  | _ => false

/-- The port at which a command's frame arrives, none for an event (R132, R133). -/
def arrivesAt : Instr → Option Link
  | .audio .. | .silence .. | .join .. | .confirm .. | .leave .. | .park .. | .adjust .. | .handleDropped .. => some .air
  | .farVoice .. => some .voice
  | .frameMalformed link _ _ => some link
  | c => if isDirective c then some .voice else none

/-- The Air Port takes the next frame that ends on its link: it is open, and no frame is still arriving that began before
it closed (R141). -/
abbrev State.AirTakes (s : State) : Prop := s.airPort.isOpen = true ∧ s.airPort.cut = false

/-- The same of the Voice Port. -/
abbrev State.VoiceTakes (s : State) : Prop := s.voicePort.isOpen = true ∧ s.voicePort.cut = false

/-- The Directive Unit but for its report queue: pointer, mask, modes, lock and settings are the same. -/
abbrev DirectiveUnit.SameTables (d e : DirectiveUnit) : Prop :=
  d.region = e.region ∧ d.index = e.index ∧ d.mask = e.mask ∧ d.modes = e.modes ∧ d.lock = e.lock ∧
    d.settings = e.settings

/-- The Voice Port but for what its transmitter holds: open, held off and counting as before. -/
abbrev VoicePort.SameLine (v w : VoicePort) : Prop :=
  v.isOpen = w.isOpen ∧ v.cut = w.cut ∧ v.holdOff = w.holdOff ∧ v.malformed = w.malformed

/-- Nothing but the Lane Unit, the receive queues and what posting reports may change (sections 4.2 to 4.6): the whole
of what a notice to the Lane Unit, or a change of call state told to it, can reach. -/
structure State.OnlyLanesAndReports (s t : State) : Prop where
  roster : t.roster = s.roster
  pairing : t.pairing = s.pairing
  mix : t.mix = s.mix
  callCtl : t.callCtl = s.callCtl
  airPort : t.airPort = s.airPort
  store : t.store = s.store
  pending : t.pending = s.pending
  tables : t.directives.SameTables s.directives
  line : t.voicePort.SameLine s.voicePort
  slips : ∀ k : LaneIx, t.laneUnit.lanes[k].slips = s.laneUnit.lanes[k].slips ∧
    t.laneUnit.lanes[k].conceals = s.laneUnit.lanes[k].conceals

end Sys2Proof.Machine
end

