-- ==== Sys2Proof/WellFormed.lean ====
section
/-! DEFINITION. Which terms of `Instr` stand for a command that a partner or a block can give: what the frame layouts
(R130, R131, R142, R147) and the cadence order (log entry 1) allow. -/

namespace Sys2Proof

/-- A payload fits the length byte of its header (R130). -/
def payloadFits (p : List Byte) : Bool := decide (p.length ≤ 255)

/-- A code that no directive has (R147). -/
def unknownCode (code : Byte) : Bool := code.toNat == 0 || decide (19 < code.toNat)

/-- A cadence order names no block's act, no bud and no lane twice; directives may come as they come. -/
def CadenceOrder.wellFormed (o : CadenceOrder) : Bool :=
  decide (o.acts.filter fun a => !a.isCall).Nodup && decide o.buds.Nodup && decide o.lanes.Nodup

/-- The bytes of a frame that R131 discards: it fails a check, and its loose bits are short of a byte (R145). -/
def malformed (link : Link) (bytes : List Byte) (looseBits : Nat) : Bool :=
  decide (looseBits < 8) && (checkFrame link bytes looseBits).isNone

/-- Well-formed commands. -/
def Instr.wellFormed : Instr → Bool
  | .audio _ _ _ => true
  | .silence _ _ => true
  | .join _ _ _ _ _ => true
  | .confirm _ _ => true
  | .leave _ _ => true
  | .park _ _ => true
  | .adjust _ _ _ => true
  | .handleDropped _ _ => true
  | .farVoice _ _ _ o => o.wellFormed
  | .frameMalformed link bytes loose => malformed link bytes loose
  | .directiveUnknown code _ p => unknownCode code && payloadFits p
  | .point _ p => payloadFits p
  | .read _ p => payloadFits p
  | .write _ p => payloadFits p
  | .mask _ p => payloadFits p
  | .beginCall _ p => payloadFits p
  | .endCall _ p => payloadFits p
  | .hold _ p => payloadFits p
  | .resume _ p => payloadFits p
  | .swap _ p => payloadFits p
  | .openAdmission _ p => payloadFits p
  | .closeAdmission _ p => payloadFits p
  | .evict _ p => payloadFits p
  | .bond _ p => payloadFits p
  | .storePage _ p => payloadFits p
  | .erasePage _ p => payloadFits p
  | .loadPage _ p => payloadFits p
  | .clearCounters _ p => payloadFits p
  | .status _ p => payloadFits p
  | .restart _ p _ => payloadFits p
  | .cadenceTimerExpiry o => o.wellFormed
  | .fillTimeout o => o.wellFormed
  | .confirmTimeout => true
  | .noArrivals _ => true
  | .swapTaken => true
  | .promotion _ => true
  | .drainLastPull _ => true
  | .reservationComplete _ => true
  | .waitListGrant _ => true
  | .moveIntoRing _ => true
  | .operationCompletion _ => true
  | .deferredRestartTaken _ => true
  | .powerUp => true
  | .powerRemoval => true
  | .airFrameSent => true
  | .voiceFrameSent => true
  | .holdOffReleased _ => true
  | .holdOffAsserted _ => true
  | .frameBegunWhileClosed _ => true

end Sys2Proof
end

