-- ==== Sys2Proof/Certificates/Slice0/Obligations.lean ====
section
/-! DEFINITION. The statements for the provers. Each docstring names the rule of spec/ it formalises, or says what of
it is the model's choice and in which log entry. -/

open Sys2Proof Sys2Proof.Machine

/-! ## The block as a whole -/

/-- One step with a command at the front of the queue is that command's effect with the rest of the queue. -/
def Obligations.StepRunsFrontCommand : Prop :=
  ∀ (c : Instr) (rest : List Instr) (s : State), step (s.withPending (c :: rest)) = exec c (s.withPending rest)

/-- The queue of waiting commands is the model's own field: no command touches it, and none stops the bridge. -/
def Obligations.CommandsLeaveTheQueue : Prop :=
  ∀ (c : Instr) (s : State), ∃ t, exec c s = .next t ∧ t.pending = s.pending

/-- State.reset, field by field. The values of R23, R43, R57, R80, R98, R102, R103, R115, R129, R140, R154, R163 and R168
for a blank store, both ports open and nothing waiting in them (R141, R174). That the store is blank, that the hold-off lines
are released and that READY is already being sent are the model's (log entries 2, 3 and 4). The laws that every step keeps
hold of it. -/
def Obligations.ResetIsStartOfBlankStore : Prop :=
  let s := State.reset
  s.roster =
    { buds := Vector.replicate 8
        { link := .free, handle := none, addr := 0, setTag := 0, role := .left, listener := none, goodRun := 0, missRun := 0,
          arrival := false, talk := .silent, silenceRun := 0, dlSeq := 0, bonded := false }
      listeners := Vector.replicate 4
        { inUse := false, setTag := 0, members := [], primary := none, priority := 1, volume := 63, sidetone := 20,
          micGain := 63, mute := false, budControls := true }
      defaults := { volume := 63, sidetone := 20, micGain := 63, mute := false, budControls := true } } ∧
  s.pairing =
    { context := none, windows := Vector.replicate 4 { enable := false, base := 0, compareLength := 24 },
      bonds := Vector.replicate 8 { inUse := false, addr := 0, setTag := 0, role := .left, priority := 0 },
      admissionOpen := false } ∧
  s.intake =
    { queues := Vector.replicate 8 [], discards := Vector.replicate 8 { late := 0, duplicate := 0, overflow := 0 } } ∧
  s.laneUnit =
    { lanes := Vector.replicate 3
        { state := .vacant, bud := none, listener := none, reservedFor := none, ring := [], position := 0, step := 65536,
          filter := 0, expected := none, lastGood := Vector.replicate 80 0, concealCount := 0, rampIn := false, slips := 0,
          conceals := 0 }
      waitList := [], evictPtr := 0, speaking := Vector.replicate 4 none,
      handover := { contributions := [], mixing := 0 } } ∧
  s.mix.staging =
    #v[0, 63, 63, 63, 63, 63, 0, 55, 55, 55, 63, 55, 0, 55, 55, 63, 55, 55, 0, 55, 63, 55, 55, 55, 0] ∧
  s.mix.active = s.mix.staging ∧ s.mix.swapPending = false ∧
  s.mix.curve.map (·.val) =
    #v[0, 160, 176, 192, 208, 224, 240, 256, 288, 320, 352, 384, 416, 448, 480, 512,
      576, 640, 704, 768, 832, 896, 960, 1024, 1152, 1280, 1408, 1536, 1664, 1792, 1920, 2048,
      2304, 2560, 2816, 3072, 3328, 3584, 3840, 4096, 4608, 5120, 5632, 6144, 6656, 7168, 7680, 8192,
      9216, 10240, 11264, 12288, 13312, 14336, 15360, 16384, 18432, 20480, 22528, 24576, 26624, 28672, 30720, 32768] ∧
  s.mix.openMic = #v[32768, 32768, 23170, 18919] ∧ s.mix.clips = Vector.replicate 5 0 ∧ s.mix.uplinkSeq = 0 ∧
  s.callCtl = { state := .noCall, timer := some .ms5, fills := 0, fillTotal := 0, discardedVoice := 0 } ∧
  s.airPort =
    { isOpen := true, cut := false, queue := [], sending := none, holdOff := false, malformed := 0, stray := 0, drops := 0 } ∧
  s.voicePort =
    { isOpen := true, cut := false, slot := none, sending := some (.report (.event (.ready .powerUp)) false),
      holdOff := false, malformed := 0 } ∧
  s.directives =
    { region := 0, index := 0, mask := none, modes := Vector.replicate 14 .opened, lock := false,
      settings :=
        { joinThreshold := 4, fadeThreshold := 2, lostThreshold := 200, hangover := 40, targetDepth := 160,
          confirmTimeout := 20, deferInterval := 10, autoHold := 40, defaultPriority := 1 },
      reports := [], lossIndication := false, reportsLost := 0 } ∧
  s.store =
    { pages := Vector.replicate 21 none, state := .idle, restartPending := false, staging := Vector.replicate 16 255 } ∧
  s.pending = [] ∧
  s.Bounded ∧ s.mix.FixedCellsZero ∧ s.LanesSound ∧ s.ArbitersBusy ∧ s.PowerSound ∧ s.store.RestartSound

/-- Every counter and every queue stays within its ceiling, and every lane's ring, pull position, step, depth filter and conceal
count in its range, in every state and not only in a sound party (R5, R44, R58, R59, R82, R91, R92, R108, R116, R134, R140,
R161, R162). -/
def Obligations.StepKeepsCeilings : Prop :=
  ∀ s t : State, s.Bounded → step s = .next t → t.Bounded

/-- The laws of the party: distinct handles (R2), membership (R14), one OFFERED bud and the context that names it (R24),
one in-use listener to a set tag (R29), FREE records at their FREE values (R1), settings in range (R154). -/
def Obligations.StepKeepsParty : Prop :=
  ∀ s t : State, s.PartySound → step s = .next t → t.PartySound

/-- The recorded speaking bud of every listener stays the one that the Roster's tables give, in a sound party: the notices of
R11 miss no change (R60, R61). -/
def Obligations.StepKeepsSpeakersCurrent : Prop :=
  ∀ s t : State, s.PartySound → s.SpeakingCurrent → step s = .next t → t.SpeakingCurrent

/-- The laws of the lanes, the wait list and the receive queues (R44, R46, R58, R60, R61, R63, R65, R68, R75, R82, R91,
R92), in a sound party. -/
def Obligations.StepKeepsLanes : Prop :=
  ∀ s t : State, s.LanesSound → step s = .next t → t.LanesSound

/-- No transmitter is idle while a frame waits that it may send, since an arbiter chooses in the very step that makes a
choice possible (R136, R139, and the model's reading of them, log entry 13); both ports are open or closed together, with the
timer armed while they are open (R116, R141) and not armed while they are closed, which is the model's of the time between a
removal of power and the next power-up (log entry 7); a restart waits only behind an operation (R173); the five fixed mix
cells read 0 in both banks (R99). -/
def Obligations.StepKeepsPortsStoreAndBanks : Prop :=
  ∀ s t : State, step s = .next t →
    (s.ArbitersBusy → s.PowerSound → s.store.RestartSound → t.ArbitersBusy ∧ t.PowerSound ∧ t.store.RestartSound) ∧
    (s.mix.FixedCellsZero → t.mix.FixedCellsZero)

/-- The locks: a page 0 stored with the lock set is never again erased, programmed or lost (R167); a set lock of region 13
stays set, and every mode stays as it is, until a start-up or a removal of power (R157). -/
def Obligations.LocksHold : Prop :=
  (∀ s t : State, s.store.PageZeroLocked → step s = .next t →
    t.store.PageZeroLocked ∧ t.store.pages[0] = s.store.pages[0]) ∧
  (∀ (c : Instr) (s t : State), mayStartUp c = false → s.directives.lock = true → exec c s = .next t →
    t.directives.lock = true ∧ t.directives.modes = s.directives.modes)

/-- What each table, and each other register that a directive sets, is changed by, start-ups and removals of power apart:
the store's pages by completions alone (R164), its staging page by WRITE and LOAD PAGE, its state by STORE PAGE and ERASE
PAGE (R168 to R172), the pointer by POINT, READ and WRITE (R150), the gain curve, open-mic table, staging bank, windows,
settings, modes and lock by WRITE; the pending SWAP is set by SWAP, and where it is cleared, at a cadence, the active bank
takes the staging bank (R98, R100, R101); the admission-open flag changes by three directives (R26), the bond list by WRITE,
BOND and a bonded JOIN (R27), the call state by what R116's table names, the mask by directives, those that come inside a
cadence among them (R155), and the defaults of a listener by nothing (R12). -/
def Obligations.TablesChangeOnlyByTheirCommands : Prop :=
  ∀ (c : Instr) (s t : State), exec c s = .next t →
    (mayChangePages c = false → t.store.pages = s.store.pages) ∧
    (mayStartUp c = false →
      (mayMovePointer c = false → t.directives.region = s.directives.region ∧ t.directives.index = s.directives.index) ∧
      (isWrite c = false → t.mix.curve = s.mix.curve ∧ t.mix.openMic = s.mix.openMic ∧ t.mix.staging = s.mix.staging ∧
        t.pairing.windows = s.pairing.windows ∧ t.directives.settings = s.directives.settings ∧
        t.directives.modes = s.directives.modes ∧ t.directives.lock = s.directives.lock ∧
        ((∀ seq p, c ≠ .loadPage seq p) → t.store.staging = s.store.staging)) ∧
      ((∀ seq p, c ≠ .storePage seq p ∧ c ≠ .erasePage seq p) → t.store.state = s.store.state) ∧
      t.store.restartPending = s.store.restartPending ∧
      (mayTakeSwap c = false → t.mix.active = s.mix.active ∧
        (t.mix.swapPending = s.mix.swapPending ∨ (∃ seq p, c = .swap seq p) ∧ t.mix.swapPending = true)) ∧
      (mayTakeSwap c = true → t.mix.swapPending = s.mix.swapPending ∧ t.mix.active = s.mix.active ∨
        t.mix.swapPending = false ∧ t.mix.active = if s.mix.swapPending then s.mix.staging else s.mix.active) ∧
      (maySetAdmission c = false → t.pairing.admissionOpen = s.pairing.admissionOpen) ∧
      (mayWriteBonds c = false → t.pairing.bonds = s.pairing.bonds) ∧
      (mayChangeCall c = false → t.callCtl.state = s.callCtl.state) ∧
      (isDirective c = false → t.directives.mask = s.directives.mask ∨
        (∃ a ∈ c.order.acts, a.isCall = true) ∧ t.directives.mask = none) ∧
      t.roster.defaults = s.roster.defaults)

/-! ## Frames at the ports -/

/-- A frame or directive that ends at a closed port is discarded without counting and reaches no block (R141). So is one
that ends at a port that has opened again, if it began before the closing: only that it has ended is noted, and the frames
after it are taken (R141). So is a frame whose beginning arrived while its port was closed, whenever its end comes
(R130). What is still arriving at a RESTART is the model's operand (log entry 12). -/
def Obligations.ClosedPortDiscards : Prop :=
  (∀ (c : Instr) (link : Link) (s : State), arrivesAt c = some link → s.portOpen link = false → exec c s = .next s) ∧
  (∀ (c : Instr) (s : State), arrivesAt c = some .air → s.airPort.isOpen = true → s.airPort.cut = true →
    exec c s = .next { s with airPort := { s.airPort with cut := false } }) ∧
  (∀ (c : Instr) (s : State), arrivesAt c = some .voice → s.voicePort.isOpen = true → s.voicePort.cut = true →
    exec c s = .next { s with voicePort := { s.voicePort with cut := false } }) ∧
  (∀ (link : Link) (s : State), exec (.frameBegunWhileClosed link) s = .next s)

/-- R131: what a port makes of a frame's bytes is FRAME_MALFORMED exactly when a check fails, in elementary terms (the
kinds and lengths of R142, written out), and that command discards the frame, raises the port's malformed counter by 1,
saturating (R140), and changes nothing else. -/
def Obligations.MalformedFramesAreCounted : Prop :=
  (∀ (link : Link) (o : CadenceOrder) (a : Arriving) (bytes : List Byte) (loose : Nat),
    receive link o a bytes loose = .frameMalformed link bytes loose ↔
      ¬ (loose = 0 ∧ 4 ≤ bytes.length ∧ bytes.length = 4 + (bytes.getD 3 0).toNat ∧
        (match link with
          | .air => ((bytes.getD 0 0).toNat, (bytes.getD 3 0).toNat) ∈
              [(1, 160), (2, 0), (3, 6), (4, 0), (5, 0), (6, 0), (7, 10), (8, 0)] ∧ (bytes.getD 1 0).toNat ≤ 15
          | .voice => ((bytes.getD 0 0).toNat = 33 ∧ (bytes.getD 3 0).toNat = 160) ∨ (bytes.getD 0 0).toNat = 34))) ∧
  (∀ (bytes : List Byte) (loose : Nat) (s : State), s.AirTakes →
    exec (.frameMalformed .air bytes loose) s =
      .next { s with airPort := { s.airPort with malformed := min (s.airPort.malformed + 1) 65535 } }) ∧
  (∀ (bytes : List Byte) (loose : Nat) (s : State), s.VoiceTakes →
    exec (.frameMalformed .voice bytes loose) s =
      .next { s with voicePort := { s.voicePort with malformed := min (s.voicePort.malformed + 1) 65535 } })

/-- The frame of every well-formed command that is a frame, every operand at every value its encoding admits, is read
back as that command (R130, R142, R143, R147). The cadence order of a voice frame and what is arriving as a RESTART is taken
are the model's operands (log entries 1 and 12). -/
def Obligations.ReceiveReadsBackEveryFrame : Prop :=
  ∀ (c : Instr) (link : Link) (bytes : List Byte) (loose : Nat), c.wellFormed = true →
    frameOf c = some (link, bytes, loose) → receive link c.order c.arriving bytes loose = c

/-- Frames written out byte by byte. Inbound, from the layouts of R130, R142 and R143: every kind of the Air Link, AUDIO,
SILENCE, JOIN, CONFIRM, LEAVE, PARK, ADJUST and HANDLE DROPPED; FAR VOICE and every directive by its code (R147), an unknown
one among them; and frames that fail a check. Outbound on the Air Link: DOWNLINK AUDIO and SILENCE, OFFER, DEFER, REFUSE,
DISMISS and ADJUST REPLY (R142, R143). Outbound on the Voice Link: UPLINK VOICE and every kind of REPORT, with every reason,
cause and operation (R144). -/
def Obligations.FramesOnTheWire : Prop :=
  let sampled := fun x : Block => x.toList.flatMap fun y : Sample => [y.extractLsb' 0 8, y.extractLsb' 8 8]
  let address := fun a : Address => [a.extractLsb' 0 8, a.extractLsb' 8 8, a.extractLsb' 16 8]
  let worded := fun w : List Word => w.flatMap fun y : Word => [y.extractLsb' 0 8, y.extractLsb' 8 8]
  let bit := fun b : Bool => if b then (1 : Byte) else 0
  (receive .air .usual .none [3, 6, 9, 6, 64, 47, 164, 156, 1, 0] 0 = .join 6 9 10760000 412 0 ∧
    receive .air .usual .none [2, 9, 255, 0] 0 = .silence 9 255 ∧
    receive .air .usual .none [7, 15, 4, 10, 1, 63, 0, 5, 1, 1, 0, 0, 0, 0] 0 =
      .adjust 15 4 ⟨⟨1, 63⟩, ⟨0, 5⟩, ⟨1, 1⟩, ⟨0, 0⟩, ⟨0, 0⟩⟩ ∧
    receive .air .usual .none [19, 6, 9, 2, 1, 1] 0 = .frameMalformed .air [19, 6, 9, 2, 1, 1] 0 ∧
    receive .air .usual .none [4, 16, 0, 0] 0 = .frameMalformed .air [4, 16, 0, 0] 0 ∧
    receive .voice .usual .none [34, 3, 7, 2, 0, 30] 0 = .write 7 [0, 30] ∧
    receive .voice .usual .none [34, 20, 7, 0] 0 = .directiveUnknown 20 7 [] ∧
    receive .voice .usual .none [34, 18, 7, 0] 3 = .frameMalformed .voice [34, 18, 7, 0] 3) ∧
  (∀ (o : CadenceOrder) (a : Arriving) (h : Handle) (q x y : Byte) (samples : Block),
    let held : Byte := BitVec.ofNat 8 h.val
    receive .air o a ([1, held, q, 160] ++ sampled samples) 0 = .audio h q samples ∧
    receive .air o a [2, held, q, 0] 0 = .silence h q ∧ receive .air o a [4, held, q, 0] 0 = .confirm h q ∧
    receive .air o a [5, held, q, 0] 0 = .leave h q ∧ receive .air o a [6, held, q, 0] 0 = .park h q ∧
    receive .air o a [8, held, q, 0] 0 = .handleDropped h q ∧
    receive .voice o a ([33, x, y, 160] ++ sampled samples) 0 = .farVoice x y samples o) ∧
  (∀ (o : CadenceOrder) (a : Arriving) (q : Byte) (p : List Byte), p.length ≤ 255 →
    ([1, 2, 3, 4, 5, 6, 7, 8, 9, 10, 11, 12, 13, 14, 15, 16, 17, 18, 19] : List Byte).map (fun code =>
        receive .voice o a ([34, code, q, BitVec.ofNat 8 p.length] ++ p) 0) =
      [.point q p, .read q p, .write q p, .mask q p, .beginCall q p, .endCall q p, .hold q p, .resume q p, .swap q p,
        .openAdmission q p, .closeAdmission q p, .evict q p, .bond q p, .storePage q p, .erasePage q p, .loadPage q p,
        .clearCounters q p, .status q p, .restart q p a]) ∧
  (∀ (h : Handle) (q : Byte) (samples : Block),
    (AirFrame.downlinkAudio h q samples).bytes = [17, BitVec.ofNat 8 h.val, q, 160] ++ sampled samples ∧
    (AirFrame.downlinkSilence h q).bytes = [18, BitVec.ofNat 8 h.val, q, 0] ∧
    (VoiceFrame.uplink ⟨q, samples⟩).bytes = [49, 0, q, 160] ++ sampled samples) ∧
  (∀ (h : Handle) (q : Byte) (b : BudIx) (x : ListenerIx),
    (AirFrame.offer h q b (some x)).bytes =
      [19, BitVec.ofNat 8 h.val, q, 2, BitVec.ofNat 8 (b.val + 1), BitVec.ofNat 8 (x.val + 1)]) ∧
  (∀ (h : Handle) (q : Byte) (n : Nat), (AirFrame.defer h q n).bytes = [20, BitVec.ofNat 8 h.val, q, 1, BitVec.ofNat 8 n]) ∧
  (∀ (h : Handle) (q : Byte) (reason : RefuseReason),
    (AirFrame.refuse h q reason).bytes =
      [21, BitVec.ofNat 8 h.val, q, 1,
        match reason with | .notAdmitted => 1 | .roleTaken => 2 | .full => 3 | .noOffer => 4]) ∧
  (∀ (h : Handle) (b : BudIx),
    (AirFrame.dismiss h b).bytes = [22, BitVec.ofNat 8 h.val, 0, 1, BitVec.ofNat 8 (b.val + 1)]) ∧
  (∀ (h : Handle) (q : Byte) (x : ListenerIx) (volume sidetone : Option GainIx) (mute : Option Bool),
    let index := fun g : Option GainIx => match g with | some g => [(1 : Byte), BitVec.ofNat 8 g.val] | none => [0, 0]
    (AirFrame.adjustReply h q (some x) volume sidetone mute).bytes =
      [23, BitVec.ofNat 8 h.val, q, 11, BitVec.ofNat 8 (x.val + 1)] ++ index volume ++ index sidetone ++
        (match mute with | some m => [1, bit m] | none => [0, 0]) ++ [0, 0, 0, 0]) ∧
  (∀ (lost : Bool) (code q : Byte),
    (Report.reply code q .done).bytes lost = [50, 1, q, 2, bit lost, code] ∧
    (∀ reason : RefusedReason,
      (Report.reply code q (.refused reason)).bytes lost =
        [50, 2, q, 3, bit lost, code,
          match reason with
          | .unknown => 1 | .format => 2 | .range => 3 | .fixed => 4 | .protection => 5 | .state => 6 | .busy => 7
          | .full => 8]) ∧
    (∀ (r : RegionIx) (i : Nat) (words : List Word), words.length ≤ 32 →
      (Report.reply code q (.data r i words)).bytes lost =
        [50, 3, q, BitVec.ofNat 8 (4 + 2 * words.length), bit lost, code, BitVec.ofNat 8 r.val, BitVec.ofNat 8 i] ++
          worded words) ∧
    (∀ words : List Word, words.length = 24 →
      (Report.reply code q (.status words)).bytes lost = [50, 4, q, 50, bit lost, code] ++ worded words)) ∧
  (∀ (lost : Bool) (cause : StartCause),
    (Report.event (.ready cause)).bytes lost =
      [50, 16, 0, 2, bit lost, match cause with | .powerUp => 1 | .restart => 2]) ∧
  (∀ (lost : Bool) (b : BudIx) (x : ListenerIx) (a : Address) (bonded created : Bool) (cause : FreeCause),
    let kind : Byte := match cause with
      | .confirmTimeout => 18 | .leave => 19 | .handleReused => 19 | .noArrivals => 20 | .handleDropped => 20 | .evict => 21
    let code : Byte := match cause with
      | .confirmTimeout => 0 | .leave => 1 | .handleReused => 2 | .noArrivals => 3 | .handleDropped => 4 | .evict => 0
    (Report.event (.departed ⟨b, some x, a, bonded, cause⟩)).bytes lost =
      [50, kind, 0, 8, bit lost, BitVec.ofNat 8 (b.val + 1), BitVec.ofNat 8 (x.val + 1)] ++ address a ++
        [bit bonded, code] ∧
    (Report.event (.joined b x a bonded created)).bytes lost =
      [50, 17, 0, 8, bit lost, BitVec.ofNat 8 (b.val + 1), BitVec.ofNat 8 (x.val + 1)] ++ address a ++
        [bit bonded, bit created]) ∧
  (∀ (lost : Bool) (x : ListenerIx) (b : BudIx) (p : Fin 4) (cause : DeniedCause),
    (Report.event (.laneDenied x (some b) p cause)).bytes lost =
      [50, 22, 0, 5, bit lost, BitVec.ofNat 8 (x.val + 1), BitVec.ofNat 8 (b.val + 1), BitVec.ofNat 8 p.val,
        match cause with | .noLane => 1 | .preempted => 2]) ∧
  (∀ (lost : Bool) (new previous : CallState) (cause : ChangeCause),
    let state := fun c : CallState => match c with
      | .noCall => [(0 : Byte), 0] | .inCall => [1, 0] | .holding .directed => [2, 1] | .holding .auto => [2, 2]
    (Report.event (.callState new previous cause)).bytes lost =
      [50, 23, 0, 6, bit lost] ++ state new ++ state previous ++
        [match cause with
          | .beginCall => 1 | .endCall => 2 | .hold => 3 | .resume => 4 | .fillTimeout => 5 | .voiceReturned => 6]) ∧
  (∀ (lost : Bool) (p : PageIx) (op : StoreOp),
    let what : Byte := match op with | .store => 1 | .erase => 2
    (Report.event (.storeDone p op)).bytes lost = [50, 24, 0, 3, bit lost, BitVec.ofNat 8 p.val, what] ∧
    (Report.event (.restartDeferred p op)).bytes lost = [50, 25, 0, 3, bit lost, BitVec.ofNat 8 p.val, what])

/-! ## Transmit sides and the report queue -/

/-- R135: a frame handed over to a transmit queue of 16 frames displaces the oldest downlink frame, or is discarded where
the queue holds answer frames only; the air-drop counter rises by 1 in every case. A frame that finds room is appended. The
arbiter then has its choice (R136). -/
def Obligations.FullAirQueueMakesRoom : Prop :=
  (∀ (a : AirPort) (f : AirFrame),
    (a.queue.length < 16 → a.enqueue f = { a with queue := a.queue ++ [f] }) ∧
    (a.queue.length = 16 → (∀ g ∈ a.queue, g.isAnswer = true) →
      a.enqueue f = { a with drops := min (a.drops + 1) 65535 }) ∧
    (∀ before d after, a.queue.length = 16 → a.queue = before ++ d :: after → (∀ g ∈ before, g.isAnswer = true) →
      d.isAnswer = false →
      a.enqueue f = { a with queue := before ++ after ++ [f], drops := min (a.drops + 1) 65535 })) ∧
  (∀ (s : State) (f : AirFrame), s.sendAir f = { s with airPort := (s.airPort.enqueue f).choose })

/-- The Air Port's arbiter (R136): AIR_FRAME_SENT leaves the transmitter idle and HOLD_OFF_RELEASED lifts the hold-off,
and then the oldest answer frame, or else the oldest downlink frame, leaves the queue to be sent; nothing is chosen while
the port is closed, held off or sending. HOLD_OFF_ASSERTED begins nothing and leaves the frame being sent. -/
def Obligations.AirArbiterChooses : Prop :=
  (∀ s : State, exec .airFrameSent s = .next { s with airPort := ({ s.airPort with sending := none } : AirPort).choose }) ∧
  (∀ s : State, exec (.holdOffReleased .air) s =
    .next { s with airPort := ({ s.airPort with holdOff := false } : AirPort).choose }) ∧
  (∀ s : State, exec (.holdOffAsserted .air) s = .next { s with airPort := { s.airPort with holdOff := true } }) ∧
  (∀ a : AirPort, a.isOpen = false ∨ a.holdOff = true ∨ a.sending.isSome = true ∨ a.queue = [] → a.choose = a) ∧
  (∀ (a : AirPort) (before : List AirFrame) (f : AirFrame) (after : List AirFrame), a.isOpen = true → a.holdOff = false →
    a.sending = none → a.queue = before ++ f :: after → (∀ g ∈ before, g.isAnswer = false) →
    (f.isAnswer = true → a.choose = { a with sending := some f, queue := before ++ after }) ∧
    (before = [] → (∀ g ∈ f :: after, g.isAnswer = false) → a.choose = { a with sending := some f, queue := after }))

/-- The Voice Port's arbiter (R139): after VOICE_FRAME_SENT, or a release of the hold-off, the uplink frame in the slot is
sent, or else the oldest report, which takes the loss indication as its mark and clears it (R162); nothing is chosen
while the port is closed, held off or sending. HOLD_OFF_ASSERTED begins nothing. -/
def Obligations.VoiceArbiterChooses : Prop :=
  (∀ s : State, exec .voiceFrameSent s =
    .next ({ s with voicePort := { s.voicePort with sending := none } } : State).chooseVoice) ∧
  (∀ s : State, exec (.holdOffReleased .voice) s =
    .next ({ s with voicePort := { s.voicePort with holdOff := false } } : State).chooseVoice) ∧
  (∀ s : State, exec (.holdOffAsserted .voice) s = .next { s with voicePort := { s.voicePort with holdOff := true } }) ∧
  (∀ s : State, s.voicePort.isOpen = false ∨ s.voicePort.holdOff = true ∨ s.voicePort.sending.isSome = true ∨
    (s.voicePort.slot = none ∧ s.directives.reports = []) → s.chooseVoice = s) ∧
  (∀ (s : State) (f : UplinkFrame), s.voicePort.isOpen = true → s.voicePort.holdOff = false →
    s.voicePort.sending = none → s.voicePort.slot = some f →
    s.chooseVoice = { s with voicePort := { s.voicePort with sending := some (.uplink f), slot := none } }) ∧
  (∀ (s : State) (r : Report) (rest : List Report), s.voicePort.isOpen = true → s.voicePort.holdOff = false →
    s.voicePort.sending = none → s.voicePort.slot = none → s.directives.reports = r :: rest →
    s.chooseVoice =
      { s with
        voicePort := { s.voicePort with sending := some (.report r s.directives.lossIndication) }
        directives := { s.directives with reports := rest, lossIndication := false } })

/-- R162: a report posted to a queue of 8 discards the oldest event report, or is itself discarded where the queue holds
replies only; either way the reports-lost counter rises by 1, saturating, and the loss indication is set. A report that
finds room is appended (R161). A report that leaves the queue takes the indication as its mark and clears it; a start-up
clears it too; CLEAR COUNTERS clears the counter and not the indication. -/
def Obligations.FullReportQueueMakesRoom : Prop :=
  (∀ (d : DirectiveUnit) (r : Report),
    (d.reports.length < 8 → d.enqueue r = { d with reports := d.reports ++ [r] }) ∧
    (d.reports.length = 8 → (∀ g ∈ d.reports, g.isEvent = false) →
      d.enqueue r = { d with lossIndication := true, reportsLost := min (d.reportsLost + 1) 65535 }) ∧
    (∀ before e after, d.reports.length = 8 → d.reports = before ++ e :: after → (∀ g ∈ before, g.isEvent = false) →
      e.isEvent = true →
      d.enqueue r =
        { d with
          reports := before ++ after ++ [r], lossIndication := true, reportsLost := min (d.reportsLost + 1) 65535 })) ∧
  (∀ (s : State) (r : Report), s.post r = ({ s with directives := s.directives.enqueue r } : State).chooseVoice) ∧
  (∀ (s : State) (r : Report) (rest : List Report), s.voicePort.isOpen = true → s.voicePort.holdOff = false →
    s.voicePort.sending = none → s.voicePort.slot = none → s.directives.reports = r :: rest →
    s.chooseVoice.voicePort.sending = some (.report r s.directives.lossIndication) ∧
      s.chooseVoice.directives = { s.directives with reports := rest, lossIndication := false }) ∧
  (∀ (s : State) (cause : StartCause), (s.start cause).directives.lossIndication = false ∧
    (s.start cause).directives.reportsLost = 0) ∧
  (∀ s : State, s.clearCounters.directives = { s.directives with reportsLost := 0 })

/-! ## Taking a directive -/

/-- R147: a payload length that does not suit the code is refused with FORMAT, and a code outside 1..19 with UNKNOWN; the
pending mask is consumed (R155), the reply is posted, and nothing else happens (R146). -/
def Obligations.DirectiveFormIsJudged : Prop :=
  ∀ (s : State) (code seq : Byte) (p : List Byte) (a : Arriving), s.VoiceTakes →
    let fits : Prop :=
      if code.toNat = 1 ∨ code.toNat = 4 then p.length = 2
      else if code.toNat = 2 ∨ (12 ≤ code.toNat ∧ code.toNat ≤ 16) then p.length = 1
      else if code.toNat = 3 then 2 ≤ p.length ∧ p.length ≤ 64 ∧ p.length % 2 = 0
      else p.length = 0
    let waiting : State := { s with directives := { s.directives with mask := none } }
    (1 ≤ code.toNat → code.toNat ≤ 19 → ¬ fits →
      exec (directiveOf code seq p a) s = .next (waiting.post (.reply code seq (.refused .format)))) ∧
    (code.toNat = 0 ∨ 19 < code.toNat →
      exec (.directiveUnknown code seq p) s = .next (waiting.post (.reply code seq (.refused .unknown))))

/-- POINT (R150): the region and the index are checked, and the pointer takes them; a refused POINT leaves the pointer.
MASK (R155): it sets the pending mask, discarding one that was pending, and any other directive leaves none, whatever
its outcome. What a masked one-word WRITE merges is in WriteIsCheckedThenApplied; here, bit by bit. -/
def Obligations.PointAndMaskSetTheirRegisters : Prop :=
  (∀ (s : State) (seq region index : Byte), s.VoiceTakes →
      let count := [8, 64, 32, 25, 25, 64, 4, 17, 48, 9, 35, 24, 4, 15, 8].getD region.toNat 0
      (region.toNat ≤ 14 → index.toNat < count →
        exec (.point seq [region, index]) s =
          .next (({ s with
              directives :=
                { s.directives with mask := none, region := Fin.ofNat 15 region.toNat, index := index.toNat } } :
            State).post (.reply 1 seq .done))) ∧
      (14 < region.toNat ∨ count ≤ index.toNat →
        exec (.point seq [region, index]) s =
          .next (({ s with directives := { s.directives with mask := none } } : State).post
            (.reply 1 seq (.refused .range))))) ∧
  (∀ (s : State) (seq lo hi : Byte), s.VoiceTakes →
    exec (.mask seq [lo, hi]) s =
      .next (({ s with directives := { s.directives with mask := some (hi ++ lo) } } : State).post (.reply 4 seq .done))) ∧
  (∀ (c : Instr) (s t : State), isDirective c = true → (∀ seq p, c = .mask seq p → p.length ≠ 2) →
    s.VoiceTakes → exec c s = .next t → t.directives.mask = none) ∧
  (∀ (mask old written : Word) (i : Nat), i < 16 →
    (mergeMask mask old written).getLsbD i = if mask.getLsbD i then old.getLsbD i else written.getLsbD i)

/-- READ (R151): its checks in order, then DATA with the run as the state stands, the pointer past the run and nothing
else changed but the pending mask. -/
def Obligations.ReadReturnsTheRun : Prop :=
  ∀ (s : State) (seq n : Byte), s.VoiceTakes →
    let d := s.directives
    let count := [8, 64, 32, 25, 25, 64, 4, 17, 48, 9, 35, 24, 4, 15, 8].getD d.region.val 0
    let taken : State := { s with directives := { d with mask := none } }
    exec (.read seq [n]) s =
      .next
        (if n.toNat < 1 ∨ 32 < n.toNat then taken.post (.reply 2 seq (.refused .format))
        else if count < d.index + n.toNat then taken.post (.reply 2 seq (.refused .range))
        else if d.region.val ≠ 13 ∧ d.modeOf d.region = .hidden then taken.post (.reply 2 seq (.refused .protection))
        else
          ({ s with directives := { d with mask := none, index := d.index + n.toNat } } : State).post
            (.reply 2 seq (.data d.region d.index ((List.range n.toNat).map fun k => s.readWord d.region (d.index + k)))))

/-- The words of every region, as R149 lays them out, in a state whose counters are within their ceilings: the fields of the
records with their codes, the banks and tables, the settings in their ranges, the counters, the call, the modes and the
staging page. -/
def Obligations.RegionsPresentTheirBlocks : Prop :=
  ∀ s : State, s.Bounded →
    let word := fun (r : RegionIx) (i : Nat) => (s.readWord r i).toNat
    let flag := fun b : Bool => if b then 1 else 0
    let bud := fun b : Option BudIx => match b with | some b => b.val + 1 | none => 0
    let listener := fun x : Option ListenerIx => match x with | some x => x.val + 1 | none => 0
    let role := fun r : Role => match r with | .left => 0 | .right => 1 | .mono => 2
    let mode := fun m : Mode => match m with | .opened => 0 | .readOnly => 1 | .hidden => 2
    ([0, 1, 2, 3, 4, 5, 6, 7].map (word 0) = [46, 1, 1, 8, 4, 3, 21, 80]) ∧
    (∀ (b : BudIx), let r := s.roster.buds[b]
      word 1 (8 * b.val) =
        (match r.link with
          | .free => 0 | .offered => 1 | .joining => 2 | .live => 3 | .fading => 4 | .parked => 5) +
          256 * (match r.talk with | .silent => 0 | .talking => 1) ∧
      word 1 (8 * b.val + 1) = (match r.handle with | some h => h.val | none => 0) + 256 * listener r.listener ∧
      65536 * word 1 (8 * b.val + 2) + word 1 (8 * b.val + 3) = r.addr.toNat ∧
      s.readWord 1 (8 * b.val + 4) = r.setTag ∧ word 1 (8 * b.val + 5) = role r.role + 256 * flag r.bonded ∧
      word 1 (8 * b.val + 6) = r.goodRun + 256 * r.missRun ∧
      word 1 (8 * b.val + 7) = r.silenceRun + 256 * r.dlSeq.toNat) ∧
    (∀ (x : ListenerIx), let l := s.roster.listeners[x]
      word 2 (8 * x.val) = flag l.inUse ∧ s.readWord 2 (8 * x.val + 1) = l.setTag ∧
      word 2 (8 * x.val + 2) = bud l.members[0]? + 256 * bud l.members[1]? ∧
      word 2 (8 * x.val + 3) = bud l.primary + (if ∃ b, l.primary = some b ∧ b ∉ l.members then 256 else 0) ∧
      word 2 (8 * x.val + 4) = l.priority.val ∧ word 2 (8 * x.val + 5) = l.volume.val + 256 * l.sidetone.val ∧
      word 2 (8 * x.val + 6) = l.micGain.val + 256 * flag l.mute ∧ word 2 (8 * x.val + 7) = flag l.budControls) ∧
    (∀ (i : Fin 25), word 3 i.val = s.mix.staging[i].val ∧ word 4 i.val = s.mix.active[i].val) ∧
    (∀ (i : Fin 64), word 5 i.val = s.mix.curve[i].val) ∧ (∀ (i : Fin 4), word 6 i.val = s.mix.openMic[i].val) ∧
    (∀ (i : Fin 4), let v := s.pairing.windows[i]
      word 7 (4 * i.val) = flag v.enable ∧ 65536 * word 7 (4 * i.val + 1) + word 7 (4 * i.val + 2) = v.base.toNat ∧
      word 7 (4 * i.val + 3) = v.compareLength.val) ∧
    word 7 16 = flag s.pairing.admissionOpen ∧
    (∀ (i : Fin 8), let e := s.pairing.bonds[i]
      word 8 (6 * i.val) = flag e.inUse ∧ 65536 * word 8 (6 * i.val + 1) + word 8 (6 * i.val + 2) = e.addr.toNat ∧
      s.readWord 8 (6 * i.val + 3) = e.setTag ∧ word 8 (6 * i.val + 4) = role e.role ∧
      word 8 (6 * i.val + 5) = e.priority.val) ∧
    (s.directives.settings.InRange → let t := s.directives.settings
      [0, 1, 2, 3, 4, 5, 6, 7, 8].map (word 9) =
        [t.joinThreshold, t.fadeThreshold, t.lostThreshold, t.hangover, t.targetDepth, t.confirmTimeout, t.deferInterval,
          t.autoHold, t.defaultPriority]) ∧
    (∀ (b : BudIx), word 10 (3 * b.val) = s.intake.discards[b].late ∧
      word 10 (3 * b.val + 1) = s.intake.discards[b].duplicate ∧ word 10 (3 * b.val + 2) = s.intake.discards[b].overflow) ∧
    [24, 25, 26, 27, 33, 34].map (word 10) =
      [s.airPort.malformed, s.airPort.stray, s.airPort.drops, s.voicePort.malformed, s.callCtl.discardedVoice,
        s.directives.reportsLost] ∧
    (∀ (i : Fin 5), word 10 (28 + i.val) = s.mix.clips[i]) ∧
    (∀ (k : LaneIx), let l := s.laneUnit.lanes[k]
      word 11 (8 * k.val) = (match l.state with | .vacant => 0 | .priming => 1 | .mixing => 2 | .draining => 3) ∧
      word 11 (8 * k.val + 1) = bud l.bud ∧ word 11 (8 * k.val + 2) = listener l.listener ∧
      word 11 (8 * k.val + 3) = listener l.reservedFor ∧
      (∀ x : Byte, l.expected = some x → word 11 (8 * k.val + 4) = x.toNat) ∧
      (l.expected = none → word 11 (8 * k.val + 4) = 32768) ∧
      (s.readWord 11 (8 * k.val + 5)).toInt = (l.step : Int) - 65536 ∧
      word 11 (8 * k.val + 6) = l.slips ∧ word 11 (8 * k.val + 7) = l.conceals) ∧
    [0, 1].map (word 12) = (match s.callCtl.state with
      | .noCall => [0, 0] | .inCall => [1, 0] | .holding .directed => [2, 1] | .holding .auto => [2, 2]) ∧
    [2, 3].map (word 12) = [s.callCtl.fills, s.callCtl.fillTotal] ∧
    (∀ (i : Fin 14), word 13 i.val = mode s.directives.modes[i]) ∧ word 13 14 = flag s.directives.lock ∧
    (∀ (i : Fin 8), word 14 i.val = s.store.staging[2 * i.val].toNat + 256 * s.store.staging[2 * i.val + 1].toNat)

/-- WRITE (R152, and R155 for the mask): the checks after the length in order; a refused WRITE changes no word; a carried out
one applies its words in order from the pointer's index, the owners act, and the pointer stands past the run. That the owners
act once, on the whole run, the wait list first and then the listeners in number order, is the model's choice (log entry 9).
If a listener's priority changed, the wait list is re-sorted: it keeps its entries with their request orders, and stands by
priority and then by request order (R69). Then each listener whose mute or primary changed has its notice, and no other has
one (R16). The protection that READ, WRITE and the store directives look up is the region's word of region 13: regions 0 to
12 have modes 0 to 12, region 14 has mode 13, and region 13 has none (R149, R156), the lock alone governing its WRITE (R157).
-/
def Obligations.WriteIsCheckedThenApplied : Prop :=
  ∀ (s : State) (seq : Byte) (p : List Byte), s.VoiceTakes → 2 ≤ p.length → p.length ≤ 64 →
    p.length % 2 = 0 →
    let d := s.directives
    let n := p.length / 2
    let count := [8, 64, 32, 25, 25, 64, 4, 17, 48, 9, 35, 24, 4, 15, 8].getD d.region.val 0
    let taken : State := { s with directives := { d with mask := none } }
    let words : List Word := (List.range n).map fun k => p.getD (2 * k + 1) 0 ++ p.getD (2 * k) 0
    let applied : List Word :=
      match d.mask, words with
      | some m, [w] => [(s.readWord d.region d.index &&& m) ||| (w &&& ~~~m)]
      | _, _ => words
    exec (.write seq p) s =
      .next
        (if count < d.index + n then taken.post (.reply 3 seq (.refused .range))
        else if d.region.val = 13 ∧ d.lock = true ∨ d.region.val ≠ 13 ∧ d.modeOf d.region ≠ .opened then
          taken.post (.reply 3 seq (.refused .protection))
        else if d.region.val ∈ [0, 1, 4, 10, 11, 12] then taken.post (.reply 3 seq (.refused .fixed))
        else
          let done := (taken.writeWords d.region d.index applied).afterWrite s.roster.listeners
          ({ done with directives := { done.directives with region := d.region, index := d.index + n } } : State).post
            (.reply 3 seq .done)) ∧
    (∀ (e : DirectiveUnit) (r : RegionIx),
      (∀ i : Fin 13, r.val = i.val → e.modeOf r = e.modes[i]) ∧ (r.val = 14 → e.modeOf r = e.modes[13])) ∧
    (∀ (u : State) (r : RegionIx) (i : Nat) (w : Word) (rest : List Word),
      u.writeWords r i [] = u ∧ u.writeWords r i (w :: rest) = (u.writeWord r i w).writeWords r (i + 1) rest) ∧
    (∀ (u : State) (old : Vector Listener 4),
      let sorted := if ∃ x : ListenerIx, old[x].priority ≠ u.roster.listeners[x].priority then u.resortWait else u
      let told := fun (v : State) (x : ListenerIx) =>
        if old[x].mute ≠ u.roster.listeners[x].mute ∨ old[x].primary ≠ u.roster.listeners[x].primary then v.notice x else v
      u.afterWrite old = told (told (told (told sorted 0) 1) 2) 3) ∧
    (∀ u : State,
      let w := u.resortWait.laneUnit.waitList
      u.resortWait = { u with laneUnit := { u.laneUnit with waitList := w } } ∧ w.Perm u.laneUnit.waitList ∧
      ((u.laneUnit.waitList.map (·.order)).Nodup → w.Pairwise fun a b =>
        u.roster.listeners[b.listener].priority < u.roster.listeners[a.listener].priority ∨
          u.roster.listeners[b.listener].priority = u.roster.listeners[a.listener].priority ∧ a.order < b.order))

/-- R153: what a word of a carried-out WRITE stores, told by reading it back: every field of every writable region takes the
written value as the rule's table clamps or interprets it, a setting within its range (R154), read-only words and fields keep
theirs, and every other word of the table space reads as before. -/
def Obligations.WrittenWordReadsBack : Prop :=
  ∀ (s : State) (r : RegionIx) (i : Nat) (w : Word),
    i < regionCount r → r.val ∉ [0, 1, 4, 10, 11, 12] →
    let old := s.readWord r i
    let lo := w.toNat % 256
    let hi := w.toNat / 256
    let flag : Nat := if w = 0 then 0 else 1
    let range :=
      [(1, 32), (1, 16), (20, 255), (4, 255), (80, 240), (4, 100), (1, 255), (8, 255), (0, 3)].getD i (0, 0)
    let members := s.roster.listeners[Fin.ofNat 4 (i / 8)].members
    let stored : Nat :=
      match r.val with
      | 2 =>
        match i % 8 with
        | 3 => min lo 8 + (if min lo 8 = 0 ∨ ∃ b ∈ members, b.val + 1 = min lo 8 then 0 else 256)
        | 4 => min w.toNat 3
        | 5 => min lo 63 + 256 * min hi 63
        | 6 => min lo 63 + 256 * (if hi = 0 then 0 else 1)
        | 7 => flag
        | _ => old.toNat
      | 3 => if i ∈ [0, 6, 12, 18, 24] then old.toNat else min w.toNat 63
      | 5 => min w.toNat 32768
      | 6 => min w.toNat 32768
      | 7 =>
        if i = 16 then flag
        else match i % 4 with
          | 0 => flag
          | 1 => min w.toNat 255
          | 2 => w.toNat
          | _ => min w.toNat 24
      | 8 =>
        match i % 6 with
        | 0 => flag
        | 1 => min w.toNat 255
        | 4 => min w.toNat 2
        | 5 => min w.toNat 3
        | _ => w.toNat
      | 9 => max range.1 (min w.toNat range.2)
      | 13 => if i = 14 then flag else min w.toNat 2
      | _ => w.toNat
    ((s.writeWord r i w).readWord r i).toNat = stored ∧
    ∀ (q : RegionIx) (j : Nat), j < regionCount q → (q, j) ≠ (r, i) → (s.writeWord r i w).readWord q j = s.readWord q j

/-- R158: CLEAR COUNTERS sets every counter it names to 0 in one act and nothing else, or is refused PROTECTED when region
10 is READ ONLY or HIDDEN. -/
def Obligations.ClearCountersClearsTheCounters : Prop :=
  ∀ (s : State) (seq : Byte), s.VoiceTakes →
    let taken : State := { s with directives := { s.directives with mask := none } }
    (s.directives.modes[10] ≠ .opened →
      exec (.clearCounters seq []) s = .next (taken.post (.reply 17 seq (.refused .protection)))) ∧
    (s.directives.modes[10] = .opened →
      ∃ u : State, exec (.clearCounters seq []) s = .next (u.post (.reply 17 seq .done)) ∧
        (∀ i : Nat, i < 35 → u.readWord 10 i = 0) ∧
        (∀ k : LaneIx, u.laneUnit.lanes[k] = { s.laneUnit.lanes[k] with slips := 0, conceals := 0 }) ∧
        u.callCtl = { s.callCtl with discardedVoice := 0, fillTotal := 0 } ∧ u.roster = s.roster ∧
        u.pairing = s.pairing ∧ u.intake.queues = s.intake.queues ∧ u.laneUnit.waitList = s.laneUnit.waitList ∧
        u.laneUnit.evictPtr = s.laneUnit.evictPtr ∧ u.laneUnit.speaking = s.laneUnit.speaking ∧
        u.mix = { s.mix with clips := Vector.replicate 5 0 } ∧
        u.airPort = { s.airPort with malformed := 0, stray := 0, drops := 0 } ∧
        u.voicePort = { s.voicePort with malformed := 0 } ∧ u.store = s.store ∧
        u.directives = { s.directives with mask := none, reportsLost := 0 })

/-- STATUS (R159): one report of 24 words, taken together, in the order of R144's table; nothing else changes but the
pending mask. -/
def Obligations.StatusIsASnapshot : Prop :=
  ∀ (s : State) (seq : Byte), s.VoiceTakes → s.laneUnit.waitList.length ≤ 4 →
    let words := s.statusWords.map (·.toNat)
    exec (.status seq []) s =
      .next (({ s with directives := { s.directives with mask := none } } : State).post
        (.reply 18 seq (.status s.statusWords))) ∧
    words.length = 24 ∧
    words.take 3 = [s.callCtl.state.code, s.callCtl.state.holdCode, if s.mix.swapPending then 1 else 0] ∧
    (s.pairing.context = none → (words.drop 3).take 3 = [0, 0, 0]) ∧
    (∀ c : Context, s.pairing.context = some c → (words.drop 3).take 3 = [1, c.handle.val, c.bud.val + 1]) ∧
    (s.store.state = .idle → (words.drop 6).take 2 = [0, 0]) ∧
    (∀ (q : PageIx) (image : Page), s.store.state = .programming q image → (words.drop 6).take 2 = [1, q.val]) ∧
    (∀ q : PageIx, s.store.state = .erasing q → (words.drop 6).take 2 = [2, q.val]) ∧
    (words.drop 8).take 2 = [if s.store.restartPending then 1 else 0, s.laneUnit.evictPtr.val + 1] ∧
    (∀ x : ListenerIx, words.getD (10 + x.val) 0 = match s.laneUnit.speaking[x] with | some b => b.val + 1 | none => 0) ∧
    words.getD 14 0 = s.laneUnit.waitList.length ∧
    (∀ (i : Fin 4) (e : WaitEntry), s.laneUnit.waitList[i.val]? = some e →
      words.getD (15 + 2 * i.val) 0 = e.listener.val + 1 ∧ words.getD (16 + 2 * i.val) 0 = e.bud.val + 1) ∧
    (∀ i : Fin 4, s.laneUnit.waitList[i.val]? = none →
      words.getD (15 + 2 * i.val) 0 = 0 ∧ words.getD (16 + 2 * i.val) 0 = 0) ∧
    words.getD 23 0 = if s.pairing.admissionOpen then 1 else 0

/-- SWAP (R100): the flag is set, or stays set, and DONE is posted, in every call state and whatever the modes; no report
but the reply. OPEN ADMISSION and CLOSE ADMISSION (R26): the flag takes the value asked for and DONE is posted, or the
directive is refused PROTECTED when region 7 is READ ONLY or HIDDEN. -/
def Obligations.SwapAndAdmissionSetTheirFlags : Prop :=
  ∀ (s : State) (seq : Byte), s.VoiceTakes →
    let taken : State := { s with directives := { s.directives with mask := none } }
    exec (.swap seq []) s =
      .next (({ taken with mix := { s.mix with swapPending := true } } : State).post (.reply 9 seq .done)) ∧
    exec (.openAdmission seq []) s =
      .next (if s.directives.modes[7] = .opened then
          ({ taken with pairing := { s.pairing with admissionOpen := true } } : State).post (.reply 10 seq .done)
        else taken.post (.reply 10 seq (.refused .protection))) ∧
    exec (.closeAdmission seq []) s =
      .next (if s.directives.modes[7] = .opened then
          ({ taken with pairing := { s.pairing with admissionOpen := false } } : State).post (.reply 11 seq .done)
        else taken.post (.reply 11 seq (.refused .protection)))

/-- BOND (R42): its checks in order; the entry that holds the address, the lowest-numbered such, or else the lowest-numbered
one not in use, is filled with the bud's address, set tag and role and its listener's priority, and the bud's bonded flag
is set; a refusal changes neither. No listener's priority changes. -/
def Obligations.BondEntersTheBud : Prop :=
  ∀ (s : State) (seq n : Byte), s.VoiceTakes →
    let taken : State := { s with directives := { s.directives with mask := none } }
    (n.toNat = 0 ∨ 8 < n.toNat → exec (.bond seq [n]) s = .next (taken.post (.reply 13 seq (.refused .range)))) ∧
    (∀ b : BudIx, n.toNat = b.val + 1 →
      let r := s.roster.buds[b]
      let fill := fun (i : Fin 8) (x : ListenerIx) =>
        ({ taken with
            roster := { s.roster with buds := s.roster.buds.set b { r with bonded := true } }
            pairing :=
              { s.pairing with
                bonds := s.pairing.bonds.set i
                  { inUse := true, addr := r.addr, setTag := r.setTag, role := r.role,
                    priority := s.roster.listeners[x].priority } } } : State).post (.reply 13 seq .done)
      (s.directives.modes[8] ≠ .opened →
        exec (.bond seq [n]) s = .next (taken.post (.reply 13 seq (.refused .protection)))) ∧
      (s.directives.modes[8] = .opened → r.link = .free →
        exec (.bond seq [n]) s = .next (taken.post (.reply 13 seq (.refused .state)))) ∧
      (s.directives.modes[8] = .opened → r.link ≠ .free → ∀ x : ListenerIx, r.listener = some x →
        (∀ i : Fin 8, s.pairing.bonds[i].inUse = true → s.pairing.bonds[i].addr = r.addr →
          (∀ j : Fin 8, j < i → s.pairing.bonds[j].inUse = true → s.pairing.bonds[j].addr ≠ r.addr) →
          exec (.bond seq [n]) s = .next (fill i x)) ∧
        ((∀ j : Fin 8, s.pairing.bonds[j].inUse = true → s.pairing.bonds[j].addr ≠ r.addr) →
          (∀ i : Fin 8, s.pairing.bonds[i].inUse = false → (∀ j : Fin 8, j < i → s.pairing.bonds[j].inUse = true) →
            exec (.bond seq [n]) s = .next (fill i x)) ∧
          ((∀ j : Fin 8, s.pairing.bonds[j].inUse = true) →
            exec (.bond seq [n]) s = .next (taken.post (.reply 13 seq (.refused .full)))))))

/-! ## The profile store -/

/-- STORE PAGE and ERASE PAGE (R169, R170): their checks in order, RANGE, PROTECTED, BUSY and for STORE PAGE STATE; a refusal
changes no state but the pending mask, an acceptance begins the operation, with the staging page captured for a STORE, and
posts DONE. The 20 ms are not modelled (log entry 5). R167: each page is governed by the region whose contents it holds, READ
ONLY and HIDDEN protecting it from STORE PAGE and ERASE PAGE and HIDDEN from LOAD PAGE; page 0 is governed by the lock it
holds and is never protected from LOAD PAGE; the lock of region 13 does not enter. -/
def Obligations.StoreAndEraseAreChecked : Prop :=
  (∀ (s : State) (seq n : Byte), s.VoiceTakes →
      let taken : State := { s with directives := { s.directives with mask := none } }
      (20 < n.toNat →
        exec (.storePage seq [n]) s = .next (taken.post (.reply 14 seq (.refused .range))) ∧
        exec (.erasePage seq [n]) s = .next (taken.post (.reply 15 seq (.refused .range)))) ∧
      (∀ q : PageIx, n.toNat = q.val →
        exec (.storePage seq [n]) s =
          .next (if s.pageProtected q = true then taken.post (.reply 14 seq (.refused .protection))
            else if s.store.state ≠ .idle then taken.post (.reply 14 seq (.refused .busy))
            else if s.store.pages[q] ≠ none then taken.post (.reply 14 seq (.refused .state))
            else ({ taken with store := { s.store with state := .programming q s.store.staging } } : State).post
              (.reply 14 seq .done)) ∧
        exec (.erasePage seq [n]) s =
          .next (if s.pageProtected q = true then taken.post (.reply 15 seq (.refused .protection))
            else if s.store.state ≠ .idle then taken.post (.reply 15 seq (.refused .busy))
            else ({ taken with store := { s.store with state := .erasing q } } : State).post (.reply 15 seq .done)))) ∧
  (∀ (s : State),
      (∀ (q : PageIx) (r : RegionIx), (q.val, r.val) ∈
          [(1, 7), (2, 7), (3, 8), (4, 8), (5, 8), (6, 8), (7, 8), (8, 8), (9, 5), (10, 5), (11, 5), (12, 5), (13, 5), (14, 5),
            (15, 5), (16, 5), (17, 6), (18, 9), (19, 3), (20, 3)] →
        (s.pageProtected q = true ↔ s.directives.modeOf r ≠ .opened) ∧
        (s.loadProtected q = true ↔ s.directives.modeOf r = .hidden)) ∧
      (s.pageProtected 0 = true ↔ ∃ p : Page, s.store.pages[0] = some p ∧ p[14] ≠ 0) ∧ s.loadProtected 0 = false ∧
      (∀ q : PageIx, s.pageProtected q = ({ s with directives := { s.directives with lock := !s.directives.lock } } :
        State).pageProtected q))

/-- R172: LOAD PAGE copies a page, or 16 bytes of 255 for a blank one, into the staging page at once, its checks in order;
it changes no other table and leaves the operation in flight and its captured image alone. -/
def Obligations.LoadPageCopiesThePage : Prop :=
  ∀ (s : State) (seq n : Byte), s.VoiceTakes →
    let taken : State := { s with directives := { s.directives with mask := none } }
    (20 < n.toNat → exec (.loadPage seq [n]) s = .next (taken.post (.reply 16 seq (.refused .range)))) ∧
    (∀ q : PageIx, n.toNat = q.val →
      exec (.loadPage seq [n]) s =
        .next (if s.loadProtected q = true then taken.post (.reply 16 seq (.refused .protection))
          else if s.store.state.inFlight = some q then taken.post (.reply 16 seq (.refused .busy))
          else
            ({ taken with
                store :=
                  { s.store with
                    staging := match s.store.pages[q] with | some p => p | none => Vector.replicate 16 255 } } :
              State).post (.reply 16 seq .done)))

/-- OPERATION COMPLETION and DEFERRED RESTART TAKEN (R171, R173): the page in flight takes its new condition and the
controller becomes IDLE; STORE DONE is posted, or the RESTART that waited is taken, and then no STORE DONE. An event with no
operation in flight, or no restart pending, does not occur (log entry 6). RESTART (R173): taken at once, with no reply, while
the controller is IDLE; deferred behind an operation, with RESTART DEFERRED and then DONE; DONE alone while one is deferred
already. A RESTART taken is the start-up, after a note of what was still arriving at each port, which R141 discards at its
end (log entry 12). -/
def Obligations.CompletionsAndRestarts : Prop :=
  ∀ a : Arriving,
    let restarted := fun u : State =>
      ({ u with
          airPort := { u.airPort with cut := u.airPort.cut || a.air }
          voicePort := { u.voicePort with cut := u.voicePort.cut || a.voice } } : State).start .restart
    (∀ (s : State) (q : PageIx) (op : StoreOp) (page : Option Page),
        (s.store.state = .erasing q ∧ op = .erase ∧ page = none) ∨
          (∃ image, s.store.state = .programming q image ∧ op = .store ∧ page = some image) →
        let settled : State := { s with store := { s.store with pages := s.store.pages.set q page, state := .idle } }
        (s.store.restartPending = false →
          exec (.operationCompletion a) s = .next (settled.post (.event (.storeDone q op)))) ∧
        (s.store.restartPending = true →
          exec (.operationCompletion a) s = .next (restarted settled) ∧
          exec (.deferredRestartTaken a) s = .next (restarted settled))) ∧
    (∀ (s : State) (seq : Byte), s.VoiceTakes →
        let taken : State := { s with directives := { s.directives with mask := none } }
        (s.store.state = .idle → exec (.restart seq [] a) s = .next (restarted taken)) ∧
        (∀ (q : PageIx) (op : StoreOp), (s.store.state = .erasing q ∧ op = .erase) ∨
            (∃ image, s.store.state = .programming q image ∧ op = .store) →
          (s.store.restartPending = false →
            exec (.restart seq [] a) s =
              .next ((({ taken with store := { s.store with restartPending := true } } : State).post
                (.event (.restartDeferred q op))).post (.reply 19 seq .done))) ∧
          (s.store.restartPending = true → exec (.restart seq [] a) s = .next (taken.post (.reply 19 seq .done))))) ∧
    (∀ s : State, s.store.state = .idle → exec (.operationCompletion a) s = .next s) ∧
    (∀ s : State, s.store.restartPending = false → exec (.deferredRestartTaken a) s = .next s)

/-- What start-up leaves (R23, R43, R57, R80, R115, R129, R163, R168, R174): every block's volatile state at its value, the
tables as the pages give them, and both ports open with nothing waiting. READY is the only report (R174). Two things are the
model's choices: that an idle transmitter which is not held off has already chosen READY for sending (log entry 4), and that
start-up leaves the partners' hold-off lines as they are (log entry 3). POWER UP (R174) is start-up with both transmitters
idle and no frame in progress (R141), after the page of an operation in flight at the loss of power has become blank
(R164). -/
def Obligations.StartUpLeavesStartValues : Prop :=
  (∀ (s : State) (cause : StartCause),
    let t := s.start cause
    let tables := loadTables s.store.pages
    (∀ b : BudIx, t.roster.buds[b] = {}) ∧
    (∀ x : ListenerIx, t.roster.listeners[x] =
      { inUse := false, setTag := 0, members := [], primary := none,
        priority := Fin.ofNat 4 (min tables.settings.defaultPriority 3), volume := tables.defaults.volume,
        sidetone := tables.defaults.sidetone, micGain := tables.defaults.micGain, mute := tables.defaults.mute,
        budControls := tables.defaults.budControls }) ∧
    t.roster.defaults = tables.defaults ∧
    t.pairing = { context := none, windows := tables.windows, bonds := tables.bonds, admissionOpen := false } ∧
    (∀ b : BudIx, t.intake.queues[b] = [] ∧ t.intake.discards[b] = {}) ∧
    (∀ k : LaneIx, t.laneUnit.lanes[k] = {}) ∧ t.laneUnit.waitList = [] ∧ t.laneUnit.evictPtr = 0 ∧
    (∀ x : ListenerIx, t.laneUnit.speaking[x] = none) ∧
    t.mix =
      { staging := tables.mix, active := tables.mix, swapPending := false, curve := tables.curve,
        openMic := tables.openMic, clips := Vector.replicate 5 0, uplinkSeq := 0 } ∧
    t.callCtl = { state := .noCall, timer := some .ms5, fills := 0, fillTotal := 0, discardedVoice := 0 } ∧
    t.airPort =
      { isOpen := true, cut := s.airPort.cut, queue := [], sending := s.airPort.sending, holdOff := s.airPort.holdOff, malformed := 0,
        stray := 0, drops := 0 } ∧
    t.directives.SameTables
      { region := 0, index := 0, mask := none, modes := tables.modes, lock := tables.lock, settings := tables.settings,
        reports := [], lossIndication := false, reportsLost := 0 } ∧
    t.voicePort.isOpen = true ∧ t.voicePort.cut = s.voicePort.cut ∧ t.voicePort.slot = none ∧ t.voicePort.malformed = 0 ∧
    t.voicePort.holdOff = s.voicePort.holdOff ∧
    (if s.voicePort.sending = none ∧ s.voicePort.holdOff = false then
      t.voicePort.sending = some (.report (.event (.ready cause)) false) ∧ t.directives.reports = []
    else t.voicePort.sending = s.voicePort.sending ∧ t.directives.reports = [.event (.ready cause)]) ∧
    t.store = { pages := s.store.pages, state := .idle, restartPending := false, staging := Vector.replicate 16 255 } ∧
    t.pending = s.pending) ∧
  (∀ s : State,
    let pages := match s.store.state.inFlight with | some q => s.store.pages.set q none | none => s.store.pages
    ∃ u : State, exec .powerUp s = .next (u.start .powerUp) ∧ u.store.pages = pages ∧ u.airPort.sending = none ∧
      u.voicePort.sending = none ∧ u.airPort.cut = false ∧ u.voicePort.cut = false ∧
      u.airPort.holdOff = s.airPort.holdOff ∧ u.voicePort.holdOff = s.voicePort.holdOff ∧
      u.pending = s.pending)

/-- POWER REMOVAL, and the next POWER UP (R164): the page of an operation in flight is blank, whatever it held, and every
other page keeps its condition and contents. Between the two the ports are closed, so that every frame is discarded (log
entry 7). -/
def Obligations.PagesOutlivePower : Prop :=
  ∀ s : State, ∃ t u : State, exec .powerRemoval s = .next t ∧ exec .powerUp t = .next u ∧
    t.airPort.isOpen = false ∧ t.voicePort.isOpen = false ∧ t.callCtl.timer = none ∧
    ∀ q : PageIx, u.store.pages[q] = if s.store.state.inFlight = some q then none else s.store.pages[q]

/-- R166: what the pages give the tables. A blank page gives the built-in default of every value it holds, the gain curve by
R102's formula; a written page gives each value as a WRITE of it would store it, a setting within its range (R154), each word
from its two bytes, low byte first (R165); a bond entry any of whose words lies on a blank page has the blank defaults whole;
the fixed mix cells are 0 whatever the pages hold. -/
def Obligations.PagesAreLoadedIntoTheirTables : Prop :=
  ∀ pages : Vector (Option Page) 21,
    let t := loadTables pages
    let page := fun n : Nat => pages.toList.getD n none
    let byte := fun (p : Page) (k : Nat) => (p.toList.getD k 0).toNat
    let word := fun (p : Page) (k : Nat) => byte p (2 * k) + 256 * byte p (2 * k + 1)
    (∀ i : Fin 14, match pages[0] with
      | none => t.modes[i] = .opened
      | some p => (match t.modes[i] with | .opened => 0 | .readOnly => 1 | .hidden => 2) = min (byte p i.val) 2) ∧
    (t.lock = true ↔ ∃ p : Page, pages[0] = some p ∧ p[14] ≠ 0) ∧
    (∀ i : Fin 4, match page (1 + i.val / 2) with
      | none => t.windows[i] = { enable := false, base := 0, compareLength := 24 }
      | some p =>
        (t.windows[i].enable = true ↔ word p (4 * (i.val % 2)) ≠ 0) ∧
        t.windows[i].base.toNat =
          65536 * min (word p (4 * (i.val % 2) + 1)) 255 + word p (4 * (i.val % 2) + 2) ∧
        t.windows[i].compareLength.val = min (word p (4 * (i.val % 2) + 3)) 24) ∧
    (∀ i : Fin 8,
      ((∃ j : Fin 6, page (3 + (6 * i.val + j.val) / 8) = none) → t.bonds[i] = {}) ∧
      (∀ p q : Page, page (3 + 6 * i.val / 8) = some p → page (3 + (6 * i.val + 5) / 8) = some q →
        let entry := fun k : Nat => word (if (6 * i.val + k) / 8 = 6 * i.val / 8 then p else q) ((6 * i.val + k) % 8)
        (t.bonds[i].inUse = true ↔ entry 0 ≠ 0) ∧
        t.bonds[i].addr.toNat = 65536 * min (entry 1) 255 + entry 2 ∧ t.bonds[i].setTag.toNat = entry 3 ∧
        (match t.bonds[i].role with | .left => 0 | .right => 1 | .mono => 2) = min (entry 4) 2 ∧
        t.bonds[i].priority.val = min (entry 5) 3)) ∧
    (∀ i : Fin 64, match page (9 + i.val / 8) with
      | none => t.curve[i].val =
          if i.val = 0 then 0 else 32768 / 2 ^ ((63 - i.val) / 8) * (16 - (63 - i.val) % 8) / 16
      | some p => t.curve[i].val = min (word p (i.val % 8)) 32768) ∧
    (match pages[17] with
      | none => t.openMic = #v[32768, 32768, 23170, 18919] ∧
          t.defaults = { volume := 63, sidetone := 20, micGain := 63, mute := false, budControls := true }
      | some p =>
        (∀ i : Fin 4, t.openMic[i].val = min (word p i.val) 32768) ∧
        t.defaults.volume.val = min p[8].toNat 63 ∧ t.defaults.sidetone.val = min p[9].toNat 63 ∧
        t.defaults.micGain.val = min p[10].toNat 63 ∧ (t.defaults.mute = true ↔ p[11] ≠ 0) ∧
        (t.defaults.budControls = true ↔ p[12] ≠ 0)) ∧
    (∀ i : Fin 9,
      let u := t.settings
      let values := [u.joinThreshold, u.fadeThreshold, u.lostThreshold, u.hangover, u.targetDepth, u.confirmTimeout,
        u.deferInterval, u.autoHold, u.defaultPriority]
      match pages[18] with
      | none => values.getD i.val 0 = [4, 2, 200, 40, 160, 20, 10, 40, 1].getD i.val 0
      | some p =>
        let range :=
          [(1, 32), (1, 16), (20, 255), (4, 255), (80, 240), (4, 100), (1, 255), (8, 255), (0, 3)].getD i.val (0, 0)
        values.getD i.val 0 = max range.1 (min (byte p i.val) range.2)) ∧
    (∀ i : Fin 25,
      if i.val ∈ [0, 6, 12, 18, 24] then t.mix[i] = 0
      else match if i.val < 16 then pages[19] else pages[20] with
        | none => t.mix[i].val = if i.val / 5 = 0 ∨ i.val % 5 = 0 then 63 else 55
        | some p => t.mix[i].val = min (byte p (i.val % 16)) 63)

/-! ## Requests and arrivals on the Air Link -/

/-- The Roster's answer to a handle (R2): in a sound Bud Table it names exactly the one bud that is not FREE and holds the
handle, and is unknown when there is none. Frames discarded as stray (R31): AUDIO, SILENCE, LEAVE, PARK and ADJUST from an
unknown handle, and AUDIO, SILENCE and PARK from the OFFERED bud, raise the stray counter and change nothing else; HANDLE
DROPPED from an unknown handle changes nothing. -/
def Obligations.UnknownHandlesAreStray : Prop :=
  (∀ (r : Roster) (h : Handle), r.BudsSound →
      (∀ b : BudIx, r.budByHandle h = some b ↔ r.buds[b].link ≠ .free ∧ r.buds[b].handle = some h) ∧
      (r.budByHandle h = none ↔ ∀ b : BudIx, r.buds[b].link ≠ .free → r.buds[b].handle ≠ some h)) ∧
  (∀ (s : State) (h : Handle) (q : Byte) (samples : Block) (f : AdjustFields), s.AirTakes →
      let counted : State := { s with airPort := { s.airPort with stray := min (s.airPort.stray + 1) 65535 } }
      (s.roster.budByHandle h = none →
        exec (.audio h q samples) s = .next counted ∧ exec (.silence h q) s = .next counted ∧
        exec (.leave h q) s = .next counted ∧ exec (.park h q) s = .next counted ∧ exec (.adjust h q f) s = .next counted ∧
        exec (.handleDropped h q) s = .next s) ∧
      (∀ b : BudIx, s.roster.budByHandle h = some b → s.roster.buds[b].link = .offered →
        exec (.audio h q samples) s = .next counted ∧ exec (.silence h q) s = .next counted ∧
        exec (.park h q) s = .next counted))

/-- R45: an AUDIO block or SILENCE mark from a bud that is not OFFERED is one event, taken by Intake, then by the Roster, then,
if a link state or talk state changed, by the Lane Unit's re-evaluation; one from the OFFERED bud or an unknown handle is
stray and does not reach Intake. Intake decides from the queues, the counters and the lanes alone. -/
def Obligations.ArrivalIsTakenInOrder : Prop :=
  (∀ (s : State) (h : Handle) (q : Byte) (samples : Block) (b : BudIx) (i : Instr) (e : Entry),
    s.AirTakes → s.roster.budByHandle h = some b → s.roster.buds[b].link ≠ .offered →
    (i = .audio h q samples ∧ e = { seq := q, body := .audio samples }) ∨
      (i = .silence h q ∧ e = { seq := q, body := .silence }) →
    let taken := s.intakeArrival b e
    let old := s.roster.buds[b]
    let new := old.arrive e.body s.directives.settings
    let told := taken.setBud b new
    exec i s = .next (if old.link = new.link ∧ old.talk = new.talk then told else told.noticeFor old.listener)) ∧
  (∀ (s : State) (h : Handle) (q : Byte) (samples : Block), s.AirTakes →
    (∀ b : BudIx, s.roster.budByHandle h = some b → s.roster.buds[b].link = .offered) →
    let counted : State := { s with airPort := { s.airPort with stray := min (s.airPort.stray + 1) 65535 } }
    exec (.audio h q samples) s = .next counted ∧ exec (.silence h q) s = .next counted) ∧
  (∀ (s t : State) (b : BudIx) (e : Entry), s.intake = t.intake → s.laneUnit = t.laneUnit →
    (s.intakeArrival b e).intake = (t.intakeArrival b e).intake ∧
    (s.intakeArrival b e).laneUnit = (t.intakeArrival b e).laneUnit) ∧
  (∀ (s : State) (b : BudIx) (e : Entry),
    s.intakeArrival b e =
      { s with intake := (s.intakeArrival b e).intake, laneUnit := (s.intakeArrival b e).laneUnit })

/-- What an arrival makes of the bud's record (R5, R9, R10), and what it leaves: the other records, the listeners and every
other block but Intake, the lanes and the reports. -/
def Obligations.ArrivalUpdatesTheRecord : Prop :=
  ∀ (s : State) (h : Handle) (q : Byte) (samples : Block) (b : BudIx) (i : Instr) (mark : Bool),
    s.AirTakes → s.roster.budByHandle h = some b → s.roster.buds[b].link ≠ .offered →
    (i = .audio h q samples ∧ mark = false) ∨ (i = .silence h q ∧ mark = true) →
    ∃ t : State, exec i s = .next t ∧
      (let set := s.directives.settings
       let r := s.roster.buds[b]
       let n := t.roster.buds[b]
       n.missRun = 0 ∧ n.arrival = true ∧ n.goodRun = (if r.arrival then r.goodRun else min (r.goodRun + 1) 255) ∧
       n.link =
         (if r.link = .joining ∨ r.link = .parked then (if set.joinThreshold ≤ n.goodRun then .live else .joining)
          else if r.link = .fading then .live else r.link) ∧
       n.silenceRun = (if mark then min (r.silenceRun + 1) 255 else 0) ∧
       n.talk =
         (if mark = false then .talking
          else if r.link = .parked ∨ set.hangover ≤ n.silenceRun then .silent else r.talk) ∧
       n.handle = r.handle ∧ n.addr = r.addr ∧ n.setTag = r.setTag ∧ n.role = r.role ∧ n.listener = r.listener ∧
       n.dlSeq = r.dlSeq ∧ n.bonded = r.bonded) ∧
      (∀ c : BudIx, c ≠ b → t.roster.buds[c] = s.roster.buds[c]) ∧ t.roster.listeners = s.roster.listeners ∧
      t.roster.defaults = s.roster.defaults ∧ t.pairing = s.pairing ∧ t.mix = s.mix ∧ t.callCtl = s.callCtl ∧
      t.airPort = s.airPort ∧ t.store = s.store ∧ t.directives.SameTables s.directives ∧
      t.voicePort.SameLine s.voicePort ∧ t.pending = s.pending

/-- R47: an arrival for an unbound bud is a counted duplicate when its sequence is queued, and otherwise becomes the newest of
at most two entries, the oldest leaving uncounted. -/
def Obligations.UnboundQueueKeepsTheNewestTwo : Prop :=
  ∀ (s : State) (b : BudIx) (e : Entry), s.laneUnit.boundLane b = none →
    let q := s.intake.queues[b]
    let d := s.intake.discards[b]
    ((∃ x ∈ q, x.seq = e.seq) →
      s.intakeArrival b e =
        { s with
          intake := { s.intake with discards := s.intake.discards.set b { d with duplicate := min (d.duplicate + 1) 65535 } } }) ∧
    ((∀ x ∈ q, x.seq ≠ e.seq) → q.length ≤ 2 →
      s.intakeArrival b e =
        { s with
          intake := { s.intake with queues := s.intake.queues.set b (if q.length = 2 then q.drop 1 ++ [e] else q ++ [e]) } })

/-- An arrival for a bud that is bound, the bud of the lowest-numbered lane in PRIMING or MIXING that names it, is reckoned
against that lane, its queue and its counters. R50: the first arrival at an unset expected sequence sets it and moves at
once. R48 and R49: with expected sequence x, it is discarded as late or as a duplicate, or is put after every nearer entry and
before every farther one, after room has been made in a queue of 8 by removing the head: a slip, advancing x, when the head
is due, an overflow otherwise. Intake then moves what it can (MovementFillsTheRing). -/
def Obligations.BoundArrivalIsReckonedByDistance : Prop :=
  (∀ (s : State) (b : BudIx) (k : LaneIx) (e : Entry),
    let names := fun j : LaneIx => (s.laneUnit.lanes[j].state = .priming ∨ s.laneUnit.lanes[j].state = .mixing) ∧
      s.laneUnit.lanes[j].bud = some b
    (s.laneUnit.boundLane b = some k ↔ names k ∧ ∀ j : LaneIx, j < k → ¬ names j) ∧
    (s.laneUnit.boundLane b = some k →
      let f : Feed := { lane := s.laneUnit.lanes[k], queue := s.intake.queues[b], discards := s.intake.discards[b] }
      s.intakeArrival b e =
        { s with
          laneUnit := { s.laneUnit with lanes := s.laneUnit.lanes.set k (f.arrive e).lane }
          intake :=
            { queues := s.intake.queues.set b (f.arrive e).queue
              discards := s.intake.discards.set b (f.arrive e).discards } })) ∧
  (∀ (f : Feed) (e : Entry), f.lane.expected = none → f.lane.ring = [] → f.queue = [] →
    f.arrive e =
      { f with
        lane :=
          { f.lane with
            ring := match e.body with | .audio samples => samples.toList | .silence => List.replicate 80 0
            expected := some (e.seq + 1)
            lastGood := match e.body with | .audio samples => samples | .silence => Vector.replicate 80 0
            concealCount := match e.body with | .audio _ => 0 | .silence => f.lane.concealCount } }) ∧
  (∀ (f : Feed) (e : Entry) (x : Byte), f.lane.expected = some x → f.lane.InOrder f.queue → f.queue.length ≤ 8 →
    (f.queue.map (·.seq)).Nodup →
    let d := ((e.seq - x).toNat : Nat)
    let full := f.queue.length = 8
    (128 ≤ d → f.arrive e = { f with discards := { f.discards with late := min (f.discards.late + 1) 65535 } }) ∧
    (d < 128 → (∃ a ∈ f.queue, a.seq = e.seq) →
      f.arrive e = { f with discards := { f.discards with duplicate := min (f.discards.duplicate + 1) 65535 } }) ∧
    (d < 128 → (∀ a ∈ f.queue, a.seq ≠ e.seq) →
      ∃ (g : Feed) (y : Byte) (near far : List Entry), g.lane.expected = some y ∧ g.queue = near ++ far ∧
        (∀ a ∈ near, (a.seq - y).toNat < (e.seq - y).toNat) ∧ (∀ a ∈ far, (e.seq - y).toNat < (a.seq - y).toNat) ∧
        f.arrive e = ({ g with queue := near ++ e :: far } : Feed).move ∧
        (¬ full → g = f) ∧
        (∀ head rest, full → f.queue = head :: rest → head.seq = x →
          g = { f with
            queue := rest
            lane := { f.lane with expected := some (x + 1), slips := min (f.lane.slips + 1) 65535 } }) ∧
        (∀ head rest, full → f.queue = head :: rest → head.seq ≠ x →
          g = { f with
            queue := rest
            discards := { f.discards with overflow := min (f.discards.overflow + 1) 65535 } })))

/-- Movement into the ring (R51): the due heads of a bound queue, one after another while the ring holds at most 240 samples,
go to the end of the ring, each advancing the expected sequence by 1; an AUDIO block becomes the last good block and sets the
conceal count to 0, a SILENCE mark makes it 80 zeros and leaves the count. MOVE INTO RING is that test for a bound bud; for
any other it changes nothing (log entry 6). -/
def Obligations.MovementFillsTheRing : Prop :=
  (∀ f : Feed, ∃ (moved rest : List Entry),
    f.queue = moved ++ rest ∧ f.move.queue = rest ∧ f.move.discards = f.discards ∧ f.move.lane.MovedAll rest ∧
    f.move.lane.ring = f.lane.ring ++
      moved.flatMap (fun e => match e.body with | .audio b => b.toList | .silence => List.replicate 80 0) ∧
    f.move.lane.expected = f.lane.expected.map (· + BitVec.ofNat 8 moved.length) ∧
    (f.lane.ring.length ≤ 320 → f.move.lane.ring.length ≤ 320) ∧
    (∀ (i : Nat) (e : Entry), moved[i]? = some e → f.lane.expected = some (e.seq - BitVec.ofNat 8 i) ∧
      f.lane.ring.length + 80 * i ≤ 240) ∧
    f.move.lane.lastGood =
      (match moved.getLast? with
        | none => f.lane.lastGood
        | some e => match e.body with | .audio b => b | .silence => Vector.replicate 80 0) ∧
    f.move.lane.concealCount =
      (if ∃ e ∈ moved, e.body ≠ .silence then 0 else f.lane.concealCount) ∧
    f.move.lane =
      { f.lane with
        ring := f.move.lane.ring, expected := f.move.lane.expected, lastGood := f.move.lane.lastGood,
        concealCount := f.move.lane.concealCount }) ∧
  (∀ (s : State) (b : BudIx),
    (∀ k : LaneIx, s.laneUnit.boundLane b = some k →
      exec (.moveIntoRing b) s = .next (s.setFeed k b (s.feed k b).move)) ∧
    (s.laneUnit.boundLane b = none → exec (.moveIntoRing b) s = .next s))

/-- LEAVE and HANDLE DROPPED from the handle of a bud (R38, R40): the bud is freed with that cause, whatever its link state,
and no answer frame is sent. EVICT (R41): its checks; then DISMISS to the bud's handle, the freeing with cause EVICT, and
DONE, in that order. What a freeing does is FreeingClearsTheBud. -/
def Obligations.LeaveDropAndEvictFreeTheBud : Prop :=
  (∀ (s : State) (h : Handle) (q : Byte) (b : BudIx), s.AirTakes → s.roster.budByHandle h = some b →
      exec (.leave h q) s = .next (s.freeBud b .leave) ∧ (s.freeBud b .leave).airPort = s.airPort ∧
      exec (.handleDropped h q) s = .next (s.freeBud b .handleDropped) ∧ (s.freeBud b .handleDropped).airPort = s.airPort) ∧
  (∀ (s : State) (seq n : Byte), s.VoiceTakes →
      let taken : State := { s with directives := { s.directives with mask := none } }
      (n.toNat = 0 ∨ 8 < n.toNat → exec (.evict seq [n]) s = .next (taken.post (.reply 12 seq (.refused .range)))) ∧
      (∀ b : BudIx, n.toNat = b.val + 1 →
        (s.roster.buds[b].link = .free →
          exec (.evict seq [n]) s = .next (taken.post (.reply 12 seq (.refused .state)))) ∧
        (∀ h : Handle, s.roster.buds[b].link ≠ .free → s.roster.buds[b].handle = some h →
          exec (.evict seq [n]) s =
            .next (((taken.sendAir (.dismiss h b)).freeBud b .evict).post (.reply 12 seq .done)))))

/-- Freeing a bud (R17, R18, R19), in a sound party: the record returns to its FREE values, the bud leaves its listener,
whose primary becomes the remaining member if it was the bud, the queue is emptied and its counters kept, the context is
emptied if the bud was OFFERED; then the listener has its notice (SpeakingBudIsChosenAndActedOn says what that does) and,
left without members, returns to its values not in use; then one report is posted for the cause. Nothing else changes. -/
def Obligations.FreeingClearsTheBud : Prop :=
  ∀ (s : State) (b : BudIx) (cause : FreeCause) (x : ListenerIx), s.PartySound → s.roster.buds[b].link ≠ .free →
    s.roster.buds[b].listener = some x →
    let r := s.roster.buds[b]
    let l := s.roster.listeners[x]
    let others := l.members.filter (· ≠ b)
    let left : Listener := { l with members := others, primary := if l.primary = some b then others.head? else l.primary }
    let unused : Listener :=
      { inUse := false, setTag := 0, members := [], primary := none,
        priority := Fin.ofNat 4 s.directives.settings.defaultPriority, volume := s.roster.defaults.volume,
        sidetone := s.roster.defaults.sidetone, micGain := s.roster.defaults.micGain, mute := s.roster.defaults.mute,
        budControls := s.roster.defaults.budControls }
    let unlinked : State :=
      { s with
        roster := { s.roster with buds := s.roster.buds.set b {}, listeners := s.roster.listeners.set x left }
        intake := { s.intake with queues := s.intake.queues.set b [] }
        pairing := { s.pairing with context := if r.link = .offered then none else s.pairing.context } }
    let told := unlinked.notice x
    let u : State :=
      { told with
        roster :=
          { unlinked.roster with listeners := s.roster.listeners.set x (if others = [] then unused else left) } }
    s.freeBud b cause =
      u.post (.event (.departed { bud := b, listener := some x, addr := r.addr, bonded := r.bonded, cause := cause })) ∧
    u.intake.queues[b] = [] ∧ u.intake.discards[b] = s.intake.discards[b] ∧
    u.laneUnit.speaking[x] = u.roster.speakingBud x ∧
    (∀ y : ListenerIx, y ≠ x → u.laneUnit.speaking[y] = s.laneUnit.speaking[y]) ∧
    (s.LanesSound → ∀ k : LaneIx, u.laneUnit.lanes[k].bud ≠ some b) ∧
    (∀ k : LaneIx, u.laneUnit.lanes[k].slips = s.laneUnit.lanes[k].slips ∧
      u.laneUnit.lanes[k].conceals = s.laneUnit.lanes[k].conceals) ∧
    u.pairing = unlinked.pairing ∧ u.mix = s.mix ∧ u.callCtl = s.callCtl ∧ u.airPort = s.airPort ∧ u.store = s.store ∧
    u.directives.SameTables s.directives ∧ u.voicePort.SameLine s.voicePort ∧ u.pending = s.pending

/-- R39 and the parking of R7: PARK from a bud in JOINING, LIVE or FADING clears its runs, its flag and its talk state, empties its
queue and tells its listener; from a PARKED bud it changes nothing; no answer frame is sent; from the OFFERED bud or an
unknown handle it is discarded as stray. -/
def Obligations.ParkParksTheBud : Prop :=
  (∀ (s : State) (h : Handle) (q : Byte) (b : BudIx), s.AirTakes → s.roster.budByHandle h = some b →
    let r := s.roster.buds[b]
    (r.link = .joining ∨ r.link = .live ∨ r.link = .fading →
      let parked : State :=
        { s with
          roster :=
            { s.roster with
              buds := s.roster.buds.set b
                { r with link := .parked, goodRun := 0, missRun := 0, silenceRun := 0, arrival := false, talk := .silent } }
          intake := { s.intake with queues := s.intake.queues.set b [] } }
      exec (.park h q) s = .next (parked.noticeFor r.listener) ∧ (parked.noticeFor r.listener).airPort = s.airPort) ∧
    (r.link = .parked → exec (.park h q) s = .next s)) ∧
  (∀ (s : State) (h : Handle) (q : Byte), s.AirTakes →
    (∀ b : BudIx, s.roster.budByHandle h = some b → s.roster.buds[b].link = .offered) →
    exec (.park h q) s =
      .next { s with airPort := { s.airPort with stray := min (s.airPort.stray + 1) 65535 } })

/-- R21 and R22: an ADJUST from a bud that may adjust applies its named volume, sidetone and mute to its own listener, the indices
clamped, leaves every other field and every other listener, tells the Lane Unit of a change of mute, and is answered with the
fields applied and the values now held; one from the OFFERED bud, or where bud controls are not allowed, applies nothing and
is answered with no fields. -/
def Obligations.AdjustReachesOnlyOwnControls : Prop :=
  ∀ (s : State) (h : Handle) (q : Byte) (f : AdjustFields) (b : BudIx) (x : ListenerIx), s.AirTakes →
    s.roster.budByHandle h = some b → s.roster.buds[b].listener = some x →
    let l := s.roster.listeners[x]
    let new : Listener :=
      { l with
        volume := if f.volume.presence = 0 then l.volume else Fin.ofNat 64 (min f.volume.value.toNat 63)
        sidetone := if f.sidetone.presence = 0 then l.sidetone else Fin.ofNat 64 (min f.sidetone.value.toNat 63)
        mute := if f.mute.presence = 0 then l.mute else decide (f.mute.value ≠ 0) }
    let applied : State := { s with roster := { s.roster with listeners := s.roster.listeners.set x new } }
    let told := if new.mute = l.mute then applied else applied.notice x
    (s.roster.buds[b].link ≠ .offered → l.budControls = true →
      exec (.adjust h q f) s =
        .next (told.sendAir (.adjustReply h q (some x)
          (if f.volume.presence = 0 then none else some new.volume)
          (if f.sidetone.presence = 0 then none else some new.sidetone)
          (if f.mute.presence = 0 then none else some new.mute))) ∧
      told.roster = applied.roster) ∧
    (s.roster.buds[b].link = .offered ∨ l.budControls = false →
      exec (.adjust h q f) s = .next (s.sendAir (.adjustReply h q (some x) none none none)))

/-- R28 and the match of R25: an address is bonded through the lowest-numbered in-use entry that holds it, whether or not admission
is open; otherwise admitted while admission is open and an enabled window has its top L bits; otherwise refused. R29: set tag
0 always needs a new listener; another tag goes to the in-use listener that carries it, unless its members conflict with the
role (ROLE TAKEN), or else needs a new one; a new listener is the lowest not in use, or FULL. In a sound party a placement that
succeeds always finds a FREE bud record. -/
def Obligations.AdmissionAndPlacement : Prop :=
  (∀ (p : Pairing) (a : Address),
      (∀ i : Fin 8, p.admission a = .bonded i ↔ p.bonds[i].inUse = true ∧ p.bonds[i].addr = a ∧
        ∀ j : Fin 8, j < i → ¬ (p.bonds[j].inUse = true ∧ p.bonds[j].addr = a)) ∧
      (p.admission a = .window ↔ (∀ j : Fin 8, ¬ (p.bonds[j].inUse = true ∧ p.bonds[j].addr = a)) ∧ p.admissionOpen = true ∧
        ∃ i : Fin 4, p.windows[i].enable = true ∧
          a.toNat / 2 ^ (24 - p.windows[i].compareLength.val) =
            p.windows[i].base.toNat / 2 ^ (24 - p.windows[i].compareLength.val))) ∧
  (∀ (r : Roster) (tag : Word) (role : Role),
      let fresh : Placement → Prop := fun p =>
        (∀ x : ListenerIx, p = .opened x ↔ r.listeners[x].inUse = false ∧ ∀ y : ListenerIx, y < x → r.listeners[y].inUse = true) ∧
        (p = .refused .full ↔ ∀ x : ListenerIx, r.listeners[x].inUse = true)
      (tag = 0 → fresh (r.place tag role)) ∧
      (tag ≠ 0 → (∀ x : ListenerIx, r.listeners[x].inUse = true → r.listeners[x].setTag ≠ tag) → fresh (r.place tag role)) ∧
      (tag ≠ 0 → ∀ x : ListenerIx, r.listeners[x].inUse = true → r.listeners[x].setTag = tag → r.TagsSound →
        r.listeners[x].members.length ≤ 2 →
        let conflict := (∃ b ∈ r.listeners[x].members, r.buds[b].role = role ∨ r.buds[b].role = .mono ∨ role = .mono) ∨
          r.listeners[x].members.length = 2
        (conflict → r.place tag role = .refused .roleTaken) ∧ (¬ conflict → r.place tag role = .existing x)) ∧
      (r.MembershipLaw → r.MembersCompatible → r.UseSound → (∀ reason, r.place tag role ≠ .refused reason) →
        ∃ b : BudIx, r.freeBud = some b ∧ r.buds[b].link = .free ∧ ∀ c : BudIx, c < b → r.buds[c].link ≠ .free))

/-- R32: the stages of a JOIN, in order, the first that answers ending it: OFFER again for the same handle and address, with no
change; the freeing of a bud whose handle is reused, and then the JOIN as from an unknown handle; DEFER while the context is
busy; REFUSE where it is not admitted or not placed; and the offer. A role code above MONO's is MONO. -/
def Obligations.JoinGoesThroughItsStages : Prop :=
  ∀ (s : State) (h : Handle) (q : Byte) (a : Address) (tag : Word) (role : Byte), s.AirTakes →
    let join := Instr.join h q a tag role
    let presented : Role := if role = 0 then .left else if role = 1 then .right else .mono
    (∀ b : BudIx, s.roster.budByHandle h = some b →
      (s.roster.buds[b].addr = a → exec join s = .next (s.sendAir (.offer h q b s.roster.buds[b].listener))) ∧
      (s.roster.buds[b].addr ≠ a → s.PartySound →
        (s.freeBud b .handleReused).roster.budByHandle h = none ∧
        exec join s = exec join (s.freeBud b .handleReused))) ∧
    (s.roster.budByHandle h = none →
      (∀ c : Context, s.pairing.context = some c →
        exec join s = .next (s.sendAir (.defer h q s.directives.settings.deferInterval))) ∧
      (s.pairing.context = none →
        (s.pairing.admission a = .refused → exec join s = .next (s.sendAir (.refuse h q .notAdmitted))) ∧
        (s.pairing.admission a ≠ .refused →
          (∀ reason, s.roster.place tag presented = .refused reason →
            exec join s = .next (s.sendAir (.refuse h q reason))) ∧
          (∀ x : ListenerIx, s.roster.place tag presented = .existing x →
            exec join s = .next (s.offer ⟨h, q, a, tag, presented⟩ x false (s.pairing.admission a))) ∧
          (∀ x : ListenerIx, s.roster.place tag presented = .opened x →
            exec join s = .next (s.offer ⟨h, q, a, tag, presented⟩ x true (s.pairing.admission a))))))

/-- The offer (R33, with R3, R13, R14, R30 and R44), in a sound bridge: the lowest FREE record becomes OFFERED, the bud joins its
listener, opened first if it is new, a bonded admission brings its priority and refreshes its entry while region 8 is OPEN,
the context becomes busy, the bud number's discard counters become 0, and OFFER is sent; no lane, queue or speaking bud is
affected, and the wait list is only re-sorted. -/
def Obligations.OfferReservesAPlace : Prop :=
  ∀ (s : State) (j : JoinRequest) (x : ListenerIx) (created : Bool) (b : BudIx), s.LanesSound →
    s.roster.freeBud = some b → s.roster.place j.setTag j.role = (if created then .opened x else .existing x) →
    let a := s.pairing.admission j.addr
    let t := s.offer j x created a
    let l := s.roster.listeners[x]
    let opened : Listener :=
      { inUse := true, setTag := j.setTag, members := [], primary := none,
        priority := Fin.ofNat 4 s.directives.settings.defaultPriority, volume := s.roster.defaults.volume,
        sidetone := s.roster.defaults.sidetone, micGain := s.roster.defaults.micGain, mute := s.roster.defaults.mute,
        budControls := s.roster.defaults.budControls }
    let base := if created then opened else l
    t.roster.buds = s.roster.buds.set b
      { link := .offered, handle := some j.handle, addr := j.addr, setTag := j.setTag, role := j.role, listener := some x,
        bonded := match a with | .bonded _ => true | _ => false } ∧
    (∀ y : ListenerIx, y ≠ x → t.roster.listeners[y] = s.roster.listeners[y]) ∧
    t.roster.listeners[x] =
      { base with
        members := base.members ++ [b]
        primary := if base.primary = none then some b else base.primary
        priority := match a with
          | .bonded i =>
            if created ∨ base.priority < s.pairing.bonds[i].priority then s.pairing.bonds[i].priority else base.priority
          | _ => base.priority } ∧
    t.roster.defaults = s.roster.defaults ∧
    t.pairing =
      { s.pairing with
        context := some { handle := j.handle, bud := b, listener := x, created := created,
                          countdown := s.directives.settings.confirmTimeout }
        bonds := match a with
          | .bonded i =>
            if s.directives.modes[8] = .opened then
              s.pairing.bonds.set i { s.pairing.bonds[i] with setTag := j.setTag, role := j.role }
            else s.pairing.bonds
          | _ => s.pairing.bonds } ∧
    t.intake = { s.intake with discards := s.intake.discards.set b {} } ∧
    t.laneUnit = { s.laneUnit with waitList := t.laneUnit.waitList } ∧
    t.laneUnit.waitList.Perm s.laneUnit.waitList ∧
    t.airPort = s.airPort.handOver (.offer j.handle j.seq b (some x)) ∧
    t.mix = s.mix ∧ t.callCtl = s.callCtl ∧ t.voicePort = s.voicePort ∧ t.directives = s.directives ∧ t.store = s.store ∧
    t.pending = s.pending

/-- R35, with the record of R4: a CONFIRM from the handle of the busy context completes the handshake, posts JOINED after the
listener is told, and sends no frame; from any other handle, or with the context empty, it is answered REFUSE (NO OFFER) and
no state changes. The confirm countdown (R36), the act of the Pairing Unit at every cadence: it falls by 1, and the fall to 0
frees the OFFERED bud with cause CONFIRM TIMEOUT, with no frame sent. CONFIRM TIMEOUT alone is that act when it is the one that
reaches 0, and otherwise does not occur (log entry 6). -/
def Obligations.ConfirmOrCountdownEndsTheHandshake : Prop :=
  (∀ (s : State) (h : Handle) (q : Byte), s.AirTakes →
      (∀ c : Context, s.pairing.context = some c → c.handle = h →
        let r := s.roster.buds[c.bud]
        let joined : State :=
          { s with
            roster :=
              { s.roster with
                buds := s.roster.buds.set c.bud
                  { r with
                    link := .joining, goodRun := 0, missRun := 0, silenceRun := 0, arrival := false, talk := .silent,
                    dlSeq := 0 } }
            pairing := { s.pairing with context := none } }
        exec (.confirm h q) s =
          .next ((joined.noticeFor r.listener).post (.event (.joined c.bud c.listener r.addr r.bonded c.created))) ∧
        (joined.noticeFor r.listener).airPort = s.airPort) ∧
      ((∀ c : Context, s.pairing.context = some c → c.handle ≠ h) →
        exec (.confirm h q) s = .next (s.sendAir (.refuse h q .noOffer)))) ∧
  (∀ s : State,
      (s.pairing.context = none → s.countdown = s ∧ exec .confirmTimeout s = .next s) ∧
      (∀ c : Context, s.pairing.context = some c →
        let fallen : State :=
          { s with pairing := { s.pairing with context := some { c with countdown := c.countdown - 1 } } }
        (2 ≤ c.countdown → s.countdown = fallen ∧ exec .confirmTimeout s = .next s) ∧
        (c.countdown = 1 → s.countdown = fallen.freeBud c.bud .confirmTimeout ∧
          exec .confirmTimeout s = .next (fallen.freeBud c.bud .confirmTimeout) ∧
          (s.PartySound → (fallen.freeBud c.bud .confirmTimeout).pairing.context = none ∧
            (fallen.freeBud c.bud .confirmTimeout).roster.buds[c.bud] = {} ∧
            (fallen.freeBud c.bud .confirmTimeout).airPort = s.airPort))))

/-! ## Call control and cadences -/

/-- BEGIN CALL, END CALL, HOLD and RESUME (R122 to R125, R126): each is accepted in its call states and refused with STATE in
the others, a refusal changing nothing but the pending mask. An acceptance sets the call state, the counts and the timer,
posts CALL STATE with the new and the previous state and the cause, tells the Lane Unit, and posts DONE, in that order; the
conversion of an automatic hold leaves the timer and the lanes. What the Lane Unit does is LanesFollowTheCall. -/
def Obligations.CallDirectivesChangeTheCall : Prop :=
  ∀ (s : State) (seq : Byte), s.VoiceTakes →
    let c := s.callCtl
    let taken : State := { s with directives := { s.directives with mask := none } }
    let told := fun (ctl : CallCtl) (cause : ChangeCause) =>
      ({ taken with callCtl := ctl } : State).post (.event (.callState ctl.state c.state cause))
    (exec (.beginCall seq []) s =
      .next (match c.state with
        | .noCall =>
          ((told { c with state := .inCall, fills := 0, fillTotal := 0, timer := some .ms7_5 } .beginCall).lanesEnter
            true).post (.reply 5 seq .done)
        | _ => taken.post (.reply 5 seq (.refused .state)))) ∧
    (exec (.endCall seq []) s =
      .next (match c.state with
        | .noCall => taken.post (.reply 6 seq (.refused .state))
        | _ => ((told { c with state := .noCall, fills := 0, timer := some .ms5 } .endCall).lanesEnd).post
            (.reply 6 seq .done))) ∧
    (exec (.hold seq []) s =
      .next (match c.state with
        | .inCall =>
          ((told { c with state := .holding .directed, fills := 0, timer := some .ms5 } .hold).lanesHold).post
            (.reply 7 seq .done)
        | .holding .auto => (told { c with state := .holding .directed } .hold).post (.reply 7 seq .done)
        | _ => taken.post (.reply 7 seq (.refused .state)))) ∧
    (exec (.resume seq []) s =
      .next (match c.state with
        | .holding .directed =>
          ((told { c with state := .inCall, fills := 0, timer := some .ms7_5 } .resume).lanesEnter false).post
            (.reply 8 seq .done)
        | _ => taken.post (.reply 8 seq (.refused .state))))

/-- What a change of call state does to the lanes and the wait list (R77, R78, R79). At END CALL, and at a HOLD from IN CALL,
every lane is VACANT with its counters kept and every queue that was bound keeps its two farthest entries; END CALL empties
the wait list, and HOLD, in a sound bridge, keeps its entries and adds one, not reported, for every other listener with a
speaking bud, in lane order. BEGIN CALL and RESUME, in a sound bridge, grant lanes 1, 2 and 3 to the first listeners of the
list, by priority and then by listener number or request order. In every state, whatever brings the call into IN CALL, entry
is the placing of each listener with a speaking bud, in listener order, where it is BEGIN CALL's; three times the grant of
the lowest vacant lane to the list's head; and then LANE DENIED (NO LANE), with the listener's speaking bud and priority,
posted for each entry of the list as the grants leave it that was not reported before, in list order, every entry being
reported afterwards (R67, R79): CallDirectivesChangeTheCall and CadencesCountAndArm have that entry at BEGIN CALL, RESUME and
VOICE RETURNED. The recorded speaking buds and the eviction pointer are kept, and nothing else changes but the receive
queues, the call's registers and the reports. -/
def Obligations.LanesFollowTheCall : Prop :=
  ∀ (s : State) (seq : Byte), s.VoiceTakes →
    let old := s.laneUnit
    let emptied := fun t : State =>
      (∀ k : LaneIx, t.laneUnit.lanes[k] = { slips := old.lanes[k].slips, conceals := old.lanes[k].conceals }) ∧
      (∀ b : BudIx, t.intake.queues[b] =
        if old.boundLane b = none then s.intake.queues[b] else s.intake.queues[b].drop (s.intake.queues[b].length - 2)) ∧
      t.intake.discards = s.intake.discards
    let kept := fun t : State =>
      t.laneUnit.speaking = old.speaking ∧ t.laneUnit.evictPtr = old.evictPtr ∧
      ({ s with callCtl := t.callCtl, directives := { s.directives with mask := none } } : State).OnlyLanesAndReports t
    let granted := fun (t : State) (heads : List (ListenerIx × BudIx)) =>
      (∀ x b, (x, b) ∈ heads ↔ old.speaking[x] = some b) ∧
      (∀ k : LaneIx,
        let l := t.laneUnit.lanes[k]
        (∀ x b, heads[k.val]? = some (x, b) → l.state = .priming ∧ l.listener = some x ∧ l.bud = some b) ∧
        (heads[k.val]? = none → l.state = .vacant)) ∧
      t.laneUnit.waitList.map (fun e => (e.listener, e.bud)) = heads.drop 3 ∧ (∀ e ∈ t.laneUnit.waitList, e.denied = true) ∧
      kept t
    (s.callCtl.state ≠ .noCall →
      ∃ t, exec (.endCall seq []) s = .next t ∧ emptied t ∧ t.laneUnit.waitList = [] ∧ kept t) ∧
    (s.callCtl.state = .inCall →
      ∃ t, exec (.hold seq []) s = .next t ∧ emptied t ∧ kept t ∧
        (s.LanesSound →
          (∀ x : ListenerIx, ∀ b : BudIx, old.speaking[x] = some b ↔
            ∃ e ∈ t.laneUnit.waitList, e.listener = x ∧ e.bud = b) ∧
          (∀ e ∈ t.laneUnit.waitList, e ∈ old.waitList ∨ e.denied = false ∧ old.waitList.length < e.order) ∧
          (∀ e ∈ old.waitList, e ∈ t.laneUnit.waitList) ∧
          (∀ j k : LaneIx, j < k → ∀ d ∈ t.laneUnit.waitList, ∀ e ∈ t.laneUnit.waitList,
            old.lanes[j].carries = true ∧ old.lanes[j].listener = some d.listener ∨
              old.lanes[j].reservedFor = some d.listener →
            old.lanes[k].carries = true ∧ old.lanes[k].listener = some e.listener ∨
              old.lanes[k].reservedFor = some e.listener →
            d.order < e.order) ∧
          t.laneUnit.waitList.Pairwise fun a b => s.priorityOf b.listener < s.priorityOf a.listener ∨
            s.priorityOf b.listener = s.priorityOf a.listener ∧ a.order < b.order)) ∧
    (s.callCtl.state = .noCall → s.LanesSound →
      ∃ (t : State) (heads : List (ListenerIx × BudIx)), exec (.beginCall seq []) s = .next t ∧ granted t heads ∧
        heads.Pairwise fun p q => s.priorityOf q.1 < s.priorityOf p.1 ∨
          s.priorityOf q.1 = s.priorityOf p.1 ∧ p.1 < q.1) ∧
    (s.callCtl.state = .holding .directed → s.LanesSound →
      ∃ t : State, exec (.resume seq []) s = .next t ∧
        granted t (old.waitList.map fun e => (e.listener, e.bud))) ∧
    (∀ (u : State) (fresh : Bool),
      let placed := if fresh then
          ([0, 1, 2, 3] : List ListenerIx).foldl (fun v x =>
            match v.laneUnit.speaking[x] with | some b => v.placeWaiting x b | none => v) u
        else u
      u.lanesEnter fresh = placed.grantOne.grantOne.grantOne.denyWaiting) ∧
    (∀ v : State,
      let vacant := fun k : LaneIx => v.laneUnit.lanes[k].state = .vacant ∧ v.laneUnit.lanes[k].reservedFor = none
      (∀ (k : LaneIx) (e : WaitEntry) (rest : List WaitEntry), v.callCtl.state = .inCall → vacant k →
        (∀ j : LaneIx, j < k → ¬ vacant j) → v.laneUnit.waitList = e :: rest →
        v.grantOne = v.bindLane k e.bud e.listener) ∧
      (v.callCtl.state ≠ .inCall ∨ (∀ k, ¬ vacant k) ∨ v.laneUnit.waitList = [] → v.grantOne = v)) ∧
    (∀ v : State,
      let told := fun e : WaitEntry => Report.event
        (.laneDenied e.listener v.laneUnit.speaking[e.listener] v.roster.listeners[e.listener].priority .noLane)
      v.denyWaiting =
        ((v.laneUnit.waitList.filter fun e => e.denied = false).map told).foldl State.post
          { v with
            laneUnit :=
              { v.laneUnit with waitList := v.laneUnit.waitList.map fun e => { e with denied := true } } })

/-- A cadence and its acts (R72, R101, R104, R117, R118, R120, R121, R126, R127). What each call state makes of a voice frame
and of an expiry: discarded and counted; a fill, counted and armed for 5 ms; an idle cadence, armed for 5 ms; a voice
cadence, armed for 7.5 ms; and from HOLDING AUTO, VOICE RETURNED with its CALL STATE report and the grants, the cadence then
reaching the lanes as they were. The cadence is its acts, one after another in the command's order: supervision, countdown,
the Lane Unit's taking, the Mix Engine's taking by R104's table, the forming, which waits for both, the automatic hold with
its CALL STATE report (FILL TIMEOUT), and call-control directives that come between, before which a hold that is due is
taken. Then the outputs not yet formed are formed, and the handover is empty. An order that names each block's act once is
followed as it stands. Five things are the model's choices: an order that leaves some acts out is followed by those (log
entry 1); FILL TIMEOUT sent alone is the fill that holds the call, or nothing, and SWAP TAKEN sent alone is the Mix Engine's
taking of a SWAP (log entry 6); and with the timer not armed, which R116 excludes once start-up has completed, an expiry
changes nothing (log entries 7 and 11); and the handle and the downlink sequence of each recipient are those read when the
Mix Engine takes the cadence, not when it forms the outputs (log entry 10). Without directives between: SWAP is taken once,
each mixing cadence emits one uplink frame, and at the fill that holds the call the frame is emitted if the Mix Engine is
taken first and is not if the hold is. -/
def Obligations.CadencesCountAndArm : Prop :=
  ∀ (s : State) (o : CadenceOrder),
    let c := s.callCtl
    let taking := fun u : State =>
      ({ u with
          mix := { u.mix with
            active := if u.mix.swapPending then u.mix.staging else u.mix.active, swapPending := false } } : State)
    let hold := fun d : Cadence =>
      if d.due then
        { d with
          due := false
          state :=
            (({ d.state with callCtl := { d.state.callCtl with state := .holding .auto, fills := 0 } } : State).post
              (.event (.callState (.holding .auto) d.state.callCtl.state .fillTimeout))).lanesHold }
      else d
    let form := fun (far : List Int) (d : Cadence) =>
      match d.taken, d.handed with
      | some audience, true => { d with state := d.state.formOutputs far audience, taken := none }
      | _, _ => d
    let act := fun (kind : CadenceKind) (far : List Int) (before : Option (Vector LaneState 3)) (d : Cadence)
        (a : CadenceAct) =>
      match a with
      | .supervise => { d with state := d.state.supervise (visitOrder o.buds [0, 1, 2, 3, 4, 5, 6, 7]) }
      | .countdown => { d with state := d.state.countdown }
      | .lanes =>
        if kind = .idle then d
        else
          { d with
            handed := true
            state := d.state.lanesTake
              (match before with | some v => v | none => d.state.laneUnit.lanes.map (·.state)) (visitOrder o.lanes [0, 1, 2]) }
      | .mix =>
        match d.state.callCtl.state with
        | .noCall => { d with state := taking d.state }
        | .holding _ => { d with state := (taking d.state).emitSilence }
        | .inCall =>
          if kind = .idle then { d with state := taking d.state }
          else { d with state := taking d.state, taken := some d.state.roster.recipients }
      | .form => form far d
      | .hold => hold d
      | .call what seq => { hold d with state := (hold d).state.takeCall what seq [] }
    let run := fun (kind : CadenceKind) (far : List Int) (before : Option (Vector LaneState 3)) (due : Bool) (u : State) =>
      let blocks : List CadenceAct := [.supervise, .countdown, .lanes, .mix, .form, .hold]
      let acts := visitOrder o.acts (blocks ++ o.acts.filter CadenceAct.isCall)
      let ended := form far (acts.foldl (act kind far before) { state := u, due := due, taken := none, handed := false })
      ({ ended.state with laneUnit := { ended.state.laneUnit with handover := {} } } : State)
    let plain := ∀ a ∈ o.acts, a.isCall = false
    let swapped := fun t : State =>
      t.mix = { (taking s).mix with uplinkSeq := t.mix.uplinkSeq, clips := t.mix.clips } ∧
      t.store = s.store ∧ t.pending = s.pending ∧ t.directives.SameTables s.directives
    let fills := min (c.fills + 1) 255
    let held := s.directives.settings.autoHold ≤ fills
    (∀ (x y : Byte) (far : Block), s.VoiceTakes →
      let mixed := ({ c with state := .inCall, fills := 0, timer := some .ms7_5 } : CallCtl)
      (c.state = .noCall ∨ c.state = .holding .directed →
        exec (.farVoice x y far o) s =
          .next { s with callCtl := { c with discardedVoice := min (c.discardedVoice + 1) 65535 } }) ∧
      (c.state = .inCall →
        exec (.farVoice x y far o) s = .next (run .voice (far.toList.map BitVec.toInt) none false { s with callCtl := mixed })) ∧
      (c.state = .holding .auto →
        let entered :=
          (({ s with callCtl := { c with state := .inCall, fills := 0 } } : State).post
            (.event (.callState .inCall (.holding .auto) .voiceReturned))).lanesEnter false
        exec (.farVoice x y far o) s =
          .next (run .voice (far.toList.map BitVec.toInt) (some (s.laneUnit.lanes.map (·.state))) false
            { entered with callCtl := mixed })) ∧
      (c.state = .inCall ∨ c.state = .holding .auto → plain →
        ∃ t, exec (.farVoice x y far o) s = .next t ∧ swapped t ∧ t.mix.uplinkSeq = s.mix.uplinkSeq + 1 ∧
          t.callCtl = mixed)) ∧
    (c.timer = none → exec (.cadenceTimerExpiry o) s = .next s) ∧
    (c.timer ≠ none → c.state ≠ .inCall →
      exec (.cadenceTimerExpiry o) s =
        .next (run .idle (List.replicate 80 0) none false { s with callCtl := { c with timer := some .ms5 } }) ∧
      (plain → ∃ t, exec (.cadenceTimerExpiry o) s = .next t ∧ swapped t ∧ t.mix.uplinkSeq = s.mix.uplinkSeq ∧
        t.mix.clips = s.mix.clips ∧ t.callCtl = { c with timer := some .ms5 } ∧ t.voicePort.SameLine s.voicePort)) ∧
    (c.timer ≠ none → c.state = .inCall →
      exec (.cadenceTimerExpiry o) s =
        .next (run .fill (List.replicate 80 0) none (decide held)
          { s with
            callCtl := { c with fills := fills, fillTotal := min (c.fillTotal + 1) 65535, timer := some .ms5 } }) ∧
      (plain → ∃ t, exec (.cadenceTimerExpiry o) s = .next t ∧ swapped t ∧
        t.callCtl =
          { c with
            state := if held then .holding .auto else .inCall
            fills := if held then 0 else fills
            fillTotal := min (c.fillTotal + 1) 65535
            timer := some .ms5 } ∧
        (¬ held → t.mix.uplinkSeq = s.mix.uplinkSeq + 1) ∧
        (∀ before between after, held → o.acts = before ++ .mix :: between ++ .hold :: after →
          CadenceAct.hold ∉ before → t.mix.uplinkSeq = s.mix.uplinkSeq + 1) ∧
        (∀ before between after, held → o.acts = before ++ .hold :: between ++ .mix :: after →
          CadenceAct.mix ∉ before → t.mix.uplinkSeq = s.mix.uplinkSeq ∧ t.mix.clips = s.mix.clips))) ∧
    (∀ blocks : List CadenceAct, (o.acts.filter fun a => !a.isCall).Perm blocks →
      visitOrder o.acts (blocks ++ o.acts.filter CadenceAct.isCall) = o.acts) ∧
    exec (.fillTimeout o) s =
      (if c.state = .inCall ∧ c.timer ≠ none ∧ held then exec (.cadenceTimerExpiry o) s else .next s) ∧
    exec .swapTaken s = .next (taking s)

/-- Supervision (R6, R8) and the downlink sequences (R110, R111), at every cadence and in every order: a supervised bud's
arrival flag is cleared, or its miss-run rises by 1 and its good-run falls to 0; the lost threshold frees it, the fade
threshold takes it from LIVE to FADING; the OFFERED bud is freed where the countdown ends; FREE and PARKED records stay; and
each surviving supervised bud has been handed one downlink frame in a call, none in NO CALL, and one or none where a
call-control directive comes inside the cadence (R104, log entry 1). NO ARRIVALS alone is the supervision that loses the bud,
when it would (log entry 6). That a bud freed before its frame is formed keeps its FREE record is log entry 10. Supervision
as a whole, whatever the order of the visit: the records pass the period, the lost buds leave, each lost bud's listener has
its notice and is emptied if it has no member left, LOST (NO ARRIVALS) is posted for the bud (R17, R19), and the listeners of
the buds that entered FADING have theirs (R11). Where one bud is lost, that is its freeing, as FreeingClearsTheBud gives it;
that several lost at one cadence all leave before the first notice, and that the notices for FADING come last, is the model's
choice (log entry 8). -/
def Obligations.SupervisionCreditsOrFrees : Prop :=
  ∀ s : State,
    let set := s.directives.settings
    let passed := fun r : Bud =>
      if r.arrival then { r with arrival := false } else { r with missRun := min (r.missRun + 1) 255, goodRun := 0 }
    let supervised := fun r : Bud => r.link = .joining ∨ r.link = .live ∨ r.link = .fading
    (∀ (c : Instr) (t : State), s.PartySound → exec c s = .next t →
      (∃ o, c = .cadenceTimerExpiry o ∧ s.callCtl.timer ≠ none) ∨
        (∃ x y far o, c = .farVoice x y far o ∧ s.VoiceTakes ∧
          (s.callCtl.state = .inCall ∨ s.callCtl.state = .holding .auto)) →
      ∀ b : BudIx,
        let r := s.roster.buds[b]
        let p := passed r
        (supervised r → set.lostThreshold ≤ p.missRun → t.roster.buds[b] = {}) ∧
        (supervised r → p.missRun < set.lostThreshold →
          t.roster.buds[b] =
            { p with
              link := if r.link = .live ∧ set.fadeThreshold ≤ p.missRun then .fading else r.link
              dlSeq := t.roster.buds[b].dlSeq } ∧
          (t.roster.buds[b].dlSeq = r.dlSeq ∨ t.roster.buds[b].dlSeq = r.dlSeq + 1) ∧
          ((∀ a ∈ c.order.acts, a.isCall = false) →
            t.roster.buds[b].dlSeq = if s.callCtl.state = .noCall then r.dlSeq else r.dlSeq + 1)) ∧
        (r.link = .offered → t.roster.buds[b] =
          if s.pairing.context.any (fun x => decide (x.countdown ≤ 1)) then {} else r) ∧
        (r.link = .free ∨ r.link = .parked → t.roster.buds[b] = r)) ∧
    (∀ b : BudIx,
      let r := s.roster.buds[b]
      exec (.noArrivals b) s =
        .next
          (if supervised r ∧ set.lostThreshold ≤ (passed r).missRun then
            ({ s with roster := { s.roster with buds := s.roster.buds.set b (passed r) } } : State).freeBud b .noArrivals
          else s)) ∧
    (∀ o : CadenceOrder, (visitOrder o.buds [0, 1, 2, 3, 4, 5, 6, 7]).Perm [0, 1, 2, 3, 4, 5, 6, 7]) ∧
    (∀ order : List BudIx, s.PartySound → order.Perm [0, 1, 2, 3, 4, 5, 6, 7] →
      let record := fun b : BudIx => s.roster.buds[b]
      let lost := order.filter fun b => decide (supervised (record b) ∧ set.lostThreshold ≤ (passed (record b)).missRun)
      let faded := order.filter fun b => decide ((record b).link = .live ∧
        (passed (record b)).missRun < set.lostThreshold ∧ set.fadeThreshold ≤ (passed (record b)).missRun)
      let credited : State :=
        { s with
          roster :=
            { s.roster with
              buds := Vector.ofFn fun b =>
                if supervised (record b) then
                  { passed (record b) with link := if b ∈ faded then .fading else (record b).link }
                else record b } }
      let leave := fun (u : State) (b : BudIx) =>
        match (record b).listener with
        | some x =>
          let l := u.roster.listeners[x]
          let others := l.members.filter (· ≠ b)
          ({ u with
              roster :=
                { u.roster with
                  buds := u.roster.buds.set b {}
                  listeners := u.roster.listeners.set x
                    { l with members := others, primary := if l.primary = some b then others.head? else l.primary } }
              intake := { u.intake with queues := u.intake.queues.set b [] } } : State)
        | none => u
      let tell := fun (u : State) (b : BudIx) =>
        match (record b).listener with
        | some x =>
          let told := u.notice x
          let l := told.roster.listeners[x]
          let settled : State :=
            if l.inUse = true ∧ l.members = [] then
              { told with
                roster :=
                  { told.roster with
                    listeners := told.roster.listeners.set x
                      { inUse := false, setTag := 0, members := [], primary := none,
                        priority := Fin.ofNat 4 set.defaultPriority, volume := s.roster.defaults.volume,
                        sidetone := s.roster.defaults.sidetone, micGain := s.roster.defaults.micGain,
                        mute := s.roster.defaults.mute, budControls := s.roster.defaults.budControls } } }
            else told
          settled.post (.event (.departed
            { bud := b, listener := some x, addr := (record b).addr, bonded := (record b).bonded, cause := .noArrivals }))
        | none => u
      let fade := fun (u : State) (b : BudIx) => match (record b).listener with | some x => u.notice x | none => u
      s.supervise order = faded.foldl fade (lost.foldl tell (lost.foldl leave credited)) ∧
      (∀ b : BudIx, lost = [b] → s.supervise order = faded.foldl fade (credited.freeBud b .noArrivals)))

/-! ## Lanes -/

/-- The speaking bud (R60): none for a listener not in use or muted; else the primary where it is a member that speaks; else,
where the primary is a member, the other member if it speaks; else, with no primary or a stale one, the first member in join
order that speaks; else none. A bud speaks while it is TALKING and in LIVE or FADING. A notice (R61, R62) compares it with
the recorded one: no difference, no change; a difference is recorded and acted on by the call state, and reaches nothing but
the lanes, the queues and the reports. Falling silent in IN CALL cancels the wait entry and every reservation of the
listener; a MIXING lane then drains, its bud's queue converted and nothing else changed, and a PRIMING one is VACANT at once
and goes to the wait list's head (R70, R73). A change of bud releases the lane, MIXING or PRIMING, and requests another; a
PRIMING lane still VACANT after the request goes to the wait list's head; with no lane the wait entry is renamed. A bud that
stops being bound keeps the two farthest entries of its queue (R53). -/
def Obligations.SpeakingBudIsChosenAndActedOn : Prop :=
  (∀ (r : Roster) (x : ListenerIx),
    let l := r.listeners[x]
    let speaks := fun b : BudIx => r.buds[b].talk = .talking ∧ (r.buds[b].link = .live ∨ r.buds[b].link = .fading)
    (l.inUse = false ∨ l.mute = true → r.speakingBud x = none) ∧
    (l.inUse = true → l.mute = false →
      (∀ p : BudIx, l.primary = some p → p ∈ l.members →
        (speaks p → r.speakingBud x = some p) ∧
        (∀ o : BudIx, ¬ speaks p → (l.members = [p, o] ∨ l.members = [o, p]) → o ≠ p →
          (speaks o → r.speakingBud x = some o) ∧ (¬ speaks o → r.speakingBud x = none)) ∧
        (¬ speaks p → l.members = [p] → r.speakingBud x = none)) ∧
      ((∀ p : BudIx, l.primary = some p → p ∉ l.members) →
        (∀ (before : List BudIx) (b : BudIx) (after : List BudIx), l.members = before ++ b :: after →
          (∀ c ∈ before, ¬ speaks c) → speaks b → r.speakingBud x = some b) ∧
        ((∀ c ∈ l.members, ¬ speaks c) → r.speakingBud x = none)))) ∧
  (∀ (s : State) (x : ListenerIx),
    let old := s.laneUnit.speaking[x]
    let new := s.roster.speakingBud x
    let noted : State := { s with laneUnit := { s.laneUnit with speaking := s.laneUnit.speaking.set x new } }
    let t := s.notice x
    (new = old → t = s) ∧ s.OnlyLanesAndReports t ∧ t.laneUnit.speaking = noted.laneUnit.speaking ∧
    (s.callCtl.state = .noCall → t = noted) ∧
    (∀ cause, s.callCtl.state = .holding cause →
      (new = none → new ≠ old → t = noted.cancelWait x) ∧
      (∀ b, old = none → new = some b → t = noted.placeWaiting x b) ∧
      (∀ b c, b ≠ c → old = some b → new = some c → t = noted.renameWait x c)) ∧
    (s.callCtl.state = .inCall →
      (∀ b, old = none → new = some b → t = noted.requestLane x b) ∧
      (new = none → new ≠ old → (∀ e ∈ t.laneUnit.waitList, e.listener ≠ x) ∧
        (∀ j : LaneIx, t.laneUnit.lanes[j].reservedFor ≠ some x) ∧
        (let free := fun l : Lane => if l.reservedFor = some x then { l with reservedFor := none } else l
         let quiet : State := noted.cancelWait x
         let fell : State :=
           { quiet with laneUnit := { quiet.laneUnit with lanes := quiet.laneUnit.lanes.map free } }
         ((∀ k : LaneIx, s.laneUnit.lanes[k].carries = true → s.laneUnit.lanes[k].listener ≠ some x) → t = fell) ∧
         (∀ k : LaneIx, s.LanesExclusive → s.laneUnit.lanes[k].state = .mixing →
           s.laneUnit.lanes[k].listener = some x →
           t = (match s.laneUnit.lanes[k].bud with | some w => fell.convertQueue w | none => fell).setLane k
             { free s.laneUnit.lanes[k] with state := .draining, bud := none }))) ∧
      (∀ b c, b ≠ c → old = some b → new = some c →
        ((∀ k : LaneIx, s.laneUnit.lanes[k].carries = true → s.laneUnit.lanes[k].listener ≠ some x) →
          t = noted.renameWait x c) ∧
        (∀ (k : LaneIx) (w : BudIx), s.LanesExclusive → s.laneUnit.lanes[k].state = .mixing →
          s.laneUnit.lanes[k].listener = some x → s.laneUnit.lanes[k].bud = some w →
          t = ((noted.convertQueue w).setLane k
            { s.laneUnit.lanes[k] with state := .draining, bud := none }).requestLane x c))) ∧
    (∀ (k : LaneIx) (w : BudIx), s.callCtl.state = .inCall → s.LanesExclusive → s.laneUnit.lanes[k].state = .priming →
      s.laneUnit.lanes[k].listener = some x → s.laneUnit.lanes[k].bud = some w →
      (∀ j : LaneIx, s.laneUnit.lanes[j].reservedFor ≠ some x) → s.laneUnit.lanes[k].reservedFor = none →
      let empty : Lane := { slips := s.laneUnit.lanes[k].slips, conceals := s.laneUnit.lanes[k].conceals }
      let granted := fun u : State =>
        match u.laneUnit.waitList with | [] => u | e :: _ => u.bindLane k e.bud e.listener
      (new = none → new ≠ old → t = granted (((noted.cancelWait x).convertQueue w).setLane k empty)) ∧
      (∀ b c, b ≠ c → old = some b → new = some c →
        let asked := ((noted.convertQueue w).setLane k empty).requestLane x c
        t = if asked.laneUnit.lanes[k].state = .vacant then granted asked else asked))) ∧
  (∀ (s : State) (b : BudIx),
    s.convertQueue b =
      { s with
        intake :=
          { s.intake with
            queues := s.intake.queues.set b (s.intake.queues[b].drop (s.intake.queues[b].length - 2)) } })

/-- A lane request (R63) and the eviction it may make (R65), in IN CALL: the first stage that applies, hit, lowest vacant lane,
own drain, eviction of the first candidate from the pointer, wait list with LANE DENIED. A candidate is in PRIMING or MIXING,
not reserved, its listener's priority strictly lower. A victim in MIXING drains, reserved for the requester, one in PRIMING is
bound at once; the pointer names the lane after; the victim's listener waits and is told of. LANE DENIED (R67) carries the
listener, its recorded speaking bud, its priority and the cause, and its wait entry is then reported. -/
def Obligations.RequestTakesItsStages : Prop :=
  ∀ (s : State) (x : ListenerIx) (b : BudIx), s.callCtl.state = .inCall →
    let u := s.laneUnit
    let hit := ∃ k : LaneIx, u.lanes[k].carries = true ∧ u.lanes[k].listener = some x ∧ u.lanes[k].bud = some b
    let vacant := fun k : LaneIx => u.lanes[k].state = .vacant ∧ u.lanes[k].reservedFor = none
    let own := fun k : LaneIx =>
      u.lanes[k].state = .draining ∧ u.lanes[k].listener = some x ∧ u.lanes[k].reservedFor = none
    let candidate := fun k : LaneIx => u.lanes[k].carries = true ∧ u.lanes[k].reservedFor = none ∧
      ∃ v : ListenerIx, u.lanes[k].listener = some v ∧
        s.roster.listeners[v].priority < s.roster.listeners[x].priority
    let reserved := fun k : LaneIx => s.setLane k { u.lanes[k] with reservedFor := some x }
    let noOne := (∀ k, ¬ vacant k) ∧ ∀ k, ¬ own k
    (hit → s.requestLane x b = s) ∧
    (¬ hit →
      (∀ k : LaneIx, vacant k → (∀ j : LaneIx, j < k → ¬ vacant j) → s.requestLane x b = s.bindLane k b x) ∧
      (∀ k : LaneIx, (∀ j, ¬ vacant j) → own k → (∀ j : LaneIx, j < k → ¬ own j) → s.requestLane x b = reserved k) ∧
      (noOne → (∀ k, ¬ candidate k) →
        s.requestLane x b = (s.placeWaiting x b).postDenied x .noLane) ∧
      (∀ k : LaneIx, noOne → candidate k →
        (k = u.evictPtr ∨ k = u.evictPtr + 1 ∧ ¬ candidate u.evictPtr ∨
          k = u.evictPtr + 2 ∧ ¬ candidate u.evictPtr ∧ ¬ candidate (u.evictPtr + 1)) →
        ∀ (v : ListenerIx) (w c : BudIx), u.lanes[k].listener = some v → u.speaking[v] = some w →
          u.lanes[k].bud = some c →
          let t := s.requestLane x b
          let moved : State := { (s.convertQueue c) with laneUnit := { u with evictPtr := k + 1 } }
          let left := fun lane : Lane => ((moved.setLane k lane).placeWaiting v w).postDenied v .preempted
          t.laneUnit.evictPtr = k + 1 ∧
          (u.lanes[k].state = .mixing →
            t = (left { u.lanes[k] with state := .draining, bud := none }).setLane k
              { u.lanes[k] with state := .draining, bud := none, reservedFor := some x }) ∧
          (u.lanes[k].state = .priming →
            t = (left { slips := u.lanes[k].slips, conceals := u.lanes[k].conceals }).bindLane k b x))) ∧
    (∀ (v : State) (y : ListenerIx) (cause : DeniedCause),
      v.postDenied y cause =
        (v.setWait (v.laneUnit.waitList.map fun e => { e with denied := e.denied || decide (e.listener = y) })).post
          (.event (.laneDenied y v.laneUnit.speaking[y] v.roster.listeners[y].priority cause)))

/-- Binding a lane (R64), with Intake's part (R52) and the move that follows (R51), for a bud whose queue holds at most two
entries: the lane is PRIMING with its bud and listener and no reservation, its Aligner fields at their VACANT values but for
what the moves set, its counters kept; the older entry sets the expected sequence and moves, and the newer moves with it if
it is the next, waits if it is farther, or is discarded and counted as late, which the model does at every binding, those
that RESUME brings among them, though R57 says that RESUME does not change the discard counters (log entry 17); the
listener's wait entry is removed, as WaitListKeepsItsOrder says (R68). Nothing else changes. -/
def Obligations.BindingPrimesTheLane : Prop :=
  ∀ (s : State) (k : LaneIx) (b : BudIx) (x : ListenerIx),
    let l := s.laneUnit.lanes[k]
    let t := s.bindLane k b x
    let audio := fun e : Entry => match e.body with | .audio samples => samples | .silence => Vector.replicate 80 0
    let primed : Lane :=
      { state := .priming, bud := some b, listener := some x, slips := l.slips, conceals := l.conceals }
    let d := s.intake.discards[b]
    let left := fun (lane : Lane) (queue : List Entry) (discards : Discards) =>
      t.laneUnit.lanes[k] = lane ∧ t.intake.queues[b] = queue ∧ t.intake.discards[b] = discards
    (s.intake.queues[b] = [] → left primed [] d) ∧
    (∀ e : Entry, s.intake.queues[b] = [e] →
      left { primed with ring := (audio e).toList, expected := some (e.seq + 1), lastGood := audio e } [] d) ∧
    (∀ e f : Entry, s.intake.queues[b] = [e, f] →
      (f.seq = e.seq + 1 →
        left
          { primed with
            ring := (audio e).toList ++ (audio f).toList, expected := some (e.seq + 2), lastGood := audio f } [] d) ∧
      (f.seq ≠ e.seq + 1 →
        let one := { primed with ring := (audio e).toList, expected := some (e.seq + 1), lastGood := audio e }
        (128 ≤ (f.seq - e.seq).toNat → left one [] { d with late := min (d.late + 1) 65535 }) ∧
        (f.seq ≠ e.seq → (f.seq - e.seq).toNat < 128 → left one [f] d))) ∧
    (∀ j : LaneIx, j ≠ k → t.laneUnit.lanes[j] = s.laneUnit.lanes[j]) ∧
    (∀ c : BudIx, c ≠ b → t.intake.queues[c] = s.intake.queues[c] ∧ t.intake.discards[c] = s.intake.discards[c]) ∧
    t.laneUnit.waitList = (s.cancelWait x).laneUnit.waitList ∧ (∀ e ∈ t.laneUnit.waitList, e.listener ≠ x) ∧
    t.laneUnit.speaking = s.laneUnit.speaking ∧
    t.laneUnit.evictPtr = s.laneUnit.evictPtr ∧ t.laneUnit.handover = s.laneUnit.handover ∧
    t = { s with laneUnit := t.laneUnit, intake := t.intake }

/-- The wait list (R68): in a list in order, a placement gives a listener without an entry one with the next request order, not yet
reported, at its place by priority and then by request order; a removal takes the listener's entry out, lowers the request
orders above its own by 1 and leaves the rest as they stand; a change of bud leaves order and place. -/
def Obligations.WaitListKeepsItsOrder : Prop :=
  ∀ (s : State) (x : ListenerIx) (b : BudIx),
    let w := s.laneUnit.waitList
    let inOrder := fun v : List WaitEntry => v.Pairwise fun d e => waitBefore s.priorityOf d e = true
    (w.map (·.listener)).Nodup → (w.map (·.order)).Nodup → (∀ e ∈ w, 1 ≤ e.order ∧ e.order ≤ w.length) → inOrder w →
    ((∃ e ∈ w, e.listener = x) → s.placeWaiting x b = s) ∧
    ((∀ e ∈ w, e.listener ≠ x) →
      ∃ before after, w = before ++ after ∧
        s.placeWaiting x b =
          s.setWait (before ++ { listener := x, bud := b, order := w.length + 1, denied := false } :: after) ∧
        (∀ e ∈ before, s.roster.listeners[x].priority ≤ s.roster.listeners[e.listener].priority) ∧
        (∀ e ∈ after, s.roster.listeners[e.listener].priority < s.roster.listeners[x].priority)) ∧
    (∀ before gone after, w = before ++ gone :: after → gone.listener = x →
      s.cancelWait x =
        s.setWait ((before ++ after).map fun e =>
          if gone.order < e.order then { e with order := e.order - 1 } else e) ∧
      inOrder (s.cancelWait x).laneUnit.waitList) ∧
    (s.renameWait x b).laneUnit.waitList.map (fun e => (e.listener, e.order, e.denied)) =
      w.map (fun e => (e.listener, e.order, e.denied)) ∧
    (∀ e ∈ (s.renameWait x b).laneUnit.waitList, e.listener = x → e.bud = b)

/-- The lane events (R71, R72, R73, R65, R68, R94), each the share of one lane in a voice or fill cadence. PROMOTION: a PRIMING lane
deep enough becomes MIXING with P 0, S 65,536, F 256 times its depth and the ramp-in, and pulls at once. DRAIN LAST PULL,
RESERVATION COMPLETE and WAIT LIST GRANT: a DRAINING lane makes its last pull, against no queue, reaches VACANT, and is bound to
the reserving listener's speaking bud, or else to the wait list's head, or stays VACANT. Sent alone, the event is the lane's
share when it stands, and nothing otherwise (log entry 6); what a pull computes is PullFollowsItsStages. The Lane Unit's taking
of a cadence (R72, R83): outside IN CALL an empty handover; in IN CALL each lane's share by the state it had, a MIXING lane's
pull, a PRIMING lane's promotion, a DRAINING lane's last pull, each handing its 80 samples over for its listener's column, and
then the count of MIXING lanes. -/
def Obligations.LaneEventsAdvanceTheLanes : Prop :=
  ∀ (s : State) (k : LaneIx),
    let u := s.laneUnit
    let l := u.lanes[k]
    let target := s.directives.settings.targetDepth
    let drain := (Feed.mk l [] {}).pull
    (∀ (b : BudIx) (x : ListenerIx), s.callCtl.state = .inCall → l.state = .priming → l.bud = some b →
      l.listener = some x →
      let f : Feed := { lane := l, queue := s.intake.queues[b], discards := s.intake.discards[b] }
      let r := Feed.pullMixing
        { f with lane := { l with state := .mixing, position := 0, step := 65536, filter := 256 * (f.depth : Int),
                                  rampIn := true } } target
      (f.depth < target → exec (.promotion k) s = .next s) ∧
      (target ≤ f.depth →
        exec (.promotion k) s =
          .next (({ s with
            laneUnit :=
              { u with
                lanes := u.lanes.set k r.1.lane
                handover :=
                  { u.handover with contributions := u.handover.contributions ++ [{ listener := x, samples := r.2 }] } }
            intake :=
              { queues := s.intake.queues.set b r.1.queue, discards := s.intake.discards.set b r.1.discards } } :
            State).countMixing))) ∧
    (s.callCtl.state ≠ .inCall ∨ l.state ≠ .priming → exec (.promotion k) s = .next s) ∧
    (∀ x : ListenerIx, s.callCtl.state = .inCall → l.state = .draining → l.listener = some x →
      let left : State :=
        { s with
          laneUnit :=
            { u with
              lanes := u.lanes.set k { slips := drain.1.lane.slips, conceals := drain.1.lane.conceals }
              handover :=
                { u.handover with contributions := u.handover.contributions ++ [{ listener := x, samples := drain.2 }] } } }
      (∀ (y : ListenerIx) (b : BudIx), l.reservedFor = some y → u.speaking[y] = some b →
        exec (.drainLastPull k) s = .next (left.bindLane k b y).countMixing ∧
        exec (.reservationComplete k) s = .next (left.bindLane k b y).countMixing ∧
        exec (.waitListGrant k) s = .next s) ∧
      (l.reservedFor = none →
        exec (.reservationComplete k) s = .next s ∧
        (u.waitList = [] →
          exec (.drainLastPull k) s = .next left.countMixing ∧ exec (.waitListGrant k) s = .next s) ∧
        (∀ e rest, u.waitList = e :: rest →
          exec (.drainLastPull k) s = .next (left.bindLane k e.bud e.listener).countMixing ∧
          exec (.waitListGrant k) s = .next (left.bindLane k e.bud e.listener).countMixing))) ∧
    (s.callCtl.state ≠ .inCall ∨ l.state ≠ .draining →
      exec (.drainLastPull k) s = .next s ∧ exec (.reservationComplete k) s = .next s) ∧
    (∀ e rest, s.callCtl.state = .inCall → l.state = .vacant → l.reservedFor = none → u.waitList = e :: rest →
      exec (.waitListGrant k) s = .next (s.bindLane k e.bud e.listener)) ∧
    (s.callCtl.state ≠ .inCall ∨ l.carries = true → exec (.waitListGrant k) s = .next s) ∧
    (∀ t : State, t.countMixing =
      { t with laneUnit := { t.laneUnit with handover := { t.laneUnit.handover with
        mixing := ([0, 1, 2] : List LaneIx).countP fun j => t.laneUnit.lanes[j].state = .mixing } } }) ∧
    (∀ (before : Vector LaneState 3) (order : List LaneIx),
      let handed := fun (t : State) (j : LaneIx) (y : List Int) =>
        ({ t.laneUnit.handover with
            contributions := t.laneUnit.handover.contributions ++
              match t.laneUnit.lanes[j].listener with | some x => [{ listener := x, samples := y }] | none => [] } : Handover)
      let pulled := fun (t : State) (j : LaneIx) (b : BudIx) (r : Feed × List Int) =>
        ({ t with
            laneUnit := { t.laneUnit with lanes := t.laneUnit.lanes.set j r.1.lane, handover := handed t j r.2 }
            intake :=
              { queues := t.intake.queues.set b r.1.queue, discards := t.intake.discards.set b r.1.discards } } : State)
      let share := fun (t : State) (j : LaneIx) =>
        let lane := t.laneUnit.lanes[j]
        match before[j], lane.bud with
        | .mixing, some b =>
          pulled t j b (Feed.pullMixing ⟨lane, t.intake.queues[b], t.intake.discards[b]⟩ target)
        | .priming, some b =>
          let f : Feed := ⟨lane, t.intake.queues[b], t.intake.discards[b]⟩
          if f.depth < target then t
          else
            pulled t j b (Feed.pullMixing
              { f with lane := { lane with state := .mixing, position := 0, step := 65536, filter := 256 * (f.depth : Int),
                                           rampIn := true } } target)
        | .draining, _ =>
          let last := (Feed.mk lane [] {}).pull
          let left : State :=
            { t with
              laneUnit :=
                { t.laneUnit with
                  lanes := t.laneUnit.lanes.set j { slips := last.1.lane.slips, conceals := last.1.lane.conceals }
                  handover := handed t j last.2 } }
          match lane.reservedFor.bind fun y => t.laneUnit.speaking[y].map fun b => (y, b) with
          | some (y, b) => left.bindLane j b y
          | none => match left.laneUnit.waitList with | [] => left | e :: _ => left.bindLane j e.bud e.listener
        | _, _ => t
      let begun : State := { s with laneUnit := { u with handover := {} } }
      (s.callCtl.state ≠ .inCall → s.lanesTake before order = begun) ∧
      (s.callCtl.state = .inCall → s.lanesTake before order = (order.foldl share begun).countMixing))

/-! ## The Aligner -/

/-- A pull's stages 1 to 5 (R83 to R89), for a lane in range: N lies in 80..82; one or two concealment blocks are appended while the
ring is short, each the last good block at half, a quarter or none of its level, and each advancing the expected sequence: a
queued head that was due then leaves the queue and is counted as a late discard (R54); every output is interpolated, weighted by
the ramp-in or the fade-out, and lies in -32,768..32,767 (R97); the samples passed leave the ring, P keeps the remainder,
and the ramp-in is done with. Stage 6 (R90 to R92): the depth that Intake's movement leaves alone (R55), the filter and the
step. -/
def Obligations.PullFollowsItsStages : Prop :=
  (∀ f : Feed, f.lane.InRange → f.lane.CountersBounded →
    let l := f.lane
    let n := (l.position + 79 * l.step) / 65536 + 2
    let blocks := if n ≤ l.ring.length then 0 else if n ≤ l.ring.length + 80 then 1 else 2
    let conceal := fun count : Nat => l.lastGood.toList.map fun x : Sample =>
      BitVec.ofInt 16 ((x.toInt * (if count = 0 then 16384 else if count = 1 then 8192 else 0) + 16384) / 32768)
    let ring := l.ring ++
      (if blocks = 0 then [] else if blocks = 1 then conceal l.concealCount
        else conceal l.concealCount ++ conceal (l.concealCount + 1))
    let passed := (l.position + 80 * l.step) / 65536
    let r := f.pull
    80 ≤ n ∧ n ≤ 82 ∧ n ≤ ring.length ∧ passed ≤ ring.length ∧
    r.1.lane =
      { l with
        ring := ring.drop passed, position := (l.position + 80 * l.step) % 65536, rampIn := false,
        expected := l.expected.map (· + BitVec.ofNat 8 blocks), concealCount := min (l.concealCount + blocks) 2,
        conceals := min (l.conceals + blocks) 65535 } ∧
    (let late := fun (x : Option Byte) (q : List Entry × Discards) =>
        match q.1 with
        | head :: rest =>
          if some head.seq = x then (rest, { q.2 with late := min (q.2.late + 1) 65535 }) else q
        | [] => q
      let kept :=
        if blocks = 0 then (f.queue, f.discards)
        else if blocks = 1 then late l.expected (f.queue, f.discards)
        else late (l.expected.map (· + 1)) (late l.expected (f.queue, f.discards))
      r.1.queue = kept.1 ∧ r.1.discards = kept.2) ∧
    r.2.length = 80 ∧
    ∀ k : Fin 80,
      let at_ := (l.position + k.val * l.step) / 65536
      let a := (ring.getD at_ 0).toInt
      let b := (ring.getD (at_ + 1) 0).toInt
      let y := a + ((b - a) * ((l.position + k.val * l.step) % 65536 : Nat) + 32768) / 65536
      let rise := (y * (32768 * (k.val + 1) / 80 : Nat) + 16384) / 32768
      let z := if l.rampIn then rise else y
      at_ + 1 < n ∧ -32768 ≤ r.2.getD k.val 0 ∧ r.2.getD k.val 0 ≤ 32767 ∧
      r.2.getD k.val 0 =
        if l.state = .draining then (z * (32768 * (79 - k.val) / 80 : Nat) + 16384) / 32768 else z) ∧
  (∀ f : Feed, f.lane.position < 65536 →
    f.depth = f.lane.ring.length + 80 * f.run ∧ f.move.depth = f.depth ∧
    ∀ target : Nat,
      let filter := f.lane.filter + (256 * (f.depth : Int) - f.lane.filter) / 16
      f.track target =
        { f with
          lane := { f.lane with
            filter := filter
            step := (65536 + max (-64) (min 64 ((filter - 256 * (target : Int)) / 64))).toNat } } ∧
      f.pullMixing target = (f.pull.1.move.track target, f.pull.2)) ∧
  (∀ (f : Feed) (x : Byte), f.lane.expected = some x →
    f.run ≤ f.queue.length ∧ (∀ i : Nat, i < f.run → (f.queue[i]?).map (·.seq) = some (x + BitVec.ofNat 8 i)) ∧
    (f.queue[f.run]?).map (·.seq) ≠ some (x + BitVec.ofNat 8 f.run))

/-! ## The mix -/

/-- The five outputs (R105, R106, R107): each source Lj is the sum of the contributions in column j at j's mic gain, each rounded;
each row's weighted sum is rounded once, its own voice weighted by the listener's sidetone; and each is finally scaled, UP by
the open-mic gain of the MIXING count, DNk by listener k's volume. -/
def Obligations.MixRowsAreScaledAndSummed : Prop :=
  ∀ (s : State) (far : List Int) (h : Handover) (k : Nat), far.length = 80 → k < 80 → h.mixing ≤ 3 →
    (∀ c ∈ h.contributions, c.samples.length = 80) →
    let gain := fun i : GainIx => ((s.mix.curve[i].val : Nat) : Int)
    let talk := fun j : ListenerIx =>
      ((h.contributions.filter (·.listener = j)).map fun c =>
        (c.samples.getD k 0 * gain s.roster.listeners[j].micGain + 16384) / 32768).sum
    let cell := fun (row col : Nat) => gain (s.mix.active[Fin.ofNat 25 (5 * row + col)])
    let out := fun (mid final : Int) => (mid * final + 16384) / 32768
    ((s.rows far h).getD 0 []).getD k 0 =
      out ((far.getD k 0 * cell 0 0 + talk 0 * cell 0 1 + talk 1 * cell 0 2 + talk 2 * cell 0 3 + talk 3 * cell 0 4 +
        16384) / 32768) (s.mix.openMic[Fin.ofNat 4 h.mixing].val : Nat) ∧
    ∀ x : ListenerIx,
      let row := x.val + 1
      let weight := fun j : ListenerIx =>
        if j = x then gain s.roster.listeners[x].sidetone else cell row (j.val + 1)
      ((s.rows far h).getD row []).getD k 0 =
        out ((far.getD k 0 * cell row 0 + talk 0 * weight 0 + talk 1 * weight 1 + talk 2 * weight 2 + talk 3 * weight 3 +
          16384) / 32768) (gain s.roster.listeners[x].volume)

/-- What a mixing cadence emits (R108, R109, R110) and what a hold does (R111): every output sample saturates once; an output's clip
counter rises by 1 if any of its 80 samples was replaced; one uplink frame with the uplink sequence goes to the Voice Port's
slot; each eligible member, listeners 1 to 4 and members in join order, is handed its listener's row, or DOWNLINK SILENCE, with
its handle and its downlink sequence, which then advances by 1. -/
def Obligations.OutputsAreSaturatedAndEmitted : Prop :=
  (∀ (values : List Int) (k : Fin 80),
    (outputBlock values)[k].toInt = max (-32768) (min 32767 (values.getD k.val 0))) ∧
  (∀ (r : Roster), r.recipients =
    ([0, 1, 2, 3] : List ListenerIx).flatMap fun x =>
      (r.listeners[x].members.filter fun b =>
        (r.buds[b].link = .joining ∨ r.buds[b].link = .live ∨ r.buds[b].link = .fading) ∧ r.buds[b].handle ≠ none).map
        fun b => { listener := x, bud := b, handle := r.buds[b].handle.getD 0, seq := r.buds[b].dlSeq }) ∧
  (∀ (s : State) (far : List Int), s.PartySound →
    let rows := s.rows far s.laneUnit.handover
    let audience := s.roster.recipients
    let frame := fun r : Recipient =>
      AirFrame.downlinkAudio r.handle r.seq (outputBlock (rows.getD (r.listener.val + 1) []))
    let t := s.formOutputs far audience
    let served := fun (b : BudIx) => (s.roster.buds[b].link = .joining ∨ s.roster.buds[b].link = .live ∨
      s.roster.buds[b].link = .fading)
    let advanced := fun (r : Roster) => ∀ b : BudIx, r.buds[b] =
      { s.roster.buds[b] with dlSeq := if served b then s.roster.buds[b].dlSeq + 1 else s.roster.buds[b].dlSeq }
    (∀ i : Fin 5, t.mix.clips[i] =
      if ∃ v ∈ rows.getD i.val [], v < -32768 ∨ 32767 < v then min (s.mix.clips[i] + 1) 65535 else s.mix.clips[i]) ∧
    t.mix = { s.mix with clips := t.mix.clips, uplinkSeq := s.mix.uplinkSeq + 1 } ∧
    t.voicePort =
      (({ s with
          voicePort := { s.voicePort with
            slot := some { seq := s.mix.uplinkSeq, samples := outputBlock (rows.getD 0 []) } } } : State).chooseVoice).voicePort ∧
    t.airPort = (audience.map frame).foldl AirPort.handOver s.airPort ∧ advanced t.roster ∧
    t.roster.listeners = s.roster.listeners ∧
    s.emitSilence =
      { s with
        airPort := (audience.map fun r => AirFrame.downlinkSilence r.handle r.seq).foldl AirPort.handOver s.airPort
        roster := s.emitSilence.roster } ∧
    advanced s.emitSilence.roster ∧ s.emitSilence.roster.listeners = s.roster.listeners)
end

