-- ==== Sys2Proof/Laws/Aligner.lean ====
section
/-! SUPPORT. What Intake's moves and the Aligner's stages can do to a lane, its queue and its counters. -/

namespace Sys2Proof.Machine

/-- What a move of Intake leaves of a lane: all but the ring, the expected sequence, the last good block and the conceal
count (R51). -/
structure Lane.SameBinding (l m : Lane) : Prop where
  state : m.state = l.state
  bud : m.bud = l.bud
  listener : m.listener = l.listener
  reservedFor : m.reservedFor = l.reservedFor
  position : m.position = l.position
  step : m.step = l.step
  filter : m.filter = l.filter
  rampIn : m.rampIn = l.rampIn
  slips : m.slips = l.slips
  conceals : m.conceals = l.conceals

theorem Lane.SameBinding.refl (l : Lane) : l.SameBinding l := ⟨rfl, rfl, rfl, rfl, rfl, rfl, rfl, rfl, rfl, rfl⟩

theorem Lane.SameBinding.trans {l m n : Lane} (h : l.SameBinding m) (k : m.SameBinding n) : l.SameBinding n :=
  ⟨k.1.trans h.1, k.2.trans h.2, k.3.trans h.3, k.4.trans h.4, k.5.trans h.5, k.6.trans h.6, k.7.trans h.7,
    k.8.trans h.8, k.9.trans h.9, k.10.trans h.10⟩

theorem Lane.takeBlock_same (l : Lane) (e : Entry) : l.SameBinding (l.takeBlock e) := by
  unfold Lane.takeBlock
  split <;> exact ⟨rfl, rfl, rfl, rfl, rfl, rfl, rfl, rfl, rfl, rfl⟩

/-- A moved block adds 80 samples and advances the expected sequence by 1 (R51). -/
theorem Lane.takeBlock_ring (l : Lane) (e : Entry) : (l.takeBlock e).ring.length = l.ring.length + 80 := by
  unfold Lane.takeBlock
  split <;> simp

theorem Lane.takeBlock_expected (l : Lane) (e : Entry) : (l.takeBlock e).expected = l.expected.map (· + 1) := by
  unfold Lane.takeBlock Lane.advanceExpected
  split <;> rfl

theorem moveDue_same (q : List Entry) (l : Lane) : l.SameBinding (moveDue q l).2 := by
  induction q generalizing l with
  | nil => exact .refl l
  | cons e q ih =>
    unfold moveDue
    split
    · exact (l.takeBlock_same e).trans (ih _)
    · exact .refl l

/-- A movement removes entries from the head of the queue and nothing else. -/
theorem moveDue_suffix (q : List Entry) (l : Lane) : (moveDue q l).1 <:+ q := by
  induction q generalizing l with
  | nil => simp [moveDue]
  | cons e q ih =>
    unfold moveDue
    split
    · exact (ih _).trans (List.suffix_cons e q)
    · exact List.suffix_refl _

/-- A movement never passes the ring's 320 places (R82). -/
theorem moveDue_ring (q : List Entry) (l : Lane) (h : l.ring.length ≤ 320) : (moveDue q l).2.ring.length ≤ 320 := by
  induction q generalizing l with
  | nil => exact h
  | cons e q ih =>
    unfold moveDue
    split
    · rename_i hd
      refine ih _ ?_
      have hr : l.ring.length ≤ 240 := by
        rw [Bool.and_eq_true] at hd
        exact of_decide_eq_true hd.2
      rw [Lane.takeBlock_ring]
      omega
    · exact h

/-- After a movement no due head waits while the ring has room (R51). -/
theorem moveDue_movedAll (q : List Entry) (l : Lane) (e : Entry) (rest : List Entry) (h : (moveDue q l).1 = e :: rest)
    (hd : (moveDue q l).2.isDue e = true) : Config.ringRoom < (moveDue q l).2.ring.length := by
  induction q generalizing l with
  | nil => simp [moveDue] at h
  | cons a q ih =>
    unfold moveDue at h hd ⊢
    split at h
    · rename_i hc
      simp only [hc, if_true] at hd ⊢
      exact ih _ h hd
    · rename_i hc
      simp only [hc] at hd ⊢
      simp at h
      obtain ⟨rfl, rfl⟩ := h
      have hd' : l.isDue a = true := by simpa using hd
      simpa [hd'] using hc

/-- The conceal count falls to 0 or stays. -/
theorem moveDue_concealCount (q : List Entry) (l : Lane) :
    (moveDue q l).2.concealCount = 0 ∨ (moveDue q l).2.concealCount = l.concealCount := by
  induction q generalizing l with
  | nil => exact .inr rfl
  | cons e q ih =>
    unfold moveDue
    split
    · rcases ih (l.takeBlock e) with h | h
      · exact .inl h
      · rw [h]; unfold Lane.takeBlock; split
        · exact .inl rfl
        · exact .inr rfl
    · exact .inr rfl

theorem Feed.move_same (f : Feed) : f.lane.SameBinding f.move.lane := moveDue_same f.queue f.lane

@[simp] theorem Feed.move_discards (f : Feed) : f.move.discards = f.discards := rfl

theorem Feed.move_suffix (f : Feed) : f.move.queue <:+ f.queue := moveDue_suffix f.queue f.lane

/-- Intake's preparation of a queue for a lane changes no other field of the lane than a move does (R52). -/
theorem Feed.prepare_same (f : Feed) : f.lane.SameBinding f.prepare.lane := by
  unfold Feed.prepare
  split
  · exact .refl _
  · simp only
    rename_i older newer _
    have h : f.lane.SameBinding { f.lane with expected := some older.seq } :=
      ⟨rfl, rfl, rfl, rfl, rfl, rfl, rfl, rfl, rfl, rfl⟩
    exact h.trans (moveDue_same _ _)

/-- Concealment leaves everything of a lane but its ring, its expected sequence, its conceal count and its conceal
counter (R85). -/
theorem Feed.conceal_lane (f : Feed) :
    f.conceal.lane =
      { f.lane with
        ring := f.lane.ring ++ (concealBlock f.lane.concealCount f.lane.lastGood).toList
        expected := f.lane.expected.map (· + 1)
        concealCount := min (f.lane.concealCount + 1) 2
        conceals := satInc Config.counterMax f.lane.conceals } := by
  unfold Feed.conceal
  simp only
  split
  · rfl
  · split <;> rfl

theorem Feed.conceal_ring (f : Feed) : f.conceal.lane.ring.length = f.lane.ring.length + 80 := by
  simp [Feed.conceal_lane]

/-- Stage 2 makes the ring hold what the pull reads, for a need of at most 160 (R86). -/
theorem Feed.concealTo_ring (f : Feed) (n : Nat) (h : n ≤ 160) : n ≤ (f.concealTo n).lane.ring.length := by
  unfold Feed.concealTo
  split
  · assumption
  · simp only
    split
    · assumption
    · rw [Feed.conceal_ring, Feed.conceal_ring]; omega

/-- The need of a lane in range lies in 80..82 (R84). -/
theorem need_bounds (p s : Nat) (hp : p < 65536) (h1 : 65472 ≤ s) (h2 : s ≤ 65600) : 80 ≤ need p s ∧ need p s ≤ 82 := by
  simp only [need, Config.unit]
  omega

/-- The step always lies in 65,472..65,600 (R92). -/
theorem stepFor_bounds (f : Int) (target : Nat) : 65472 ≤ stepFor f target ∧ stepFor f target ≤ 65600 := by
  simp only [stepFor, clampInt]
  split <;> (try split) <;> omega

/-- The depth filter stays within the values of 256·D for D in 0..960 (R91). -/
theorem filterUpdate_bounds (f : Int) (d : Nat) (h0 : 0 ≤ f) (h1 : f ≤ 245760) (hd : d ≤ 960) :
    0 ≤ filterUpdate f d ∧ filterUpdate f d ≤ 245760 := by
  simp only [filterUpdate]
  omega

/-- Scaling by a gain of at most unity keeps a value within the sample range (R97). -/
theorem scale_bounds (x : Int) (g : Nat) (h0 : -32768 ≤ x) (h1 : x ≤ 32767) (hg : g ≤ 32768) :
    -32768 ≤ scale x g ∧ scale x g ≤ 32767 := by
  simp only [scale]
  have hg' : (g : Int) ≤ 32768 := by exact_mod_cast hg
  have hg0 : (0 : Int) ≤ g := by positivity
  have a1 : -32768 * (g : Int) ≤ x * g := by nlinarith
  have a2 : x * (g : Int) ≤ 32767 * g := by nlinarith
  constructor <;> omega

end Sys2Proof.Machine
end

