-- ==== Sys2Proof/Laws/State.lean ====
section
/-! SUPPORT. What each update of the state leaves and sets, one lemma for each field: nothing later unfolds a record
update. -/

namespace Sys2Proof.Machine

variable (s : State)

/-! ## setBud -/

@[simp] theorem State.setBud_roster (b : BudIx) (r : Bud) :
    (s.setBud b r).roster = { s.roster with buds := s.roster.buds.set b r } := rfl
@[simp] theorem State.setBud_pairing (b : BudIx) (r : Bud) : (s.setBud b r).pairing = s.pairing := rfl
@[simp] theorem State.setBud_intake (b : BudIx) (r : Bud) : (s.setBud b r).intake = s.intake := rfl
@[simp] theorem State.setBud_laneUnit (b : BudIx) (r : Bud) : (s.setBud b r).laneUnit = s.laneUnit := rfl
@[simp] theorem State.setBud_mix (b : BudIx) (r : Bud) : (s.setBud b r).mix = s.mix := rfl
@[simp] theorem State.setBud_callCtl (b : BudIx) (r : Bud) : (s.setBud b r).callCtl = s.callCtl := rfl
@[simp] theorem State.setBud_airPort (b : BudIx) (r : Bud) : (s.setBud b r).airPort = s.airPort := rfl
@[simp] theorem State.setBud_voicePort (b : BudIx) (r : Bud) : (s.setBud b r).voicePort = s.voicePort := rfl
@[simp] theorem State.setBud_directives (b : BudIx) (r : Bud) : (s.setBud b r).directives = s.directives := rfl
@[simp] theorem State.setBud_store (b : BudIx) (r : Bud) : (s.setBud b r).store = s.store := rfl
@[simp] theorem State.setBud_pending (b : BudIx) (r : Bud) : (s.setBud b r).pending = s.pending := rfl

/-! ## setListener -/

@[simp] theorem State.setListener_roster (x : ListenerIx) (l : Listener) :
    (s.setListener x l).roster = { s.roster with listeners := s.roster.listeners.set x l } := rfl
@[simp] theorem State.setListener_pairing (x : ListenerIx) (l : Listener) : (s.setListener x l).pairing = s.pairing := rfl
@[simp] theorem State.setListener_intake (x : ListenerIx) (l : Listener) : (s.setListener x l).intake = s.intake := rfl
@[simp] theorem State.setListener_laneUnit (x : ListenerIx) (l : Listener) : (s.setListener x l).laneUnit = s.laneUnit := rfl
@[simp] theorem State.setListener_mix (x : ListenerIx) (l : Listener) : (s.setListener x l).mix = s.mix := rfl
@[simp] theorem State.setListener_callCtl (x : ListenerIx) (l : Listener) : (s.setListener x l).callCtl = s.callCtl := rfl
@[simp] theorem State.setListener_airPort (x : ListenerIx) (l : Listener) : (s.setListener x l).airPort = s.airPort := rfl
@[simp] theorem State.setListener_voicePort (x : ListenerIx) (l : Listener) : (s.setListener x l).voicePort = s.voicePort := rfl
@[simp] theorem State.setListener_directives (x : ListenerIx) (l : Listener) : (s.setListener x l).directives = s.directives := rfl
@[simp] theorem State.setListener_store (x : ListenerIx) (l : Listener) : (s.setListener x l).store = s.store := rfl
@[simp] theorem State.setListener_pending (x : ListenerIx) (l : Listener) : (s.setListener x l).pending = s.pending := rfl

/-! ## emptyQueue -/

@[simp] theorem State.emptyQueue_roster (b : BudIx) : (s.emptyQueue b).roster = s.roster := rfl
@[simp] theorem State.emptyQueue_pairing (b : BudIx) : (s.emptyQueue b).pairing = s.pairing := rfl
@[simp] theorem State.emptyQueue_intake (b : BudIx) :
    (s.emptyQueue b).intake = { s.intake with queues := s.intake.queues.set b [] } := rfl
@[simp] theorem State.emptyQueue_laneUnit (b : BudIx) : (s.emptyQueue b).laneUnit = s.laneUnit := rfl
@[simp] theorem State.emptyQueue_mix (b : BudIx) : (s.emptyQueue b).mix = s.mix := rfl
@[simp] theorem State.emptyQueue_callCtl (b : BudIx) : (s.emptyQueue b).callCtl = s.callCtl := rfl
@[simp] theorem State.emptyQueue_airPort (b : BudIx) : (s.emptyQueue b).airPort = s.airPort := rfl
@[simp] theorem State.emptyQueue_voicePort (b : BudIx) : (s.emptyQueue b).voicePort = s.voicePort := rfl
@[simp] theorem State.emptyQueue_directives (b : BudIx) : (s.emptyQueue b).directives = s.directives := rfl
@[simp] theorem State.emptyQueue_store (b : BudIx) : (s.emptyQueue b).store = s.store := rfl
@[simp] theorem State.emptyQueue_pending (b : BudIx) : (s.emptyQueue b).pending = s.pending := rfl

/-! ## setLane -/

@[simp] theorem State.setLane_roster (k : LaneIx) (l : Lane) : (s.setLane k l).roster = s.roster := rfl
@[simp] theorem State.setLane_pairing (k : LaneIx) (l : Lane) : (s.setLane k l).pairing = s.pairing := rfl
@[simp] theorem State.setLane_intake (k : LaneIx) (l : Lane) : (s.setLane k l).intake = s.intake := rfl
@[simp] theorem State.setLane_laneUnit (k : LaneIx) (l : Lane) :
    (s.setLane k l).laneUnit = { s.laneUnit with lanes := s.laneUnit.lanes.set k l } := rfl
@[simp] theorem State.setLane_mix (k : LaneIx) (l : Lane) : (s.setLane k l).mix = s.mix := rfl
@[simp] theorem State.setLane_callCtl (k : LaneIx) (l : Lane) : (s.setLane k l).callCtl = s.callCtl := rfl
@[simp] theorem State.setLane_airPort (k : LaneIx) (l : Lane) : (s.setLane k l).airPort = s.airPort := rfl
@[simp] theorem State.setLane_voicePort (k : LaneIx) (l : Lane) : (s.setLane k l).voicePort = s.voicePort := rfl
@[simp] theorem State.setLane_directives (k : LaneIx) (l : Lane) : (s.setLane k l).directives = s.directives := rfl
@[simp] theorem State.setLane_store (k : LaneIx) (l : Lane) : (s.setLane k l).store = s.store := rfl
@[simp] theorem State.setLane_pending (k : LaneIx) (l : Lane) : (s.setLane k l).pending = s.pending := rfl

/-! ## setWait -/

@[simp] theorem State.setWait_roster (w : List WaitEntry) : (s.setWait w).roster = s.roster := rfl
@[simp] theorem State.setWait_pairing (w : List WaitEntry) : (s.setWait w).pairing = s.pairing := rfl
@[simp] theorem State.setWait_intake (w : List WaitEntry) : (s.setWait w).intake = s.intake := rfl
@[simp] theorem State.setWait_laneUnit (w : List WaitEntry) :
    (s.setWait w).laneUnit = { s.laneUnit with waitList := w } := rfl
@[simp] theorem State.setWait_mix (w : List WaitEntry) : (s.setWait w).mix = s.mix := rfl
@[simp] theorem State.setWait_callCtl (w : List WaitEntry) : (s.setWait w).callCtl = s.callCtl := rfl
@[simp] theorem State.setWait_airPort (w : List WaitEntry) : (s.setWait w).airPort = s.airPort := rfl
@[simp] theorem State.setWait_voicePort (w : List WaitEntry) : (s.setWait w).voicePort = s.voicePort := rfl
@[simp] theorem State.setWait_directives (w : List WaitEntry) : (s.setWait w).directives = s.directives := rfl
@[simp] theorem State.setWait_store (w : List WaitEntry) : (s.setWait w).store = s.store := rfl
@[simp] theorem State.setWait_pending (w : List WaitEntry) : (s.setWait w).pending = s.pending := rfl

/-! ## setFeed -/

@[simp] theorem State.setFeed_roster (k : LaneIx) (b : BudIx) (f : Feed) : (s.setFeed k b f).roster = s.roster := rfl
@[simp] theorem State.setFeed_pairing (k : LaneIx) (b : BudIx) (f : Feed) : (s.setFeed k b f).pairing = s.pairing := rfl
@[simp] theorem State.setFeed_intake (k : LaneIx) (b : BudIx) (f : Feed) :
    (s.setFeed k b f).intake = { queues := s.intake.queues.set b f.queue, discards := s.intake.discards.set b f.discards } := rfl
@[simp] theorem State.setFeed_laneUnit (k : LaneIx) (b : BudIx) (f : Feed) :
    (s.setFeed k b f).laneUnit = { s.laneUnit with lanes := s.laneUnit.lanes.set k f.lane } := rfl
@[simp] theorem State.setFeed_mix (k : LaneIx) (b : BudIx) (f : Feed) : (s.setFeed k b f).mix = s.mix := rfl
@[simp] theorem State.setFeed_callCtl (k : LaneIx) (b : BudIx) (f : Feed) : (s.setFeed k b f).callCtl = s.callCtl := rfl
@[simp] theorem State.setFeed_airPort (k : LaneIx) (b : BudIx) (f : Feed) : (s.setFeed k b f).airPort = s.airPort := rfl
@[simp] theorem State.setFeed_voicePort (k : LaneIx) (b : BudIx) (f : Feed) : (s.setFeed k b f).voicePort = s.voicePort := rfl
@[simp] theorem State.setFeed_directives (k : LaneIx) (b : BudIx) (f : Feed) : (s.setFeed k b f).directives = s.directives := rfl
@[simp] theorem State.setFeed_store (k : LaneIx) (b : BudIx) (f : Feed) : (s.setFeed k b f).store = s.store := rfl
@[simp] theorem State.setFeed_pending (k : LaneIx) (b : BudIx) (f : Feed) : (s.setFeed k b f).pending = s.pending := rfl

/-! ## cancelWait -/

@[simp] theorem State.cancelWait_roster (x : ListenerIx) : (s.cancelWait x).roster = s.roster := rfl
@[simp] theorem State.cancelWait_pairing (x : ListenerIx) : (s.cancelWait x).pairing = s.pairing := rfl
@[simp] theorem State.cancelWait_intake (x : ListenerIx) : (s.cancelWait x).intake = s.intake := rfl
@[simp] theorem State.cancelWait_laneUnit (x : ListenerIx) :
    (s.cancelWait x).laneUnit = { s.laneUnit with waitList := removeWait x s.laneUnit.waitList } := rfl
@[simp] theorem State.cancelWait_mix (x : ListenerIx) : (s.cancelWait x).mix = s.mix := rfl
@[simp] theorem State.cancelWait_callCtl (x : ListenerIx) : (s.cancelWait x).callCtl = s.callCtl := rfl
@[simp] theorem State.cancelWait_airPort (x : ListenerIx) : (s.cancelWait x).airPort = s.airPort := rfl
@[simp] theorem State.cancelWait_voicePort (x : ListenerIx) : (s.cancelWait x).voicePort = s.voicePort := rfl
@[simp] theorem State.cancelWait_directives (x : ListenerIx) : (s.cancelWait x).directives = s.directives := rfl
@[simp] theorem State.cancelWait_store (x : ListenerIx) : (s.cancelWait x).store = s.store := rfl
@[simp] theorem State.cancelWait_pending (x : ListenerIx) : (s.cancelWait x).pending = s.pending := rfl

/-! ## renameWait -/

@[simp] theorem State.renameWait_roster (x : ListenerIx) (b : BudIx) : (s.renameWait x b).roster = s.roster := rfl
@[simp] theorem State.renameWait_pairing (x : ListenerIx) (b : BudIx) : (s.renameWait x b).pairing = s.pairing := rfl
@[simp] theorem State.renameWait_intake (x : ListenerIx) (b : BudIx) : (s.renameWait x b).intake = s.intake := rfl
@[simp] theorem State.renameWait_laneUnit (x : ListenerIx) (b : BudIx) :
    (s.renameWait x b).laneUnit = { s.laneUnit with
      waitList := s.laneUnit.waitList.map fun e => if e.listener = x then { e with bud := b } else e } := rfl
@[simp] theorem State.renameWait_mix (x : ListenerIx) (b : BudIx) : (s.renameWait x b).mix = s.mix := rfl
@[simp] theorem State.renameWait_callCtl (x : ListenerIx) (b : BudIx) : (s.renameWait x b).callCtl = s.callCtl := rfl
@[simp] theorem State.renameWait_airPort (x : ListenerIx) (b : BudIx) : (s.renameWait x b).airPort = s.airPort := rfl
@[simp] theorem State.renameWait_voicePort (x : ListenerIx) (b : BudIx) : (s.renameWait x b).voicePort = s.voicePort := rfl
@[simp] theorem State.renameWait_directives (x : ListenerIx) (b : BudIx) : (s.renameWait x b).directives = s.directives := rfl
@[simp] theorem State.renameWait_store (x : ListenerIx) (b : BudIx) : (s.renameWait x b).store = s.store := rfl
@[simp] theorem State.renameWait_pending (x : ListenerIx) (b : BudIx) : (s.renameWait x b).pending = s.pending := rfl

/-! ## resortWait -/

@[simp] theorem State.resortWait_roster : (s.resortWait).roster = s.roster := rfl
@[simp] theorem State.resortWait_pairing : (s.resortWait).pairing = s.pairing := rfl
@[simp] theorem State.resortWait_intake : (s.resortWait).intake = s.intake := rfl
@[simp] theorem State.resortWait_laneUnit :
    (s.resortWait).laneUnit = { s.laneUnit with waitList := sortWait s.priorityOf s.laneUnit.waitList } := rfl
@[simp] theorem State.resortWait_mix : (s.resortWait).mix = s.mix := rfl
@[simp] theorem State.resortWait_callCtl : (s.resortWait).callCtl = s.callCtl := rfl
@[simp] theorem State.resortWait_airPort : (s.resortWait).airPort = s.airPort := rfl
@[simp] theorem State.resortWait_voicePort : (s.resortWait).voicePort = s.voicePort := rfl
@[simp] theorem State.resortWait_directives : (s.resortWait).directives = s.directives := rfl
@[simp] theorem State.resortWait_store : (s.resortWait).store = s.store := rfl
@[simp] theorem State.resortWait_pending : (s.resortWait).pending = s.pending := rfl

/-! ## convertQueue -/

@[simp] theorem State.convertQueue_roster (b : BudIx) : (s.convertQueue b).roster = s.roster := rfl
@[simp] theorem State.convertQueue_pairing (b : BudIx) : (s.convertQueue b).pairing = s.pairing := rfl
@[simp] theorem State.convertQueue_intake (b : BudIx) :
    (s.convertQueue b).intake = { s.intake with queues := update s.intake.queues b (keepLast Config.unboundQueueLimit) } := rfl
@[simp] theorem State.convertQueue_laneUnit (b : BudIx) : (s.convertQueue b).laneUnit = s.laneUnit := rfl
@[simp] theorem State.convertQueue_mix (b : BudIx) : (s.convertQueue b).mix = s.mix := rfl
@[simp] theorem State.convertQueue_callCtl (b : BudIx) : (s.convertQueue b).callCtl = s.callCtl := rfl
@[simp] theorem State.convertQueue_airPort (b : BudIx) : (s.convertQueue b).airPort = s.airPort := rfl
@[simp] theorem State.convertQueue_voicePort (b : BudIx) : (s.convertQueue b).voicePort = s.voicePort := rfl
@[simp] theorem State.convertQueue_directives (b : BudIx) : (s.convertQueue b).directives = s.directives := rfl
@[simp] theorem State.convertQueue_store (b : BudIx) : (s.convertQueue b).store = s.store := rfl
@[simp] theorem State.convertQueue_pending (b : BudIx) : (s.convertQueue b).pending = s.pending := rfl

/-! ## reserve -/

@[simp] theorem State.reserve_roster (k : LaneIx) (x : Option ListenerIx) : (s.reserve k x).roster = s.roster := rfl
@[simp] theorem State.reserve_pairing (k : LaneIx) (x : Option ListenerIx) : (s.reserve k x).pairing = s.pairing := rfl
@[simp] theorem State.reserve_intake (k : LaneIx) (x : Option ListenerIx) : (s.reserve k x).intake = s.intake := rfl
@[simp] theorem State.reserve_laneUnit (k : LaneIx) (x : Option ListenerIx) :
    (s.reserve k x).laneUnit = { s.laneUnit with lanes := s.laneUnit.lanes.set k { s.laneUnit.lanes[k] with reservedFor := x } } := rfl
@[simp] theorem State.reserve_mix (k : LaneIx) (x : Option ListenerIx) : (s.reserve k x).mix = s.mix := rfl
@[simp] theorem State.reserve_callCtl (k : LaneIx) (x : Option ListenerIx) : (s.reserve k x).callCtl = s.callCtl := rfl
@[simp] theorem State.reserve_airPort (k : LaneIx) (x : Option ListenerIx) : (s.reserve k x).airPort = s.airPort := rfl
@[simp] theorem State.reserve_voicePort (k : LaneIx) (x : Option ListenerIx) : (s.reserve k x).voicePort = s.voicePort := rfl
@[simp] theorem State.reserve_directives (k : LaneIx) (x : Option ListenerIx) : (s.reserve k x).directives = s.directives := rfl
@[simp] theorem State.reserve_store (k : LaneIx) (x : Option ListenerIx) : (s.reserve k x).store = s.store := rfl
@[simp] theorem State.reserve_pending (k : LaneIx) (x : Option ListenerIx) : (s.reserve k x).pending = s.pending := rfl

/-! ## recordSpeaking -/

@[simp] theorem State.recordSpeaking_roster (x : ListenerIx) (b : Option BudIx) : (s.recordSpeaking x b).roster = s.roster := rfl
@[simp] theorem State.recordSpeaking_pairing (x : ListenerIx) (b : Option BudIx) : (s.recordSpeaking x b).pairing = s.pairing := rfl
@[simp] theorem State.recordSpeaking_intake (x : ListenerIx) (b : Option BudIx) : (s.recordSpeaking x b).intake = s.intake := rfl
@[simp] theorem State.recordSpeaking_laneUnit (x : ListenerIx) (b : Option BudIx) :
    (s.recordSpeaking x b).laneUnit = { s.laneUnit with speaking := s.laneUnit.speaking.set x b } := rfl
@[simp] theorem State.recordSpeaking_mix (x : ListenerIx) (b : Option BudIx) : (s.recordSpeaking x b).mix = s.mix := rfl
@[simp] theorem State.recordSpeaking_callCtl (x : ListenerIx) (b : Option BudIx) : (s.recordSpeaking x b).callCtl = s.callCtl := rfl
@[simp] theorem State.recordSpeaking_airPort (x : ListenerIx) (b : Option BudIx) : (s.recordSpeaking x b).airPort = s.airPort := rfl
@[simp] theorem State.recordSpeaking_voicePort (x : ListenerIx) (b : Option BudIx) : (s.recordSpeaking x b).voicePort = s.voicePort := rfl
@[simp] theorem State.recordSpeaking_directives (x : ListenerIx) (b : Option BudIx) : (s.recordSpeaking x b).directives = s.directives := rfl
@[simp] theorem State.recordSpeaking_store (x : ListenerIx) (b : Option BudIx) : (s.recordSpeaking x b).store = s.store := rfl
@[simp] theorem State.recordSpeaking_pending (x : ListenerIx) (b : Option BudIx) : (s.recordSpeaking x b).pending = s.pending := rfl

/-! ## clearHandover -/

@[simp] theorem State.clearHandover_roster : (s.clearHandover).roster = s.roster := rfl
@[simp] theorem State.clearHandover_pairing : (s.clearHandover).pairing = s.pairing := rfl
@[simp] theorem State.clearHandover_intake : (s.clearHandover).intake = s.intake := rfl
@[simp] theorem State.clearHandover_laneUnit :
    (s.clearHandover).laneUnit = { s.laneUnit with handover := {} } := rfl
@[simp] theorem State.clearHandover_mix : (s.clearHandover).mix = s.mix := rfl
@[simp] theorem State.clearHandover_callCtl : (s.clearHandover).callCtl = s.callCtl := rfl
@[simp] theorem State.clearHandover_airPort : (s.clearHandover).airPort = s.airPort := rfl
@[simp] theorem State.clearHandover_voicePort : (s.clearHandover).voicePort = s.voicePort := rfl
@[simp] theorem State.clearHandover_directives : (s.clearHandover).directives = s.directives := rfl
@[simp] theorem State.clearHandover_store : (s.clearHandover).store = s.store := rfl
@[simp] theorem State.clearHandover_pending : (s.clearHandover).pending = s.pending := rfl

/-! ## countMixing -/

@[simp] theorem State.countMixing_roster : (s.countMixing).roster = s.roster := rfl
@[simp] theorem State.countMixing_pairing : (s.countMixing).pairing = s.pairing := rfl
@[simp] theorem State.countMixing_intake : (s.countMixing).intake = s.intake := rfl
@[simp] theorem State.countMixing_laneUnit :
    (s.countMixing).laneUnit = { s.laneUnit with handover := { s.laneUnit.handover with mixing := s.laneUnit.mixingCount } } := rfl
@[simp] theorem State.countMixing_mix : (s.countMixing).mix = s.mix := rfl
@[simp] theorem State.countMixing_callCtl : (s.countMixing).callCtl = s.callCtl := rfl
@[simp] theorem State.countMixing_airPort : (s.countMixing).airPort = s.airPort := rfl
@[simp] theorem State.countMixing_voicePort : (s.countMixing).voicePort = s.voicePort := rfl
@[simp] theorem State.countMixing_directives : (s.countMixing).directives = s.directives := rfl
@[simp] theorem State.countMixing_store : (s.countMixing).store = s.store := rfl
@[simp] theorem State.countMixing_pending : (s.countMixing).pending = s.pending := rfl

/-! ## emptyContext -/

@[simp] theorem State.emptyContext_roster : (s.emptyContext).roster = s.roster := rfl
@[simp] theorem State.emptyContext_pairing :
    (s.emptyContext).pairing = { s.pairing with context := none } := rfl
@[simp] theorem State.emptyContext_intake : (s.emptyContext).intake = s.intake := rfl
@[simp] theorem State.emptyContext_laneUnit : (s.emptyContext).laneUnit = s.laneUnit := rfl
@[simp] theorem State.emptyContext_mix : (s.emptyContext).mix = s.mix := rfl
@[simp] theorem State.emptyContext_callCtl : (s.emptyContext).callCtl = s.callCtl := rfl
@[simp] theorem State.emptyContext_airPort : (s.emptyContext).airPort = s.airPort := rfl
@[simp] theorem State.emptyContext_voicePort : (s.emptyContext).voicePort = s.voicePort := rfl
@[simp] theorem State.emptyContext_directives : (s.emptyContext).directives = s.directives := rfl
@[simp] theorem State.emptyContext_store : (s.emptyContext).store = s.store := rfl
@[simp] theorem State.emptyContext_pending : (s.emptyContext).pending = s.pending := rfl

/-! ## setAdmission -/

@[simp] theorem State.setAdmission_roster (o : Bool) : (s.setAdmission o).roster = s.roster := rfl
@[simp] theorem State.setAdmission_pairing (o : Bool) :
    (s.setAdmission o).pairing = { s.pairing with admissionOpen := o } := rfl
@[simp] theorem State.setAdmission_intake (o : Bool) : (s.setAdmission o).intake = s.intake := rfl
@[simp] theorem State.setAdmission_laneUnit (o : Bool) : (s.setAdmission o).laneUnit = s.laneUnit := rfl
@[simp] theorem State.setAdmission_mix (o : Bool) : (s.setAdmission o).mix = s.mix := rfl
@[simp] theorem State.setAdmission_callCtl (o : Bool) : (s.setAdmission o).callCtl = s.callCtl := rfl
@[simp] theorem State.setAdmission_airPort (o : Bool) : (s.setAdmission o).airPort = s.airPort := rfl
@[simp] theorem State.setAdmission_voicePort (o : Bool) : (s.setAdmission o).voicePort = s.voicePort := rfl
@[simp] theorem State.setAdmission_directives (o : Bool) : (s.setAdmission o).directives = s.directives := rfl
@[simp] theorem State.setAdmission_store (o : Bool) : (s.setAdmission o).store = s.store := rfl
@[simp] theorem State.setAdmission_pending (o : Bool) : (s.setAdmission o).pending = s.pending := rfl

/-! ## fillContext -/

@[simp] theorem State.fillContext_roster (j : JoinRequest) (b : BudIx) (x : ListenerIx) (c : Bool) : (s.fillContext j b x c).roster = s.roster := rfl
@[simp] theorem State.fillContext_pairing (j : JoinRequest) (b : BudIx) (x : ListenerIx) (c : Bool) :
    (s.fillContext j b x c).pairing = { s.pairing with
      context := some { handle := j.handle, bud := b, listener := x, created := c,
                        countdown := s.directives.settings.confirmTimeout } } := rfl
@[simp] theorem State.fillContext_intake (j : JoinRequest) (b : BudIx) (x : ListenerIx) (c : Bool) : (s.fillContext j b x c).intake = s.intake := rfl
@[simp] theorem State.fillContext_laneUnit (j : JoinRequest) (b : BudIx) (x : ListenerIx) (c : Bool) : (s.fillContext j b x c).laneUnit = s.laneUnit := rfl
@[simp] theorem State.fillContext_mix (j : JoinRequest) (b : BudIx) (x : ListenerIx) (c : Bool) : (s.fillContext j b x c).mix = s.mix := rfl
@[simp] theorem State.fillContext_callCtl (j : JoinRequest) (b : BudIx) (x : ListenerIx) (c : Bool) : (s.fillContext j b x c).callCtl = s.callCtl := rfl
@[simp] theorem State.fillContext_airPort (j : JoinRequest) (b : BudIx) (x : ListenerIx) (c : Bool) : (s.fillContext j b x c).airPort = s.airPort := rfl
@[simp] theorem State.fillContext_voicePort (j : JoinRequest) (b : BudIx) (x : ListenerIx) (c : Bool) : (s.fillContext j b x c).voicePort = s.voicePort := rfl
@[simp] theorem State.fillContext_directives (j : JoinRequest) (b : BudIx) (x : ListenerIx) (c : Bool) : (s.fillContext j b x c).directives = s.directives := rfl
@[simp] theorem State.fillContext_store (j : JoinRequest) (b : BudIx) (x : ListenerIx) (c : Bool) : (s.fillContext j b x c).store = s.store := rfl
@[simp] theorem State.fillContext_pending (j : JoinRequest) (b : BudIx) (x : ListenerIx) (c : Bool) : (s.fillContext j b x c).pending = s.pending := rfl

/-! ## takeSwap -/

@[simp] theorem State.takeSwap_roster : (s.takeSwap).roster = s.roster := rfl
@[simp] theorem State.takeSwap_pairing : (s.takeSwap).pairing = s.pairing := rfl
@[simp] theorem State.takeSwap_intake : (s.takeSwap).intake = s.intake := rfl
@[simp] theorem State.takeSwap_laneUnit : (s.takeSwap).laneUnit = s.laneUnit := rfl
@[simp] theorem State.takeSwap_mix :
    (s.takeSwap).mix = s.mix.takeSwap := rfl
@[simp] theorem State.takeSwap_callCtl : (s.takeSwap).callCtl = s.callCtl := rfl
@[simp] theorem State.takeSwap_airPort : (s.takeSwap).airPort = s.airPort := rfl
@[simp] theorem State.takeSwap_voicePort : (s.takeSwap).voicePort = s.voicePort := rfl
@[simp] theorem State.takeSwap_directives : (s.takeSwap).directives = s.directives := rfl
@[simp] theorem State.takeSwap_store : (s.takeSwap).store = s.store := rfl
@[simp] theorem State.takeSwap_pending : (s.takeSwap).pending = s.pending := rfl

/-! ## armTimer -/

@[simp] theorem State.armTimer_roster (i : TimerInterval) : (s.armTimer i).roster = s.roster := rfl
@[simp] theorem State.armTimer_pairing (i : TimerInterval) : (s.armTimer i).pairing = s.pairing := rfl
@[simp] theorem State.armTimer_intake (i : TimerInterval) : (s.armTimer i).intake = s.intake := rfl
@[simp] theorem State.armTimer_laneUnit (i : TimerInterval) : (s.armTimer i).laneUnit = s.laneUnit := rfl
@[simp] theorem State.armTimer_mix (i : TimerInterval) : (s.armTimer i).mix = s.mix := rfl
@[simp] theorem State.armTimer_callCtl (i : TimerInterval) :
    (s.armTimer i).callCtl = { s.callCtl with timer := some i } := rfl
@[simp] theorem State.armTimer_airPort (i : TimerInterval) : (s.armTimer i).airPort = s.airPort := rfl
@[simp] theorem State.armTimer_voicePort (i : TimerInterval) : (s.armTimer i).voicePort = s.voicePort := rfl
@[simp] theorem State.armTimer_directives (i : TimerInterval) : (s.armTimer i).directives = s.directives := rfl
@[simp] theorem State.armTimer_store (i : TimerInterval) : (s.armTimer i).store = s.store := rfl
@[simp] theorem State.armTimer_pending (i : TimerInterval) : (s.armTimer i).pending = s.pending := rfl

/-! ## zeroFills -/

@[simp] theorem State.zeroFills_roster : (s.zeroFills).roster = s.roster := rfl
@[simp] theorem State.zeroFills_pairing : (s.zeroFills).pairing = s.pairing := rfl
@[simp] theorem State.zeroFills_intake : (s.zeroFills).intake = s.intake := rfl
@[simp] theorem State.zeroFills_laneUnit : (s.zeroFills).laneUnit = s.laneUnit := rfl
@[simp] theorem State.zeroFills_mix : (s.zeroFills).mix = s.mix := rfl
@[simp] theorem State.zeroFills_callCtl :
    (s.zeroFills).callCtl = { s.callCtl with fills := 0 } := rfl
@[simp] theorem State.zeroFills_airPort : (s.zeroFills).airPort = s.airPort := rfl
@[simp] theorem State.zeroFills_voicePort : (s.zeroFills).voicePort = s.voicePort := rfl
@[simp] theorem State.zeroFills_directives : (s.zeroFills).directives = s.directives := rfl
@[simp] theorem State.zeroFills_store : (s.zeroFills).store = s.store := rfl
@[simp] theorem State.zeroFills_pending : (s.zeroFills).pending = s.pending := rfl

/-! ## countFill -/

@[simp] theorem State.countFill_roster : (s.countFill).roster = s.roster := rfl
@[simp] theorem State.countFill_pairing : (s.countFill).pairing = s.pairing := rfl
@[simp] theorem State.countFill_intake : (s.countFill).intake = s.intake := rfl
@[simp] theorem State.countFill_laneUnit : (s.countFill).laneUnit = s.laneUnit := rfl
@[simp] theorem State.countFill_mix : (s.countFill).mix = s.mix := rfl
@[simp] theorem State.countFill_callCtl :
    (s.countFill).callCtl = { s.callCtl with
      fills := satInc Config.runMax s.callCtl.fills, fillTotal := satInc Config.counterMax s.callCtl.fillTotal } := rfl
@[simp] theorem State.countFill_airPort : (s.countFill).airPort = s.airPort := rfl
@[simp] theorem State.countFill_voicePort : (s.countFill).voicePort = s.voicePort := rfl
@[simp] theorem State.countFill_directives : (s.countFill).directives = s.directives := rfl
@[simp] theorem State.countFill_store : (s.countFill).store = s.store := rfl
@[simp] theorem State.countFill_pending : (s.countFill).pending = s.pending := rfl

/-! ## discardVoice -/

@[simp] theorem State.discardVoice_roster : (s.discardVoice).roster = s.roster := rfl
@[simp] theorem State.discardVoice_pairing : (s.discardVoice).pairing = s.pairing := rfl
@[simp] theorem State.discardVoice_intake : (s.discardVoice).intake = s.intake := rfl
@[simp] theorem State.discardVoice_laneUnit : (s.discardVoice).laneUnit = s.laneUnit := rfl
@[simp] theorem State.discardVoice_mix : (s.discardVoice).mix = s.mix := rfl
@[simp] theorem State.discardVoice_callCtl :
    (s.discardVoice).callCtl = { s.callCtl with discardedVoice := satInc Config.counterMax s.callCtl.discardedVoice } := rfl
@[simp] theorem State.discardVoice_airPort : (s.discardVoice).airPort = s.airPort := rfl
@[simp] theorem State.discardVoice_voicePort : (s.discardVoice).voicePort = s.voicePort := rfl
@[simp] theorem State.discardVoice_directives : (s.discardVoice).directives = s.directives := rfl
@[simp] theorem State.discardVoice_store : (s.discardVoice).store = s.store := rfl
@[simp] theorem State.discardVoice_pending : (s.discardVoice).pending = s.pending := rfl

/-! ## consumeMask -/

@[simp] theorem State.consumeMask_roster : (s.consumeMask).roster = s.roster := rfl
@[simp] theorem State.consumeMask_pairing : (s.consumeMask).pairing = s.pairing := rfl
@[simp] theorem State.consumeMask_intake : (s.consumeMask).intake = s.intake := rfl
@[simp] theorem State.consumeMask_laneUnit : (s.consumeMask).laneUnit = s.laneUnit := rfl
@[simp] theorem State.consumeMask_mix : (s.consumeMask).mix = s.mix := rfl
@[simp] theorem State.consumeMask_callCtl : (s.consumeMask).callCtl = s.callCtl := rfl
@[simp] theorem State.consumeMask_airPort : (s.consumeMask).airPort = s.airPort := rfl
@[simp] theorem State.consumeMask_voicePort : (s.consumeMask).voicePort = s.voicePort := rfl
@[simp] theorem State.consumeMask_directives :
    (s.consumeMask).directives = { s.directives with mask := none } := rfl
@[simp] theorem State.consumeMask_store : (s.consumeMask).store = s.store := rfl
@[simp] theorem State.consumeMask_pending : (s.consumeMask).pending = s.pending := rfl

/-! ## setPointer -/

@[simp] theorem State.setPointer_roster (r : RegionIx) (i : Nat) : (s.setPointer r i).roster = s.roster := rfl
@[simp] theorem State.setPointer_pairing (r : RegionIx) (i : Nat) : (s.setPointer r i).pairing = s.pairing := rfl
@[simp] theorem State.setPointer_intake (r : RegionIx) (i : Nat) : (s.setPointer r i).intake = s.intake := rfl
@[simp] theorem State.setPointer_laneUnit (r : RegionIx) (i : Nat) : (s.setPointer r i).laneUnit = s.laneUnit := rfl
@[simp] theorem State.setPointer_mix (r : RegionIx) (i : Nat) : (s.setPointer r i).mix = s.mix := rfl
@[simp] theorem State.setPointer_callCtl (r : RegionIx) (i : Nat) : (s.setPointer r i).callCtl = s.callCtl := rfl
@[simp] theorem State.setPointer_airPort (r : RegionIx) (i : Nat) : (s.setPointer r i).airPort = s.airPort := rfl
@[simp] theorem State.setPointer_voicePort (r : RegionIx) (i : Nat) : (s.setPointer r i).voicePort = s.voicePort := rfl
@[simp] theorem State.setPointer_directives (r : RegionIx) (i : Nat) :
    (s.setPointer r i).directives = { s.directives with region := r, index := i } := rfl
@[simp] theorem State.setPointer_store (r : RegionIx) (i : Nat) : (s.setPointer r i).store = s.store := rfl
@[simp] theorem State.setPointer_pending (r : RegionIx) (i : Nat) : (s.setPointer r i).pending = s.pending := rfl

/-! ## setStore -/

@[simp] theorem State.setStore_roster (t : StoreState) : (s.setStore t).roster = s.roster := rfl
@[simp] theorem State.setStore_pairing (t : StoreState) : (s.setStore t).pairing = s.pairing := rfl
@[simp] theorem State.setStore_intake (t : StoreState) : (s.setStore t).intake = s.intake := rfl
@[simp] theorem State.setStore_laneUnit (t : StoreState) : (s.setStore t).laneUnit = s.laneUnit := rfl
@[simp] theorem State.setStore_mix (t : StoreState) : (s.setStore t).mix = s.mix := rfl
@[simp] theorem State.setStore_callCtl (t : StoreState) : (s.setStore t).callCtl = s.callCtl := rfl
@[simp] theorem State.setStore_airPort (t : StoreState) : (s.setStore t).airPort = s.airPort := rfl
@[simp] theorem State.setStore_voicePort (t : StoreState) : (s.setStore t).voicePort = s.voicePort := rfl
@[simp] theorem State.setStore_directives (t : StoreState) : (s.setStore t).directives = s.directives := rfl
@[simp] theorem State.setStore_store (t : StoreState) :
    (s.setStore t).store = { s.store with state := t } := rfl
@[simp] theorem State.setStore_pending (t : StoreState) : (s.setStore t).pending = s.pending := rfl

/-! ## deferRestart -/

@[simp] theorem State.deferRestart_roster : (s.deferRestart).roster = s.roster := rfl
@[simp] theorem State.deferRestart_pairing : (s.deferRestart).pairing = s.pairing := rfl
@[simp] theorem State.deferRestart_intake : (s.deferRestart).intake = s.intake := rfl
@[simp] theorem State.deferRestart_laneUnit : (s.deferRestart).laneUnit = s.laneUnit := rfl
@[simp] theorem State.deferRestart_mix : (s.deferRestart).mix = s.mix := rfl
@[simp] theorem State.deferRestart_callCtl : (s.deferRestart).callCtl = s.callCtl := rfl
@[simp] theorem State.deferRestart_airPort : (s.deferRestart).airPort = s.airPort := rfl
@[simp] theorem State.deferRestart_voicePort : (s.deferRestart).voicePort = s.voicePort := rfl
@[simp] theorem State.deferRestart_directives : (s.deferRestart).directives = s.directives := rfl
@[simp] theorem State.deferRestart_store :
    (s.deferRestart).store = { s.store with restartPending := true } := rfl
@[simp] theorem State.deferRestart_pending : (s.deferRestart).pending = s.pending := rfl

/-! ## sendAir -/

@[simp] theorem State.sendAir_roster (f : AirFrame) : (s.sendAir f).roster = s.roster := rfl
@[simp] theorem State.sendAir_pairing (f : AirFrame) : (s.sendAir f).pairing = s.pairing := rfl
@[simp] theorem State.sendAir_intake (f : AirFrame) : (s.sendAir f).intake = s.intake := rfl
@[simp] theorem State.sendAir_laneUnit (f : AirFrame) : (s.sendAir f).laneUnit = s.laneUnit := rfl
@[simp] theorem State.sendAir_mix (f : AirFrame) : (s.sendAir f).mix = s.mix := rfl
@[simp] theorem State.sendAir_callCtl (f : AirFrame) : (s.sendAir f).callCtl = s.callCtl := rfl
@[simp] theorem State.sendAir_airPort (f : AirFrame) :
    (s.sendAir f).airPort = s.airPort.handOver f := rfl
@[simp] theorem State.sendAir_voicePort (f : AirFrame) : (s.sendAir f).voicePort = s.voicePort := rfl
@[simp] theorem State.sendAir_directives (f : AirFrame) : (s.sendAir f).directives = s.directives := rfl
@[simp] theorem State.sendAir_store (f : AirFrame) : (s.sendAir f).store = s.store := rfl
@[simp] theorem State.sendAir_pending (f : AirFrame) : (s.sendAir f).pending = s.pending := rfl

/-! ## countStray -/

@[simp] theorem State.countStray_roster : (s.countStray).roster = s.roster := rfl
@[simp] theorem State.countStray_pairing : (s.countStray).pairing = s.pairing := rfl
@[simp] theorem State.countStray_intake : (s.countStray).intake = s.intake := rfl
@[simp] theorem State.countStray_laneUnit : (s.countStray).laneUnit = s.laneUnit := rfl
@[simp] theorem State.countStray_mix : (s.countStray).mix = s.mix := rfl
@[simp] theorem State.countStray_callCtl : (s.countStray).callCtl = s.callCtl := rfl
@[simp] theorem State.countStray_airPort :
    (s.countStray).airPort = { s.airPort with stray := satInc Config.counterMax s.airPort.stray } := rfl
@[simp] theorem State.countStray_voicePort : (s.countStray).voicePort = s.voicePort := rfl
@[simp] theorem State.countStray_directives : (s.countStray).directives = s.directives := rfl
@[simp] theorem State.countStray_store : (s.countStray).store = s.store := rfl
@[simp] theorem State.countStray_pending : (s.countStray).pending = s.pending := rfl

/-! ## stopLinks -/

@[simp] theorem State.stopLinks_roster : (s.stopLinks).roster = s.roster := rfl
@[simp] theorem State.stopLinks_pairing : (s.stopLinks).pairing = s.pairing := rfl
@[simp] theorem State.stopLinks_intake : (s.stopLinks).intake = s.intake := rfl
@[simp] theorem State.stopLinks_laneUnit : (s.stopLinks).laneUnit = s.laneUnit := rfl
@[simp] theorem State.stopLinks_mix : (s.stopLinks).mix = s.mix := rfl
@[simp] theorem State.stopLinks_callCtl : (s.stopLinks).callCtl = s.callCtl := rfl
@[simp] theorem State.stopLinks_airPort :
    (s.stopLinks).airPort = { s.airPort with sending := none, cut := false } := rfl
@[simp] theorem State.stopLinks_voicePort :
    (s.stopLinks).voicePort = { s.voicePort with sending := none, cut := false } := rfl
@[simp] theorem State.stopLinks_directives : (s.stopLinks).directives = s.directives := rfl
@[simp] theorem State.stopLinks_store : (s.stopLinks).store = s.store := rfl
@[simp] theorem State.stopLinks_pending : (s.stopLinks).pending = s.pending := rfl

/-! ## cutArrivals -/

@[simp] theorem State.cutArrivals_roster (a : Arriving) : (s.cutArrivals a).roster = s.roster := rfl
@[simp] theorem State.cutArrivals_pairing (a : Arriving) : (s.cutArrivals a).pairing = s.pairing := rfl
@[simp] theorem State.cutArrivals_intake (a : Arriving) : (s.cutArrivals a).intake = s.intake := rfl
@[simp] theorem State.cutArrivals_laneUnit (a : Arriving) : (s.cutArrivals a).laneUnit = s.laneUnit := rfl
@[simp] theorem State.cutArrivals_mix (a : Arriving) : (s.cutArrivals a).mix = s.mix := rfl
@[simp] theorem State.cutArrivals_callCtl (a : Arriving) : (s.cutArrivals a).callCtl = s.callCtl := rfl
@[simp] theorem State.cutArrivals_airPort (a : Arriving) :
    (s.cutArrivals a).airPort = { s.airPort with cut := s.airPort.cut || a.air } := rfl
@[simp] theorem State.cutArrivals_voicePort (a : Arriving) :
    (s.cutArrivals a).voicePort = { s.voicePort with cut := s.voicePort.cut || a.voice } := rfl
@[simp] theorem State.cutArrivals_directives (a : Arriving) : (s.cutArrivals a).directives = s.directives := rfl
@[simp] theorem State.cutArrivals_store (a : Arriving) : (s.cutArrivals a).store = s.store := rfl
@[simp] theorem State.cutArrivals_pending (a : Arriving) : (s.cutArrivals a).pending = s.pending := rfl

/-! ## closePorts -/

@[simp] theorem State.closePorts_roster : (s.closePorts).roster = s.roster := rfl
@[simp] theorem State.closePorts_pairing : (s.closePorts).pairing = s.pairing := rfl
@[simp] theorem State.closePorts_intake : (s.closePorts).intake = s.intake := rfl
@[simp] theorem State.closePorts_laneUnit : (s.closePorts).laneUnit = s.laneUnit := rfl
@[simp] theorem State.closePorts_mix : (s.closePorts).mix = s.mix := rfl
@[simp] theorem State.closePorts_callCtl : (s.closePorts).callCtl = s.callCtl := rfl
@[simp] theorem State.closePorts_airPort :
    (s.closePorts).airPort = { s.airPort with isOpen := false, queue := [] } := rfl
@[simp] theorem State.closePorts_voicePort :
    (s.closePorts).voicePort = { s.voicePort with isOpen := false, slot := none } := rfl
@[simp] theorem State.closePorts_directives : (s.closePorts).directives = s.directives := rfl
@[simp] theorem State.closePorts_store : (s.closePorts).store = s.store := rfl
@[simp] theorem State.closePorts_pending : (s.closePorts).pending = s.pending := rfl

/-! ## withPending -/

@[simp] theorem State.withPending_roster (p : List Instr) : (s.withPending p).roster = s.roster := rfl
@[simp] theorem State.withPending_pairing (p : List Instr) : (s.withPending p).pairing = s.pairing := rfl
@[simp] theorem State.withPending_intake (p : List Instr) : (s.withPending p).intake = s.intake := rfl
@[simp] theorem State.withPending_laneUnit (p : List Instr) : (s.withPending p).laneUnit = s.laneUnit := rfl
@[simp] theorem State.withPending_mix (p : List Instr) : (s.withPending p).mix = s.mix := rfl
@[simp] theorem State.withPending_callCtl (p : List Instr) : (s.withPending p).callCtl = s.callCtl := rfl
@[simp] theorem State.withPending_airPort (p : List Instr) : (s.withPending p).airPort = s.airPort := rfl
@[simp] theorem State.withPending_voicePort (p : List Instr) : (s.withPending p).voicePort = s.voicePort := rfl
@[simp] theorem State.withPending_directives (p : List Instr) : (s.withPending p).directives = s.directives := rfl
@[simp] theorem State.withPending_store (p : List Instr) : (s.withPending p).store = s.store := rfl
@[simp] theorem State.withPending_pending (p : List Instr) :
    (s.withPending p).pending = p := rfl

end Sys2Proof.Machine
end

