-- ==== Sys2Proof/Laws/Ports.lean ====
section
/-! SUPPORT. What the ports' transmit sides and the report queue can do, one lemma for each operation. -/

namespace Sys2Proof.Machine

/-! ## Taking the first of a kind -/

theorem takeFirst_eq_none {α : Type} {p : α → Bool} {l : List α} :
    takeFirst p l = none ↔ ∀ x ∈ l, p x = false := by
  induction l with
  | nil => simp [takeFirst]
  | cons a l ih =>
    by_cases h : p a = true
    · simp [takeFirst, h]
    · simp [takeFirst, h, ih]

/-- What takeFirst takes: the first element that satisfies the test, with the rest in order. -/
theorem takeFirst_eq_some {α : Type} {p : α → Bool} {l rest : List α} {x : α} :
    takeFirst p l = some (x, rest) ↔
      ∃ before after, l = before ++ x :: after ∧ (∀ y ∈ before, p y = false) ∧ p x = true ∧ rest = before ++ after := by
  induction l generalizing rest with
  | nil => simp [takeFirst]
  | cons a l ih =>
    by_cases h : p a = true
    · simp only [takeFirst, h, if_true, Option.some.injEq, Prod.mk.injEq]
      constructor
      · rintro ⟨rfl, rfl⟩; exact ⟨[], l, by simp, by simp, h, rfl⟩
      · rintro ⟨before, after, e, hb, hx, rfl⟩
        cases before with
        | nil => simp at e; simp [e]
        | cons b bs => simp at e; have := hb b (by simp); simp [← e.1, h] at this
    · simp only [takeFirst, h]
      constructor
      · intro e
        simp only [Bool.false_eq_true, if_false, Option.map_eq_some_iff, Prod.mk.injEq, Prod.exists] at e
        obtain ⟨y, r, e, rfl, rfl⟩ := e
        obtain ⟨before, after, rfl, hb, hx, rfl⟩ := ih.1 e
        exact ⟨a :: before, after, by simp, by simpa [h] using hb, hx, rfl⟩
      · rintro ⟨before, after, e, hb, hx, rfl⟩
        cases before with
        | nil => simp at e; exact absurd (e.1 ▸ hx) h
        | cons b bs =>
          simp at e
          obtain ⟨rfl, rfl⟩ := e
          have : takeFirst p (bs ++ x :: after) = some (x, bs ++ after) :=
            ih.2 ⟨bs, after, rfl, fun y hy => hb y (by simp [hy]), hx, rfl⟩
          simp [this]

/-! ## The Air Port -/

/-- A choice leaves the port's line and counters. -/
theorem AirPort.choose_keeps (a : AirPort) :
    a.choose.isOpen = a.isOpen ∧ a.choose.cut = a.cut ∧ a.choose.holdOff = a.holdOff ∧ a.choose.malformed = a.malformed ∧
      a.choose.stray = a.stray ∧ a.choose.drops = a.drops ∧ a.choose.queue.length ≤ a.queue.length := by
  unfold AirPort.choose
  split
  · split
    · rename_i f rest h
      obtain ⟨before, after, e, -, -, rfl⟩ := takeFirst_eq_some.1 h
      simp [e]
    · split <;> simp_all
  · simp

/-- A choice leaves no transmitter idle while a frame waits that it may send (R136). -/
theorem AirPort.choose_busy (a : AirPort) (ho : a.isOpen = true) (hh : a.holdOff = false)
    (h : a.choose.sending = none) : a.choose.queue = [] := by
  unfold AirPort.choose at h ⊢
  by_cases hs : a.sending = none
  · simp only [ho, hh, hs, Option.isNone_none, Bool.and_self, Bool.not_false, if_true] at h ⊢
    split <;> simp_all
    split <;> simp_all
  · have : a.sending.isNone = false := by simpa using Option.isSome_iff_ne_none.2 hs
    simp [this] at h; exact absurd h hs

/-- Entering the queue leaves the port's line, its transmitter and its other counters, and never passes the limit. -/
theorem AirPort.enqueue_keeps (a : AirPort) (f : AirFrame) :
    (a.enqueue f).isOpen = a.isOpen ∧ (a.enqueue f).cut = a.cut ∧ (a.enqueue f).holdOff = a.holdOff ∧
      (a.enqueue f).sending = a.sending ∧
      (a.enqueue f).malformed = a.malformed ∧ (a.enqueue f).stray = a.stray ∧
      (a.drops ≤ 65535 → (a.enqueue f).drops ≤ 65535) ∧ (a.queue.length ≤ 16 → (a.enqueue f).queue.length ≤ 16) := by
  unfold AirPort.enqueue
  split
  · rename_i h
    refine ⟨rfl, rfl, rfl, rfl, rfl, rfl, id, fun _ => ?_⟩
    simp [Config.airQueueLimit] at h ⊢; omega
  · split
    · rename_i h
      obtain ⟨before, after, e, -, -, rfl⟩ := takeFirst_eq_some.1 h
      refine ⟨rfl, rfl, rfl, rfl, rfl, rfl, fun _ => ?_, fun hl => ?_⟩
      · simp only [satInc, Config.counterMax]; omega
      · simp [e] at hl ⊢; omega
    · refine ⟨rfl, rfl, rfl, rfl, rfl, rfl, fun _ => ?_, id⟩
      simp only [satInc, Config.counterMax]; omega

/-- Handing a frame over keeps the port's line and its ceilings. -/
theorem AirPort.handOver_keeps (a : AirPort) (f : AirFrame) :
    (a.handOver f).isOpen = a.isOpen ∧ (a.handOver f).cut = a.cut ∧ (a.handOver f).holdOff = a.holdOff ∧ (a.handOver f).malformed = a.malformed ∧
      (a.handOver f).stray = a.stray ∧ (a.drops ≤ 65535 → (a.handOver f).drops ≤ 65535) ∧
      (a.queue.length ≤ 16 → (a.handOver f).queue.length ≤ 16) := by
  obtain ⟨e1, e2, e3, -, e4, e5, e6, e7⟩ := a.enqueue_keeps f
  obtain ⟨c1, c2, c2', c3, c4, c5, c6⟩ := (a.enqueue f).choose_keeps
  exact ⟨c1.trans e1, c2.trans e2, c2'.trans e3, c3.trans e4, c4.trans e5, fun h => c5.le.trans (e6 h), fun h => c6.trans (e7 h)⟩

/-! ## The Voice Port and the report queue -/

/-- Nothing but what posting a report may change: the report queue with its loss indication and counter, and what the
Voice Port's transmitter holds. -/
structure State.OnlyReports (s t : State) : Prop where
  roster : t.roster = s.roster
  pairing : t.pairing = s.pairing
  intake : t.intake = s.intake
  laneUnit : t.laneUnit = s.laneUnit
  mix : t.mix = s.mix
  callCtl : t.callCtl = s.callCtl
  airPort : t.airPort = s.airPort
  store : t.store = s.store
  pending : t.pending = s.pending
  tables : t.directives.SameTables s.directives
  line : t.voicePort.SameLine s.voicePort

theorem State.OnlyReports.refl (s : State) : s.OnlyReports s :=
  ⟨rfl, rfl, rfl, rfl, rfl, rfl, rfl, rfl, rfl, ⟨rfl, rfl, rfl, rfl, rfl, rfl⟩, ⟨rfl, rfl, rfl, rfl⟩⟩

theorem State.OnlyReports.trans {s t u : State} (h : s.OnlyReports t) (k : t.OnlyReports u) : s.OnlyReports u := by
  obtain ⟨h1, h2, h3, h4, h5, h6, h7, h8, h9, ⟨a1, a2, a3, a4, a5, a6⟩, b1, b2, b3, b4⟩ := h
  obtain ⟨k1, k2, k3, k4, k5, k6, k7, k8, k9, ⟨c1, c2, c3, c4, c5, c6⟩, d1, d2, d3, d4⟩ := k
  exact ⟨k1.trans h1, k2.trans h2, k3.trans h3, k4.trans h4, k5.trans h5, k6.trans h6, k7.trans h7, k8.trans h8,
    k9.trans h9, ⟨c1.trans a1, c2.trans a2, c3.trans a3, c4.trans a4, c5.trans a5, c6.trans a6⟩,
    ⟨d1.trans b1, d2.trans b2, d3.trans b3, d4.trans b4⟩⟩

/-- The arbiter of the Voice Port reaches the slot, the transmitter and the report queue alone. -/
theorem State.chooseVoice_only (s : State) : s.OnlyReports s.chooseVoice := by
  unfold State.chooseVoice
  split
  · split
    · exact ⟨rfl, rfl, rfl, rfl, rfl, rfl, rfl, rfl, rfl, ⟨rfl, rfl, rfl, rfl, rfl, rfl⟩, ⟨rfl, rfl, rfl, rfl⟩⟩
    · split
      · exact .refl s
      · exact ⟨rfl, rfl, rfl, rfl, rfl, rfl, rfl, rfl, rfl, ⟨rfl, rfl, rfl, rfl, rfl, rfl⟩, ⟨rfl, rfl, rfl, rfl⟩⟩
  · exact .refl s

/-- A choice leaves no transmitter idle while a frame or a report waits that it may send (R139). -/
theorem State.chooseVoice_busy (s : State) (ho : s.voicePort.isOpen = true) (hh : s.voicePort.holdOff = false)
    (h : s.chooseVoice.voicePort.sending = none) :
    s.chooseVoice.voicePort.slot = none ∧ s.chooseVoice.directives.reports = [] := by
  unfold State.chooseVoice at h ⊢
  by_cases hs : s.voicePort.sending = none
  · simp only [ho, hh, hs, Option.isNone_none, Bool.and_self, Bool.not_false, if_true] at h ⊢
    split <;> simp_all
    split <;> simp_all
  · have : s.voicePort.sending.isNone = false := by simpa using Option.isSome_iff_ne_none.2 hs
    simp [this] at h; exact absurd h hs

/-- A choice never lengthens the report queue and leaves the reports-lost counter. -/
theorem State.chooseVoice_reports (s : State) :
    s.chooseVoice.directives.reports.length ≤ s.directives.reports.length ∧
      s.chooseVoice.directives.reportsLost = s.directives.reportsLost := by
  unfold State.chooseVoice
  split
  · split
    · simp
    · split <;> simp_all
  · simp

/-- A report entering the queue leaves the tables and keeps the limit and the ceiling (R161, R162). -/
theorem DirectiveUnit.enqueue_keeps (d : DirectiveUnit) (r : Report) :
    (d.enqueue r).SameTables d ∧ (d.reports.length ≤ 8 → (d.enqueue r).reports.length ≤ 8) ∧
      (d.reportsLost ≤ 65535 → (d.enqueue r).reportsLost ≤ 65535) := by
  unfold DirectiveUnit.enqueue
  split
  · rename_i h
    refine ⟨⟨rfl, rfl, rfl, rfl, rfl, rfl⟩, fun _ => ?_, id⟩
    simp [Config.reportQueueLimit] at h ⊢; omega
  · simp only
    split
    · rename_i h
      obtain ⟨before, after, e, -, -, rfl⟩ := takeFirst_eq_some.1 h
      refine ⟨⟨rfl, rfl, rfl, rfl, rfl, rfl⟩, fun hl => ?_, fun _ => ?_⟩
      · simp [e] at hl ⊢; omega
      · simp only [satInc, Config.counterMax]; omega
    · refine ⟨⟨rfl, rfl, rfl, rfl, rfl, rfl⟩, id, fun _ => ?_⟩
      simp only [satInc, Config.counterMax]; omega

/-- Posting a report reaches the report queue and the Voice Port's transmitter alone. -/
theorem State.post_only (s : State) (r : Report) : s.OnlyReports (s.post r) := by
  have h := State.chooseVoice_only { s with directives := s.directives.enqueue r }
  obtain ⟨e, -, -⟩ := s.directives.enqueue_keeps r
  exact State.OnlyReports.trans (t := { s with directives := s.directives.enqueue r })
    ⟨rfl, rfl, rfl, rfl, rfl, rfl, rfl, rfl, rfl, e, ⟨rfl, rfl, rfl, rfl⟩⟩ h

theorem State.postEvent_only (s : State) (e : Event) : s.OnlyReports (s.postEvent e) := s.post_only _

/-- Posting keeps the report queue's limit and its counter's ceiling. -/
theorem State.post_bounded (s : State) (r : Report) (hl : s.directives.reports.length ≤ 8)
    (hc : s.directives.reportsLost ≤ 65535) :
    (s.post r).directives.reports.length ≤ 8 ∧ (s.post r).directives.reportsLost ≤ 65535 := by
  obtain ⟨-, e1, e2⟩ := s.directives.enqueue_keeps r
  obtain ⟨c1, c2⟩ := State.chooseVoice_reports { s with directives := s.directives.enqueue r }
  exact ⟨c1.trans (e1 hl), c2.le.trans (e2 hc)⟩

@[simp] theorem State.post_roster (s : State) (r : Report) : (s.post r).roster = s.roster := (s.post_only r).roster
@[simp] theorem State.post_pairing (s : State) (r : Report) : (s.post r).pairing = s.pairing := (s.post_only r).pairing
@[simp] theorem State.post_intake (s : State) (r : Report) : (s.post r).intake = s.intake := (s.post_only r).intake
@[simp] theorem State.post_laneUnit (s : State) (r : Report) : (s.post r).laneUnit = s.laneUnit := (s.post_only r).laneUnit
@[simp] theorem State.post_mix (s : State) (r : Report) : (s.post r).mix = s.mix := (s.post_only r).mix
@[simp] theorem State.post_callCtl (s : State) (r : Report) : (s.post r).callCtl = s.callCtl := (s.post_only r).callCtl
@[simp] theorem State.post_airPort (s : State) (r : Report) : (s.post r).airPort = s.airPort := (s.post_only r).airPort
@[simp] theorem State.post_store (s : State) (r : Report) : (s.post r).store = s.store := (s.post_only r).store
@[simp] theorem State.post_pending (s : State) (r : Report) : (s.post r).pending = s.pending := (s.post_only r).pending

@[simp] theorem State.chooseVoice_roster (s : State) : s.chooseVoice.roster = s.roster := s.chooseVoice_only.roster
@[simp] theorem State.chooseVoice_pairing (s : State) : s.chooseVoice.pairing = s.pairing := s.chooseVoice_only.pairing
@[simp] theorem State.chooseVoice_intake (s : State) : s.chooseVoice.intake = s.intake := s.chooseVoice_only.intake
@[simp] theorem State.chooseVoice_laneUnit (s : State) : s.chooseVoice.laneUnit = s.laneUnit := s.chooseVoice_only.laneUnit
@[simp] theorem State.chooseVoice_mix (s : State) : s.chooseVoice.mix = s.mix := s.chooseVoice_only.mix
@[simp] theorem State.chooseVoice_callCtl (s : State) : s.chooseVoice.callCtl = s.callCtl := s.chooseVoice_only.callCtl
@[simp] theorem State.chooseVoice_airPort (s : State) : s.chooseVoice.airPort = s.airPort := s.chooseVoice_only.airPort
@[simp] theorem State.chooseVoice_store (s : State) : s.chooseVoice.store = s.store := s.chooseVoice_only.store
@[simp] theorem State.chooseVoice_pending (s : State) : s.chooseVoice.pending = s.pending := s.chooseVoice_only.pending

/-- Placing an uplink frame reaches the Voice Port and the report queue alone (R138, R139). -/
theorem State.placeUplink_only (s : State) (f : UplinkFrame) : s.OnlyReports (s.placeUplink f) :=
  State.OnlyReports.trans
    (t := { s with voicePort := { s.voicePort with slot := some f } })
    ⟨rfl, rfl, rfl, rfl, rfl, rfl, rfl, rfl, rfl, ⟨rfl, rfl, rfl, rfl, rfl, rfl⟩, ⟨rfl, rfl, rfl, rfl⟩⟩
    (State.chooseVoice_only _)

end Sys2Proof.Machine
end

