-- ==== Sys2Proof/Laws/Commands.lean ====
section
/-! SUPPORT. Taking a frame at a port, and taking a directive: what every command of the Voice Link shares. -/

namespace Sys2Proof.Machine

@[simp] theorem State.portOpen_air (s : State) : s.portOpen .air = s.airPort.isOpen := rfl
@[simp] theorem State.portOpen_voice (s : State) : s.portOpen .voice = s.voicePort.isOpen := rfl
@[simp] theorem State.frameCut_air (s : State) : s.frameCut .air = s.airPort.cut := rfl
@[simp] theorem State.frameCut_voice (s : State) : s.frameCut .voice = s.voicePort.cut := rfl

/-- The Air Port takes a frame. -/
theorem State.atPort_air {s : State} (take : State → State) (h : s.AirTakes) : s.atPort .air take = take s := by
  simp [State.atPort, h.1, h.2]

/-- The Voice Port takes a frame. -/
theorem State.atPort_voice {s : State} (take : State → State) (h : s.VoiceTakes) : s.atPort .voice take = take s := by
  simp [State.atPort, h.1, h.2]

/-- A closed port discards the frame (R141). -/
theorem State.atPort_closed {s : State} {link : Link} (take : State → State) (h : s.portOpen link = false) :
    s.atPort link take = s := by simp [State.atPort, h]

/-- An open port discards the frame that began before it closed (R141). -/
theorem State.atPort_cut {s : State} {link : Link} (take : State → State) (h : s.portOpen link = true)
    (hc : s.frameCut link = true) : s.atPort link take = s.endCut link := by simp [State.atPort, h, hc]

/-- A directive of a suitable length, at a port that takes it, is carried out with the mask consumed (R146, R147, R155). -/
theorem State.takeDirective_fits {s : State} {code seq : Byte} {p : List Byte}
    (act : Option Word → State → State × Option Reply) (h : s.VoiceTakes)
    (hp : directiveLength code.toNat p.length = true) :
    s.takeDirective code seq p act = State.conclude code seq (act s.directives.mask s.consumeMask) := by
  rw [State.takeDirective, State.atPort_voice _ h, if_pos hp]

/-- A directive of an unsuitable length is refused (R147). -/
theorem State.takeDirective_unfit {s : State} {code seq : Byte} {p : List Byte}
    (act : Option Word → State → State × Option Reply) (h : s.VoiceTakes)
    (hp : directiveLength code.toNat p.length = false) :
    s.takeDirective code seq p act = s.consumeMask.reply code seq (.refused .format) := by
  rw [State.takeDirective, State.atPort_voice _ h, hp]; rfl

/-- A directive that is always answered posts its reply after its effect (R146). -/
theorem State.conclude_answered (code seq : Byte) (act : State → State × Reply) (m : Option Word) (s : State) :
    State.conclude code seq (answered act m s) = (act s).1.reply code seq (act s).2 := rfl

end Sys2Proof.Machine
end

