-- ==== Sys2Proof/Laws/Lanes.lean ====
section
/-! SUPPORT. What the Lane Unit's operations reach, one lemma for each: the lanes, the wait list, the receive queues and
the reports, and never a counter of a lane. -/

namespace Sys2Proof.Machine

theorem State.OnlyLanesAndReports.refl (s : State) : s.OnlyLanesAndReports s :=
  ⟨rfl, rfl, rfl, rfl, rfl, rfl, rfl, ⟨rfl, rfl, rfl, rfl, rfl, rfl⟩, ⟨rfl, rfl, rfl, rfl⟩, fun _ => ⟨rfl, rfl⟩⟩

theorem State.OnlyLanesAndReports.trans {s t u : State} (h : s.OnlyLanesAndReports t) (k : t.OnlyLanesAndReports u) :
    s.OnlyLanesAndReports u := by
  obtain ⟨h1, h2, h3, h4, h5, h6, h7, ⟨a1, a2, a3, a4, a5, a6⟩, ⟨b1, b2, b3, b4⟩, h8⟩ := h
  obtain ⟨k1, k2, k3, k4, k5, k6, k7, ⟨c1, c2, c3, c4, c5, c6⟩, ⟨d1, d2, d3, d4⟩, k8⟩ := k
  exact ⟨k1.trans h1, k2.trans h2, k3.trans h3, k4.trans h4, k5.trans h5, k6.trans h6, k7.trans h7,
    ⟨c1.trans a1, c2.trans a2, c3.trans a3, c4.trans a4, c5.trans a5, c6.trans a6⟩,
    ⟨d1.trans b1, d2.trans b2, d3.trans b3, d4.trans b4⟩,
    fun j => ⟨(k8 j).1.trans (h8 j).1, (k8 j).2.trans (h8 j).2⟩⟩

theorem State.OnlyReports.lanes {s t : State} (h : s.OnlyReports t) : s.OnlyLanesAndReports t :=
  ⟨h.roster, h.pairing, h.mix, h.callCtl, h.airPort, h.store, h.pending, h.tables, h.line,
    fun k => by rw [h.laneUnit]; exact ⟨rfl, rfl⟩⟩

/-- What the Lane Unit's operations other than an eviction and a re-evaluation reach: neither the recorded speaking buds,
nor the handover, nor the eviction pointer. -/
structure State.OnlyBindings (s t : State) : Prop where
  only : s.OnlyLanesAndReports t
  speaking : t.laneUnit.speaking = s.laneUnit.speaking
  handover : t.laneUnit.handover = s.laneUnit.handover
  evictPtr : t.laneUnit.evictPtr = s.laneUnit.evictPtr

theorem State.OnlyBindings.refl (s : State) : s.OnlyBindings s := ⟨.refl s, rfl, rfl, rfl⟩

theorem State.OnlyBindings.trans {s t u : State} (h : s.OnlyBindings t) (k : t.OnlyBindings u) : s.OnlyBindings u :=
  ⟨h.1.trans k.1, k.2.trans h.2, k.3.trans h.3, k.4.trans h.4⟩

theorem State.OnlyReports.bindings {s t : State} (h : s.OnlyReports t) : s.OnlyBindings t :=
  ⟨h.lanes, by rw [h.laneUnit], by rw [h.laneUnit], by rw [h.laneUnit]⟩

/-- A fold of operations that reach only bindings reaches only bindings. -/
theorem State.OnlyBindings.foldl {α : Type} (f : State → α → State) (h : ∀ (s : State) (a : α), s.OnlyBindings (f s a)) (l : List α)
    (s : State) : s.OnlyBindings (l.foldl f s) := by
  induction l generalizing s with
  | nil => exact .refl s
  | cons a l ih => exact (h s a).trans (ih _)

/-! ## The wait list -/

theorem State.setWait_only (s : State) (w : List WaitEntry) : s.OnlyBindings (s.setWait w) :=
  ⟨⟨rfl, rfl, rfl, rfl, rfl, rfl, rfl, ⟨rfl, rfl, rfl, rfl, rfl, rfl⟩, ⟨rfl, rfl, rfl, rfl⟩, fun _ => ⟨rfl, rfl⟩⟩, rfl, rfl, rfl⟩

theorem State.placeWaiting_only (s : State) (x : ListenerIx) (b : BudIx) : s.OnlyBindings (s.placeWaiting x b) := by
  unfold State.placeWaiting
  simp only
  split
  · exact .refl s
  · exact s.setWait_only _

theorem State.cancelWait_only (s : State) (x : ListenerIx) : s.OnlyBindings (s.cancelWait x) := s.setWait_only _

theorem State.renameWait_only (s : State) (x : ListenerIx) (b : BudIx) : s.OnlyBindings (s.renameWait x b) :=
  s.setWait_only _

theorem State.resortWait_only (s : State) : s.OnlyBindings s.resortWait := s.setWait_only _

theorem State.postDenied_only (s : State) (x : ListenerIx) (cause : DeniedCause) : s.OnlyBindings (s.postDenied x cause) :=
  (s.setWait_only _).trans (State.postEvent_only _ _).bindings

/-! ## Lanes and queues -/

/-- A lane replaced by one with the same two counters. -/
theorem State.setLane_only (s : State) (k : LaneIx) (l : Lane) (h1 : l.slips = s.laneUnit.lanes[k].slips)
    (h2 : l.conceals = s.laneUnit.lanes[k].conceals) : s.OnlyBindings (s.setLane k l) := by
  refine ⟨⟨rfl, rfl, rfl, rfl, rfl, rfl, rfl, ⟨rfl, rfl, rfl, rfl, rfl, rfl⟩, ⟨rfl, rfl, rfl, rfl⟩, fun j => ?_⟩, rfl, rfl, rfl⟩
  by_cases h : k = j
  · subst h; simp [State.setLane, h1, h2]
  · have : k.val ≠ j.val := fun e => h (Fin.ext e)
    simp [State.setLane, this]

theorem State.convertQueue_only (s : State) (b : BudIx) : s.OnlyBindings (s.convertQueue b) :=
  ⟨⟨rfl, rfl, rfl, rfl, rfl, rfl, rfl, ⟨rfl, rfl, rfl, rfl, rfl, rfl⟩, ⟨rfl, rfl, rfl, rfl⟩, fun _ => ⟨rfl, rfl⟩⟩, rfl, rfl, rfl⟩

theorem State.unbindBud_only (s : State) (k : LaneIx) : s.OnlyBindings (s.unbindBud k) := by
  unfold State.unbindBud
  split
  · split
    · exact s.convertQueue_only _
    · exact .refl s
  · exact .refl s

/-- Unbinding a bud touches no lane. -/
theorem State.unbindBud_laneUnit (s : State) (k : LaneIx) : (s.unbindBud k).laneUnit = s.laneUnit := by
  unfold State.unbindBud
  split
  · split <;> rfl
  · rfl

theorem State.bindLane_only (s : State) (k : LaneIx) (b : BudIx) (x : ListenerIx) : s.OnlyBindings (s.bindLane k b x) := by
  unfold State.bindLane
  simp only
  refine State.OnlyBindings.trans ?_ (State.cancelWait_only _ x)
  have hf := Feed.prepare_same
    { s.feed k b with
      lane := { s.laneUnit.lanes[k].cleared with state := .priming, bud := some b, listener := some x } }
  obtain ⟨⟨a1, a2, a3, a4, a5, a6, a7, a8, a9, a10⟩, e1, e2, e3⟩ := s.setLane_only k
    (Feed.prepare { s.feed k b with
      lane := { s.laneUnit.lanes[k].cleared with state := .priming, bud := some b, listener := some x } }).lane
    hf.slips hf.conceals
  exact ⟨⟨a1, a2, a3, a4, a5, a6, a7, a8, a9, a10⟩, e1, e2, e3⟩

theorem State.grantHead_only (s : State) (k : LaneIx) : s.OnlyBindings (s.grantHead k) := by
  unfold State.grantHead
  split
  · split
    · exact .refl s
    · exact s.bindLane_only _ _ _
  · exact .refl s

theorem State.grantOne_only (s : State) : s.OnlyBindings s.grantOne := by
  unfold State.grantOne
  split
  · exact s.grantHead_only _
  · exact .refl s

theorem State.vacateLane_only (s : State) (k : LaneIx) (keep : Bool) : s.OnlyBindings (s.vacateLane k keep) := by
  have h := s.setLane_only k s.laneUnit.lanes[k].cleared rfl rfl
  unfold State.vacateLane
  simp only
  split
  · exact h.trans (State.bindLane_only _ _ _ _)
  · split
    · exact h
    · exact h.trans (State.grantHead_only _ _)

theorem State.releaseLane_only (s : State) (k : LaneIx) (keep : Bool) : s.OnlyBindings (s.releaseLane k keep) := by
  unfold State.releaseLane
  split
  · exact (s.unbindBud_only k).trans (State.vacateLane_only _ _ _)
  · simp only
    split
    · exact (s.unbindBud_only k).trans (State.setLane_only _ _ _ rfl rfl)
    · exact (s.unbindBud_only k).trans (State.vacateLane_only _ _ _)
  · exact .refl s
  · exact .refl s

theorem State.reserve_only (s : State) (k : LaneIx) (x : Option ListenerIx) : s.OnlyBindings (s.reserve k x) :=
  s.setLane_only k _ rfl rfl

theorem State.cancelReservation_only (s : State) (x : ListenerIx) : s.OnlyBindings (s.cancelReservation x) := by
  unfold State.cancelReservation
  refine State.OnlyBindings.foldl _ (fun s k => ?_) _ s
  split
  · exact s.reserve_only k none
  · exact .refl s

theorem State.fallSilent_only (s : State) (x : ListenerIx) : s.OnlyBindings (s.fallSilent x) := by
  have h := (s.cancelWait_only x).trans (State.cancelReservation_only _ x)
  unfold State.fallSilent
  simp only
  split
  · exact h.trans (State.releaseLane_only _ _ _)
  · exact h

/-! ## Requests, evictions and notices -/

/-- What a lane request reaches: all but the recorded speaking buds and the handover. -/
structure State.OnlyRequests (s t : State) : Prop where
  only : s.OnlyLanesAndReports t
  speaking : t.laneUnit.speaking = s.laneUnit.speaking
  handover : t.laneUnit.handover = s.laneUnit.handover

theorem State.OnlyRequests.trans {s t u : State} (h : s.OnlyRequests t) (k : t.OnlyRequests u) : s.OnlyRequests u :=
  ⟨h.1.trans k.1, k.2.trans h.2, k.3.trans h.3⟩

theorem State.OnlyBindings.requests {s t : State} (h : s.OnlyBindings t) : s.OnlyRequests t := ⟨h.1, h.2, h.3⟩

theorem State.placeVictim_only (s : State) (v : Option ListenerIx) : s.OnlyBindings (s.placeVictim v) := by
  unfold State.placeVictim
  split
  · exact .refl s
  · split
    · exact (s.placeWaiting_only _ _).trans (State.postDenied_only _ _ _)
    · exact .refl s

theorem State.evictLane_only (s : State) (k : LaneIx) (x : ListenerIx) (b : BudIx) : s.OnlyRequests (s.evictLane k x b) := by
  unfold State.evictLane
  simp only
  generalize hp : ({ s with laneUnit := { s.laneUnit with evictPtr := k + 1 } } : State) = p
  have h0 : s.OnlyRequests p := by
    subst hp
    exact ⟨⟨rfl, rfl, rfl, rfl, rfl, rfl, rfl, ⟨rfl, rfl, rfl, rfl, rfl, rfl⟩, ⟨rfl, rfl, rfl, rfl⟩, fun _ => ⟨rfl, rfl⟩⟩,
      rfl, rfl⟩
  have h1 := h0.trans ((p.releaseLane_only k true).trans (State.placeVictim_only _ s.laneUnit.lanes[k].listener)).requests
  split
  · exact h1.trans (State.reserve_only _ _ _).requests
  · exact h1.trans (State.bindLane_only _ _ _ _).requests

theorem State.requestLane_only (s : State) (x : ListenerIx) (b : BudIx) : s.OnlyRequests (s.requestLane x b) := by
  unfold State.requestLane
  simp only
  split
  · exact (State.OnlyBindings.refl s).requests
  · split
    · exact (s.bindLane_only _ _ _).requests
    · split
      · exact (s.reserve_only _ _).requests
      · split
        · exact s.evictLane_only _ _ _
        · exact ((s.placeWaiting_only _ _).trans (State.postDenied_only _ _ _)).requests

theorem State.changeSpeaker_only (s : State) (x : ListenerIx) (c : BudIx) : s.OnlyRequests (s.changeSpeaker x c) := by
  unfold State.changeSpeaker
  split
  · have h := fun k => (s.releaseLane_only k true).requests.trans (State.requestLane_only _ x c)
    simp only
    split
    · exact (h _).trans (State.grantHead_only _ _).requests
    · exact h _
  · exact (s.renameWait_only x c).requests

theorem State.actOnSpeaking_only (s : State) (x : ListenerIx) (old new : Option BudIx) :
    s.OnlyRequests (s.actOnSpeaking x old new) := by
  unfold State.actOnSpeaking
  split
  · exact (State.OnlyBindings.refl s).requests
  · exact (s.cancelWait_only x).requests
  · exact (s.placeWaiting_only x _).requests
  · exact (s.renameWait_only x _).requests
  · exact (s.fallSilent_only x).requests
  · exact s.requestLane_only x _
  · exact s.changeSpeaker_only x _

theorem State.recordSpeaking_only (s : State) (x : ListenerIx) (b : Option BudIx) :
    s.OnlyLanesAndReports (s.recordSpeaking x b) :=
  ⟨rfl, rfl, rfl, rfl, rfl, rfl, rfl, ⟨rfl, rfl, rfl, rfl, rfl, rfl⟩, ⟨rfl, rfl, rfl, rfl⟩, fun _ => ⟨rfl, rfl⟩⟩

/-- A notice reaches the lanes, the queues and the reports alone (R61, R62). -/
theorem State.notice_only (s : State) (x : ListenerIx) : s.OnlyLanesAndReports (s.notice x) := by
  unfold State.notice
  simp only
  split
  · exact .refl s
  · exact (s.recordSpeaking_only x _).trans (State.actOnSpeaking_only _ _ _ _).only

/-- A notice records the speaking bud that the Roster gives, and no other listener's (R60). -/
theorem State.notice_speaking (s : State) (x : ListenerIx) :
    (s.notice x).laneUnit.speaking = s.laneUnit.speaking.set x (s.roster.speakingBud x) := by
  unfold State.notice
  simp only
  split
  · rename_i h; rw [← h]; simp
  · exact (State.actOnSpeaking_only _ _ _ _).speaking

theorem State.notice_handover (s : State) (x : ListenerIx) : (s.notice x).laneUnit.handover = s.laneUnit.handover := by
  unfold State.notice
  simp only
  split
  · rfl
  · exact (State.actOnSpeaking_only _ _ _ _).handover

theorem State.noticeFor_only (s : State) (x : Option ListenerIx) : s.OnlyLanesAndReports (s.noticeFor x) := by
  cases x with
  | none => exact .refl s
  | some x => exact s.notice_only x

/-! ## Changes of call state -/

theorem State.emptyLanes_only (s : State) : s.OnlyBindings s.emptyLanes := by
  unfold State.emptyLanes
  refine State.OnlyBindings.foldl _ (fun s k => ?_) _ s
  refine (s.unbindBud_only k).trans (State.setLane_only _ _ _ ?_ ?_) <;>
    simp only [State.unbindBud_laneUnit, Lane.cleared]

theorem State.lanesEnd_only (s : State) : s.OnlyBindings s.lanesEnd := s.emptyLanes_only.trans (State.setWait_only _ _)

theorem State.lanesHold_only (s : State) : s.OnlyBindings s.lanesHold :=
  s.emptyLanes_only.trans (State.OnlyBindings.foldl _ (fun (s : State) (c : ListenerIx × BudIx) => s.placeWaiting_only c.1 c.2) _ _)

theorem State.denyWaiting_only (s : State) : s.OnlyBindings s.denyWaiting := by
  unfold State.denyWaiting
  exact State.OnlyBindings.foldl _ (fun (s : State) (e : WaitEntry) => s.postDenied_only e.listener .noLane) _ s

theorem State.lanesEnter_only (s : State) (fresh : Bool) : s.OnlyBindings (s.lanesEnter fresh) := by
  unfold State.lanesEnter
  simp only
  refine State.OnlyBindings.trans (t := if fresh = true then _ else s) ?_
    (((State.grantOne_only _).trans (State.grantOne_only _)).trans
      ((State.grantOne_only _).trans (State.denyWaiting_only _)))
  split
  · refine State.OnlyBindings.foldl _ (fun s x => ?_) _ s
    split
    · exact s.placeWaiting_only _ _
    · exact .refl s
  · exact .refl s

end Sys2Proof.Machine
end

