-- ==== Sys2Proof/Laws/Roster.lean ====
section
/-! SUPPORT. What the Roster's look-ups answer, and what a freeing, an arrival, a supervision and an emission reach. -/

namespace Sys2Proof.Machine

/-! ## Look-ups -/

/-- Every index of a table of eight is among the numbers searched. -/
theorem mem_buds (b : BudIx) : b ∈ Config.buds := by decide +revert

theorem mem_listeners (x : ListenerIx) : x ∈ Config.listeners := by decide +revert

theorem mem_lanes (k : LaneIx) : k ∈ Config.lanes := by decide +revert

/-- The bud a handle names is not FREE and holds it (R2). -/
theorem Roster.budByHandle_some {r : Roster} {h : Handle} {b : BudIx} (e : r.budByHandle h = some b) :
    r.buds[b].link ≠ .free ∧ r.buds[b].handle = some h := by
  simpa using List.find?_some e

/-- An unknown handle is held by no bud that is not FREE (R2). -/
theorem Roster.budByHandle_none {r : Roster} {h : Handle} (e : r.budByHandle h = none) (b : BudIx)
    (hb : r.buds[b].link ≠ .free) : r.buds[b].handle ≠ some h := by
  have := List.find?_eq_none.1 e b (mem_buds b)
  exact (by simpa using this : ¬r.buds[b].link = .free → ¬r.buds[b].handle = some h) hb

/-- The record R3 chooses is FREE. -/
theorem Roster.freeBud_some {r : Roster} {b : BudIx} (e : r.freeBud = some b) : r.buds[b].link = .free := by
  simpa using List.find?_some e

/-- The listener R13 chooses is not in use. -/
theorem Roster.freeListener_some {r : Roster} {x : ListenerIx} (e : r.freeListener = some x) :
    r.listeners[x].inUse = false := by
  simpa using List.find?_some e

/-- The lane that Intake feeds carries a talker and names the bud (R46). -/
theorem LaneUnit.boundLane_some {u : LaneUnit} {b : BudIx} {k : LaneIx} (e : u.boundLane b = some k) :
    u.lanes[k].carries = true ∧ u.lanes[k].bud = some b := by
  simpa using List.find?_some e

/-- No lane carries an unbound bud (R46). -/
theorem LaneUnit.boundLane_none {u : LaneUnit} {b : BudIx} (e : u.boundLane b = none) (k : LaneIx)
    (h : u.lanes[k].carries = true) : u.lanes[k].bud ≠ some b := by
  have := List.find?_eq_none.1 e k (mem_lanes k)
  exact (by simpa using this : u.lanes[k].carries = true → ¬u.lanes[k].bud = some b) h

/-- The lane a binding may take is VACANT and not reserved (R63). -/
theorem LaneUnit.vacantLane_some {u : LaneUnit} {k : LaneIx} (e : u.vacantLane = some k) :
    u.lanes[k].state = .vacant ∧ u.lanes[k].reservedFor = none := by
  simpa using List.find?_some e

/-! ## Freeing -/

/-- Steps 6 to 8 of R17 reach the listener of the bud, the lanes, the queues and the reports alone. -/
theorem State.finishDeparture_keeps (s : State) (d : Departure) :
    let t := s.finishDeparture d
    t.roster.buds = s.roster.buds ∧ t.roster.defaults = s.roster.defaults ∧ t.pairing = s.pairing ∧ t.mix = s.mix ∧
      t.callCtl = s.callCtl ∧ t.airPort = s.airPort ∧ t.store = s.store ∧ t.pending = s.pending := by
  have key : ∀ u : State, (∀ x, d.listener = some x → u = (s.notice x).emptyIfAlone x) → (d.listener = none → u = s) →
      u.roster.buds = s.roster.buds ∧ u.roster.defaults = s.roster.defaults ∧ u.pairing = s.pairing ∧ u.mix = s.mix ∧
      u.callCtl = s.callCtl ∧ u.airPort = s.airPort ∧ u.store = s.store ∧ u.pending = s.pending := by
    intro u h1 h2
    cases e : d.listener with
    | none => rw [h2 e]; simp
    | some x =>
      rw [h1 x e]
      obtain ⟨e1, e2, e3, e4, e5, e6, e7, -, -, -⟩ := s.notice_only x
      unfold State.emptyIfAlone
      simp only
      split <;> simp [e1, e2, e3, e4, e5, e6, e7]
  simp only [State.finishDeparture, State.postEvent, State.post_roster, State.post_pairing, State.post_mix,
    State.post_callCtl, State.post_airPort, State.post_store, State.post_pending]
  apply key
  · intro x e; simp [e]
  · intro e; simp [e]

/-- A freeing sends no frame on the Air Link and reaches neither the mix, the call nor the store (R17). -/
theorem State.freeBud_keeps (s : State) (b : BudIx) (cause : FreeCause) :
    let t := s.freeBud b cause
    t.mix = s.mix ∧ t.callCtl = s.callCtl ∧ t.airPort = s.airPort ∧ t.store = s.store ∧ t.pending = s.pending := by
  have h := (s.unlinkBud b).finishDeparture_keeps (s.departure b cause)
  have u : (s.unlinkBud b).mix = s.mix ∧ (s.unlinkBud b).callCtl = s.callCtl ∧ (s.unlinkBud b).airPort = s.airPort ∧
      (s.unlinkBud b).store = s.store ∧ (s.unlinkBud b).pending = s.pending := by
    unfold State.unlinkBud State.leaveListener
    simp only
    split <;> split <;> exact ⟨rfl, rfl, rfl, rfl, rfl⟩
  simp only at h ⊢
  obtain ⟨-, -, -, h1, h2, h3, h4, h5⟩ := h
  obtain ⟨u1, u2, u3, u4, u5⟩ := u
  exact ⟨h1.trans u1, h2.trans u2, h3.trans u3, h4.trans u4, h5.trans u5⟩

/-! ## Emission -/

/-- A downlink hand-over reaches the Air Port and the bud records alone (R110, R111). -/
theorem State.sendDownlink_keeps (s : State) (r : Recipient) (f : AirFrame) :
    let t := s.sendDownlink r f
    t.roster.listeners = s.roster.listeners ∧ t.roster.defaults = s.roster.defaults ∧ t.pairing = s.pairing ∧
      t.intake = s.intake ∧ t.laneUnit = s.laneUnit ∧ t.mix = s.mix ∧ t.callCtl = s.callCtl ∧
      t.voicePort = s.voicePort ∧ t.directives = s.directives ∧ t.store = s.store ∧ t.pending = s.pending := by
  unfold State.sendDownlink
  simp only
  split <;> exact ⟨rfl, rfl, rfl, rfl, rfl, rfl, rfl, rfl, rfl, rfl, rfl⟩

/-- The frame handed over is the one given. -/
theorem State.sendDownlink_airPort (s : State) (r : Recipient) (f : AirFrame) :
    (s.sendDownlink r f).airPort = s.airPort.handOver f := by
  unfold State.sendDownlink
  simp only
  split <;> rfl

/-! ## Orders -/

/-- A visit goes to every element once, whatever was preferred. -/
theorem visitOrder_perm {α : Type} [DecidableEq α] (preferred all : List α) : (visitOrder preferred all).Perm all := by
  induction preferred generalizing all with
  | nil => exact List.Perm.refl _
  | cons x xs ih =>
    unfold visitOrder
    split
    · rename_i h
      exact ((ih _).cons x).trans (List.perm_cons_erase h).symm
    · exact ih all

end Sys2Proof.Machine
end

