-- ==== Sys2Proof/Tests/Slice0.lean ====
section
/-! SUPPORT. Tests on small states. Every expected value is the manual's own: a worked example of a spec file, named
in the docstring, or a value a rule states. -/

namespace Sys2Proof.Tests

set_option Elab.async false

open Sys2Proof Sys2Proof.Machine

/-! ## Small states -/

/-- The state a command leaves, none where it stops. -/
def answer (c : Instr) (s : State) : Option State :=
  match exec c s with
  | .next t => some t
  | .fault _ => none
  | .refused _ => none

/-- A constant block. -/
def flat (n : Int) : Block := Vector.replicate 80 (BitVec.ofInt 16 n)

/-- A LIVE, TALKING MONO bud with set tag 0. -/
def talker (h : Handle) (x : ListenerIx) : Bud :=
  { link := .live, handle := some h, addr := BitVec.ofNat 24 (100 + h.val), role := .mono, listener := some x, talk := .talking }

/-- A listener in use whose sole member and primary is a bud. -/
def holder (b : BudIx) (priority : Fin 4) : Listener :=
  { Listener.unused builtInListener 1 with inUse := true, members := [b], primary := some b, priority := priority }

/-- The bridge after reset with other bud and listener records and recorded speaking buds. -/
def withParty (buds : Vector Bud 8) (listeners : Vector Listener 4) (speaking : Vector (Option BudIx) 4) : State :=
  { State.reset with
    roster := { State.reset.roster with buds := buds, listeners := listeners }
    laneUnit := { State.reset.laneUnit with speaking := speaking } }

/-- Buds 1 to 4: LIVE and TALKING, JOINING, OFFERED and PARKED, each with a listener of its own, in NO CALL. -/
def party : State :=
  let s := withParty
    #v[talker 3 0, { talker 4 1 with link := .joining, talk := .silent },
      { link := .offered, handle := some 5, addr := 105, listener := some 2, role := .left, setTag := 7 },
      { talker 6 3 with link := .parked, talk := .silent }, {}, {}, {}, {}]
    #v[holder 0 1, holder 1 1, { holder 2 1 with setTag := 7 }, holder 3 1] #v[some 0, none, none, none]
  { s with
    pairing := { s.pairing with context := some { handle := 5, bud := 2, listener := 2, created := true, countdown := 20 } } }

/-- Four talkers, one for each listener, in NO CALL; listener 4 has a given priority. -/
def crowd (p : Fin 4) : State :=
  withParty #v[talker 3 0, talker 4 1, talker 5 2, talker 6 3, {}, {}, {}, {}]
    #v[holder 0 1, holder 1 1, holder 2 1, holder 3 p] #v[some 0, some 1, some 2, some 3]

/-- A lane that has been promoted, with 160 samples. -/
def mixingLane (b : BudIx) (x : ListenerIx) : Lane :=
  { state := .mixing, bud := some b, listener := some x, expected := some 10, ring := List.replicate 160 8000, filter := 40960 }

/-- A lane just bound to a bud with an empty queue. -/
def primingLane (b : BudIx) (x : ListenerIx) : Lane := { state := .priming, bud := some b, listener := some x }

/-- A lane before its last pull. -/
def drainingLane (x : ListenerIx) : Lane := { mixingLane 0 x with state := .draining, bud := none }

/-- The crowd IN CALL with given lanes and wait list. -/
def inCall (p : Fin 4) (lanes : Vector Lane 3) (wait : List WaitEntry) : State :=
  let s := crowd p
  { s with
    callCtl := { s.callCtl with state := .inCall, timer := some .ms7_5 }
    laneUnit := { s.laneUnit with lanes := lanes, waitList := wait } }

/-- Listeners 1 to 3 hold the lanes, and listener 4 waits. -/
def full : State :=
  inCall 1 #v[mixingLane 0 0, mixingLane 1 1, primingLane 2 2] [{ listener := 3, bud := 3, order := 1, denied := true }]

/-! ## Well-formedness refuses what no partner can give -/

theorem test_wf_payload_too_long : (Instr.write 0 (List.replicate 256 0)).wellFormed = false := by decide +kernel

theorem test_wf_known_code_is_not_unknown : (Instr.directiveUnknown 19 0 []).wellFormed = false := by decide +kernel

theorem test_wf_unknown_code_payload : (Instr.directiveUnknown 20 0 (List.replicate 256 0)).wellFormed = false := by
  decide +kernel

theorem test_wf_sound_frame_is_not_malformed : (Instr.frameMalformed .air [2, 9, 255, 0] 0).wellFormed = false := by
  decide +kernel

theorem test_wf_loose_bits_short_of_a_byte : (Instr.frameMalformed .air [2, 9, 255, 0] 8).wellFormed = false := by
  decide +kernel

theorem test_wf_order_names_an_act_twice :
    (Instr.cadenceTimerExpiry { CadenceOrder.usual with acts := [.mix, .mix] }).wellFormed = false := by decide +kernel

theorem test_wf_order_names_a_bud_twice :
    (Instr.fillTimeout { CadenceOrder.usual with buds := [0, 0] }).wellFormed = false := by decide +kernel

theorem test_wf_order_names_a_lane_twice :
    (Instr.farVoice 0 0 (flat 0) { CadenceOrder.usual with lanes := [1, 1] }).wellFormed = false := by decide +kernel

theorem test_wf_usual_order : (Instr.cadenceTimerExpiry .usual).wellFormed = true := by decide +kernel

/-! ## Frames on the wire (R130, R142, R144) -/

/-- CONFIRM from handle 7: kind 4, no payload. -/
theorem test_receive_confirm : receive .air .usual .none [4, 7, 1, 0] 0 = .confirm 7 1 := by decide +kernel

/-- HANDLE DROPPED: kind 8. -/
theorem test_receive_dropped : receive .air .usual .none [8, 15, 0, 0] 0 = .handleDropped 15 0 := by decide +kernel

/-- A directive with code 18, STATUS. -/
theorem test_receive_status : receive .voice .usual .none [34, 18, 9, 0] 0 = .status 9 [] := by decide +kernel

/-- A sample's low byte comes first (R130). -/
theorem test_receive_audio_sample :
    (match receive .air .usual .none ([1, 2, 3, 160] ++ [0x34, 0x12] ++ List.replicate 158 0) 0 with
      | .audio h q b => (h, q, b[0], b[1])
      | _ => (0, 0, 0, 0)) = (2, 3, 0x1234, 0) := by decide +kernel

/-- LANE DENIED for listener 1, bud 1, priority 1, PREEMPTED (R144). -/
theorem test_bytes_lane_denied :
    (Report.event (.laneDenied 0 (some 0) 1 .preempted)).bytes false = [50, 22, 0, 5, 0, 1, 1, 1, 2] := by decide +kernel

/-- No row of the opcode table gives bits. -/
theorem test_no_table_word : decodeTableWord 8 0 = none := rfl

/-! ## Reset and the queue -/

/-- An empty queue idles (log entry 5). -/
theorem test_step_idle : step State.reset = .next State.reset := rfl

/-- POWER UP from a bridge without power and a blank store is the reset state (R174). -/
theorem test_power_up_is_reset :
    ((answer .powerRemoval State.reset).bind (answer .powerUp)) = some State.reset := by decide +kernel

theorem test_power_removal_closes : (answer .powerRemoval full).map (fun t => (t.airPort.isOpen, t.callCtl.timer)) =
    some (false, none) := by decide +kernel

/-! ## Pairing (sections 2.2 and 11.1) -/

/-- Section 2.2: base 10,747,904 with compare length 8 matches 10,760,000, and with 12 it does not. -/
theorem test_window_match :
    (Window.matches { enable := true, base := 10747904, compareLength := 8 } 10760000,
      Window.matches { enable := true, base := 10747904, compareLength := 12 } 10760000) = (true, false) := by decide +kernel

/-- The bridge of section 11.1: window 2 admits P, and bond entry 1 holds R. -/
def evening : State :=
  { State.reset with
    pairing :=
      { State.reset.pairing with
        admissionOpen := true
        windows := State.reset.pairing.windows.set 1 { enable := true, base := 3145728, compareLength := 8 }
        bonds := State.reset.pairing.bonds.set 0
          { inUse := true, addr := 5000000, setTag := 900, role := .mono, priority := 2 } } }

/-- Section 11.1, JOIN h2 (P): OFFER (1, 1), and listener 1 opened with tag 77, member 1 and primary 1. -/
theorem test_join_opens_listener :
    (answer (.join 2 0 3150000 77 0) evening).map (fun t =>
      (t.airPort.sending, t.roster.listeners[0].setTag, t.roster.listeners[0].members)) =
    some (some (.offer 2 0 0 (some 0)), 77, [0]) := by decide +kernel

/-- Section 11.1, JOIN h5 (R): bonded, in a new listener whose priority the bond raises to 2. -/
theorem test_join_bonded :
    (answer (.join 5 0 5000000 900 2) evening).map (fun t =>
      (t.roster.buds[0].bonded, t.roster.listeners[0].priority, t.roster.buds[0].role)) = some (true, 2, .mono) := by
  decide +kernel

/-- R35: the handle of the open handshake joins. -/
theorem test_confirm_joins :
    (answer (.confirm 5 0) party).map (fun t => (t.roster.buds[2].link, t.pairing.context, t.directives.reports)) =
    some (.joining, none, [.event (.joined 2 2 105 false true)]) := by decide +kernel

/-- R35: any other handle is refused with NO OFFER. -/
theorem test_confirm_no_offer :
    (answer (.confirm 6 9) party).map (fun t => t.airPort.sending) = some (some (.refuse 6 9 .noOffer)) := by decide +kernel

/-- R36: the countdown that reaches 0 frees the OFFERED bud. -/
theorem test_confirm_timeout :
    (answer .confirmTimeout
      { party with pairing := { party.pairing with context := some ⟨5, 2, 2, true, 1⟩ } }).map (fun t =>
        (t.roster.buds[2], t.roster.listeners[2].inUse, t.pairing.context)) = some ({}, false, none) := by decide +kernel

/-- R38: a LEAVE frees the bud, and its listener is left unused. -/
theorem test_leave : (answer (.leave 3 0) party).map (fun t => (t.roster.buds[0], t.roster.listeners[0].inUse)) =
    some ({}, false) := by decide +kernel

/-- R40: HANDLE DROPPED from an unknown handle counts nothing. -/
theorem test_dropped_unknown : (answer (.handleDropped 0 0) party).map (fun t => t.airPort.stray) = some 0 := by decide +kernel

/-- R39: PARK makes a LIVE bud PARKED and SILENT, and its listener has no speaking bud. -/
theorem test_park : (answer (.park 3 0) party).map (fun t =>
    (t.roster.buds[0].link, t.roster.buds[0].talk, t.laneUnit.speaking[0])) = some (.parked, .silent, none) := by decide +kernel

/-- R21: a volume above 63 clamps; a mute takes the listener's speaking bud away. -/
theorem test_adjust :
    (answer (.adjust 3 1 ⟨⟨1, 200⟩, ⟨0, 5⟩, ⟨1, 1⟩, ⟨1, 9⟩, ⟨1, 3⟩⟩) party).map (fun t =>
      (t.roster.listeners[0].sidetone, t.laneUnit.speaking[0], t.airPort.sending)) =
    some (20, none, some (.adjustReply 3 1 (some 0) (some 63) none (some true))) := by decide +kernel

/-- Section 11.7: BOND 1 uses entry 2 while entry 1 holds another address. -/
theorem test_bond :
    (answer (.bond 0 [1]) { party with pairing := evening.pairing }).map (fun t =>
      (t.pairing.bonds[1], t.roster.buds[0].bonded)) =
    some ({ inUse := true, addr := 103, setTag := 0, role := .mono, priority := 1 }, true) := by decide +kernel

/-- R41: DISMISS before the freeing, EVICTED before the reply. -/
theorem test_evict :
    (answer (.evict 4 [1]) party).map (fun t => (t.airPort.sending, t.directives.reports, t.roster.buds[0].link)) =
    some (some (.dismiss 3 0), [.event (.departed ⟨0, some 0, 103, false, .evict⟩), .reply 12 4 .done], .free) := by
  decide +kernel

theorem test_open_admission : (answer (.openAdmission 0 []) State.reset).map (fun t => t.pairing.admissionOpen) = some true := by
  decide +kernel

theorem test_close_admission : (answer (.closeAdmission 0 []) evening).map (fun t => t.pairing.admissionOpen) = some false := by
  decide +kernel

/-! ## Arrivals and supervision -/

/-- R5: with join threshold 4, the fourth good period makes a bud LIVE; an AUDIO block makes it TALKING, and it speaks. -/
theorem test_audio_qualifies :
    (answer (.audio 4 0 (flat 1))
      { party with roster := { party.roster with buds := party.roster.buds.set 1 { party.roster.buds[1] with goodRun := 3 } } }).map
      (fun t => (t.roster.buds[1].link, t.roster.buds[1].talk, t.laneUnit.speaking[1], t.intake.queues[1].length)) =
    some (.live, .talking, some 1, 1) := by decide +kernel

/-- R9: the silence-run that reaches the hangover 40 makes the bud SILENT. -/
theorem test_silence_hangover :
    (answer (.silence 3 0)
      { party with roster := { party.roster with buds := party.roster.buds.set 0 { talker 3 0 with silenceRun := 39 } } }).map
      (fun t => (t.roster.buds[0].talk, t.laneUnit.speaking[0])) = some (.silent, none) := by decide +kernel

/-- R31: an unknown handle is stray. -/
theorem test_audio_stray : (answer (.audio 0 0 (flat 1)) party).map (fun t => t.airPort.stray) = some 1 := by decide +kernel

/-- R6: the miss-run that reaches the lost threshold 200 frees the bud. -/
theorem test_no_arrivals :
    (answer (.noArrivals 0)
      { party with roster := { party.roster with buds := party.roster.buds.set 0 { talker 3 0 with missRun := 199 } } }).map
      (fun t => (t.roster.buds[0].link, t.roster.listeners[0].inUse)) = some (.free, false) := by decide +kernel

/-- R6: an idle cadence without an arrival takes a LIVE bud with miss-run 1 to FADING, and the countdown falls (R36). -/
theorem test_cadence_supervises :
    (answer (.cadenceTimerExpiry .usual)
      { party with roster := { party.roster with buds := party.roster.buds.set 0 { talker 3 0 with missRun := 1 } } }).map
      (fun t => (t.roster.buds[0].link, t.roster.buds[0].missRun, t.pairing.context.map (·.countdown))) =
    some (.fading, 2, some 19) := by decide +kernel

/-! ## Lanes (sections 4.3 and 11.2 to 11.6) -/

/-- Section 11.2: BEGIN CALL binds lane 1 to bud 1 from AUDIO 120 and 121: ring 160, expected 122. -/
theorem test_begin_call_primes :
    (answer (.beginCall 2 [])
      { party with
        intake :=
          { party.intake with queues := party.intake.queues.set 0 [⟨120, .audio (flat 1)⟩, ⟨121, .audio (flat 2)⟩] } }).map
      (fun t => (t.laneUnit.lanes[0].ring.length, t.laneUnit.lanes[0].expected, t.directives.reports)) =
    some (160, some 122, [.event (.callState .inCall .noCall .beginCall), .reply 5 2 .done]) := by
  decide +kernel

/-- Section 11.2, voice cadence 1: a PRIMING lane with 240 samples is promoted with F 61,440, pulls, and is left with ring
160, F 60,160 and S 65,600. -/
theorem test_promotion :
    (answer (.promotion 0)
      (inCall 1 #v[{ primingLane 0 0 with ring := List.replicate 240 1, expected := some 123 }, {}, {}] [])).map
      (fun t => (t.laneUnit.lanes[0].state, t.laneUnit.lanes[0].ring.length, t.laneUnit.lanes[0].filter,
        t.laneUnit.lanes[0].step, t.laneUnit.lanes[0].rampIn)) = some (.mixing, 160, 60160, 65600, false) := by
  decide +kernel

/-- Section 4.3, choosing a victim: listener 4, of priority 0, holds lane 2, to which the pointer points. -/
def contest (p : Fin 4) : State :=
  let s := inCall p #v[mixingLane 0 0, mixingLane 3 3, mixingLane 1 1] []
  { s with laneUnit := { s.laneUnit with evictPtr := 1, speaking := #v[some 0, some 1, none, some 3] } }

theorem test_victim_is_lane_2 :
    let t := (contest 0).requestLane 2 2
    (t.laneUnit.lanes[1].state, t.laneUnit.lanes[1].reservedFor, t.laneUnit.evictPtr, t.laneUnit.waitList,
        t.directives.reports) =
      (.draining, some 2, 2, [⟨3, 3, 1, true⟩], [.event (.laneDenied 3 (some 3) 0 .preempted)]) := by decide +kernel

/-- The same with priority 1: no candidate, listener 3 waits, and the pointer stays. -/
theorem test_no_victim :
    let t := { contest 1 with laneUnit := { (contest 1).laneUnit with speaking := #v[some 0, some 1, some 2, some 3] } }.requestLane
      2 2
    (t.laneUnit.evictPtr, t.laneUnit.waitList, t.directives.reports) =
      (1, [⟨2, 2, 1, true⟩], [.event (.laneDenied 2 (some 2) 1 .noLane)]) := by decide +kernel

/-- R65: a reserved lane's drain ends in a binding for the reserving listener. -/
theorem test_reservation_complete :
    (answer (.reservationComplete 0)
      (inCall 1 #v[{ drainingLane 0 with reservedFor := some 3 }, mixingLane 1 1, mixingLane 2 2] [])).map
      (fun t => (t.laneUnit.lanes[0].state, t.laneUnit.lanes[0].listener, t.laneUnit.lanes[0].bud)) =
    some (.priming, some 3, some 3) := by decide +kernel

/-- R68: a lane that drains without a reservation goes to the wait-list head. -/
theorem test_wait_list_grant :
    (answer (.waitListGrant 0)
      (inCall 1 #v[drainingLane 0, mixingLane 1 1, mixingLane 2 2] [⟨3, 3, 1, true⟩])).map
      (fun t => (t.laneUnit.lanes[0].listener, t.laneUnit.waitList)) = some (some 3, []) := by decide +kernel

/-- R94: a drain with nobody waiting leaves the lane VACANT, its last output in its listener's column. -/
theorem test_drain_last_pull :
    (answer (.drainLastPull 0) (inCall 1 #v[drainingLane 0, {}, {}] [])).map
      (fun t => (t.laneUnit.lanes[0].state, t.laneUnit.handover.contributions.map (·.listener))) = some (.vacant, [0]) := by
  decide +kernel

/-- Section 11.6: a hold empties the lanes and places their listeners in lane order. -/
theorem test_hold_empties :
    (answer (.hold 0 []) (inCall 1 #v[mixingLane 1 1, mixingLane 0 0, mixingLane 3 3] [⟨2, 2, 1, true⟩])).map
      (fun t => (t.laneUnit.lanes.toList.map (·.state), t.laneUnit.waitList.map fun e => (e.listener.val, e.order), t.callCtl.state)) =
    some ([.vacant, .vacant, .vacant], [(2, 1), (1, 2), (0, 3), (3, 4)], .holding .directed) := by decide +kernel

/-- Section 11.6: RESUME grants lanes 1, 2 and 3 in list order, and the listener left is renumbered and reported. -/
theorem test_resume_grants :
    (answer (.resume 0 [])
      { crowd 1 with
        callCtl := { (crowd 1).callCtl with state := .holding .directed }
        laneUnit := { (crowd 1).laneUnit with
          waitList := [⟨1, 1, 1, true⟩, ⟨0, 0, 2, false⟩, ⟨3, 3, 3, false⟩, ⟨2, 2, 4, false⟩] } }).map
      (fun t => (t.laneUnit.lanes.toList.map (·.listener), t.laneUnit.waitList, t.directives.reports)) =
    some ([some 1, some 0, some 3], [⟨2, 2, 1, true⟩],
      [.event (.callState .inCall (.holding .directed) .resume), .event (.laneDenied 2 (some 2) 1 .noLane),
        .reply 8 0 .done]) := by decide +kernel

/-- R123: END CALL empties the lanes and the wait list. -/
theorem test_end_call :
    (answer (.endCall 0 []) full).map (fun t => (t.callCtl.state, t.laneUnit.waitList, t.laneUnit.lanes[0].state)) =
    some (.noCall, [], .vacant) := by decide +kernel

/-! ## Alignment (sections 5.2, 5.4 and 11.5) -/

/-- The need is 81 at P 20,000 and S 65,536 (section 5.4), and at P 0 and S 65,600 (section 11.2). -/
theorem test_need : (need 20000 65536, need 0 65600) = (81, 81) := by decide +kernel

/-- R88's table of weights. -/
theorem test_weights :
    ([0, 19, 39, 59, 79].map rampInWeight, [0, 19, 39, 59, 79].map fadeOutWeight) =
      ([409, 8192, 16384, 24576, 32768], [32358, 24576, 16384, 8192, 0]) := by decide +kernel

/-- Section 5.4: 6,001 and −6,001 concealed at a half, a quarter and nothing. -/
theorem test_concealment :
    [0, 1, 2].map (fun n => (scale 6001 (concealGain n), scale (-6001) (concealGain n))) =
      [(3001, -3000), (1500, -1500), (0, 0)] := by decide +kernel

/-- Section 5.4, pull 1: ring 30, expected 91, conceal count 1, P 20,000, F 38,880 and S 65,503. -/
theorem test_pull_conceals :
    (let l : Lane := { mixingLane 0 0 with ring := List.replicate 30 1, expected := some 90, position := 20000 }
     let r := ((Feed.mk l [] {}).pullMixing 160).1.lane
     (r.ring.length, r.expected, r.concealCount, r.conceals, r.position, r.filter, r.step)) =
      (30, some 91, 1, 1, 20000, 38880, 65503) := by decide +kernel

/-- Section 11.5, pull 2 and the move of AUDIO 201: ring 110, expected 202, conceal count 0, P 28,880, F 38,772, S 65,501. -/
theorem test_pull_then_move :
    (let l : Lane := { mixingLane 0 0 with ring := List.replicate 30 1, expected := some 200, position := 30800, step := 65512,
                                           filter := 39480 }
     let f := (Feed.mk l [⟨201, .audio (flat 5)⟩] {}).pullMixing 160
     let r := f.1.lane
     (f.1.queue, r.ring.length, r.expected, r.concealCount, r.position, r.filter, r.step)) =
      ([], 110, some 202, 0, 28880, 38772, 65501) := by decide +kernel

/-- Section 11.5: AUDIO 200 against expected 202 is late. -/
theorem test_late_block :
    ((Feed.mk (mixingLane 0 0) [] {}).arrive ⟨9, .silence⟩).discards = { late := 1 } := by decide +kernel

/-- R51: MOVE INTO RING takes a due head when the ring has room. -/
theorem test_move_into_ring :
    (answer (.moveIntoRing 0)
      { full with intake := { full.intake with queues := full.intake.queues.set 0 [⟨10, .silence⟩] } }).map
      (fun t => (t.laneUnit.lanes[0].ring.length, t.laneUnit.lanes[0].expected, t.intake.queues[0])) =
    some (240, some 11, []) := by decide +kernel

/-! ## The mix (sections 6.3 and 6.6) -/

/-- R102: indices 63, 60, 55, 20, 1 and 0. -/
theorem test_default_curve :
    [63, 60, 55, 20, 1, 0].map (fun i => (defaultGain i).val) = [32768, 26624, 16384, 832, 160, 0] := by decide +kernel

/-- Section 6.6: 4,596 for the uplink and 11,453, 15,962, 12,391 and 15,250 for the downlinks. -/
theorem test_mixing_cadence :
    (let s : State :=
       { State.reset with
         roster :=
           { State.reset.roster with
             listeners := #v[holder 0 1, { holder 1 1 with micGain := 55 }, { holder 2 1 with volume := 60 },
               Listener.unused builtInListener 1] } }
     let h : Handover := { contributions := [⟨0, List.replicate 80 8000⟩, ⟨1, List.replicate 80 (-3000)⟩], mixing := 2 }
     (s.rows (List.replicate 80 12000) h).map fun row => row.getD 0 0) =
      [4596, 11453, 15962, 12391, 15250] := by decide +kernel

/-- R108: a value of 40,000 is output as 32,767 and counts as clipped. -/
theorem test_saturate : ((saturate 40000).toInt, isClipped 40000, isClipped 32767) = (32767, true, false) := by decide +kernel

/-- R101: a pending SWAP makes the staging bank active. -/
theorem test_swap_taken :
    (answer .swapTaken
      { State.reset with mix := { State.reset.mix with swapPending := true, staging := Vector.replicate 25 7 } }).map
      (fun t => (t.mix.active[1], t.mix.swapPending)) = some (7, false) := by decide +kernel

theorem test_swap : (answer (.swap 0 []) State.reset).map (fun t => t.mix.swapPending) = some true := by decide +kernel

/-! ## Cadences (chapter 7) -/

/-- R118: a voice cadence in a call mixes, advances the uplink sequence and arms the timer for 7.5 ms. -/
theorem test_far_voice :
    (answer (.farVoice 0 0 (flat 100) .usual) full).map (fun t => (t.mix.uplinkSeq, t.callCtl.timer, t.callCtl.fills,
      t.voicePort.slot.isSome)) = some (1, some .ms7_5, 0, true) := by decide +kernel

/-- R127: in NO CALL the frame is discarded and counted. -/
theorem test_far_voice_no_call :
    (answer (.farVoice 0 0 (flat 100) .usual) State.reset).map (fun t => t.callCtl.discardedVoice) = some 1 := by decide +kernel

/-- Section 11.6: the fortieth fill holds the call. -/
theorem test_fill_timeout :
    (answer (.fillTimeout .usual) { full with callCtl := { full.callCtl with fills := 39 } }).map (fun t =>
      (t.callCtl.state, t.callCtl.fills, t.laneUnit.lanes[0].state)) = some (.holding .auto, 0, .vacant) := by decide +kernel

/-- A cadence with a call-control directive before the Lane Unit and the Mix Engine take it. -/
def withCall (d : CallDirective) : CadenceOrder := { CadenceOrder.usual with acts := [.call d 9, .lanes, .mix] }

/-- The call state after a cadence, the uplink sequence and what the Air Port sends. -/
def heard (c : Instr) (s : State) : Option (CallState × Byte × Option AirFrame) :=
  (answer c s).map fun t => (t.callCtl.state, t.mix.uplinkSeq, t.airPort.sending)

/-- The rows of R104 that a call-control directive brings about inside a cadence: a voice cadence taken after an END CALL
emits nothing, and one taken after a HOLD, DOWNLINK SILENCE; an idle one taken after a BEGIN CALL emits nothing. -/
theorem test_directive_inside_a_cadence :
    heard (.farVoice 0 0 (flat 100) (withCall .endCall)) full = some (.noCall, 0, none) ∧
      heard (.farVoice 0 0 (flat 100) (withCall .hold)) full = some (.holding .directed, 0, some (.downlinkSilence 3 0)) ∧
      heard (.cadenceTimerExpiry (withCall .beginCall)) (crowd 1) = some (.inCall, 0, none) := by decide +kernel

/-- R104, the main case: at the fill that holds the call, a hold taken before the mix leaves no uplink frame and sends
DOWNLINK SILENCE. -/
theorem test_hold_before_mix :
    (answer (.fillTimeout { CadenceOrder.usual with acts := [.hold, .mix] })
      { full with callCtl := { full.callCtl with fills := 39 } }).map (fun t =>
        (t.callCtl.state, t.mix.uplinkSeq, t.voicePort.slot, t.airPort.sending)) =
      some (.holding .auto, 0, none, some (.downlinkSilence 3 0)) := by decide +kernel

/-! ## Ports and reports (section 9.8) -/

/-- Section 9.8: E5 displaces E1 from a full queue, and the indication is set. -/
theorem test_report_overflow :
    (let e (p : PageIx) : Report := .event (.storeDone p .store)
     let d (q : Byte) : Report := .reply 1 q .done
     let u : DirectiveUnit := { State.reset.directives with reports := [e 1, d 1, e 2, d 2, d 3, e 3, e 4, d 4] }
     ((u.enqueue (e 5)).reports, (u.enqueue (e 5)).reportsLost, (u.enqueue (e 5)).lossIndication)) =
      ([.reply 1 1 .done, .event (.storeDone 2 .store), .reply 1 2 .done, .reply 1 3 .done, .event (.storeDone 3 .store),
        .event (.storeDone 4 .store), .reply 1 4 .done, .event (.storeDone 5 .store)], 1, true) := by decide +kernel

/-- Section 9.8: D1 leaves with the events-lost mark, and the indication clears. -/
theorem test_voice_frame_sent_takes_mark :
    (answer .voiceFrameSent
      { State.reset with directives :=
          { State.reset.directives with reports := [.reply 1 1 .done, .reply 1 2 .done], lossIndication := true } }).map
      (fun t => (t.voicePort.sending, t.directives.lossIndication)) =
    some (some (.report (.reply 1 1 .done) true), false) := by decide +kernel

/-- R136: an answer frame goes before an older downlink frame. -/
theorem test_air_frame_sent :
    (answer .airFrameSent
      { State.reset with airPort := { State.reset.airPort with queue := [.downlinkSilence 1 0, .defer 2 0 10] } }).map
      (fun t => (t.airPort.sending, t.airPort.queue)) = some (some (.defer 2 0 10), [.downlinkSilence 1 0]) := by decide +kernel

theorem test_hold_off_asserted : (answer (.holdOffAsserted .air) State.reset).map (fun t => t.airPort.holdOff) = some true := by
  decide +kernel

/-- R139: with the hold-off released, the idle transmitter takes the report. -/
theorem test_hold_off_released :
    (answer (.holdOffReleased .voice)
      { State.reset with
        voicePort := { State.reset.voicePort with holdOff := true, sending := none }
        directives := { State.reset.directives with reports := [.reply 1 1 .done] } }).map
      (fun t => (t.voicePort.sending, t.directives.reports)) = some (some (.report (.reply 1 1 .done) false), []) := by
  decide +kernel

theorem test_frame_malformed : (answer (.frameMalformed .air [] 0) State.reset).map (fun t => t.airPort.malformed) = some 1 := by
  decide +kernel

/-- R141: an AUDIO frame that was arriving as a RESTART was taken is discarded uncounted at its end; the next one, from a
handle that the restart has forgotten, is stray. -/
theorem test_frame_cut_by_restart :
    (let after := (answer (.restart 1 [] { air := true, voice := false }) party).bind (answer (.audio 3 0 (flat 1)))
     (after.map fun t => (t.airPort.stray, t.airPort.cut), (after.bind (answer (.audio 3 1 (flat 1)))).map fun t =>
       (t.airPort.stray, t.airPort.cut))) = (some (0, false), some (1, false)) := by decide +kernel

theorem test_frame_begun_while_closed : answer (.frameBegunWhileClosed .voice) full = some full := by decide +kernel

/-! ## Directives (chapter 9) -/

/-- Code 20 is answered UNKNOWN. -/
theorem test_directive_unknown :
    (answer (.directiveUnknown 20 7 [1]) State.reset).map (fun t => t.directives.reports) = some [.reply 20 7 (.refused .unknown)] := by
  decide +kernel

/-- R150: region 14 has 8 words. -/
theorem test_point :
    (answer (.point 0 [14, 7]) State.reset).map (fun t => (t.directives.region, t.directives.index)) = some (14, 7) := by
  decide +kernel

/-- R149: the identity words. -/
theorem test_read_identity :
    (answer (.read 1 [8]) State.reset).map (fun t => (t.directives.reports, t.directives.index)) =
    some ([.reply 2 1 (.data 0 0 [46, 1, 1, 8, 4, 3, 21, 80])], 8) := by decide +kernel

/-- Section 9.5: MASK 255 and WRITE 7,680 over volume 40 and sidetone 20 store 7,720, volume 40 and sidetone 30. -/
theorem test_masked_write :
    (answer (.write 0 [0, 30])
      { party with
        roster := { party.roster with listeners := party.roster.listeners.set 1 { holder 1 1 with volume := 40 } }
        directives := { party.directives with region := 2, index := 13, mask := some 255 } }).map
      (fun t => (t.readWord 2 13, t.directives.index, t.directives.mask)) = some (7720, 14, none) := by decide +kernel

theorem test_mask : (answer (.mask 0 [255, 0]) State.reset).map (fun t => t.directives.mask) = some (some 255) := by decide +kernel

theorem test_clear_counters :
    (answer (.clearCounters 0 []) { State.reset with airPort := { State.reset.airPort with stray := 5 } }).map
      (fun t => t.airPort.stray) = some 0 := by decide +kernel

/-- R144: STATUS has 24 words; the first is the call state, and word 9 names the eviction pointer's lane. -/
theorem test_status :
    (full.statusWords.length, full.statusWords.getD 0 9, full.statusWords.getD 9 0, full.statusWords.getD 14 0) =
      (24, 1, 1, 1) := by decide +kernel

/-! ## The store (chapter 10) -/

/-- Section 11.7: ERASE PAGE 3 is accepted, and its completion leaves the page blank and posts STORE DONE (3, ERASE). -/
theorem test_erase_then_complete :
    ((answer (.erasePage 1 [3])
      { State.reset with store := { State.reset.store with pages := State.reset.store.pages.set 3 (some (Vector.replicate 16 0)) } }).bind
      (answer .operationCompletion)).map (fun t => (t.store.pages[3], t.store.state, t.directives.reports)) =
    some (none, .idle, [.reply 15 1 .done, .event (.storeDone 3 .erase)]) := by decide +kernel

/-- R169: STORE PAGE captures the staging page. -/
theorem test_store_page :
    (answer (.storePage 1 [20]) State.reset).map (fun t => t.store.state) = some (.programming 20 (Vector.replicate 16 255)) := by
  decide +kernel

/-- R172: a blank page loads as 16 bytes of 255. -/
theorem test_load_page :
    (answer (.loadPage 1 [20])
      { State.reset with store := { State.reset.store with staging := Vector.replicate 16 0 } }).map (fun t => t.store.staging[15]) =
    some 255 := by decide +kernel

/-- R173: with the controller IDLE a RESTART is taken at once, and the party is gone. -/
theorem test_restart : (answer (.restart 1 []) party).map (fun t => (t.roster.buds[0].link, t.directives.reports)) =
    some (.free, [.event (.ready .restart)]) := by decide +kernel

/-- R173: a deferred RESTART is taken at the completion. -/
theorem test_deferred_restart_taken :
    (answer .deferredRestartTaken
      { party with store := { party.store with state := .erasing 3, restartPending := true } }).map
      (fun t => (t.store.state, t.store.restartPending, t.roster.buds[0].link)) = some (.idle, false, .free) := by
  decide +kernel

end Sys2Proof.Tests
end

