-- ==== Sys2Proof/Tests/Witnesses.lean ====
section
/-! SUPPORT. For each statement of Certificates/Slice0/Obligations.lean that has hypotheses, a concrete state and
operands that meet them, clause by clause and at the boundaries of their ranges. -/

namespace Sys2Proof.Tests

open Sys2Proof Sys2Proof.Machine

set_option Elab.async false

/-! ## Sound states -/

theorem party_sound : party.PartySound :=
  by constructor <;> decide +kernel

theorem party_lanes_sound : party.LanesSound :=
  by constructor <;> first | exact party_sound | decide +kernel

theorem full_sound : full.LanesSound :=
  by constructor <;> first | decide +kernel | (constructor <;> decide +kernel)

theorem full_bounded : full.Bounded :=
  by constructor <;> decide +kernel

theorem crowd_sound : (crowd 1).LanesSound :=
  by constructor <;> first | decide +kernel | (constructor <;> decide +kernel)

/-- The full bridge with a command waiting. -/
def busy : State := full.withPending [.farVoice 0 0 (flat 100) .usual]

theorem busy_steps : ∃ t, step busy = .next t := ⟨_, rfl⟩

/-- A Roster whose listener 1 has two members and a given primary. -/
def pair (primary : Option BudIx) (first second : Talk) : Roster :=
  let s := withParty
    #v[{ talker 3 0 with talk := first, role := .left }, { talker 4 0 with talk := second, role := .right }, {}, {}, {}, {}, {}, {}]
    (State.reset.roster.listeners.set 0 { holder 0 1 with members := [0, 1], primary := primary }) (Vector.replicate 4 none)
  s.roster

/-! ## The block as a whole -/

theorem test_StepKeepsCeilings_meets : busy.Bounded ∧ ∃ t, step busy = .next t :=
  ⟨⟨full_bounded.1, full_bounded.2, full_bounded.3, full_bounded.4, full_bounded.5, full_bounded.6, full_bounded.7,
    full_bounded.8, full_bounded.9, full_bounded.10, full_bounded.11⟩, busy_steps⟩

theorem busy_party : busy.PartySound :=
  let p := full_sound.party
  ⟨p.1, p.2, p.3, p.4, p.5, p.6, p.7⟩

theorem test_StepKeepsParty_meets : busy.PartySound ∧ ∃ t, step busy = .next t := ⟨busy_party, busy_steps⟩

theorem test_StepKeepsSpeakersCurrent_meets : busy.PartySound ∧ busy.SpeakingCurrent ∧ ∃ t, step busy = .next t :=
  ⟨busy_party, full_sound.speaking, busy_steps⟩

theorem test_StepKeepsLanes_meets : busy.LanesSound ∧ ∃ t, step busy = .next t :=
  ⟨⟨busy_party, full_sound.2, full_sound.3, full_sound.4, full_sound.5, full_sound.6, full_sound.7, full_sound.8,
    full_sound.9⟩, busy_steps⟩

theorem test_StepKeepsPortsStoreAndBanks_meets :
    busy.ArbitersBusy ∧ busy.PowerSound ∧ busy.store.RestartSound ∧ busy.mix.FixedCellsZero ∧ ∃ t, step busy = .next t :=
  by refine ⟨?_, ?_, ?_, ?_, busy_steps⟩ <;> decide +kernel

/-- Page 0 stored with the lock, the lock of region 13 set, and an ERASE PAGE 0 waiting. -/
def locked : State :=
  { full with
    store := { full.store with pages := full.store.pages.set 0 (some (Vector.replicate 16 1)) }
    directives := { full.directives with lock := true }
    pending := [.erasePage 0 [0]] }

theorem test_LocksHold_meets :
    locked.store.PageZeroLocked ∧ (∃ t, step locked = .next t) ∧ mayStartUp (.write 0 [0, 0]) = false ∧
      locked.directives.lock = true ∧ ∃ t, exec (.write 0 [0, 0]) locked = .next t :=
  ⟨by decide +kernel, ⟨_, rfl⟩, rfl, by decide +kernel, ⟨_, rfl⟩⟩

theorem test_TablesChangeOnlyByTheirCommands_meets :
    (∃ t, exec (.audio 3 0 (flat 1)) full = .next t) ∧
      [mayChangePages, mayStartUp, mayMovePointer, isWrite, mayTakeSwap, maySetAdmission, mayWriteBonds, mayChangeCall,
        isDirective].all (fun may => !may (.audio 3 0 (flat 1))) = true ∧
      (mayTakeSwap (.cadenceTimerExpiry .usual) = true ∧ mayStartUp (.cadenceTimerExpiry .usual) = false ∧
        ∃ t, exec (.cadenceTimerExpiry .usual) full = .next t) := ⟨⟨_, rfl⟩, by decide +kernel, rfl, rfl, _, rfl⟩

/-! ## Frames at the ports -/

/-- The bridge without power. -/
def dark : State := full.losePower

theorem test_ClosedPortDiscards_meets :
    arrivesAt (.confirm 3 0) = some .air ∧ dark.portOpen .air = false ∧ arrivesAt (.status 0 []) = some .voice ∧
      dark.portOpen .voice = false := by decide +kernel

/-- The party just after a RESTART that found a frame arriving on each link. -/
def halfway : State := party.restart { air := true, voice := true }

theorem test_cut_frame_meets :
    (arrivesAt (.confirm 3 0) = some .air ∧ halfway.airPort.isOpen = true ∧ halfway.airPort.cut = true) ∧
      arrivesAt (.status 0 []) = some .voice ∧ halfway.voicePort.isOpen = true ∧ halfway.voicePort.cut = true := by
  decide +kernel

theorem test_MalformedFramesAreCounted_meets : full.AirTakes ∧ full.VoiceTakes := by decide +kernel

theorem test_ReceiveReadsBackEveryFrame_meets :
    (Instr.join 15 255 16777215 65535 255).wellFormed = true ∧
      frameOf (.join 15 255 16777215 65535 255) = some (.air, [3, 15, 255, 6, 255, 255, 255, 255, 255, 255], 0) ∧
      (Instr.write 9 (List.replicate 255 7)).wellFormed = true ∧
      frameOf (.write 9 (List.replicate 255 7)) = some (.voice, [34, 3, 9, 255] ++ List.replicate 255 7, 0) ∧
      (Instr.frameMalformed .voice [] 7).wellFormed = true ∧ frameOf (.frameMalformed .voice [] 7) = some (.voice, [], 7) := by
  decide +kernel

theorem test_FramesOnTheWire_meets :
    (List.replicate 32 (0 : Word)).length ≤ 32 ∧ full.statusWords.length = 24 ∧
      (List.replicate 255 (0 : Byte)).length ≤ 255 := by decide +kernel

/-! ## Transmit sides and the report queue -/

/-- The Air Port with a given queue. -/
def airWith (q : List AirFrame) : AirPort := { State.reset.airPort with queue := q }

theorem test_FullAirQueueMakesRoom_meets :
    (airWith (List.replicate 15 (.defer 1 0 1))).queue.length < 16 ∧
      (airWith (List.replicate 16 (.defer 1 0 1))).queue.length = 16 ∧
      (∀ g ∈ (airWith (List.replicate 16 (.defer 1 0 1))).queue, g.isAnswer = true) ∧
      (let before := [AirFrame.defer 1 0 1]
       let d := AirFrame.downlinkSilence 2 0
       let after := List.replicate 14 (AirFrame.downlinkSilence 3 0)
       let a := airWith (before ++ d :: after)
       a.queue.length = 16 ∧ a.queue = before ++ d :: after ∧ (∀ g ∈ before, g.isAnswer = true) ∧ d.isAnswer = false) := by
  decide +kernel

theorem test_AirArbiterChooses_meets :
    (airWith []).queue = [] ∧ dark.airPort.isOpen = false ∧
      ({ State.reset.airPort with holdOff := true } : AirPort).holdOff = true ∧
      ({ State.reset.airPort with sending := some (.defer 1 0 1) } : AirPort).sending.isSome = true ∧
      (let before := [AirFrame.downlinkSilence 2 0]
       let f := AirFrame.defer 1 0 1
       let a := airWith (before ++ f :: [])
       a.isOpen = true ∧ a.holdOff = false ∧ a.sending = none ∧ a.queue = before ++ f :: [] ∧
         (∀ g ∈ before, g.isAnswer = false) ∧ f.isAnswer = true) ∧
      (let f := AirFrame.downlinkSilence 2 0
       let after := [AirFrame.downlinkSilence 3 0]
       let a := airWith ([] ++ f :: after)
       a.isOpen = true ∧ a.holdOff = false ∧ a.sending = none ∧ a.queue = [] ++ f :: after ∧
         ∀ g ∈ f :: after, g.isAnswer = false) := by decide +kernel

/-- Reset with an idle Voice Port, a slot and a report queue. -/
def voiceWith (slot : Option UplinkFrame) (reports : List Report) : State :=
  { State.reset with
    voicePort := { State.reset.voicePort with sending := none, slot := slot }
    directives := { State.reset.directives with reports := reports } }

theorem test_VoiceArbiterChooses_meets :
    dark.voicePort.isOpen = false ∧ State.reset.voicePort.sending.isSome = true ∧
      ({ State.reset with voicePort := { State.reset.voicePort with holdOff := true } } : State).voicePort.holdOff = true ∧
      ((voiceWith none []).voicePort.slot = none ∧ (voiceWith none []).directives.reports = []) ∧
      (let s := voiceWith (some ⟨9, flat 1⟩) []
       s.voicePort.isOpen = true ∧ s.voicePort.holdOff = false ∧ s.voicePort.sending = none ∧
         s.voicePort.slot = some ⟨9, flat 1⟩) ∧
      (let s := voiceWith none [.reply 1 1 .done]
       s.voicePort.isOpen = true ∧ s.voicePort.holdOff = false ∧ s.voicePort.sending = none ∧ s.voicePort.slot = none ∧
         s.directives.reports = .reply 1 1 .done :: []) := by decide +kernel

theorem test_FullReportQueueMakesRoom_meets :
    (voiceWith none (List.replicate 7 (.reply 1 1 .done))).directives.reports.length < 8 ∧
      (let d := (voiceWith none (List.replicate 8 (.reply 1 1 .done))).directives
       d.reports.length = 8 ∧ ∀ g ∈ d.reports, g.isEvent = false) ∧
      (let before := [Report.reply 1 1 .done]
       let e := readyReport .restart
       let after := List.replicate 6 (readyReport .powerUp)
       let d := (voiceWith none (before ++ e :: after)).directives
       d.reports.length = 8 ∧ d.reports = before ++ e :: after ∧ (∀ g ∈ before, g.isEvent = false) ∧ e.isEvent = true) ∧
      (let s := voiceWith none [.reply 1 1 .done]
       s.voicePort.isOpen = true ∧ s.voicePort.holdOff = false ∧ s.voicePort.sending = none ∧ s.voicePort.slot = none ∧
         s.directives.reports = .reply 1 1 .done :: []) := by
  decide +kernel

/-! ## Taking a directive -/

theorem test_DirectiveFormIsJudged_meets :
    State.reset.VoiceTakes ∧
      (1 ≤ (1 : Byte).toNat ∧ (1 : Byte).toNat ≤ 19 ∧ ¬ ([0] : List Byte).length = 2) ∧
      (1 ≤ (19 : Byte).toNat ∧ (19 : Byte).toNat ≤ 19 ∧ ¬ ([0] : List Byte).length = 0) ∧
      ¬ (2 ≤ (List.replicate 66 (0 : Byte)).length ∧ (List.replicate 66 (0 : Byte)).length ≤ 64 ∧
        (List.replicate 66 (0 : Byte)).length % 2 = 0) ∧
      (0 : Byte).toNat = 0 ∧ 19 < (20 : Byte).toNat := by decide +kernel

theorem test_PointAndMaskSetTheirRegisters_meets :
    State.reset.VoiceTakes ∧ (14 : Byte).toNat ≤ 14 ∧ (7 : Byte).toNat < 8 ∧ 14 < (15 : Byte).toNat ∧
      8 ≤ (8 : Byte).toNat ∧ isDirective (.point 0 [0, 0]) = true ∧
      (∀ seq p, Instr.point 0 [0, 0] = .mask seq p → p.length ≠ 2) ∧ isDirective (.mask 0 [1]) = true ∧
      (∀ seq p, Instr.mask 0 [1] = .mask seq p → p.length ≠ 2) ∧ (∃ t, exec (.point 0 [0, 0]) State.reset = .next t) ∧
      (15 : Nat) < 16 :=
  by refine ⟨?_, ?_, ?_, ?_, ?_, rfl, by simp, rfl, by simp +contextual, ⟨_, rfl⟩, ?_⟩ <;> decide +kernel

theorem test_ReadReturnsTheRun_meets :
    State.reset.VoiceTakes ∧ (0 : Byte).toNat < 1 ∧ 32 < (33 : Byte).toNat ∧ 8 < 0 + (9 : Byte).toNat ∧
      ¬ 8 < 0 + (8 : Byte).toNat ∧
      (let s : State := { State.reset with directives := { State.reset.directives with modes := Vector.replicate 14 .hidden } }
       s.directives.region.val ≠ 13 ∧ s.directives.modeOf s.directives.region = .hidden) := by decide +kernel

theorem test_RegionsPresentTheirBlocks_meets :
    full.Bounded ∧ full.laneUnit.lanes[0].expected = some 10 ∧ full.laneUnit.lanes[2].expected = none ∧
      full.directives.settings.InRange ∧
      ∃ b, (pair (some 7) .silent .silent).listeners[(0 : ListenerIx)].primary = some b ∧
        b ∉ (pair (some 7) .silent .silent).listeners[(0 : ListenerIx)].members :=
  ⟨full_bounded, by decide +kernel, by decide +kernel, full_sound.party.settings, by decide +kernel⟩

theorem test_WriteIsCheckedThenApplied_meets :
    State.reset.VoiceTakes ∧
      (2 ≤ ([0, 0] : List Byte).length ∧ ([0, 0] : List Byte).length ≤ 64 ∧ ([0, 0] : List Byte).length % 2 = 0) ∧
      (2 ≤ (List.replicate 64 (0 : Byte)).length ∧ (List.replicate 64 (0 : Byte)).length ≤ 64 ∧
        (List.replicate 64 (0 : Byte)).length % 2 = 0) := by decide +kernel

theorem test_WrittenWordReadsBack_meets :
    (31 < regionCount 2 ∧ (2 : RegionIx).val ∉ [0, 1, 4, 10, 11, 12]) ∧
      (14 < regionCount 13 ∧ (13 : RegionIx).val ∉ [0, 1, 4, 10, 11, 12]) ∧
      (30 < regionCount 2 ∧ ((2 : RegionIx), 30) ≠ ((2 : RegionIx), 31)) := by decide +kernel

/-- Reset with every mode READ ONLY. -/
def guarded : State := { State.reset with directives := { State.reset.directives with modes := Vector.replicate 14 .readOnly } }

theorem test_ClearCountersClearsTheCounters_meets :
    State.reset.VoiceTakes ∧ State.reset.directives.modes[10] = .opened ∧ guarded.VoiceTakes ∧
      guarded.directives.modes[10] ≠ .opened := by decide +kernel

theorem test_StatusIsASnapshot_meets :
    (full.VoiceTakes ∧ full.laneUnit.waitList.length ≤ 4 ∧ full.pairing.context = none ∧
        full.store.state = .idle ∧ full.laneUnit.waitList[(0 : Fin 4).val]? = some ⟨3, 3, 1, true⟩ ∧
        full.laneUnit.waitList[(3 : Fin 4).val]? = none) ∧
      party.pairing.context = some ⟨5, 2, 2, true, 20⟩ ∧
      (full.setStore (.programming 20 blankImage)).store.state = .programming 20 blankImage ∧
      (full.setStore (.erasing 0)).store.state = .erasing 0 := by decide +kernel

theorem test_SwapAndAdmissionSetTheirFlags_meets : guarded.VoiceTakes ∧ State.reset.VoiceTakes := by
  decide +kernel

/-- The party with bond entries in use as given, each with an address of its own. -/
def bonded (uses : Fin 8 → Bool) (addr : Fin 8 → Address) : State :=
  { party with
    pairing := { party.pairing with bonds := Vector.ofFn fun i => { inUse := uses i, addr := addr i } } }

theorem test_BondEntersTheBud_meets :
    party.VoiceTakes ∧ (0 : Byte).toNat = 0 ∧ 8 < (9 : Byte).toNat ∧
      (8 : Byte).toNat = (7 : BudIx).val + 1 ∧ party.roster.buds[7].link = .free ∧ party.directives.modes[8] = .opened ∧
      guarded.directives.modes[8] ≠ .opened ∧
      ((1 : Byte).toNat = (0 : BudIx).val + 1 ∧ party.roster.buds[0].link ≠ .free ∧
        party.roster.buds[0].listener = some 0) ∧
      (let p := (bonded (fun _ => true) fun i => if 3 ≤ i.val then 103 else 0).pairing
       p.bonds[(3 : Fin 8)].inUse = true ∧ p.bonds[(3 : Fin 8)].addr = party.roster.buds[0].addr ∧
         ∀ j : Fin 8, j < 3 → p.bonds[j].inUse = true → p.bonds[j].addr ≠ party.roster.buds[0].addr) ∧
      (let p := (bonded (fun i => i.val < 5) fun _ => 0).pairing
       (∀ j : Fin 8, p.bonds[j].inUse = true → p.bonds[j].addr ≠ party.roster.buds[0].addr) ∧
         p.bonds[(5 : Fin 8)].inUse = false ∧ ∀ j : Fin 8, j < 5 → p.bonds[j].inUse = true) ∧
      (let p := (bonded (fun _ => true) fun _ => 0).pairing
       (∀ j : Fin 8, p.bonds[j].inUse = true → p.bonds[j].addr ≠ party.roster.buds[0].addr) ∧
         ∀ j : Fin 8, p.bonds[j].inUse = true) := by decide +kernel

/-! ## The profile store -/

theorem test_StoreAndEraseAreChecked_meets :
    State.reset.VoiceTakes ∧ 20 < (21 : Byte).toNat ∧ (20 : Byte).toNat = (20 : PageIx).val ∧
      State.reset.pageProtected 20 = false ∧ guarded.pageProtected 20 = true ∧ State.reset.store.state = .idle ∧
      (full.setStore (.erasing 0)).store.state ≠ .idle ∧ State.reset.store.pages[(20 : PageIx)] = none ∧
      locked.store.pages[(0 : PageIx)] ≠ none := by decide +kernel

theorem test_LoadPageCopiesThePage_meets :
    State.reset.VoiceTakes ∧ 20 < (21 : Byte).toNat ∧ (0 : Byte).toNat = (0 : PageIx).val ∧
      State.reset.loadProtected 0 = false ∧ State.reset.store.state.inFlight ≠ some 0 := by decide +kernel

/-- A bridge with an operation in flight, a restart pending or not. -/
def inFlight (t : StoreState) (pending : Bool) : State :=
  { party with store := { party.store with state := t, restartPending := pending } }

theorem test_CompletionsAndRestarts_meets :
    (∀ p : Bool, (inFlight (.erasing 3) p).store.state = .erasing 3 ∧ (inFlight (.erasing 3) p).store.restartPending = p ∧
        (inFlight (.programming 3 blankImage) p).store.state = .programming 3 blankImage ∧
        (inFlight (.programming 3 blankImage) p).VoiceTakes) ∧
      State.reset.store.state = .idle ∧ State.reset.store.restartPending = false ∧ State.reset.VoiceTakes := by
  decide +kernel

/-- A start-up with READY chosen at once, and one behind a frame being sent. -/
theorem test_StartUpLeavesStartValues_meets :
    ((voiceWith none []).voicePort.sending = none ∧ (voiceWith none []).voicePort.holdOff = false) ∧
      State.reset.voicePort.sending ≠ none := by decide +kernel

theorem test_PagesOutlivePower_meets :
    (inFlight (.programming 20 blankImage) false).store.state.inFlight = some 20 ∧ State.reset.store.state.inFlight ≠ some 0 := by
  decide +kernel

/-- Pages 3 and 4 written and the rest blank: bond entry 2, whose words 0 and 1 end page 3, is loaded, and entry 3, whose
last two words begin page 5, is not. -/
theorem test_PagesAreLoadedIntoTheirTables_meets :
    let page : Page := Vector.replicate 16 1
    let pages : Vector (Option Page) 21 := ((Vector.replicate 21 none).set 3 (some page)).set 4 (some page)
    let held := fun n : Nat => pages.toList.getD n none
    (∃ j : Fin 6, held (3 + (6 * (2 : Fin 8).val + j.val) / 8) = none) ∧
      held (3 + 6 * (1 : Fin 8).val / 8) = some page ∧ held (3 + (6 * (1 : Fin 8).val + 5) / 8) = some page := by
  decide +kernel

/-! ## Requests and arrivals on the Air Link -/

theorem test_UnknownHandlesAreStray_meets :
    party.roster.BudsSound ∧ party.AirTakes ∧ party.roster.budByHandle 0 = none ∧
      party.roster.budByHandle 5 = some 2 ∧ party.roster.buds[(2 : BudIx)].link = .offered := by decide +kernel

theorem test_ArrivalIsTakenInOrder_meets :
    (party.AirTakes ∧ party.roster.budByHandle 3 = some 0 ∧ party.roster.buds[(0 : BudIx)].link ≠ .offered) ∧
      (∀ b : BudIx, party.roster.budByHandle 5 = some b → party.roster.buds[b].link = .offered) ∧
      (∀ b : BudIx, party.roster.budByHandle 0 = some b → party.roster.buds[b].link = .offered) ∧
      (full.intake = { full with mix := State.reset.mix }.intake ∧
        full.laneUnit = { full with mix := State.reset.mix }.laneUnit) := by decide +kernel

/-- A JOINING bud, a LIVE bud and a PARKED one. -/
theorem test_ArrivalUpdatesTheRecord_meets :
    party.AirTakes ∧ party.roster.budByHandle 3 = some 0 ∧ party.roster.buds[(0 : BudIx)].link = .live ∧
      party.roster.budByHandle 4 = some 1 ∧ party.roster.buds[(1 : BudIx)].link = .joining ∧
      party.roster.budByHandle 6 = some 3 ∧ party.roster.buds[(3 : BudIx)].link = .parked := by decide +kernel

/-- The party with a receive queue for bud 1. -/
def queued (q : List Entry) : State := { party with intake := { party.intake with queues := party.intake.queues.set 0 q } }

theorem test_UnboundQueueKeepsTheNewestTwo_meets :
    (queued [⟨4, .silence⟩, ⟨5, .silence⟩]).laneUnit.boundLane 0 = none ∧
      (∃ x ∈ (queued [⟨4, .silence⟩, ⟨5, .silence⟩]).intake.queues[(0 : BudIx)], x.seq = (4 : Byte)) ∧
      (∀ x ∈ (queued [⟨4, .silence⟩, ⟨5, .silence⟩]).intake.queues[(0 : BudIx)], x.seq ≠ (6 : Byte)) ∧
      (queued [⟨4, .silence⟩, ⟨5, .silence⟩]).intake.queues[(0 : BudIx)].length = 2 ∧
      (queued [⟨4, .silence⟩]).intake.queues[(0 : BudIx)].length ≤ 2 := by decide +kernel

/-- Eight entries from a given distance ahead of sequence 10. -/
def eight (d : Byte) : List Entry := [0, 1, 2, 3, 4, 5, 6, 7].map fun i => ⟨10 + d + i, .silence⟩

/-- A lane without an expected sequence; a bud named by one lane, and by a second that does not carry. -/
theorem test_first_arrival_meets :
    ((primingLane 2 2).expected = none ∧ (primingLane 2 2).ring = [] ∧ full.laneUnit.boundLane 2 = some 2 ∧
        full.intake.queues[(2 : BudIx)] = []) ∧
      (inCall 1 #v[{}, drainingLane 1, mixingLane 0 0] []).laneUnit.boundLane 0 = some 2 := by decide +kernel

/-- Distances 127 and 128 stand on either side of late; a full queue with a due head, and one without. -/
theorem test_BoundArrivalIsReckonedByDistance_meets :
    let f : Feed := ⟨mixingLane 0 0, eight 0, {}⟩
    let g : Feed := ⟨mixingLane 0 0, eight 1, {}⟩
    (f.lane.expected = some 10 ∧ f.lane.InOrder f.queue ∧ f.queue.length = 8 ∧ (f.queue.map (·.seq)).Nodup) ∧
      (g.lane.expected = some 10 ∧ g.lane.InOrder g.queue ∧ g.queue.length = 8 ∧ (g.queue.map (·.seq)).Nodup) ∧
      (128 ≤ ((138 : Byte) - 10).toNat ∧ ((137 : Byte) - 10).toNat < 128) ∧
      (∃ a ∈ f.queue, a.seq = (12 : Byte)) ∧ (∀ a ∈ f.queue, a.seq ≠ (137 : Byte)) ∧
      (∃ head rest, f.queue = head :: rest ∧ head.seq = (10 : Byte)) ∧
      (∃ head rest, g.queue = head :: rest ∧ head.seq ≠ (10 : Byte)) :=
  ⟨by decide +kernel, by decide +kernel, by decide +kernel, by decide +kernel, by decide +kernel,
    ⟨_, _, rfl, by decide +kernel⟩, ⟨_, _, rfl, by decide +kernel⟩⟩

theorem test_MovementFillsTheRing_meets :
    (mixingLane 0 0).ring.length ≤ 320 ∧ full.laneUnit.boundLane 1 = some 1 ∧ full.laneUnit.boundLane 3 = none ∧
      (Feed.move ⟨mixingLane 0 0, eight 0, {}⟩).queue = (eight 0).drop 2 := by decide +kernel

theorem test_LeaveDropAndEvictFreeTheBud_meets :
    (party.AirTakes ∧ party.roster.budByHandle 5 = some 2) ∧ party.VoiceTakes ∧
      (0 : Byte).toNat = 0 ∧ 8 < (9 : Byte).toNat ∧ (8 : Byte).toNat = (7 : BudIx).val + 1 ∧
      party.roster.buds[(7 : BudIx)].link = .free ∧ (1 : Byte).toNat = (0 : BudIx).val + 1 ∧
      party.roster.buds[(0 : BudIx)].link ≠ .free ∧ party.roster.buds[(0 : BudIx)].handle = some 3 := by decide +kernel

/-- The OFFERED bud, and a bud of a sound bridge with lanes. -/
theorem test_FreeingClearsTheBud_meets :
    (party.PartySound ∧ party.roster.buds[(2 : BudIx)].link ≠ .free ∧ party.roster.buds[(2 : BudIx)].listener = some 2) ∧
      full.LanesSound ∧ full.roster.buds[(0 : BudIx)].link ≠ .free ∧ full.roster.buds[(0 : BudIx)].listener = some 0 :=
  ⟨⟨party_sound, by decide +kernel, by decide +kernel⟩, full_sound, by decide +kernel, by decide +kernel⟩

theorem test_ParkParksTheBud_meets :
    party.AirTakes ∧ party.roster.budByHandle 4 = some 1 ∧ party.roster.buds[(1 : BudIx)].link = .joining ∧
      party.roster.budByHandle 6 = some 3 ∧ party.roster.buds[(3 : BudIx)].link = .parked ∧
      ∀ b : BudIx, party.roster.budByHandle 5 = some b → party.roster.buds[b].link = .offered := by decide +kernel

theorem test_AdjustReachesOnlyOwnControls_meets :
    party.AirTakes ∧ party.roster.budByHandle 3 = some 0 ∧ party.roster.buds[(0 : BudIx)].listener = some 0 ∧
      party.roster.buds[(0 : BudIx)].link ≠ .offered ∧ party.roster.listeners[(0 : ListenerIx)].budControls = true ∧
      party.roster.budByHandle 5 = some 2 ∧ party.roster.buds[(2 : BudIx)].listener = some 2 ∧
      party.roster.buds[(2 : BudIx)].link = .offered := by decide +kernel

/-- Set tag 7 stands with a LEFT member: RIGHT goes in and LEFT conflicts; tag 8 and tag 0 need a new listener. -/
theorem test_AdmissionAndPlacement_meets :
    let r := party.roster
    (r.listeners[(2 : ListenerIx)].inUse = true ∧ r.listeners[(2 : ListenerIx)].setTag = 7 ∧ r.TagsSound ∧
        r.listeners[(2 : ListenerIx)].members.length ≤ 2 ∧ r.MembershipLaw ∧ r.MembersCompatible ∧ r.UseSound ∧
        r.place 7 .right = .existing 2 ∧ r.place 7 .left = .refused .roleTaken) ∧
      (∀ x : ListenerIx, r.listeners[x].inUse = true → r.listeners[x].setTag ≠ (8 : Word)) ∧
      State.reset.roster.place 0 .mono = .opened 0 :=
  by refine ⟨⟨?_, ?_, ?_, ?_, ?_, ?_, ?_, ?_, ?_⟩, ?_, ?_⟩ <;> decide +kernel

/-- The party with the context empty and bud 3 JOINING: admission open to every address, or closed. -/
def doors (isOpen : Bool) : State :=
  { party with
    roster := { party.roster with buds := party.roster.buds.set 2 { party.roster.buds[2] with link := .joining } }
    pairing :=
      { party.pairing with
        context := none, admissionOpen := isOpen
        windows := party.pairing.windows.set 0 { enable := true, base := 0, compareLength := 0 } } }

theorem test_JoinGoesThroughItsStages_meets :
    (party.AirTakes ∧ party.roster.budByHandle 3 = some 0 ∧ party.roster.buds[(0 : BudIx)].addr = 103 ∧
        party.roster.buds[(0 : BudIx)].addr ≠ (104 : Address) ∧ party.roster.budByHandle 0 = none ∧
        party.pairing.context = some ⟨5, 2, 2, true, 20⟩) ∧
      ((doors false).pairing.context = none ∧ (doors false).roster.budByHandle 0 = none ∧
        (doors false).pairing.admission 9 = .refused ∧ (doors true).pairing.admission 9 = .window ∧
        (doors true).roster.place 7 .left = .refused .roleTaken ∧ (doors true).roster.place 0 .left = .refused .full ∧
        (doors true).roster.place 7 .right = .existing 2) ∧
      State.reset.roster.place 0 .mono = .opened 0 := by decide +kernel

theorem doors_sound : (doors true).LanesSound :=
  by constructor <;> first | decide +kernel | (constructor <;> decide +kernel)

theorem evening_sound : evening.LanesSound :=
  by constructor <;> first | decide +kernel | (constructor <;> decide +kernel)

/-- An existing listener, and a new one behind a bonded admission. -/
theorem test_OfferReservesAPlace_meets :
    ((doors true).LanesSound ∧ (doors true).roster.freeBud = some 4 ∧ (doors true).roster.place 7 .right = .existing 2) ∧
      evening.LanesSound ∧ evening.roster.freeBud = some 0 ∧ evening.roster.place 900 .mono = .opened 0 ∧
      evening.pairing.admission 5000000 = .bonded 0 :=
  ⟨⟨doors_sound, by decide +kernel, by decide +kernel⟩, evening_sound, by decide +kernel, by decide +kernel,
    by decide +kernel⟩

/-- The party one cadence before its handshake lapses. -/
def lapsing : State :=
  { party with pairing := { party.pairing with context := some { handle := 5, bud := 2, listener := 2, created := true, countdown := 1 } } }

theorem test_ConfirmOrCountdownEndsTheHandshake_meets :
    party.AirTakes ∧ party.pairing.context = some ⟨5, 2, 2, true, 20⟩ ∧
      (∀ c : Context, party.pairing.context = some c → c.handle ≠ 6) ∧ State.reset.pairing.context = none ∧
      lapsing.pairing.context = some ⟨5, 2, 2, true, 1⟩ ∧ lapsing.PartySound :=
  ⟨by decide +kernel, by decide +kernel, by rintro c h; cases h; decide, by decide +kernel, by decide +kernel,
    party_sound.1, party_sound.2, party_sound.3, party_sound.4, party_sound.5, party_sound.6, by decide +kernel⟩

/-! ## Call control and cadences -/

theorem test_CallDirectivesChangeTheCall_meets : State.reset.VoiceTakes ∧ full.VoiceTakes := by
  decide +kernel

/-- The crowd on hold, listener 3 first. -/
def onHold : State :=
  { crowd 1 with
    callCtl := { (crowd 1).callCtl with state := .holding .directed }
    laneUnit :=
      { (crowd 1).laneUnit with
        waitList := [⟨2, 2, 1, true⟩, ⟨0, 0, 2, false⟩, ⟨1, 1, 3, false⟩, ⟨3, 3, 4, false⟩] } }

theorem onHold_sound : onHold.LanesSound :=
  by constructor <;> first | decide +kernel | (constructor <;> decide +kernel)

theorem test_LanesFollowTheCall_meets :
    (full.VoiceTakes ∧ full.callCtl.state = .inCall ∧ full.LanesSound) ∧
      ((crowd 1).VoiceTakes ∧ (crowd 1).callCtl.state = .noCall ∧ (crowd 1).LanesSound) ∧
      onHold.VoiceTakes ∧ onHold.callCtl.state = .holding .directed ∧ onHold.LanesSound :=
  ⟨⟨by decide +kernel, by decide +kernel, full_sound⟩, ⟨by decide +kernel, by decide +kernel, crowd_sound⟩,
    by decide +kernel, by decide +kernel, onHold_sound⟩

/-- Lane 2 the lowest vacant with listener 4 waiting; no lane vacant; no one waiting; not IN CALL. -/
theorem test_entry_grants_meet :
    (let v := inCall 1 #v[mixingLane 0 0, {}, {}] [{ listener := 3, bud := 3, order := 1, denied := false }]
     v.callCtl.state = .inCall ∧ v.laneUnit.lanes[(1 : LaneIx)].state = .vacant ∧
       v.laneUnit.lanes[(1 : LaneIx)].reservedFor = none ∧ v.laneUnit.lanes[(0 : LaneIx)].state ≠ .vacant ∧
       v.laneUnit.waitList = ⟨3, 3, 1, false⟩ :: []) ∧
      (∀ k : LaneIx, full.laneUnit.lanes[k].state ≠ .vacant) ∧
      (inCall 1 (Vector.replicate 3 {}) []).laneUnit.waitList = [] ∧ (crowd 1).callCtl.state ≠ .inCall := by decide +kernel

/-- The fortieth fill, and the thirty-ninth. -/
theorem test_CadencesCountAndArm_meets :
    (State.reset.VoiceTakes ∧ State.reset.callCtl.state = .noCall ∧ State.reset.callCtl.timer ≠ none) ∧
      onHold.callCtl.state = .holding .directed ∧ full.callCtl.state = .inCall ∧ full.callCtl.timer ≠ none ∧
      dark.callCtl.timer = none ∧ full.directives.settings.autoHold ≤ min (39 + 1) 255 ∧
      ¬ full.directives.settings.autoHold ≤ min (38 + 1) 255 := by decide +kernel

/-- Orders with the mix before the hold and after it, and one with an END CALL before the mix; a call held automatically. -/
theorem test_cadence_orders_meet :
    (let o := CadenceOrder.usual
     (∀ a ∈ o.acts, a.isCall = false) ∧
       o.acts = [.supervise, .countdown, .lanes] ++ .mix :: [.form] ++ .hold :: [] ∧
       CadenceAct.hold ∉ ([.supervise, .countdown, .lanes] : List CadenceAct)) ∧
      (let acts : List CadenceAct := [.hold, .lanes, .mix, .form, .supervise, .countdown]
       (∀ a ∈ acts, a.isCall = false) ∧ acts = [] ++ .hold :: [.lanes] ++ .mix :: [.form, .supervise, .countdown]) ∧
      (let acts : List CadenceAct := [.supervise, .call .endCall 7, .countdown, .lanes, .mix, .form, .hold]
       (acts.filter fun a => !a.isCall).Perm [.supervise, .countdown, .lanes, .mix, .form, .hold]) ∧
      ({ onHold with callCtl := { onHold.callCtl with state := .holding .auto } } : State).VoiceTakes := by decide +kernel

/-- The crowd with bud 1 at a given miss-run. -/
def missing (n : Nat) : State :=
  { crowd 1 with roster := { (crowd 1).roster with buds := (crowd 1).roster.buds.set 0 { talker 3 0 with missRun := n } } }

theorem missing_sound : (missing 198).PartySound ∧ (missing 199).PartySound ∧ (missing 1).PartySound :=
  ⟨by constructor <;> decide +kernel,
    by constructor <;> decide +kernel,
    by constructor <;> decide +kernel⟩

/-- Miss-runs one short of the fade and of the lost threshold; an idle cadence, and a voice cadence in a call. -/
theorem test_SupervisionCreditsOrFrees_meets :
    (∀ n ∈ [0, 1, 198, 199],
      (missing n).roster.BudsSound ∧ (missing n).roster.MembershipLaw ∧ (missing n).roster.buds[(0 : BudIx)].link = .live) ∧
      party.PartySound ∧ party.callCtl.timer ≠ none ∧ party.roster.buds[(2 : BudIx)].link = .offered ∧
      party.roster.buds[(3 : BudIx)].link = .parked ∧ (∃ t, exec (.cadenceTimerExpiry .usual) party = .next t) ∧
      full.PartySound ∧ full.VoiceTakes ∧ full.callCtl.state = .inCall ∧
      (∀ a ∈ (Instr.farVoice 0 0 (flat 1) .usual).order.acts, a.isCall = false) ∧
      ∃ t, exec (.farVoice 0 0 (flat 1) .usual) full = .next t :=
  by refine ⟨?_, party_sound, ?_, ?_, ?_, ⟨_, rfl⟩, full_sound.party, ?_, ?_, ?_, ⟨_, rfl⟩⟩ <;> decide +kernel

/-- The buds that supervision of the crowd loses, with bud 1 at a given miss-run. -/
def losses (s : State) : List BudIx :=
  ([0, 1, 2, 3, 4, 5, 6, 7] : List BudIx).filter fun b =>
    s.roster.buds[b].link.supervised &&
      decide (s.directives.settings.lostThreshold ≤ min (s.roster.buds[b].missRun + 1) 255)

/-- One bud lost, none, and two at one cadence. -/
theorem test_supervision_losses_meet :
    losses (missing 199) = [0] ∧ losses (missing 198) = [] ∧
      (let two : State :=
        { missing 199 with
          roster := { (missing 199).roster with buds := (missing 199).roster.buds.set 1 { talker 4 1 with missRun := 199 } } }
       losses two = [0, 1] ∧ two.PartySound) := by
  refine ⟨?_, ?_, ?_, ?_⟩
  · decide +kernel
  · decide +kernel
  · decide +kernel
  · constructor <;> decide +kernel

/-! ## Lanes -/

/-- Not in use; muted; the primary speaks; the other speaks; neither; a sole member; a stale primary; none. -/
theorem test_speaking_bud_clauses_meet :
    State.reset.roster.listeners[(0 : ListenerIx)].inUse = false ∧
      ((holder 0 1).inUse = true ∧ (holder 0 1).mute = false ∧ (holder 0 1).primary = some 0 ∧ (0 : BudIx) ∈ (holder 0 1).members ∧
        (holder 0 1).members = [0]) ∧
      ((pair (some 0) .silent .talking).listeners[(0 : ListenerIx)].members = [0, 1] ∧
        (pair (some 0) .silent .talking).speakingBud 0 = some 1 ∧ (pair (some 0) .talking .talking).speakingBud 0 = some 0 ∧
        (pair (some 0) .silent .silent).speakingBud 0 = none) ∧
      (∀ p : BudIx, (pair (some 7) .silent .talking).listeners[(0 : ListenerIx)].primary = some p →
        p ∉ (pair (some 7) .silent .talking).listeners[(0 : ListenerIx)].members) ∧
      (∀ p : BudIx, (pair none .silent .talking).listeners[(0 : ListenerIx)].primary = some p →
        p ∉ (pair none .silent .talking).listeners[(0 : ListenerIx)].members) ∧
      (pair none .silent .talking).listeners[(0 : ListenerIx)].members = [0] ++ 1 :: [] ∧
      ¬ (pair none .silent .talking).buds[(0 : BudIx)].talk = .talking := by decide +kernel

/-- A state whose recorded speaking bud of listener 1 is given. -/
def recorded (s : State) (b : Option BudIx) : State :=
  { s with laneUnit := { s.laneUnit with speaking := s.laneUnit.speaking.set 0 b } }

/-- The full bridge with bud 1's record SILENT or TALKING, the Lane Unit not yet told. -/
def changed (silent : Bool) : State :=
  { full with
    roster :=
      { full.roster with
        buds := full.roster.buds.set 0 { talker 3 0 with talk := if silent then .silent else .talking } } }

/-- None, one and another as the recorded and the new speaking bud, in each call state. -/
theorem test_SpeakingBudIsChosenAndActedOn_meets :
    (recorded full none).roster.speakingBud 0 = some 0 ∧ (recorded full none).laneUnit.speaking[(0 : ListenerIx)] = none ∧
      ((changed true).laneUnit.speaking[(0 : ListenerIx)] = some 0 ∧ (changed true).roster.speakingBud 0 = none ∧
        (changed true).callCtl.state = .inCall ∧ (changed true).LanesExclusive ∧
        (changed true).laneUnit.lanes[(0 : LaneIx)].state = .mixing ∧
        (changed true).laneUnit.lanes[(0 : LaneIx)].listener = some 0 ∧
        (changed true).laneUnit.lanes[(0 : LaneIx)].reservedFor = none) ∧
      ((recorded full (some 5)).laneUnit.speaking[(0 : ListenerIx)] = some 5 ∧
        (recorded full (some 5)).roster.speakingBud 0 = some 0 ∧ (5 : BudIx) ≠ 0 ∧ (recorded full (some 5)).LanesExclusive ∧
        (recorded full (some 5)).laneUnit.lanes[(0 : LaneIx)].bud = some 0) ∧
      ((recorded onHold (some 5)).callCtl.state = .holding .directed ∧ (recorded onHold none).roster.speakingBud 0 = some 0 ∧
        (recorded (crowd 1) none).callCtl.state = .noCall) ∧
      (∀ k : LaneIx, (inCall 1 (Vector.replicate 3 {}) []).laneUnit.lanes[k].carries = true →
        (inCall 1 (Vector.replicate 3 {}) []).laneUnit.lanes[k].listener ≠ some 0) :=
  by refine ⟨?_, ?_, ⟨?_, ?_, ?_, ?_, ?_, ?_, ?_⟩, ⟨?_, ?_, ?_, ?_, ?_⟩, ?_, ?_⟩ <;> decide +kernel

/-- Listener 4 falls silent while it waits, without a lane. -/
theorem test_silent_without_a_lane_meets :
    let s : State :=
      { full with
        roster := { full.roster with buds := full.roster.buds.set 3 { talker 6 3 with talk := .silent } } }
    s.callCtl.state = .inCall ∧ s.laneUnit.speaking[(3 : ListenerIx)] = some 3 ∧ s.roster.speakingBud 3 = none ∧
      (∃ e ∈ s.laneUnit.waitList, e.listener = 3) ∧
      ∀ k : LaneIx, s.laneUnit.lanes[k].carries = true → s.laneUnit.lanes[k].listener ≠ some 3 := by decide +kernel

/-- A notice that reaches a listener whose lane is still PRIMING: its speaker falls silent, or is another; and a bridge in
which the lane goes on to a waiting listener. -/
theorem test_priming_release_meets :
    (let s : State :=
      { full with
        roster := { full.roster with buds := full.roster.buds.set 2 { talker 5 2 with talk := .silent } } }
     s.callCtl.state = .inCall ∧ s.LanesExclusive ∧ s.laneUnit.lanes[(2 : LaneIx)].state = .priming ∧
       s.laneUnit.lanes[(2 : LaneIx)].listener = some 2 ∧ s.laneUnit.lanes[(2 : LaneIx)].bud = some 2 ∧
       (∀ j : LaneIx, s.laneUnit.lanes[j].reservedFor = none) ∧ s.laneUnit.speaking[(2 : ListenerIx)] = some 2 ∧
       s.roster.speakingBud 2 = none ∧ s.laneUnit.waitList ≠ []) ∧
      (let s : State :=
        { full with laneUnit := { full.laneUnit with speaking := full.laneUnit.speaking.set 2 (some 6) } }
       s.laneUnit.speaking[(2 : ListenerIx)] = some 6 ∧ s.roster.speakingBud 2 = some 2 ∧ (6 : BudIx) ≠ 2) :=
  by refine ⟨⟨?_, ?_, ?_, ?_, ?_, ?_, ?_, ?_, ?_⟩, ?_, ?_, ?_⟩ <;> decide +kernel

/-- Lanes IN CALL for the stages of a request by listener 4 with bud 4, at priority `p`. -/
def stage (p : Fin 4) (lanes : Vector Lane 3) : State := inCall p lanes []

/-- Hit; lowest vacant; own drain; no candidate; a MIXING and a PRIMING victim with the pointer at lane 1. -/
theorem test_RequestTakesItsStages_meets :
    (stage 1 #v[mixingLane 3 3, {}, {}]).callCtl.state = .inCall ∧
      (∃ k : LaneIx, (stage 1 #v[mixingLane 3 3, {}, {}]).laneUnit.lanes[k].carries = true ∧
        (stage 1 #v[mixingLane 3 3, {}, {}]).laneUnit.lanes[k].listener = some 3 ∧
        (stage 1 #v[mixingLane 3 3, {}, {}]).laneUnit.lanes[k].bud = some 3) ∧
      (let u := (stage 1 #v[mixingLane 0 0, {}, {}]).laneUnit
       u.lanes[(1 : LaneIx)].state = .vacant ∧ u.lanes[(1 : LaneIx)].reservedFor = none ∧ u.lanes[(0 : LaneIx)].state ≠ .vacant) ∧
      (let u := (stage 1 #v[mixingLane 0 0, mixingLane 1 1, drainingLane 3]).laneUnit
       (∀ j : LaneIx, u.lanes[j].state ≠ .vacant) ∧ u.lanes[(2 : LaneIx)].state = .draining ∧
         u.lanes[(2 : LaneIx)].listener = some 3 ∧ u.lanes[(2 : LaneIx)].reservedFor = none) ∧
      (let s := stage 1 #v[mixingLane 0 0, mixingLane 1 1, primingLane 2 2]
       (∀ j : LaneIx, s.laneUnit.lanes[j].state ≠ .vacant ∧ s.laneUnit.lanes[j].state ≠ .draining) ∧
         ∀ v : ListenerIx, ¬ s.roster.listeners[v].priority < s.roster.listeners[(3 : ListenerIx)].priority) ∧
      (let s := stage 2 #v[mixingLane 0 0, mixingLane 1 1, primingLane 2 2]
       s.laneUnit.evictPtr = 0 ∧ s.laneUnit.lanes[(0 : LaneIx)].carries = true ∧
         s.laneUnit.lanes[(0 : LaneIx)].listener = some 0 ∧ s.laneUnit.speaking[(0 : ListenerIx)] = some 0 ∧
         s.laneUnit.lanes[(0 : LaneIx)].bud = some 0 ∧
         s.roster.listeners[(0 : ListenerIx)].priority < s.roster.listeners[(3 : ListenerIx)].priority) ∧
      (let s := stage 2 #v[{ mixingLane 0 0 with state := .draining, bud := none, reservedFor := some 1 },
         { drainingLane 1 with reservedFor := some 2 }, primingLane 2 2]
       s.laneUnit.lanes[(2 : LaneIx)].state = .priming ∧ s.laneUnit.evictPtr + 2 = 2 ∧
         s.laneUnit.lanes[(0 : LaneIx)].carries = false ∧ s.laneUnit.lanes[(1 : LaneIx)].carries = false) := by decide +kernel

/-- Queues of none, one and two: the next, one 127 ahead, one 128 ahead. -/
theorem test_BindingPrimesTheLane_meets :
    (queued []).intake.queues[(0 : BudIx)] = [] ∧ (queued [⟨255, .silence⟩]).intake.queues[(0 : BudIx)] = [⟨255, .silence⟩] ∧
      (queued [⟨255, .silence⟩, ⟨0, .silence⟩]).intake.queues[(0 : BudIx)] = [⟨255, .silence⟩, ⟨0, .silence⟩] ∧
      ((0 : Byte) = 255 + 1 ∧ ((126 : Byte) - 255).toNat = 127 ∧ ((127 : Byte) - 255).toNat = 128 ∧ (126 : Byte) ≠ 255) := by
  decide +kernel

theorem test_WaitListKeepsItsOrder_meets :
    let w := full.laneUnit.waitList
    ((w.map (·.listener)).Nodup ∧ (w.map (·.order)).Nodup ∧ (∀ e ∈ w, 1 ≤ e.order ∧ e.order ≤ w.length) ∧
        w.Pairwise fun d e => waitBefore full.priorityOf d e = true) ∧
      (∃ e ∈ w, e.listener = 3) ∧ (∀ e ∈ w, e.listener ≠ 0) ∧
      w = [] ++ (⟨3, 3, 1, true⟩ : WaitEntry) :: [] := by decide +kernel

/-- A PRIMING lane one block short of the target depth and one at it; drains with and without a reservation. -/
theorem test_LaneEventsAdvanceTheLanes_meets :
    (let l := { primingLane 0 0 with ring := List.replicate 80 0, expected := some 1 }
     let m := { primingLane 1 1 with ring := List.replicate 160 0, expected := some 1 }
     let s := inCall 1 #v[l, m, {}] []
     s.callCtl.state = .inCall ∧ s.laneUnit.lanes[(0 : LaneIx)].state = .priming ∧
       s.laneUnit.lanes[(0 : LaneIx)].bud = some 0 ∧ s.laneUnit.lanes[(0 : LaneIx)].listener = some 0 ∧
       (Feed.mk l [] {}).depth < 160 ∧ 160 ≤ (Feed.mk m [] {}).depth ∧ s.laneUnit.lanes[(2 : LaneIx)].state = .vacant ∧
       s.laneUnit.lanes[(2 : LaneIx)].reservedFor = none) ∧
      (let s := inCall 1 #v[{ drainingLane 0 with reservedFor := some 1 }, drainingLane 2, {}] [⟨3, 3, 1, true⟩]
       s.laneUnit.lanes[(0 : LaneIx)].listener = some 0 ∧ s.laneUnit.lanes[(0 : LaneIx)].reservedFor = some 1 ∧
         s.laneUnit.speaking[(1 : ListenerIx)] = some 1 ∧ s.laneUnit.lanes[(1 : LaneIx)].reservedFor = none ∧
         s.laneUnit.waitList = (⟨3, 3, 1, true⟩ : WaitEntry) :: [] ∧ s.laneUnit.lanes[(2 : LaneIx)].state = .vacant) ∧
      (inCall 1 #v[drainingLane 0, {}, {}] []).laneUnit.waitList = [] ∧ (crowd 1).callCtl.state ≠ .inCall ∧
      (mixingLane 0 0).carries = true := by decide +kernel

/-! ## The Aligner and the mix -/

/-- The least and the greatest need, and rings short of it by none, one and two blocks. -/
theorem test_PullFollowsItsStages_meets :
    (mixingLane 0 0).InRange ∧ (mixingLane 0 0).CountersBounded ∧ (mixingLane 0 0).position < 65536 ∧
      ({ mixingLane 0 0 with ring := [], position := 65535, step := 65600 } : Lane).InRange ∧
      ((65535 + 79 * 65600) / 65536 + 2, (0 + 79 * 65472) / 65536 + 2) = (82, 80) ∧ (mixingLane 0 0).expected = some 10 := by
  decide +kernel

theorem test_MixRowsAreScaledAndSummed_meets :
    (blockInts (flat 1)).length = 80 ∧ (79 : Nat) < 80 ∧
      (let h : Handover := { contributions := [⟨0, List.replicate 80 8000⟩], mixing := 3 }
       h.mixing ≤ 3 ∧ ∀ c ∈ h.contributions, c.samples.length = 80) := by decide +kernel

theorem test_OutputsAreSaturatedAndEmitted_meets : party.PartySound ∧ party.roster.recipients.length = 2 :=
  ⟨party_sound, by decide +kernel⟩

end Sys2Proof.Tests
end

