-- ==== Sys2Proof/Proofs/Pairing.lean ====
section
/-! PROOFS. PARK: what the command does by the link state of the bud its handle names (R7, R31, R39). -/

namespace Sys2Proof.Machine

/-- A PARK that the Air Port takes is the request of R39. -/
theorem exec_park {s : State} (h : Handle) (q : Byte) (ht : s.AirTakes) : exec (.park h q) s = .next (s.parkRequest h) :=
  congrArg Host.Outcome.next (State.atPort_air _ ht)

/-- PARK from a supervised bud parks it (R39). -/
theorem State.parkRequest_of_supervised {s : State} {h : Handle} {b : BudIx} (hb : s.roster.budByHandle h = some b)
    (hl : s.roster.buds[b].link = .joining ∨ s.roster.buds[b].link = .live ∨ s.roster.buds[b].link = .fading) :
    s.parkRequest h = s.parkBud b := by
  rcases hl with hl | hl | hl <;> simp only [State.parkRequest, hb, hl]

/-- PARK from a PARKED bud changes nothing (R39). -/
theorem State.parkRequest_of_parked {s : State} {h : Handle} {b : BudIx} (hb : s.roster.budByHandle h = some b)
    (hl : s.roster.buds[b].link = .parked) : s.parkRequest h = s := by
  simp only [State.parkRequest, hb, hl]

/-- PARK from the OFFERED bud or an unknown handle is stray (R31). -/
theorem State.parkRequest_of_stray {s : State} {h : Handle}
    (hs : ∀ b : BudIx, s.roster.budByHandle h = some b → s.roster.buds[b].link = .offered) :
    s.parkRequest h = s.countStray := by
  cases hb : s.roster.budByHandle h with
  | none => simp only [State.parkRequest, hb]
  | some b => simp only [State.parkRequest, hb, hs b hb]

/-- Parking sends no frame on the Air Link: the record and the queue are not the Air Port's, and a notice leaves it as it is
(R7, R39). -/
@[simp] theorem State.parkBud_airPort (s : State) (b : BudIx) : (s.parkBud b).airPort = s.airPort :=
  (State.noticeFor_only _ _).airPort

/-- Settles O43, by the link state of the bud that the handle names. -/
theorem parkParksTheBud : Obligations.ParkParksTheBud := by
  unfold Obligations.ParkParksTheBud
  refine ⟨fun s h q b ht hb => ⟨fun hl => ⟨?_, s.parkBud_airPort b⟩, fun hl => ?_⟩, fun s h q ht hs => ?_⟩
  · rw [exec_park h q ht, State.parkRequest_of_supervised hb hl]
    rfl
  · rw [exec_park h q ht, State.parkRequest_of_parked hb hl]
  · rw [exec_park h q ht, State.parkRequest_of_stray hs]
    rfl

end Sys2Proof.Machine
end

