-- ==== Sys2Proof/Proofs/ReceiveQueues.lean ====
section
/-! PROOFS. Arrivals: the order in which the blocks take one (R45), and an unbound bud's queue (R47). -/

namespace Sys2Proof.Machine

/-! ## An unbound queue (R47) -/

/-- An entry whose sequence is queued is a counted duplicate (R47). -/
theorem queueUnbound_of_queued {e : Entry} {q : List Entry} (d : Discards) (h : ∃ x ∈ q, x.seq = e.seq) :
    queueUnbound e q d = (q, d.addDuplicate) := by
  simp [queueUnbound, h]

/-- Any other entry becomes the newest, and the newest two stay (R47). -/
theorem queueUnbound_of_new {e : Entry} {q : List Entry} (d : Discards) (h : ∀ x ∈ q, x.seq ≠ e.seq) :
    queueUnbound e q d = (keepLast 2 (q ++ [e]), d) := by
  have hn : ¬ ∃ x ∈ q, x.seq = e.seq := fun ⟨x, hx, hs⟩ => h x hx hs
  simp [queueUnbound, hn, Config.unboundQueueLimit]

/-- A third entry pushes out the oldest; fewer all stay (R47). -/
theorem keepLast_two_append {q : List Entry} (e : Entry) (h : q.length ≤ 2) :
    keepLast 2 (q ++ [e]) = if q.length = 2 then q.drop 1 ++ [e] else q ++ [e] := by
  unfold keepLast
  split
  case isTrue h2 =>
    have hdrop : (q ++ [e]).length - 2 = 1 := by simp [h2]
    rw [hdrop, List.drop_append_of_le_length (by omega)]
  case isFalse h2 =>
    have hdrop : (q ++ [e]).length - 2 = 0 := by simp; omega
    rw [hdrop, List.drop_zero]

/-! ## Intake's step of an arrival (R45 to R50) -/

/-- An arrival for a bound bud goes to the lane that carries the bud (R48). -/
theorem State.intakeArrival_of_bound {s : State} {b : BudIx} {k : LaneIx} (e : Entry)
    (h : s.laneUnit.boundLane b = some k) : s.intakeArrival b e = s.setFeed k b ((s.feed k b).arrive e) := by
  simp only [State.intakeArrival, h]

/-- An arrival for an unbound bud goes to its queue and its counters (R47). -/
theorem State.intakeArrival_of_unbound {s : State} {b : BudIx} (e : Entry) (h : s.laneUnit.boundLane b = none) :
    s.intakeArrival b e =
      { s with
        intake :=
          { queues := s.intake.queues.set b (queueUnbound e s.intake.queues[b] s.intake.discards[b]).1
            discards := s.intake.discards.set b (queueUnbound e s.intake.queues[b] s.intake.discards[b]).2 } } := by
  simp only [State.intakeArrival, h]

/-- Intake's step reaches the queues, the counters and the lanes alone (R45). -/
theorem State.intakeArrival_frame (s : State) (b : BudIx) (e : Entry) :
    s.intakeArrival b e =
      { s with intake := (s.intakeArrival b e).intake, laneUnit := (s.intakeArrival b e).laneUnit } := by
  cases h : s.laneUnit.boundLane b with
  | none => rw [s.intakeArrival_of_unbound e h]
  | some k => rw [s.intakeArrival_of_bound e h]; rfl

@[simp] theorem State.intakeArrival_roster (s : State) (b : BudIx) (e : Entry) :
    (s.intakeArrival b e).roster = s.roster := by rw [s.intakeArrival_frame b e]

@[simp] theorem State.intakeArrival_directives (s : State) (b : BudIx) (e : Entry) :
    (s.intakeArrival b e).directives = s.directives := by rw [s.intakeArrival_frame b e]

/-- Intake decides from the queues, the counters and the lanes alone (R45). -/
theorem State.intakeArrival_congr {s t : State} (b : BudIx) (e : Entry) (hi : s.intake = t.intake)
    (hl : s.laneUnit = t.laneUnit) :
    (s.intakeArrival b e).intake = (t.intakeArrival b e).intake ∧
      (s.intakeArrival b e).laneUnit = (t.intakeArrival b e).laneUnit := by
  cases h : t.laneUnit.boundLane b with
  | none =>
    rw [t.intakeArrival_of_unbound e h, s.intakeArrival_of_unbound e (hl ▸ h)]
    simp only [hi, hl, and_self]
  | some k =>
    rw [t.intakeArrival_of_bound e h, s.intakeArrival_of_bound e (hl ▸ h)]
    simp only [State.setFeed_intake, State.setFeed_laneUnit, State.feed, hi, hl, and_self]

/-! ## The Roster's step of an arrival (R5, R9, R45) -/

@[simp] theorem Bud.credit_listener (r : Bud) : r.credit.listener = r.listener := by
  unfold Bud.credit
  simp only
  split <;> split <;> rfl

@[simp] theorem Bud.qualify_listener (r : Bud) (n : Nat) : (r.qualify n).listener = r.listener := by
  unfold Bud.qualify
  split
  · split <;> rfl
  · rfl
  · rfl

@[simp] theorem Bud.hear_listener (r : Bud) (body : Body) (n : Nat) : (r.hear body n).listener = r.listener := by
  unfold Bud.hear
  split
  · rfl
  · simp only
    split <;> rfl

/-- An arrival moves no bud to another listener (R5, R9). -/
@[simp] theorem Bud.arrive_listener (r : Bud) (body : Body) (set : Settings) :
    (r.arrive body set).listener = r.listener := by
  simp only [Bud.arrive, Bud.hear_listener, Bud.qualify_listener, Bud.credit_listener]

/-! ## An arrival at the Air Port (R31, R45) -/

/-- An AUDIO block that the Air Port takes is one arrival (R45). -/
theorem exec_audio {s : State} (h : Handle) (q : Byte) (samples : Block) (ht : s.AirTakes) :
    exec (.audio h q samples) s = .next (s.arrival h { seq := q, body := .audio samples }) :=
  congrArg Host.Outcome.next (State.atPort_air _ ht)

/-- A SILENCE mark that the Air Port takes is one arrival (R45). -/
theorem exec_silence {s : State} (h : Handle) (q : Byte) (ht : s.AirTakes) :
    exec (.silence h q) s = .next (s.arrival h { seq := q, body := .silence }) :=
  congrArg Host.Outcome.next (State.atPort_air _ ht)

/-- An arrival from a bud that is not OFFERED is taken by Intake and then by the Roster (R45). -/
theorem State.arrival_of_known {s : State} {h : Handle} {b : BudIx} (e : Entry)
    (hb : s.roster.budByHandle h = some b) (hl : s.roster.buds[b].link ≠ .offered) :
    s.arrival h e = (s.intakeArrival b e).rosterArrival b e.body := by
  simp only [State.arrival, hb, if_neg hl]

/-- An arrival from the OFFERED bud or an unknown handle is stray (R31). -/
theorem State.arrival_of_stray {s : State} {h : Handle} (e : Entry)
    (hs : ∀ b : BudIx, s.roster.budByHandle h = some b → s.roster.buds[b].link = .offered) :
    s.arrival h e = s.countStray := by
  cases hb : s.roster.budByHandle h with
  | none => simp only [State.arrival, hb]
  | some b => simp only [State.arrival, hb, if_pos (hs b hb)]

/-! ## The statements -/

/-- Settles O38, by whether the arrival's sequence is queued. -/
theorem unboundQueueKeepsTheNewestTwo : Obligations.UnboundQueueKeepsTheNewestTwo := by
  unfold Obligations.UnboundQueueKeepsTheNewestTwo
  intro s b e hu
  refine ⟨fun hq => ?_, fun hn hlen => ?_⟩
  · have hkept : s.intake.queues.set b s.intake.queues[b] = s.intake.queues := Vector.set_getElem_self b.isLt
    rw [s.intakeArrival_of_unbound e hu, queueUnbound_of_queued _ hq, hkept]
    rfl
  · have hkept : s.intake.discards.set b s.intake.discards[b] = s.intake.discards := Vector.set_getElem_self b.isLt
    rw [s.intakeArrival_of_unbound e hu, queueUnbound_of_new _ hn, keepLast_two_append e hlen, hkept]

/-- Settles O36, by whom the handle names; what Intake reads and reaches does not depend on it. -/
theorem arrivalIsTakenInOrder : Obligations.ArrivalIsTakenInOrder := by
  unfold Obligations.ArrivalIsTakenInOrder
  refine ⟨fun s h q samples b i e ht hb hl hi => ?_, fun s h q samples ht hs => ⟨?_, ?_⟩,
    fun s t b e hi hl => State.intakeArrival_congr b e hi hl, State.intakeArrival_frame⟩
  · have hexec : exec i s = .next (s.arrival h e) := by
      obtain ⟨rfl, rfl⟩ | ⟨rfl, rfl⟩ := hi
      · exact exec_audio h q samples ht
      · exact exec_silence h q ht
    rw [hexec, State.arrival_of_known e hb hl]
    simp only [State.rosterArrival, State.intakeArrival_roster, State.intakeArrival_directives, Bud.arrive_listener]
  · rw [exec_audio h q samples ht, State.arrival_of_stray _ hs]
    rfl
  · rw [exec_silence h q ht, State.arrival_of_stray _ hs]
    rfl

end Sys2Proof.Machine
end

section
/-! PROOFS. Frames that fail a check (R131, R142), and a full transmit queue of the Air Port (R135). -/

namespace Sys2Proof

/-! ## The checks of a frame (R131, R142) -/

/-- The kinds and lengths of the Air Link inbound (R142). -/
theorem inboundLength_air_eq_some_some {k n : Nat} :
    inboundLength .air k = some (some n) ↔
      (k, n) ∈ [(1, 160), (2, 0), (3, 6), (4, 0), (5, 0), (6, 0), (7, 10), (8, 0)] := by
  unfold inboundLength
  split <;> simp_all [eq_comm]

/-- Every kind of the Air Link has its own length (R142). -/
theorem inboundLength_air_ne_some_none (k : Nat) : inboundLength .air k ≠ some none := by
  unfold inboundLength
  split <;> simp_all

/-- Voice alone has a fixed length on the Voice Link (R142). -/
theorem inboundLength_voice_eq_some_some {k n : Nat} :
    inboundLength .voice k = some (some n) ↔ k = 33 ∧ n = 160 := by
  unfold inboundLength
  split <;> simp_all [eq_comm]

/-- A directive may have any length (R142, R147). -/
theorem inboundLength_voice_eq_some_none {k : Nat} : inboundLength .voice k = some none ↔ k = 34 := by
  unfold inboundLength
  split <;> simp_all

/-- Checks 2 to 4 of R131: a kind that the link carries, its payload length, and on the Air Link a handle. -/
theorem Frame.suits_iff (link : Link) (f : Frame) :
    f.suits link = true ↔
      (inboundLength link f.kind.toNat = some none ∨ inboundLength link f.kind.toNat = some (some f.payload.length)) ∧
        (link = .air → f.second.toNat ≤ 15) := by
  have hhandle : f.second.toNat < 16 ↔ f.second.toNat ≤ 15 := Nat.lt_succ_iff
  unfold Frame.suits
  cases inboundLength link f.kind.toNat with
  | none => simp
  | some required =>
    cases required with
    | none => cases link <;> simp [hhandle]
    | some n => cases link <;> simp [hhandle, eq_comm (a := n)]

/-- Fewer than four bytes are no frame (R131). -/
theorem checkFrame_of_short {link : Link} {bytes : List Byte} (loose : Nat) (h : bytes.length < 4) :
    checkFrame link bytes loose = none := by
  match bytes, h with
  | [], _ | [_], _ | [_, _], _ | [_, _, _], _ => rfl

/-- A whole header passes with whole bytes, the byte count it gives, and a payload that suits its kind (R131). -/
theorem checkFrame_header_eq_none {link : Link} {kind second third len : Byte} {payload : List Byte} {loose : Nat} :
    checkFrame link (kind :: second :: third :: len :: payload) loose = none ↔
      ¬ (loose = 0 ∧ payload.length = len.toNat ∧ Frame.suits link ⟨kind, second, third, payload⟩ = true) := by
  by_cases h : loose = 0 ∧ payload.length = len.toNat
  · simp [checkFrame, splitFrame, h]
  · simp only [checkFrame, splitFrame, if_neg h, Option.filter_none, true_iff]
    exact fun ⟨hloose, hlen, _⟩ => h ⟨hloose, hlen⟩

/-- The checks of R131 on the bytes themselves, for both links. -/
theorem checkFrame_eq_none_iff {link : Link} {bytes : List Byte} {loose : Nat} :
    checkFrame link bytes loose = none ↔
      ¬ (loose = 0 ∧ 4 ≤ bytes.length ∧ bytes.length = 4 + (bytes.getD 3 0).toNat ∧
        (inboundLength link (bytes.getD 0 0).toNat = some none ∨
          inboundLength link (bytes.getD 0 0).toNat = some (some (bytes.getD 3 0).toNat)) ∧
        (link = .air → (bytes.getD 1 0).toNat ≤ 15)) := by
  match bytes with
  | [] | [_] | [_, _] | [_, _, _] => simp [checkFrame_of_short]
  | kind :: second :: third :: len :: payload =>
    have hcount : (kind :: second :: third :: len :: payload).length = 4 + len.toNat ↔ payload.length = len.toNat := by
      simp only [List.length_cons]
      omega
    rw [checkFrame_header_eq_none, Frame.suits_iff]
    refine not_congr (and_congr_right fun _ => ?_)
    constructor
    · rintro ⟨hlen, hsuits⟩
      exact ⟨by simp, hcount.2 hlen, hlen ▸ hsuits⟩
    · rintro ⟨-, hlen, hsuits⟩
      exact ⟨hcount.1 hlen, (hcount.1 hlen).symm ▸ hsuits⟩

/-! ## The commands of sound frames -/

theorem airCommand_ne_frameMalformed (f : Frame) (link : Link) (bytes : List Byte) (loose : Nat) :
    airCommand f ≠ .frameMalformed link bytes loose := by
  unfold airCommand
  simp only
  split <;> exact Instr.noConfusion

theorem directiveOf_ne_frameMalformed (code seq : Byte) (p : List Byte) (a : Arriving) (link : Link) (bytes : List Byte)
    (loose : Nat) : directiveOf code seq p a ≠ .frameMalformed link bytes loose := by
  unfold directiveOf
  split <;> exact Instr.noConfusion

theorem voiceCommand_ne_frameMalformed (o : CadenceOrder) (a : Arriving) (f : Frame) (link : Link) (bytes : List Byte)
    (loose : Nat) : voiceCommand o a f ≠ .frameMalformed link bytes loose := by
  unfold voiceCommand
  split
  · exact Instr.noConfusion
  · exact directiveOf_ne_frameMalformed _ _ _ _ _ _ _

/-- FRAME_MALFORMED is the command of the bytes that fail the checks, and of no sound frame (R131). -/
theorem receive_eq_frameMalformed_iff {link : Link} {o : CadenceOrder} {a : Arriving} {bytes : List Byte} {loose : Nat} :
    receive link o a bytes loose = .frameMalformed link bytes loose ↔ checkFrame link bytes loose = none := by
  unfold receive
  cases checkFrame link bytes loose with
  | none => simp only
  | some f =>
    cases link with
    | air => simpa using airCommand_ne_frameMalformed f .air bytes loose
    | voice => simpa using voiceCommand_ne_frameMalformed o a f .voice bytes loose

end Sys2Proof

namespace Sys2Proof.Machine

/-! ## A malformed frame at a port (R131, R140) -/

/-- A malformed frame that the Air Port takes is counted there (R131). -/
theorem exec_frameMalformed_air {s : State} (bytes : List Byte) (loose : Nat) (ht : s.AirTakes) :
    exec (.frameMalformed .air bytes loose) s = .next (s.countMalformed .air) :=
  congrArg Host.Outcome.next (State.atPort_air _ ht)

/-- A malformed frame that the Voice Port takes is counted there (R131). -/
theorem exec_frameMalformed_voice {s : State} (bytes : List Byte) (loose : Nat) (ht : s.VoiceTakes) :
    exec (.frameMalformed .voice bytes loose) s = .next (s.countMalformed .voice) :=
  congrArg Host.Outcome.next (State.atPort_voice _ ht)

/-! ## The Air Port's transmit queue (R134, R135) -/

/-- A frame that finds room is appended (R134). -/
theorem AirPort.enqueue_of_room {a : AirPort} (f : AirFrame) (h : a.queue.length < 16) :
    a.enqueue f = { a with queue := a.queue ++ [f] } := if_pos h

/-- A full queue of answer frames discards the new frame (R135). -/
theorem AirPort.enqueue_of_answers {a : AirPort} (f : AirFrame) (hfull : a.queue.length = 16)
    (hanswers : ∀ g ∈ a.queue, g.isAnswer = true) :
    a.enqueue f = { a with drops := min (a.drops + 1) 65535 } := by
  have hnone : takeFirst (fun g => !g.isAnswer) a.queue = none :=
    takeFirst_eq_none.2 fun g hg => by simp [hanswers g hg]
  simp [AirPort.enqueue, Config.airQueueLimit, hfull, hnone, satInc, Config.counterMax]

/-- A full queue gives up its first downlink frame to the new frame (R135). -/
theorem AirPort.enqueue_of_downlink {a : AirPort} (f : AirFrame) {before after : List AirFrame} {d : AirFrame}
    (hfull : a.queue.length = 16) (hq : a.queue = before ++ d :: after) (hbefore : ∀ g ∈ before, g.isAnswer = true)
    (hd : d.isAnswer = false) :
    a.enqueue f = { a with queue := before ++ after ++ [f], drops := min (a.drops + 1) 65535 } := by
  have htake : takeFirst (fun g => !g.isAnswer) a.queue = some (d, before ++ after) :=
    takeFirst_eq_some.2 ⟨before, after, hq, fun g hg => by simp [hbefore g hg], by simp [hd], rfl⟩
  simp [AirPort.enqueue, Config.airQueueLimit, hfull, htake, satInc, Config.counterMax]

/-! ## The statements -/

/-- Settles O12: `checkFrame` in elementary terms, link by link, and then the count. -/
theorem malformedFramesAreCounted : Obligations.MalformedFramesAreCounted := by
  unfold Obligations.MalformedFramesAreCounted
  refine ⟨fun link o a bytes loose => ?_, fun bytes loose s ht => exec_frameMalformed_air bytes loose ht,
    fun bytes loose s ht => exec_frameMalformed_voice bytes loose ht⟩
  rw [receive_eq_frameMalformed_iff, checkFrame_eq_none_iff]
  cases link with
  | air =>
    simp only [inboundLength_air_ne_some_none, inboundLength_air_eq_some_some, false_or, forall_const]
  | voice =>
    simp only [inboundLength_voice_eq_some_none, inboundLength_voice_eq_some_some, reduceCtorEq, false_implies, and_true,
      or_comm]

/-- Settles O15, by whether the queue has room and, where it has none, whether it holds a downlink frame. -/
theorem fullAirQueueMakesRoom : Obligations.FullAirQueueMakesRoom := by
  unfold Obligations.FullAirQueueMakesRoom
  exact ⟨fun a f => ⟨AirPort.enqueue_of_room f, AirPort.enqueue_of_answers f,
    fun _ _ _ => AirPort.enqueue_of_downlink f⟩, fun _ _ => rfl⟩

end Sys2Proof.Machine
end

section
/-! PROOFS. The report queue and its loss indication (R161, R162), READ (R151), and CLEAR COUNTERS (R158). -/

namespace Sys2Proof.Machine

/-! ## The report queue (R161, R162) -/

/-- A report that finds room is appended (R161). -/
theorem DirectiveUnit.enqueue_of_room {d : DirectiveUnit} (r : Report) (h : d.reports.length < 8) :
    d.enqueue r = { d with reports := d.reports ++ [r] } := if_pos h

/-- A full queue of replies discards the new report and marks the loss (R162). -/
theorem DirectiveUnit.enqueue_of_replies {d : DirectiveUnit} (r : Report) (hfull : d.reports.length = 8)
    (hreplies : ∀ g ∈ d.reports, g.isEvent = false) :
    d.enqueue r = { d with lossIndication := true, reportsLost := min (d.reportsLost + 1) 65535 } := by
  have hnone : takeFirst Report.isEvent d.reports = none := takeFirst_eq_none.2 hreplies
  simp [DirectiveUnit.enqueue, Config.reportQueueLimit, hfull, hnone, satInc, Config.counterMax]

/-- A full queue gives up its oldest event report to the new report and marks the loss (R162). -/
theorem DirectiveUnit.enqueue_of_event {d : DirectiveUnit} (r : Report) {before after : List Report} {e : Report}
    (hfull : d.reports.length = 8) (hq : d.reports = before ++ e :: after)
    (hbefore : ∀ g ∈ before, g.isEvent = false) (he : e.isEvent = true) :
    d.enqueue r =
      { d with
        reports := before ++ after ++ [r], lossIndication := true, reportsLost := min (d.reportsLost + 1) 65535 } := by
  have htake : takeFirst Report.isEvent d.reports = some (e, before ++ after) :=
    takeFirst_eq_some.2 ⟨before, after, hq, hbefore, he, rfl⟩
  simp [DirectiveUnit.enqueue, Config.reportQueueLimit, hfull, htake, satInc, Config.counterMax]

/-- An idle transmitter with no uplink frame to send takes the oldest report, with the loss indication as its mark
(R139, R162). -/
theorem State.chooseVoice_of_report {s : State} {r : Report} {rest : List Report} (ho : s.voicePort.isOpen = true)
    (hh : s.voicePort.holdOff = false) (hidle : s.voicePort.sending = none) (hslot : s.voicePort.slot = none)
    (hq : s.directives.reports = r :: rest) :
    s.chooseVoice =
      { s with
        voicePort := { s.voicePort with sending := some (.report r s.directives.lossIndication) }
        directives := { s.directives with reports := rest, lossIndication := false } } := by
  simp [State.chooseVoice, ho, hh, hidle, hslot, hq]

/-- A choice never sets the loss indication (R139, R162). -/
theorem State.chooseVoice_lossIndication_of_clear {s : State} (h : s.directives.lossIndication = false) :
    s.chooseVoice.directives.lossIndication = false := by
  unfold State.chooseVoice
  split
  case isTrue =>
    split
    · exact h
    · split
      · exact h
      · rfl
  case isFalse => exact h

/-- Start-up leaves no loss indication (R162, R163). -/
theorem State.start_lossIndication (s : State) (cause : StartCause) :
    (s.start cause).directives.lossIndication = false :=
  State.chooseVoice_lossIndication_of_clear (s := s.startUp cause) rfl

/-- Start-up counts no lost report (R163). -/
theorem State.start_reportsLost (s : State) (cause : StartCause) : (s.start cause).directives.reportsLost = 0 :=
  (s.startUp cause).chooseVoice_reports.2

/-! ## Directives that are always answered (R146) -/

/-- A directive of a suitable length that the Voice Port takes has its effect, and then its reply is posted (R146). -/
theorem State.takeDirective_answered {s : State} {code seq : Byte} {p : List Byte} (act : State → State × Reply)
    (h : s.VoiceTakes) (hp : directiveLength code.toNat p.length = true) :
    s.takeDirective code seq p (answered act) =
      (act s.consumeMask).1.post (.reply code seq (act s.consumeMask).2) :=
  (State.takeDirective_fits _ h hp).trans (State.conclude_answered code seq act _ _)

/-! ## READ (R151) -/

/-- A READ that the Voice Port takes is the act of R151 and its reply. -/
theorem exec_read {s : State} (seq n : Byte) (h : s.VoiceTakes) :
    exec (.read seq [n]) s =
      .next ((s.consumeMask.readDirective [n]).1.post (.reply 2 seq (s.consumeMask.readDirective [n]).2)) :=
  congrArg Host.Outcome.next (State.takeDirective_answered (fun s => s.readDirective [n]) h rfl)

/-- What a run reads as does not depend on the pending mask (R149, R151). -/
@[simp] theorem State.consumeMask_readRun (s : State) (r : RegionIx) (i n : Nat) :
    s.consumeMask.readRun r i n = s.readRun r i n := rfl

/-- Region 13 has no mode, so it is never HIDDEN (R149, R156). -/
theorem DirectiveUnit.val_ne_thirteen_of_hidden {d : DirectiveUnit} {r : RegionIx} (h : d.modeOf r = .hidden) :
    r.val ≠ 13 := by
  intro h13
  simp [DirectiveUnit.modeOf, h13] at h

section
variable {s : State} {n : Byte}

/-- Check 1 of READ: a run of 1 to 32 words (R151). -/
theorem State.readDirective_of_format (h : n.toNat < 1 ∨ 32 < n.toNat) :
    s.readDirective [n] = (s, .refused .format) := if_pos h

/-- Check 2 of READ: a run that ends within its region (R151). -/
theorem State.readDirective_of_range (hn : ¬ (n.toNat < 1 ∨ 32 < n.toNat))
    (h : regionCount s.directives.region < s.directives.index + n.toNat) :
    s.readDirective [n] = (s, .refused .range) := (if_neg hn).trans (if_pos h)

/-- Check 3 of READ: a region that is not HIDDEN (R151). -/
theorem State.readDirective_of_hidden (hn : ¬ (n.toNat < 1 ∨ 32 < n.toNat))
    (hr : ¬ regionCount s.directives.region < s.directives.index + n.toNat)
    (h : s.directives.modeOf s.directives.region = .hidden) :
    s.readDirective [n] = (s, .refused .protection) := (if_neg hn).trans ((if_neg hr).trans (if_pos h))

/-- Otherwise READ answers the run, and the pointer stands past it (R150, R151). -/
theorem State.readDirective_of_run (hn : ¬ (n.toNat < 1 ∨ 32 < n.toNat))
    (hr : ¬ regionCount s.directives.region < s.directives.index + n.toNat)
    (h : s.directives.modeOf s.directives.region ≠ .hidden) :
    s.readDirective [n] =
      (s.setPointer s.directives.region (s.directives.index + n.toNat),
        .data s.directives.region s.directives.index (s.readRun s.directives.region s.directives.index n.toNat)) :=
  (if_neg hn).trans ((if_neg hr).trans (if_neg h))

end

/-! ## CLEAR COUNTERS (R158) -/

/-- A CLEAR COUNTERS that the Voice Port takes is the act of R158 and its reply. -/
theorem exec_clearCounters {s : State} (seq : Byte) (h : s.VoiceTakes) :
    exec (.clearCounters seq []) s =
      .next ((s.consumeMask.clearCountersDirective).1.post (.reply 17 seq (s.consumeMask.clearCountersDirective).2)) :=
  congrArg Host.Outcome.next (State.takeDirective_answered State.clearCountersDirective h rfl)

/-- With region 10 OPEN, the counters are cleared (R158). -/
theorem State.clearCountersDirective_of_opened {s : State} (h : s.directives.modes[10] = .opened) :
    s.clearCountersDirective = (s.clearCounters, .done) := if_pos h

/-- With region 10 READ ONLY or HIDDEN, nothing is cleared (R158). -/
theorem State.clearCountersDirective_of_protected {s : State} (h : s.directives.modes[10] ≠ .opened) :
    s.clearCountersDirective = (s, .refused .protection) := if_neg h

/-- Every counter of region 10 is one that CLEAR COUNTERS clears (R158). -/
theorem State.clearCounters_counterWord (s : State) (i : Nat) : s.clearCounters.counterWord i = 0 := by
  unfold State.counterWord
  split
  case isTrue =>
    have hbud : pick s.clearCounters.intake.discards (i / 3) = {} := Vector.getElem_replicate _
    rw [hbud]
    exact List.getElem?_getD_replicate_default_eq 0 3 (i % 3)
  case isFalse => exact List.getElem?_getD_replicate_default_eq 0 11 (i - 24)

/-- Every word of region 10 reads 0 after CLEAR COUNTERS (R149, R158). -/
theorem State.clearCounters_readWord (s : State) (i : Nat) : s.clearCounters.readWord 10 i = 0 :=
  congrArg wordNat (s.clearCounters_counterWord i)

/-- CLEAR COUNTERS keeps each lane but for its two counters (R81, R158). -/
theorem State.clearCounters_lane (s : State) (k : LaneIx) :
    s.clearCounters.laneUnit.lanes[k] = { s.laneUnit.lanes[k] with slips := 0, conceals := 0 } :=
  Vector.getElem_map Lane.clearCounters k.isLt

/-! ## The statements -/

/-- Settles O25, by whether region 10 is OPEN. -/
theorem clearCountersClearsTheCounters : Obligations.ClearCountersClearsTheCounters := by
  unfold Obligations.ClearCountersClearsTheCounters
  intro s seq ht
  refine ⟨fun hmode => ?_, fun hmode => ⟨s.consumeMask.clearCounters, ?_, ?_⟩⟩
  · rw [exec_clearCounters seq ht, State.clearCountersDirective_of_protected (s := s.consumeMask) hmode]
    rfl
  · rw [exec_clearCounters seq ht, State.clearCountersDirective_of_opened (s := s.consumeMask) hmode]
  · exact ⟨fun i _ => s.consumeMask.clearCounters_readWord i, s.consumeMask.clearCounters_lane,
      rfl, rfl, rfl, rfl, rfl, rfl, rfl, rfl, rfl, rfl, rfl, rfl⟩

/-- Settles O21, check by check. -/
theorem readReturnsTheRun : Obligations.ReadReturnsTheRun := by
  unfold Obligations.ReadReturnsTheRun
  intro s seq n ht
  rw [exec_read seq n ht]
  refine congrArg Host.Outcome.next ?_
  simp only [and_iff_right_of_imp DirectiveUnit.val_ne_thirteen_of_hidden]
  split_ifs with hformat hrange hhidden
  · rw [State.readDirective_of_format (s := s.consumeMask) hformat]; rfl
  · rw [State.readDirective_of_range (s := s.consumeMask) hformat hrange]; rfl
  · rw [State.readDirective_of_hidden (s := s.consumeMask) hformat hrange hhidden]; rfl
  · rw [State.readDirective_of_run (s := s.consumeMask) hformat hrange hhidden, State.consumeMask_readRun]; rfl

/-- Settles O18: a report that enters the queue, the choice that sends one, start-up, and CLEAR COUNTERS. -/
theorem fullReportQueueMakesRoom : Obligations.FullReportQueueMakesRoom := by
  unfold Obligations.FullReportQueueMakesRoom
  refine ⟨fun d r => ⟨DirectiveUnit.enqueue_of_room r, DirectiveUnit.enqueue_of_replies r,
      fun _ _ _ => DirectiveUnit.enqueue_of_event r⟩, fun _ _ => rfl, fun s r rest ho hh hidle hslot hq => ?_,
    fun s cause => ⟨s.start_lossIndication cause, s.start_reportsLost cause⟩, fun _ => rfl⟩
  rw [State.chooseVoice_of_report ho hh hidle hslot hq]
  exact ⟨rfl, rfl⟩

end Sys2Proof.Machine
end

section
/-! PROOFS. LOAD PAGE: its checks in order, and the copy into the staging page (R172). -/

namespace Sys2Proof.Machine

/-! ## The page operand -/

/-- A byte above 20 names no page. -/
theorem pageOperand_eq_none {n : Byte} (h : 20 < n.toNat) : pageOperand n = none := dif_neg (by omega)

/-- A byte of 0 to 20 names the page of that number. -/
theorem pageOperand_eq_some {n : Byte} {q : PageIx} (h : n.toNat = q.val) : pageOperand n = some q :=
  (dif_pos (h ▸ q.isLt)).trans (congrArg some (Fin.ext h))

/-! ## LOAD PAGE (R172) -/

/-- A LOAD PAGE that the Voice Port takes is the act of R172 and its reply. -/
theorem exec_loadPage {s : State} (seq n : Byte) (h : s.VoiceTakes) :
    exec (.loadPage seq [n]) s =
      .next ((s.consumeMask.loadPageDirective n).1.post (.reply 16 seq (s.consumeMask.loadPageDirective n).2)) :=
  congrArg Host.Outcome.next (State.takeDirective_answered (fun s => s.loadPageDirective n) h rfl)

/-- Check 1 of LOAD PAGE: an operand that names a page (R172). -/
theorem State.loadPageDirective_of_range {s : State} {n : Byte} (h : 20 < n.toNat) :
    s.loadPageDirective n = (s, .refused .range) := by
  rw [State.loadPageDirective, pageOperand_eq_none h]

section
variable {s : State} {n : Byte} {q : PageIx}

/-- LOAD PAGE of a page is judged by checks 2 and 3, and copies the page otherwise (R172). -/
theorem State.loadPageDirective_of_page (hq : n.toNat = q.val) :
    s.loadPageDirective n =
      if s.loadProtected q = true then (s, .refused .protection)
      else if s.store.state.inFlight = some q then (s, .refused .busy)
      else ({ s with store := { s.store with staging := s.store.pages[q].getD blankImage } }, .done) := by
  rw [State.loadPageDirective, pageOperand_eq_some hq]

/-- Check 2 of LOAD PAGE: a page whose region is not HIDDEN (R167, R172). -/
theorem State.loadPageDirective_of_protected (hq : n.toNat = q.val) (h : s.loadProtected q = true) :
    s.loadPageDirective n = (s, .refused .protection) := (State.loadPageDirective_of_page hq).trans (if_pos h)

/-- Check 3 of LOAD PAGE: a page that is not the one in flight (R172). -/
theorem State.loadPageDirective_of_inFlight (hq : n.toNat = q.val) (hp : ¬ s.loadProtected q = true)
    (h : s.store.state.inFlight = some q) : s.loadPageDirective n = (s, .refused .busy) :=
  (State.loadPageDirective_of_page hq).trans ((if_neg hp).trans (if_pos h))

/-- Otherwise LOAD PAGE copies the page, or the blank image, into the staging page and nowhere else (R172). -/
theorem State.loadPageDirective_of_copy (hq : n.toNat = q.val) (hp : ¬ s.loadProtected q = true)
    (hf : ¬ s.store.state.inFlight = some q) :
    s.loadPageDirective n =
      ({ s with store := { s.store with staging := s.store.pages[q].getD blankImage } }, .done) :=
  (State.loadPageDirective_of_page hq).trans ((if_neg hp).trans (if_neg hf))

end

/-! ## The statement -/

/-- Settles O30, check by check. -/
theorem loadPageCopiesThePage : Obligations.LoadPageCopiesThePage := by
  unfold Obligations.LoadPageCopiesThePage
  intro s seq n ht
  refine ⟨fun hrange => ?_, fun q hq => ?_⟩
  · rw [exec_loadPage seq n ht, State.loadPageDirective_of_range hrange]; rfl
  rw [exec_loadPage seq n ht]
  refine congrArg Host.Outcome.next ?_
  split_ifs with hprotected hflight
  · rw [State.loadPageDirective_of_protected (s := s.consumeMask) hq hprotected]; rfl
  · rw [State.loadPageDirective_of_inFlight (s := s.consumeMask) hq hprotected hflight]; rfl
  · rw [State.loadPageDirective_of_copy (s := s.consumeMask) hq hprotected hflight, State.consumeMask_store]
    cases s.store.pages[q] with
    | none => rfl
    | some p => rfl

end Sys2Proof.Machine
end

