-- ==== Sys2Proof/Proofs/Changes.lean ====
section
/-! PROOFS. Everything that a command can do to the bridge, as a path of small changes, each kept to what its owner may
touch and each asking for a permission where R98 to R173 reserve a table or a register to certain commands. An invariant,
or a frame, of every command is then a matter of one change. -/

namespace Sys2Proof.Machine

/-! ## What a command may be permitted to change -/

/-- What the rules reserve to certain commands. -/
inductive Part where
  | pages | startUp | pointer | tables | stagingPage | operation | deferral | swapFlag | swapTaking | admission | bonds
  | call | mask | maskValue
deriving DecidableEq

/-- What a command may change of what is reserved (R26, R27, R98 to R101, R116, R150, R155, R164, R168 to R173). -/
def permits (c : Instr) : Part → Prop
  | .pages => mayChangePages c = true
  | .startUp => mayStartUp c = true
  | .pointer => mayMovePointer c = true
  | .tables => isWrite c = true
  | .stagingPage => isWrite c = true ∨ ∃ seq p, c = .loadPage seq p
  | .operation => ∃ seq p, c = .storePage seq p ∨ c = .erasePage seq p
  | .deferral => ∃ seq p a, c = .restart seq p a
  | .swapFlag => ∃ seq p, c = .swap seq p
  | .swapTaking => mayTakeSwap c = true
  | .admission => maySetAdmission c = true
  | .bonds => mayWriteBonds c = true
  | .call => mayChangeCall c = true
  | .mask => isDirective c = true ∨ ∃ a ∈ c.order.acts, a.isCall = true
  | .maskValue => ∃ seq p, c = .mask seq p

/-! ## The changes -/

/-- The ceilings of what Intake and the Aligner hold together (R44, R58, R59, R82, R91, R92). -/
structure FeedsBounded (u : LaneUnit) (i : Intake) : Prop where
  discards : ∀ b : BudIx, i.discards[b].Bounded
  queues : ∀ b : BudIx, i.queues[b].length ≤ 8
  counters : ∀ k : LaneIx, u.lanes[k].CountersBounded
  ranges : ∀ k : LaneIx, u.lanes[k].InRange

/-- The Air Port's arbiter has left nothing waiting that it may send (R136). -/
def AirPort.Busy (a : AirPort) : Prop := a.isOpen = true → a.holdOff = false → a.sending = none → a.queue = []

/-- The Voice Port's arbiter has left nothing waiting that it may send (R139). -/
def VoicePort.Busy (v : VoicePort) (d : DirectiveUnit) : Prop :=
  v.isOpen = true → v.holdOff = false → v.sending = none → v.slot = none ∧ d.reports = []

/-- The ceilings of the Voice Port and the report queue (R140, R161, R162). -/
def VoicePort.Bounded (v : VoicePort) (d : DirectiveUnit) : Prop :=
  v.malformed ≤ 65535 ∧ d.reports.length ≤ 8 ∧ d.reportsLost ≤ 65535

/-- What a run of written words leaves (R153). -/
structure State.OnlyTables (s t : State) : Prop where
  buds : t.roster.buds = s.roster.buds
  defaults : t.roster.defaults = s.roster.defaults
  context : t.pairing.context = s.pairing.context
  intake : t.intake = s.intake
  laneUnit : t.laneUnit = s.laneUnit
  active : t.mix.active = s.mix.active
  swapPending : t.mix.swapPending = s.mix.swapPending
  clips : t.mix.clips = s.mix.clips
  callCtl : t.callCtl = s.callCtl
  airPort : t.airPort = s.airPort
  voicePort : t.voicePort = s.voicePort
  region : t.directives.region = s.directives.region
  index : t.directives.index = s.directives.index
  mask : t.directives.mask = s.directives.mask
  reports : t.directives.reports = s.directives.reports
  reportsLost : t.directives.reportsLost = s.directives.reportsLost
  pages : t.store.pages = s.store.pages
  state : t.store.state = s.store.state
  restartPending : t.store.restartPending = s.store.restartPending
  pending : t.pending = s.pending

/-- One change of a command that is permitted `may`. -/
inductive Change (may : Part → Prop) (s : State) : State → Prop where
  /-- The Bud Table and the Listener Table (chapter 1). -/
  | roster (r : Roster) (hd : r.defaults = s.roster.defaults)
      (hb : (∀ b : BudIx, s.roster.buds[b].Bounded) → ∀ b : BudIx, r.buds[b].Bounded) : Change may s { s with roster := r }
  /-- The pairing context (R24). -/
  | context (c : Option Context) : Change may s { s with pairing := { s.pairing with context := c } }
  /-- The admission-open flag (R26). -/
  | admission (o : Bool) (hm : may .admission) : Change may s (s.setAdmission o)
  /-- The bond list (R27). -/
  | bonds (v : Vector BondEntry 8) (hm : may .bonds) : Change may s { s with pairing := { s.pairing with bonds := v } }
  /-- The lanes, the wait list and the receive queues (chapters 3 to 5). -/
  | lanes (u : LaneUnit) (i : Intake) (hb : FeedsBounded s.laneUnit s.intake → FeedsBounded u i) :
      Change may s { s with laneUnit := u, intake := i }
  /-- The Mix Engine's counters (R108, R109). -/
  | mixCounters (clips : Vector Nat 5) (seq : Byte)
      (hb : (∀ i : Fin 5, s.mix.clips[i] ≤ 65535) → ∀ i : Fin 5, clips[i] ≤ 65535) :
      Change may s { s with mix := { s.mix with clips := clips, uplinkSeq := seq } }
  | swapFlag (hm : may .swapFlag) : Change may s { s with mix := { s.mix with swapPending := true } }
  | swapTaken (hm : may .swapTaking) : Change may s s.takeSwap
  /-- The call state and the counts (R116); the timer stays armed or unarmed. -/
  | call (c : CallCtl) (hm : c.state ≠ s.callCtl.state → may .call) (ht : c.timer = s.callCtl.timer)
      (hb : s.callCtl.Bounded → c.Bounded) : Change may s { s with callCtl := c }
  /-- The cadence timer is armed while it is armed already, or while the port is open (R116). -/
  | armed (i : TimerInterval) (h : s.voicePort.isOpen = true ∨ s.callCtl.timer.isSome = true) : Change may s (s.armTimer i)
  | air (a : AirPort) (ho : a.isOpen = s.airPort.isOpen) (hq : s.airPort.Busy → a.Busy)
      (hb : s.airPort.Bounded → a.Bounded) : Change may s { s with airPort := a }
  /-- The Voice Port and the report queue (R138 to R141, R161, R162). -/
  | voice (v : VoicePort) (d : DirectiveUnit) (hd : d.SameTables s.directives) (ho : v.isOpen = s.voicePort.isOpen)
      (hq : s.voicePort.Busy s.directives → v.Busy d) (hb : s.voicePort.Bounded s.directives → v.Bounded d) :
      Change may s { s with voicePort := v, directives := d }
  | maskConsumed (hm : may .mask) : Change may s s.consumeMask
  | maskValue (w : Word) (hm : may .maskValue) :
      Change may s { s with directives := { s.directives with mask := some w } }
  | pointer (r : RegionIx) (i : Nat) (hm : may .pointer) : Change may s (s.setPointer r i)
  /-- The words of a WRITE (R153); a set lock keeps region 13 (R157). -/
  | tables (t : State) (h : s.OnlyTables t) (hm : may .tables ∧ may .stagingPage ∧ may .admission ∧ may .bonds)
      (hf : s.mix.FixedCellsZero → t.mix.FixedCellsZero)
      (hl : s.directives.lock = true → t.directives.lock = true ∧ t.directives.modes = s.directives.modes) : Change may s t
  | counters : Change may s s.clearCounters
  | stagingPage (p : Page) (hm : may .stagingPage) : Change may s { s with store := { s.store with staging := p } }
  /-- An operation begins on a page that is not protected (R169, R170). -/
  | operation (t : StoreState) (hi : t ≠ .idle) (hp : ∀ p, t.inFlight = some p → s.pageProtected p = false)
      (hm : may .operation) : Change may s (s.setStore t)
  | deferral (hm : may .deferral) (hi : s.store.state ≠ .idle) : Change may s s.deferRestart
  /-- A completion that no restart waits for (R171). -/
  | settled (hp : s.store.restartPending = false) (hm : may .pages ∧ may .startUp) :
      Change may s { s with store := s.store.settle }
  /-- A RESTART is taken (R173). -/
  | restarted (a : Arriving) (hi : s.store.state = .idle ∨ may .pages) (hm : may .startUp) :
      Change may s (({ s with store := s.store.settle } : State).restart a)
  | poweredUp (hm : may .pages ∧ may .startUp) :
      Change may s (({ s with store := s.store.loseFlight } : State).stopLinks.start .powerUp)
  | powerLost (hm : may .pages ∧ may .startUp) : Change may s s.losePower

/-- A path of changes. -/
abbrev Reaches (may : Part → Prop) : State → State → Prop := Relation.ReflTransGen (Change may)

theorem Change.reaches {may : Part → Prop} {s t : State} (h : Change may s t) : Reaches may s t := .single h

/-- A fold of operations that are paths is a path. -/
theorem Reaches.foldl {may : Part → Prop} {α : Type} (f : State → α → State) (l : List α)
    (h : ∀ a ∈ l, ∀ s : State, Reaches may s (f s a)) (s : State) : Reaches may s (l.foldl f s) := by
  induction l generalizing s with
  | nil => exact .refl
  | cons a l ih => exact (h a (by simp) s).trans (ih (fun b hb => h b (by simp [hb])) _)

end Sys2Proof.Machine
end

