-- ==== Sys2Proof/Proofs/FeedBounds.lean ====
section
/-! PROOFS. The ceilings and ranges of what Intake and the Aligner hold (R44, R58, R59, R82, R91, R92), kept by each of
their operations. -/

namespace Sys2Proof.Machine

/-- A table read after one entry of it is set. -/
theorem getElem_set_fin {α : Type} {n : Nat} (v : Vector α n) (i j : Fin n) (x : α) :
    (v.set i x)[j] = if i = j then x else v[j] := by
  simp only [Fin.getElem_fin, Vector.getElem_set, Fin.ext_iff]

/-- A law of every entry of a table is kept when one entry that obeys it is set. -/
theorem forall_set {α : Type} {n : Nat} {p : α → Prop} {v : Vector α n} (h : ∀ j : Fin n, p v[j]) (i : Fin n) {x : α}
    (hx : p x) (j : Fin n) : p (v.set i x)[j] := by
  rw [getElem_set_fin]
  split
  · exact hx
  · exact h j

/-- A counter that rises stays at or below its ceiling (00_scope.md, Saturation). -/
theorem satInc_le (top n : Nat) : satInc top n ≤ top := Nat.min_le_right _ _

theorem DirectiveUnit.SameTables.settings {d e : DirectiveUnit} (h : d.SameTables e) : d.settings = e.settings := h.2.2.2.2.2

/-! ## A lane with its bud's queue and counters -/

/-- The ceilings of a feed (R44, R58, R59, R82, R91, R92). -/
structure Feed.Bounded (f : Feed) : Prop where
  discards : f.discards.Bounded
  queue : f.queue.length ≤ 8
  counters : f.lane.CountersBounded
  range : f.lane.InRange

theorem Discards.addLate_bounded {d : Discards} (h : d.Bounded) : d.addLate.Bounded := ⟨satInc_le _ _, h.2.1, h.2.2⟩

theorem Discards.addDuplicate_bounded {d : Discards} (h : d.Bounded) : d.addDuplicate.Bounded := ⟨h.1, satInc_le _ _, h.2.2⟩

theorem Discards.addOverflow_bounded {d : Discards} (h : d.Bounded) : d.addOverflow.Bounded := ⟨h.1, h.2.1, satInc_le _ _⟩

/-- A movement keeps a lane in range (R51, R82). -/
theorem moveDue_inRange (q : List Entry) {l : Lane} (h : l.InRange) : (moveDue q l).2.InRange := by
  obtain ⟨hring, hpos, hlo, hhi, hf0, hf1, hcount⟩ := h
  have same := moveDue_same q l
  refine ⟨moveDue_ring q l hring, same.position ▸ hpos, same.step ▸ hlo, same.step ▸ hhi, same.filter ▸ hf0,
    same.filter ▸ hf1, ?_⟩
  rcases moveDue_concealCount q l with h0 | h0
  · rw [h0]; exact Nat.zero_le 2
  · rw [h0]; exact hcount

theorem Feed.move_bounded {f : Feed} (h : f.Bounded) : f.move.Bounded where
  discards := h.discards
  queue := f.move_suffix.length_le.trans h.queue
  counters := by
    have same := f.move_same
    exact ⟨same.slips ▸ h.counters.1, same.conceals ▸ h.counters.2⟩
  range := moveDue_inRange f.queue h.range

theorem keepLast_length (n : Nat) (q : List Entry) : (keepLast n q).length ≤ n := by
  simp only [keepLast, List.length_drop]
  omega

/-- Late discards counted one after another keep the ceilings. -/
theorem Discards.foldl_addLate_bounded (l : List Entry) {d : Discards} (h : d.Bounded) :
    (l.foldl (fun d _ => d.addLate) d).Bounded := by
  induction l generalizing d with
  | nil => exact h
  | cons a l ih => exact ih (Discards.addLate_bounded h)

/-- Intake's preparation for a binding keeps the ceilings (R52). -/
theorem Feed.prepare_bounded {f : Feed} (h : f.Bounded) : f.prepare.Bounded := by
  have hlen := keepLast_length Config.unboundQueueLimit f.queue
  unfold Feed.prepare
  split
  · exact ⟨h.discards, Nat.zero_le 8, h.counters, h.range⟩
  · rename_i older newer he
    rw [he] at hlen
    refine Feed.move_bounded ⟨Discards.foldl_addLate_bounded _ h.discards, ?_, h.counters, h.range⟩
    have hfilter := List.length_filter_le (fun e => distance e.seq older.seq < 128) newer
    simp only [List.length_cons, Config.unboundQueueLimit] at hlen ⊢
    omega

theorem insertByDistance_length (x : Byte) (e : Entry) (q : List Entry) :
    (insertByDistance x e q).length = q.length + 1 := by
  induction q with
  | nil => rfl
  | cons a q ih =>
    unfold insertByDistance
    split
    · simp only [List.length_cons, ih]
    · rfl

theorem Feed.makeRoom_bounded {f : Feed} (h : f.Bounded) : f.makeRoom.Bounded := by
  have hlen := h.queue
  unfold Feed.makeRoom
  split
  · exact h
  · rename_i head rest hq
    rw [hq, List.length_cons] at hlen
    split
    · exact ⟨h.discards, by simp only; omega, ⟨satInc_le _ _, h.counters.2⟩, h.range⟩
    · exact ⟨Discards.addOverflow_bounded h.discards, by simp only; omega, h.counters, h.range⟩

/-- Room is made by one entry (R49). -/
theorem Feed.makeRoom_length (f : Feed) : f.makeRoom.queue.length = f.queue.length - 1 := by
  unfold Feed.makeRoom
  split
  · rename_i hq; simp [hq]
  · rename_i hq
    split <;> simp [hq]

theorem Feed.place_bounded {f : Feed} (e : Entry) (h : f.Bounded) (hroom : f.queue.length < 8) : (f.place e).Bounded := by
  unfold Feed.place
  split
  · refine Feed.move_bounded ⟨h.discards, ?_, h.counters, h.range⟩
    rw [insertByDistance_length]
    exact hroom
  · exact h

/-- An arrival at a bound queue keeps the ceilings (R48 to R50). -/
theorem Feed.arrive_bounded {f : Feed} (e : Entry) (h : f.Bounded) : (f.arrive e).Bounded := by
  unfold Feed.arrive
  split
  · exact Feed.move_bounded ⟨h.discards, by simp, h.counters, h.range⟩
  · split
    · exact ⟨Discards.addLate_bounded h.discards, h.queue, h.counters, h.range⟩
    · split
      · exact ⟨Discards.addDuplicate_bounded h.discards, h.queue, h.counters, h.range⟩
      · split
        · refine Feed.place_bounded e (Feed.makeRoom_bounded h) ?_
          have hlen := h.queue
          rw [Feed.makeRoom_length]
          omega
        · rename_i hroom
          exact Feed.place_bounded e h (Nat.lt_of_not_le hroom)

/-! ## The pull -/

/-- Concealment keeps everything but the length of the ring, which grows by a block (R85). -/
theorem Feed.conceal_bounded {f : Feed} (h : f.Bounded) (hring : f.lane.ring.length ≤ 240) : f.conceal.Bounded := by
  obtain ⟨-, hpos, hlo, hhi, hf0, hf1, hcount⟩ := h.range
  have hlane : f.conceal.lane.CountersBounded ∧ f.conceal.lane.InRange := by
    rw [Feed.conceal_lane]
    refine ⟨⟨h.counters.1, satInc_le _ _⟩, ?_, hpos, hlo, hhi, hf0, hf1, Nat.min_le_right _ _⟩
    simp only [List.length_append, Vector.length_toList]
    omega
  have hqueue : f.conceal.discards.Bounded ∧ f.conceal.queue.length ≤ 8 := by
    have hlen := h.queue
    unfold Feed.conceal
    simp only
    split
    · exact ⟨h.discards, hlen⟩
    · rename_i head rest hq
      split
      · rw [hq, List.length_cons] at hlen
        exact ⟨Discards.addLate_bounded h.discards, by simp only; omega⟩
      · exact ⟨h.discards, hlen⟩
  exact ⟨hqueue.1, hqueue.2, hlane.1, hlane.2⟩

/-- Stage 2 keeps the ceilings for every need that a lane in range has (R84, R86). -/
theorem Feed.concealTo_bounded {f : Feed} {n : Nat} (h : f.Bounded) (hn : n ≤ 82) : (f.concealTo n).Bounded := by
  unfold Feed.concealTo
  split
  · exact h
  · simp only
    have hone := Feed.conceal_bounded h (by omega)
    split
    · exact hone
    · exact Feed.conceal_bounded hone (by omega)

/-- Stages 1 to 5 of a pull keep the ceilings (R83 to R89). -/
theorem Feed.pull_bounded {f : Feed} (h : f.Bounded) : f.pull.1.Bounded := by
  obtain ⟨-, hpos, hlo, hhi, -⟩ := h.range
  have hc := Feed.concealTo_bounded h (need_bounds _ _ hpos hlo hhi).2
  obtain ⟨hring, -, hlo', hhi', hf0, hf1, hcount⟩ := hc.range
  refine ⟨hc.discards, hc.queue, hc.counters, ?_, Nat.mod_lt _ (by decide), hlo', hhi', hf0, hf1, hcount⟩
  simp only [Feed.pull, Lane.advance, List.length_drop]
  exact (Nat.sub_le _ _).trans hring

theorem runFrom_le (x : Byte) (q : List Entry) : runFrom x q ≤ q.length := by
  induction q generalizing x with
  | nil => exact Nat.le_refl 0
  | cons e q ih =>
    unfold runFrom
    split
    · exact Nat.succ_le_succ (ih _)
    · exact Nat.zero_le _

/-- The contiguous run is part of the queue (R55). -/
theorem Feed.run_le (f : Feed) : f.run ≤ f.queue.length := by
  unfold Feed.run
  split
  · exact runFrom_le _ _
  · exact Nat.zero_le _

/-- The depth is at most a full ring and a full queue (R90). -/
theorem Feed.depth_le {f : Feed} (h : f.Bounded) : f.depth ≤ 960 := by
  have hring := h.range.1
  have hrun := f.run_le.trans h.queue
  have hleft := Nat.sub_le f.lane.ring.length (f.lane.position / Config.unit)
  unfold Feed.depth
  omega

theorem Feed.track_bounded {f : Feed} (target : Nat) (h : f.Bounded) : (f.track target).Bounded := by
  obtain ⟨hring, hpos, -, -, hf0, hf1, hcount⟩ := h.range
  have hfilter := filterUpdate_bounds f.lane.filter f.depth hf0 hf1 (Feed.depth_le h)
  have hstep := stepFor_bounds (filterUpdate f.lane.filter f.depth) target
  exact ⟨h.discards, h.queue, h.counters, hring, hpos, hstep.1, hstep.2, hfilter.1, hfilter.2, hcount⟩

/-- A MIXING lane's pull keeps the ceilings (R83). -/
theorem Feed.pullMixing_bounded {f : Feed} (target : Nat) (h : f.Bounded) : (f.pullMixing target).1.Bounded :=
  Feed.track_bounded target (Feed.move_bounded (Feed.pull_bounded h))

/-- A promotion sets the filter to a depth in its range (R71). -/
theorem Feed.promote_bounded {f : Feed} (h : f.Bounded) : f.promote.Bounded := by
  obtain ⟨hring, -, -, -, -, -, hcount⟩ := h.range
  have hdepth := Feed.depth_le h
  refine ⟨h.discards, h.queue, h.counters, hring, by simp [Feed.promote], by simp [Feed.promote], by simp [Feed.promote], ?_, ?_,
    hcount⟩ <;> simp only [Feed.promote] <;> omega

/-! ## All lanes and queues -/

/-- A lane at its VACANT values is in range (R58). -/
theorem Lane.cleared_inRange (l : Lane) : l.cleared.InRange := by
  simp [Lane.cleared, Lane.InRange]

/-- A lane in range with its bud's queue and counters is within the ceilings. -/
theorem FeedsBounded.feed {s : State} (h : FeedsBounded s.laneUnit s.intake) (k : LaneIx) (b : BudIx) :
    (s.feed k b).Bounded := ⟨h.discards b, h.queues b, h.counters k, h.ranges k⟩

theorem FeedsBounded.setFeed {s : State} (h : FeedsBounded s.laneUnit s.intake) (k : LaneIx) (b : BudIx) {f : Feed}
    (hf : f.Bounded) : FeedsBounded (s.setFeed k b f).laneUnit (s.setFeed k b f).intake where
  discards := forall_set h.discards b hf.discards
  queues := forall_set (p := fun q : List Entry => q.length ≤ 8) h.queues b hf.queue
  counters := forall_set h.counters k hf.counters
  ranges := forall_set h.ranges k hf.range

theorem FeedsBounded.setLane {s : State} (h : FeedsBounded s.laneUnit s.intake) (k : LaneIx) {l : Lane}
    (hc : l.CountersBounded) (hr : l.InRange) : FeedsBounded (s.setLane k l).laneUnit (s.setLane k l).intake where
  discards := h.discards
  queues := h.queues
  counters := forall_set h.counters k hc
  ranges := forall_set h.ranges k hr

end Sys2Proof.Machine
end

