-- ==== Sys2Proof/Proofs/BlockPaths.lean ====
section
/-! PROOFS. The operations of the ports, the Lane Unit and the Roster as paths of changes, one lemma for each: none of them
needs a permission. -/

namespace Sys2Proof.Machine

variable {may : Part → Prop}

/-! ## The ports -/

theorem AirPort.choose_Busy (a : AirPort) : a.choose.Busy := by
  intro ho hh hs
  have keeps := a.choose_keeps
  exact a.choose_busy (keeps.1 ▸ ho) (keeps.2.2.1 ▸ hh) hs

theorem AirPort.choose_bounded {a : AirPort} (h : a.Bounded) : a.choose.Bounded := by
  obtain ⟨-, -, -, hm, hs, hd, hq⟩ := a.choose_keeps
  exact ⟨hm ▸ h.1, hs ▸ h.2.1, hd ▸ h.2.2.1, hq.trans h.2.2.2⟩

/-- A frame handed over (R135, R136). -/
theorem State.sendAir_reaches (s : State) (f : AirFrame) : Reaches may s (s.sendAir f) := by
  obtain ⟨ho, -, -, hm, hs, hd, hq⟩ := s.airPort.handOver_keeps f
  exact (Change.air _ ho (fun _ => AirPort.choose_Busy _)
    fun h => ⟨hm ▸ h.1, hs ▸ h.2.1, hd h.2.2.1, hq h.2.2.2⟩).reaches

theorem State.chooseVoice_Busy (s : State) : s.chooseVoice.voicePort.Busy s.chooseVoice.directives := by
  intro ho hh hs
  obtain ⟨hopen, -, hheld, -⟩ := s.chooseVoice_only.line
  exact s.chooseVoice_busy (hopen ▸ ho) (hheld ▸ hh) hs

theorem State.chooseVoice_bounded {s : State} (h : s.voicePort.Bounded s.directives) :
    s.chooseVoice.voicePort.Bounded s.chooseVoice.directives := by
  obtain ⟨hlen, hlost⟩ := s.chooseVoice_reports
  exact ⟨s.chooseVoice_only.line.2.2.2 ▸ h.1, hlen.trans h.2.1, hlost ▸ h.2.2⟩

/-- A state that differs in reports alone is the old one with the Voice Port and the Directive Unit of the new. -/
theorem State.OnlyReports.eq {s t : State} (h : s.OnlyReports t) :
    t = { s with voicePort := t.voicePort, directives := t.directives } := by
  obtain ⟨h1, h2, h3, h4, h5, h6, h7, h8, h9, -, -⟩ := h
  cases s; cases t
  simp_all

/-- A change at the Voice Port or of the report queue, and the arbiter's choice after it (R139). -/
theorem Change.choice (s : State) (v : VoicePort) (d : DirectiveUnit) (hd : d.SameTables s.directives)
    (ho : v.isOpen = s.voicePort.isOpen) (hb : s.voicePort.Bounded s.directives → v.Bounded d) :
    Change may s ({ s with voicePort := v, directives := d } : State).chooseVoice := by
  generalize hu : ({ s with voicePort := v, directives := d } : State) = u
  have only := u.chooseVoice_only
  have hs : u.chooseVoice = { s with voicePort := u.chooseVoice.voicePort, directives := u.chooseVoice.directives } := by
    rw [only.eq, ← hu]
  obtain ⟨t1, t2, t3, t4, t5, t6⟩ := only.tables
  obtain ⟨d1, d2, d3, d4, d5, d6⟩ := hd
  subst hu
  rw [hs]
  exact .voice _ _ ⟨t1.trans d1, t2.trans d2, t3.trans d3, t4.trans d4, t5.trans d5, t6.trans d6⟩ (only.line.1.trans ho)
    (fun _ => State.chooseVoice_Busy _) fun h => State.chooseVoice_bounded (hb h)

/-- A report posted (R161, R162). -/
theorem State.post_reaches (s : State) (r : Report) : Reaches may s (s.post r) := by
  obtain ⟨hd, hlen, hlost⟩ := s.directives.enqueue_keeps r
  exact (Change.choice s s.voicePort (s.directives.enqueue r) hd rfl fun h => ⟨h.1, hlen h.2.1, hlost h.2.2⟩).reaches

theorem State.postEvent_reaches (s : State) (e : Event) : Reaches may s (s.postEvent e) := s.post_reaches _

/-- An uplink frame placed (R138). -/
theorem State.placeUplink_reaches (s : State) (f : UplinkFrame) : Reaches may s (s.placeUplink f) :=
  (Change.choice s { s.voicePort with slot := some f } s.directives ⟨rfl, rfl, rfl, rfl, rfl, rfl⟩ rfl id).reaches

/-! ## The lanes, the wait list and the queues -/

/-- The Lane Unit's registers beside the lanes. -/
theorem Change.laneRegisters (s : State) (u : LaneUnit) (hl : u.lanes = s.laneUnit.lanes) :
    Change may s { s with laneUnit := u } :=
  .lanes u s.intake fun h => ⟨h.discards, h.queues, hl ▸ h.counters, hl ▸ h.ranges⟩

/-- A queue that becomes no longer. -/
theorem Change.queue (s : State) (b : BudIx) (q : List Entry) (hq : q.length ≤ s.intake.queues[b].length) :
    Change may s { s with intake := { s.intake with queues := s.intake.queues.set b q } } :=
  .lanes s.laneUnit _ fun h =>
    ⟨h.discards, forall_set (p := fun q : List Entry => q.length ≤ 8) h.queues b (hq.trans (h.queues b)), h.counters, h.ranges⟩

theorem Change.setLane (s : State) (k : LaneIx) (l : Lane)
    (h : s.laneUnit.lanes[k].CountersBounded → s.laneUnit.lanes[k].InRange → l.CountersBounded ∧ l.InRange) :
    Change may s (s.setLane k l) :=
  .lanes _ _ fun hb =>
    have hl := h (hb.counters k) (hb.ranges k)
    hb.setLane k hl.1 hl.2

theorem Change.setFeed (s : State) (k : LaneIx) (b : BudIx) (f : Feed) (h : (s.feed k b).Bounded → f.Bounded) :
    Change may s (s.setFeed k b f) :=
  .lanes _ _ fun hb => hb.setFeed k b (h (hb.feed k b))

theorem State.setWait_reaches (s : State) (w : List WaitEntry) : Reaches may s (s.setWait w) :=
  (Change.laneRegisters s (s.setWait w).laneUnit rfl).reaches

theorem State.placeWaiting_reaches (s : State) (x : ListenerIx) (b : BudIx) : Reaches may s (s.placeWaiting x b) := by
  unfold State.placeWaiting
  simp only
  split
  · exact .refl
  · exact s.setWait_reaches _

theorem State.cancelWait_reaches (s : State) (x : ListenerIx) : Reaches may s (s.cancelWait x) := s.setWait_reaches _

theorem State.renameWait_reaches (s : State) (x : ListenerIx) (b : BudIx) : Reaches may s (s.renameWait x b) :=
  s.setWait_reaches _

theorem State.resortWait_reaches (s : State) : Reaches may s s.resortWait := s.setWait_reaches _

theorem State.postDenied_reaches (s : State) (x : ListenerIx) (cause : DeniedCause) : Reaches may s (s.postDenied x cause) :=
  (s.setWait_reaches _).trans (State.postEvent_reaches _ _)

theorem State.emptyQueue_reaches (s : State) (b : BudIx) : Reaches may s (s.emptyQueue b) :=
  (Change.queue s b [] (Nat.zero_le _)).reaches

theorem State.convertQueue_reaches (s : State) (b : BudIx) : Reaches may s (s.convertQueue b) := by
  refine (Change.queue s b (keepLast Config.unboundQueueLimit s.intake.queues[b]) ?_).reaches
  simp only [keepLast, List.length_drop]
  omega

theorem State.unbindBud_reaches (s : State) (k : LaneIx) : Reaches may s (s.unbindBud k) := by
  unfold State.unbindBud
  split
  · split
    · exact s.convertQueue_reaches _
    · exact .refl
  · exact .refl

theorem State.clearLane_reaches (s : State) (k : LaneIx) : Reaches may s (s.setLane k s.laneUnit.lanes[k].cleared) :=
  (Change.setLane s k s.laneUnit.lanes[k].cleared fun hc _ => ⟨hc, Lane.cleared_inRange _⟩).reaches

theorem State.bindLane_reaches (s : State) (k : LaneIx) (b : BudIx) (x : ListenerIx) :
    Reaches may s (s.bindLane k b x) := by
  have hbind := Change.setFeed (may := may) s k b
    (Feed.prepare { s.feed k b with
      lane := { s.laneUnit.lanes[k].cleared with state := .priming, bud := some b, listener := some x } })
    fun h => Feed.prepare_bounded ⟨h.discards, h.queue, h.counters, Lane.cleared_inRange s.laneUnit.lanes[k]⟩
  exact hbind.reaches.trans (State.cancelWait_reaches _ x)

theorem State.grantHead_reaches (s : State) (k : LaneIx) : Reaches may s (s.grantHead k) := by
  unfold State.grantHead
  split
  · split
    · exact .refl
    · exact s.bindLane_reaches _ _ _
  · exact .refl

theorem State.grantOne_reaches (s : State) : Reaches may s s.grantOne := by
  unfold State.grantOne
  split
  · exact s.grantHead_reaches _
  · exact .refl

theorem State.vacateLane_reaches (s : State) (k : LaneIx) (keep : Bool) : Reaches may s (s.vacateLane k keep) := by
  have hclear := s.clearLane_reaches (may := may) k
  unfold State.vacateLane
  simp only
  split
  · exact hclear.trans (State.bindLane_reaches _ _ _ _)
  · split
    · exact hclear
    · exact hclear.trans (State.grantHead_reaches _ _)

/-- A lane's state, bud or reservation set, its Aligner fields kept. -/
theorem State.markLane_reaches (s : State) (k : LaneIx) (state : LaneState) (bud : Option BudIx) (x : Option ListenerIx) :
    Reaches may s (s.setLane k { s.laneUnit.lanes[k] with state := state, bud := bud, reservedFor := x }) :=
  (Change.setLane s k { s.laneUnit.lanes[k] with state := state, bud := bud, reservedFor := x } fun hc hr => ⟨hc, hr⟩).reaches

theorem State.releaseLane_reaches (s : State) (k : LaneIx) (keep : Bool) : Reaches may s (s.releaseLane k keep) := by
  unfold State.releaseLane
  split
  · exact (s.unbindBud_reaches k).trans (State.vacateLane_reaches _ _ _)
  · simp only
    split
    · exact (s.unbindBud_reaches k).trans (State.markLane_reaches _ k .draining none _)
    · exact (s.unbindBud_reaches k).trans (State.vacateLane_reaches _ _ _)
  · exact .refl
  · exact .refl

theorem State.reserve_reaches (s : State) (k : LaneIx) (x : Option ListenerIx) : Reaches may s (s.reserve k x) :=
  s.markLane_reaches k _ _ x

theorem State.cancelReservation_reaches (s : State) (x : ListenerIx) : Reaches may s (s.cancelReservation x) := by
  unfold State.cancelReservation
  refine Reaches.foldl _ _ (fun k _ s => ?_) s
  split
  · exact s.reserve_reaches k none
  · exact .refl

theorem State.fallSilent_reaches (s : State) (x : ListenerIx) : Reaches may s (s.fallSilent x) := by
  have hcancel : Reaches may s ((s.cancelWait x).cancelReservation x) :=
    (s.cancelWait_reaches x).trans (State.cancelReservation_reaches _ x)
  unfold State.fallSilent
  simp only
  split
  · exact hcancel.trans (State.releaseLane_reaches _ _ _)
  · exact hcancel

theorem State.placeVictim_reaches (s : State) (v : Option ListenerIx) : Reaches may s (s.placeVictim v) := by
  unfold State.placeVictim
  split
  · exact .refl
  · split
    · exact (s.placeWaiting_reaches _ _).trans (State.postDenied_reaches _ _ _)
    · exact .refl

theorem State.evictLane_reaches (s : State) (k : LaneIx) (x : ListenerIx) (b : BudIx) :
    Reaches may s (s.evictLane k x b) := by
  have hptr : Reaches may s { s with laneUnit := { s.laneUnit with evictPtr := k + 1 } } :=
    (Change.laneRegisters s { s.laneUnit with evictPtr := k + 1 } rfl).reaches
  have hvictim := (hptr.trans (State.releaseLane_reaches _ k true)).trans
    (State.placeVictim_reaches _ s.laneUnit.lanes[k].listener)
  unfold State.evictLane
  simp only
  split
  · exact hvictim.trans (State.reserve_reaches _ _ _)
  · exact hvictim.trans (State.bindLane_reaches _ _ _ _)

theorem State.requestLane_reaches (s : State) (x : ListenerIx) (b : BudIx) : Reaches may s (s.requestLane x b) := by
  unfold State.requestLane
  simp only
  split
  · exact .refl
  · split
    · exact s.bindLane_reaches _ _ _
    · split
      · exact s.reserve_reaches _ _
      · split
        · exact s.evictLane_reaches _ _ _
        · exact (s.placeWaiting_reaches _ _).trans (State.postDenied_reaches _ _ _)

theorem State.changeSpeaker_reaches (s : State) (x : ListenerIx) (c : BudIx) : Reaches may s (s.changeSpeaker x c) := by
  unfold State.changeSpeaker
  split
  · rename_i k _
    have hask : Reaches may s ((s.releaseLane k true).requestLane x c) :=
      (s.releaseLane_reaches k true).trans (State.requestLane_reaches _ x c)
    simp only
    split
    · exact hask.trans (State.grantHead_reaches _ _)
    · exact hask
  · exact s.renameWait_reaches x c

/-- A notice to the Lane Unit (R61, R62). -/
theorem State.notice_reaches (s : State) (x : ListenerIx) : Reaches may s (s.notice x) := by
  have hrecord : Reaches may s (s.recordSpeaking x (s.roster.speakingBud x)) :=
    (Change.laneRegisters s (s.recordSpeaking x (s.roster.speakingBud x)).laneUnit rfl).reaches
  unfold State.notice
  simp only
  split
  · exact .refl
  · refine hrecord.trans ?_
    unfold State.actOnSpeaking
    split
    · exact .refl
    · exact State.cancelWait_reaches _ x
    · exact State.placeWaiting_reaches _ x _
    · exact State.renameWait_reaches _ x _
    · exact State.fallSilent_reaches _ x
    · exact State.requestLane_reaches _ x _
    · exact State.changeSpeaker_reaches _ x _

theorem State.noticeFor_reaches (s : State) (x : Option ListenerIx) : Reaches may s (s.noticeFor x) := by
  cases x with
  | none => exact .refl
  | some x => exact s.notice_reaches x

/-! ## Changes of call state -/

theorem State.emptyLanes_reaches (s : State) : Reaches may s s.emptyLanes := by
  unfold State.emptyLanes
  refine Reaches.foldl _ _ (fun k _ s => ?_) s
  have hclear := (s.unbindBud k).clearLane_reaches (may := may) k
  simp only [State.unbindBud_laneUnit] at hclear
  exact (s.unbindBud_reaches k).trans hclear

theorem State.lanesEnd_reaches (s : State) : Reaches may s s.lanesEnd :=
  s.emptyLanes_reaches.trans (State.setWait_reaches _ _)

theorem State.lanesHold_reaches (s : State) : Reaches may s s.lanesHold :=
  s.emptyLanes_reaches.trans (Reaches.foldl _ _ (fun c _ s => s.placeWaiting_reaches c.1 c.2) _)

theorem State.denyWaiting_reaches (s : State) : Reaches may s s.denyWaiting :=
  Reaches.foldl _ _ (fun e _ s => s.postDenied_reaches e.listener .noLane) s

theorem State.lanesEnter_reaches (s : State) (fresh : Bool) : Reaches may s (s.lanesEnter fresh) := by
  unfold State.lanesEnter
  simp only
  refine Relation.ReflTransGen.trans (b := if fresh = true then _ else s) ?_
    (((State.grantOne_reaches _).trans (State.grantOne_reaches _)).trans
      ((State.grantOne_reaches _).trans (State.denyWaiting_reaches _)))
  split
  · refine Reaches.foldl _ _ (fun x _ s => ?_) s
    split
    · exact s.placeWaiting_reaches _ _
    · exact .refl
  · exact .refl

/-! ## Lanes at a cadence -/

theorem State.contribute_reaches (s : State) (k : LaneIx) (y : List Int) : Reaches may s (s.contribute k y) := by
  have hu : (s.contribute k y).laneUnit.lanes = s.laneUnit.lanes ∧ s.contribute k y = { s with laneUnit := (s.contribute k y).laneUnit } := by
    unfold State.contribute
    split <;> exact ⟨rfl, rfl⟩
  rw [hu.2]
  exact (Change.laneRegisters s _ hu.1).reaches

theorem State.pullWith_reaches (s : State) (k : LaneIx) (b : BudIx) (pull : Feed → Feed × List Int)
    (h : ∀ f : Feed, f.Bounded → (pull f).1.Bounded) : Reaches may s (s.pullWith k b pull) :=
  (Change.setFeed s k b _ (h _)).reaches.trans (State.contribute_reaches _ _ _)

theorem State.pullLane_reaches (s : State) (k : LaneIx) : Reaches may s (s.pullLane k) := by
  unfold State.pullLane
  split
  · exact s.pullWith_reaches _ _ _ fun f hf => Feed.pullMixing_bounded _ hf
  · exact .refl

theorem State.examineLane_reaches (s : State) (k : LaneIx) : Reaches may s (s.examineLane k) := by
  unfold State.examineLane
  split
  · split
    · exact s.pullWith_reaches _ _ _ fun f hf => Feed.pullMixing_bounded _ (Feed.promote_bounded hf)
    · exact .refl
  · exact .refl

theorem State.drainLane_reaches (s : State) (k : LaneIx) : Reaches may s (s.drainLane k) := by
  have hpull := Change.setLane (may := may) s k (Feed.mk s.laneUnit.lanes[k] [] {}).pull.1.lane fun hc hr =>
    have hf := Feed.pull_bounded (f := ⟨s.laneUnit.lanes[k], [], {}⟩)
      ⟨⟨Nat.zero_le _, Nat.zero_le _, Nat.zero_le _⟩, Nat.zero_le _, hc, hr⟩
    ⟨hf.counters, hf.range⟩
  exact (hpull.reaches.trans (State.contribute_reaches _ _ _)).trans (State.vacateLane_reaches _ k false)

theorem State.countMixing_reaches (s : State) : Reaches may s s.countMixing :=
  (Change.laneRegisters s s.countMixing.laneUnit rfl).reaches

theorem State.clearHandover_reaches (s : State) : Reaches may s s.clearHandover :=
  (Change.laneRegisters s s.clearHandover.laneUnit rfl).reaches

theorem State.drainShare_reaches (s : State) (k : LaneIx) : Reaches may s (s.drainShare k) :=
  (s.drainLane_reaches k).trans (State.countMixing_reaches _)

theorem State.laneAtCadence_reaches (s : State) (k : LaneIx) (before : LaneState) :
    Reaches may s (s.laneAtCadence k before) := by
  cases before with
  | vacant => exact .refl
  | priming => exact s.examineLane_reaches k
  | mixing => exact s.pullLane_reaches k
  | draining => exact s.drainLane_reaches k

/-- The Lane Unit takes a cadence (R72). -/
theorem State.lanesTake_reaches (s : State) (before : Vector LaneState 3) (order : List LaneIx) :
    Reaches may s (s.lanesTake before order) := by
  unfold State.lanesTake
  simp only
  split
  · exact (s.clearHandover_reaches.trans
      (Reaches.foldl _ _ (fun k _ s => s.laneAtCadence_reaches k before[k]) _)).trans (State.countMixing_reaches _)
  · exact s.clearHandover_reaches

theorem State.moveFor_reaches (s : State) (b : BudIx) : Reaches may s (s.moveFor b) := by
  unfold State.moveFor
  split
  · exact (Change.setFeed s _ b _ Feed.move_bounded).reaches
  · exact .refl

/-- Intake's step of an arrival (R45). -/
theorem State.intakeArrival_reaches (s : State) (b : BudIx) (e : Entry) : Reaches may s (s.intakeArrival b e) := by
  cases h : s.laneUnit.boundLane b with
  | some k =>
    rw [s.intakeArrival_of_bound e h]
    exact (Change.setFeed s k b _ (Feed.arrive_bounded e)).reaches
  | none =>
    rw [s.intakeArrival_of_unbound e h]
    have hq : s.intake.queues[b].length ≤ 8 → s.intake.discards[b].Bounded →
        (queueUnbound e s.intake.queues[b] s.intake.discards[b]).1.length ≤ 8 ∧
          (queueUnbound e s.intake.queues[b] s.intake.discards[b]).2.Bounded := by
      intro hlen hd
      unfold queueUnbound
      split
      · exact ⟨hlen, Discards.addDuplicate_bounded hd⟩
      · exact ⟨(keepLast_length _ _).trans (by decide), hd⟩
    refine (Change.lanes s.laneUnit _ fun hb => ?_).reaches
    have hnew := hq (hb.queues b) (hb.discards b)
    exact ⟨forall_set hb.discards b hnew.2, forall_set (p := fun q : List Entry => q.length ≤ 8) hb.queues b hnew.1, hb.counters, hb.ranges⟩

/-! ## The Roster -/

theorem Change.setBud (s : State) (b : BudIx) (r : Bud) (h : s.roster.buds[b].Bounded → r.Bounded) :
    Change may s (s.setBud b r) :=
  .roster _ rfl fun hb => forall_set hb b (h (hb b))

theorem State.setListener_reaches (s : State) (x : ListenerIx) (l : Listener) : Reaches may s (s.setListener x l) :=
  (Change.roster (s := s) (s.setListener x l).roster rfl id).reaches

/-- A record whose counts are 0 is within the ceilings. -/
theorem Bud.zero_bounded {r : Bud} (hg : r.goodRun = 0) (hm : r.missRun = 0) (hs : r.silenceRun = 0) : r.Bounded := by
  simp [Bud.Bounded, hg, hm, hs]

theorem Bud.passPeriod_bounded {r : Bud} (h : r.Bounded) : r.passPeriod.Bounded := by
  unfold Bud.passPeriod
  split
  · exact h
  · exact ⟨Nat.zero_le _, satInc_le _ _, h.2.2⟩

theorem Bud.credit_bounded {r : Bud} (h : r.Bounded) : r.credit.Bounded := by
  have hrun := satInc_le Config.runMax r.goodRun
  unfold Bud.credit
  simp only
  obtain ⟨hgood, -, hsilence⟩ := h
  split
  · split
    · exact ⟨hgood, Nat.zero_le _, hsilence⟩
    · exact ⟨hrun, Nat.zero_le _, hsilence⟩
  · split
    · exact ⟨hgood, Nat.zero_le _, hsilence⟩
    · exact ⟨hrun, Nat.zero_le _, hsilence⟩

theorem Bud.qualify_bounded {r : Bud} (n : Nat) (h : r.Bounded) : (r.qualify n).Bounded := by
  unfold Bud.qualify
  split
  · split <;> exact h
  · exact h
  · exact h

theorem Bud.hear_bounded {r : Bud} (body : Body) (n : Nat) (h : r.Bounded) : (r.hear body n).Bounded := by
  unfold Bud.hear
  split
  · exact ⟨h.1, h.2.1, Nat.zero_le _⟩
  · simp only
    split <;> exact ⟨h.1, h.2.1, satInc_le _ _⟩

/-- An arrival keeps a record within the ceilings (R5). -/
theorem Bud.arrive_bounded {r : Bud} (body : Body) (set : Settings) (h : r.Bounded) : (r.arrive body set).Bounded :=
  Bud.hear_bounded _ _ (Bud.qualify_bounded _ (Bud.credit_bounded h))

theorem State.emptyContext_reaches (s : State) : Reaches may s s.emptyContext := (Change.context none).reaches

theorem State.unlinkBud_reaches (s : State) (b : BudIx) : Reaches may s (s.unlinkBud b) := by
  have hfree : Reaches may s (s.setBud b {}) := (Change.setBud s b {} fun _ => Bud.zero_bounded rfl rfl rfl).reaches
  have hleave : ∀ (t : State) (x : Option ListenerIx), Reaches may t (t.leaveListener b x) := by
    intro t x
    cases x with
    | none => exact .refl
    | some x => exact t.setListener_reaches x _
  have hempty := (hfree.trans (hleave _ s.roster.buds[b].listener)).trans (State.emptyQueue_reaches _ b)
  unfold State.unlinkBud
  simp only
  split
  · exact hempty.trans (State.emptyContext_reaches _)
  · exact hempty

theorem State.emptyIfAlone_reaches (s : State) (x : ListenerIx) : Reaches may s (s.emptyIfAlone x) := by
  unfold State.emptyIfAlone
  simp only
  split
  · exact s.setListener_reaches x _
  · exact .refl

theorem State.finishDeparture_reaches (s : State) (d : Departure) : Reaches may s (s.finishDeparture d) := by
  unfold State.finishDeparture
  simp only
  refine Relation.ReflTransGen.trans ?_ (State.postEvent_reaches _ _)
  split
  · exact (s.notice_reaches _).trans (State.emptyIfAlone_reaches _ _)
  · exact .refl

/-- A freeing (R17). -/
theorem State.freeBud_reaches (s : State) (b : BudIx) (cause : FreeCause) : Reaches may s (s.freeBud b cause) :=
  (s.unlinkBud_reaches b).trans (State.finishDeparture_reaches _ _)

theorem Supervision.visit_reaches (a : Supervision) (b : BudIx) : Reaches may a.state (a.visit b).state := by
  have hpass : Reaches may a.state (a.state.setBud b a.state.roster.buds[b].passPeriod) :=
    (Change.setBud _ b _ Bud.passPeriod_bounded).reaches
  unfold Supervision.visit
  simp only
  split
  · split
    · exact hpass.trans (State.unlinkBud_reaches _ b)
    · split
      · refine hpass.trans (Change.setBud _ b _ fun h => ?_).reaches
        rw [State.setBud_roster, getElem_set_fin, if_pos rfl] at h
        exact h
      · exact hpass
  · exact .refl

/-- Supervision in any order (R6). -/
theorem State.supervise_reaches (s : State) (order : List BudIx) : Reaches may s (s.supervise order) := by
  have hvisits : ∀ (l : List BudIx) (a : Supervision), Reaches may a.state (l.foldl Supervision.visit a).state := by
    intro l
    induction l with
    | nil => exact fun a => .refl
    | cons b l ih => exact fun a => (a.visit_reaches b).trans (ih _)
  exact ((hvisits order ⟨s, [], []⟩).trans (Reaches.foldl _ _ (fun d _ s => s.finishDeparture_reaches d) _)).trans
    (Reaches.foldl _ _ (fun x _ s => s.noticeFor_reaches x) _)

theorem State.rosterArrival_reaches (s : State) (b : BudIx) (body : Body) : Reaches may s (s.rosterArrival b body) := by
  have hset : Reaches may s (s.setBud b (s.roster.buds[b].arrive body s.directives.settings)) :=
    (Change.setBud s b _ (Bud.arrive_bounded _ _)).reaches
  unfold State.rosterArrival
  simp only
  split
  · exact hset
  · exact hset.trans (State.noticeFor_reaches _ _)

theorem State.countStray_reaches (s : State) : Reaches may s s.countStray :=
  (Change.air { s.airPort with stray := satInc Config.counterMax s.airPort.stray } rfl id
    fun h => ⟨h.1, satInc_le _ _, h.2.2.1, h.2.2.2⟩).reaches

theorem State.arrival_reaches (s : State) (h : Handle) (e : Entry) : Reaches may s (s.arrival h e) := by
  unfold State.arrival
  split
  · split
    · exact s.countStray_reaches
    · exact (s.intakeArrival_reaches _ e).trans (State.rosterArrival_reaches _ _ _)
  · exact s.countStray_reaches

theorem State.parkRequest_reaches (s : State) (h : Handle) : Reaches may s (s.parkRequest h) := by
  have hpark : ∀ b : BudIx, Reaches may s (s.parkBud b) := fun b =>
    ((Change.setBud s b s.roster.buds[b].parkedNow fun _ => Bud.zero_bounded rfl rfl rfl).reaches.trans
      (State.emptyQueue_reaches _ b)).trans (State.noticeFor_reaches _ _)
  unfold State.parkRequest
  split
  · split
    · exact hpark _
    · exact hpark _
    · exact hpark _
    · exact .refl
    · exact s.countStray_reaches
    · exact s.countStray_reaches
  · exact s.countStray_reaches

theorem State.adjustRequest_reaches (s : State) (h : Handle) (seq : Byte) (f : AdjustFields) :
    Reaches may s (s.adjustRequest h seq f) := by
  unfold State.adjustRequest
  split
  · unfold State.adjustFrom
    split
    · exact s.sendAir_reaches _
    · rename_i x _
      have hset := s.setListener_reaches (may := may) x (s.roster.listeners[x].adjust f)
      simp only
      split
      · refine Relation.ReflTransGen.trans ?_ (State.sendAir_reaches _ _)
        split
        · exact hset
        · exact hset.trans (State.notice_reaches _ x)
      · exact s.sendAir_reaches _
  · exact s.countStray_reaches

theorem State.leaveRequest_reaches (s : State) (h : Handle) : Reaches may s (s.leaveRequest h) := by
  unfold State.leaveRequest
  split
  · exact s.freeBud_reaches _ _
  · exact s.countStray_reaches

theorem State.handleDroppedNotice_reaches (s : State) (h : Handle) : Reaches may s (s.handleDroppedNotice h) := by
  unfold State.handleDroppedNotice
  split
  · exact s.freeBud_reaches _ _
  · exact .refl

end Sys2Proof.Machine
end

