-- ==== Sys2Proof/Proofs/CommandPaths.lean ====
section
/-! PROOFS. Every command as a path of changes, within what it is permitted to change. -/

namespace Sys2Proof.Machine

variable {may : Part → Prop}

/-! ## The Mix Engine -/

theorem State.sendDownlink_reaches (s : State) (r : Recipient) (f : AirFrame) : Reaches may s (s.sendDownlink r f) := by
  unfold State.sendDownlink
  simp only
  split
  · exact s.sendAir_reaches f
  · exact (s.sendAir_reaches f).trans
      (Change.setBud (s.sendAir f) r.bud { (s.sendAir f).roster.buds[r.bud] with dlSeq := r.seq + 1 } id).reaches

theorem State.emitSilence_reaches (s : State) : Reaches may s s.emitSilence :=
  Reaches.foldl _ _ (fun r _ s => s.sendDownlink_reaches r _) s

theorem Mix.countClips_bounded (m : Mix) (rows : List (List Int)) (h : ∀ i : Fin 5, m.clips[i] ≤ 65535) (i : Fin 5) :
    (m.countClips rows).clips[i] ≤ 65535 := by
  simp only [Mix.countClips, Fin.getElem_fin, Vector.getElem_mapIdx]
  split
  · exact satInc_le _ _
  · exact h i

/-- The outputs formed and emitted (R105 to R110). -/
theorem State.formOutputs_reaches (s : State) (far : List Int) (audience : List Recipient) :
    Reaches may s (s.formOutputs far audience) := by
  unfold State.formOutputs
  simp only
  generalize s.rows far s.laneUnit.handover = rows
  have hclips : Reaches may s { s with mix := s.mix.countClips rows } :=
    (Change.mixCounters (s := s) (s.mix.countClips rows).clips s.mix.uplinkSeq (s.mix.countClips_bounded rows)).reaches
  generalize ({ s with mix := s.mix.countClips rows } : State) = t at hclips ⊢
  have huplink : Reaches may t (t.emitUplink (outputBlock (rows.getD 0 []))) :=
    (Change.mixCounters (s := t) t.mix.clips (t.mix.uplinkSeq + 1) id).reaches.trans (State.placeUplink_reaches _ _)
  exact (hclips.trans huplink).trans (Reaches.foldl _ _ (fun r _ s => s.sendDownlink_reaches r _) _)

/-! ## The Pairing Unit -/

theorem State.enterBond_reaches (s : State) (b : BudIx) (i : Fin 8) (hm : may .bonds) : Reaches may s (s.enterBond b i) :=
  (Change.setBud s b { s.roster.buds[b] with bonded := true } id).reaches.trans
    (Change.bonds (s := s.setBud b { s.roster.buds[b] with bonded := true }) _ hm).reaches

theorem State.applyBond_reaches (s : State) (x : ListenerIx) (a : Admission) (created : Bool) (j : JoinRequest)
    (hm : may .bonds) : Reaches may s (s.applyBond x a created j) := by
  have hpriority : ∀ i : Fin 8, Reaches may s (s.bondPriority x i created) := by
    intro i
    unfold State.bondPriority
    simp only
    split
    · exact (s.setListener_reaches x _).trans (State.resortWait_reaches _)
    · exact .refl
  have hrefresh : ∀ (t : State) (i : Fin 8), Reaches may t (t.refreshBond i j) := by
    intro t i
    unfold State.refreshBond
    split
    · exact (Change.bonds _ hm).reaches
    · exact .refl
  unfold State.applyBond
  split
  · exact (hpriority _).trans (hrefresh _ _)
  · exact .refl
  · exact .refl

theorem State.allocateBud_reaches (s : State) (b : BudIx) (j : JoinRequest) (x : ListenerIx) (bonded : Bool) :
    Reaches may s (s.allocateBud b j x bonded) := by
  have hbud : Reaches may s (s.setBud b (Bud.offered j.handle j.addr j.setTag j.role x bonded)) :=
    (Change.setBud s b _ fun _ => Bud.zero_bounded rfl rfl rfl).reaches
  refine (hbud.trans (State.setListener_reaches _ x _)).trans (Change.lanes _ _ fun h => ?_).reaches
  exact ⟨forall_set h.discards b ⟨Nat.zero_le _, Nat.zero_le _, Nat.zero_le _⟩, h.queues, h.counters, h.ranges⟩

/-- The offer (R33). -/
theorem State.offer_reaches (s : State) (j : JoinRequest) (x : ListenerIx) (created : Bool) (a : Admission)
    (hm : may .bonds) : Reaches may s (s.offer j x created a) := by
  unfold State.offer
  split
  · rename_i b _
    unfold State.offerAs
    simp only
    have hopen : Reaches may s (if created = true then s.openListener x j.setTag else s) := by
      split
      · exact s.setListener_reaches x _
      · exact .refl
    refine hopen.trans (Relation.ReflTransGen.trans ?_ (State.sendAir_reaches _ _))
    refine Relation.ReflTransGen.trans ?_ (Change.context _).reaches
    exact ((State.allocateBud_reaches _ b j x _).trans (State.applyBond_reaches _ x a created j hm)).trans
      (State.notice_reaches _ x)
  · exact s.sendAir_reaches _

theorem State.joinRequest_reaches (s : State) (j : JoinRequest) (hm : may .bonds) : Reaches may s (s.joinRequest j) := by
  have hnew : ∀ t : State, Reaches may t (t.newJoin j) := by
    intro t
    unfold State.newJoin
    split
    · exact t.sendAir_reaches _
    · unfold State.admitJoin
      split
      · exact t.sendAir_reaches _
      · split
        · exact t.sendAir_reaches _
        · exact t.offer_reaches j _ _ _ hm
        · exact t.offer_reaches j _ _ _ hm
  unfold State.joinRequest
  split
  · split
    · exact s.sendAir_reaches _
    · exact (s.freeBud_reaches _ _).trans (hnew _)
  · exact hnew s

theorem State.confirmRequest_reaches (s : State) (h : Handle) (seq : Byte) : Reaches may s (s.confirmRequest h seq) := by
  have hdone : ∀ c : Context, Reaches may s (s.completeHandshake c) := fun c =>
    (((Change.setBud s c.bud s.roster.buds[c.bud].confirmed fun _ => Bud.zero_bounded rfl rfl rfl).reaches.trans
      (State.emptyContext_reaches _)).trans (State.noticeFor_reaches _ _)).trans (State.postEvent_reaches _ _)
  unfold State.confirmRequest
  split
  · split
    · exact hdone _
    · exact s.sendAir_reaches _
  · exact s.sendAir_reaches _

theorem State.countdown_reaches (s : State) : Reaches may s s.countdown := by
  unfold State.countdown
  split
  · exact .refl
  · simp only
    split
    · exact (Change.context _).reaches.trans (State.freeBud_reaches _ _ _)
    · exact (Change.context _).reaches

/-! ## The Call Controller -/

theorem State.changeCall_reaches (s : State) (new : CallState) (cause : ChangeCause) (hm : may .call) :
    Reaches may s (s.changeCall new cause) :=
  (Change.call (s := s) { s.callCtl with state := new } (fun _ => hm) rfl id).reaches.trans (State.postEvent_reaches _ _)

theorem State.zeroFills_reaches (s : State) : Reaches may s s.zeroFills :=
  (Change.call (s := s) { s.callCtl with fills := 0 } (fun h => absurd rfl h) rfl
    fun h => ⟨Nat.zero_le _, h.2.1, h.2.2⟩).reaches

theorem State.discardVoice_reaches (s : State) : Reaches may s s.discardVoice :=
  (Change.call (s := s) { s.callCtl with discardedVoice := satInc Config.counterMax s.callCtl.discardedVoice }
    (fun h => absurd rfl h) rfl fun h => ⟨h.1, h.2.1, satInc_le _ _⟩).reaches

theorem State.countFill_reaches (s : State) : Reaches may s s.countFill :=
  (Change.call (s := s) s.countFill.callCtl (fun h => absurd rfl h) rfl
    fun h => ⟨satInc_le _ _, satInc_le _ _, h.2.2⟩).reaches

theorem State.autoHold_reaches (s : State) (hm : may .call) : Reaches may s s.autoHold :=
  (s.zeroFills_reaches.trans (State.changeCall_reaches _ _ _ hm)).trans (State.lanesHold_reaches _)

/-- A timer set while a port that takes directives is open, with the counts of a call that begins or ends. -/
theorem State.rearm_reaches (s : State) (i : TimerInterval) (h : s.voicePort.isOpen = true) :
    Reaches may s (s.zeroFills.armTimer i) :=
  s.zeroFills_reaches.trans (Change.armed (s := s.zeroFills) i (.inl h)).reaches

theorem State.beginCallDirective_reaches (s : State) (hm : may .call) (h : s.voicePort.isOpen = true) :
    Reaches may s s.beginCallDirective.1 := by
  unfold State.beginCallDirective
  split
  · have hzero : Reaches may s { s with callCtl := { s.callCtl with fills := 0, fillTotal := 0, timer := some .ms7_5 } } :=
      (Change.armed (s := s) .ms7_5 (.inl h)).reaches.trans
        (Change.call (s := s.armTimer .ms7_5) { (s.armTimer .ms7_5).callCtl with fills := 0, fillTotal := 0 }
          (fun hs => absurd rfl hs) rfl fun hb => ⟨Nat.zero_le _, Nat.zero_le _, hb.2.2⟩).reaches
    simp only
    exact Relation.ReflTransGen.trans (hzero.trans (State.changeCall_reaches _ _ _ hm)) (State.lanesEnter_reaches _ true)
  · exact .refl
  · exact .refl

theorem State.endCallDirective_reaches (s : State) (hm : may .call) (h : s.voicePort.isOpen = true) :
    Reaches may s s.endCallDirective.1 := by
  have hend : Reaches may s ((s.zeroFills.armTimer .ms5).changeCall .noCall .endCall).lanesEnd :=
    ((s.rearm_reaches .ms5 h).trans (State.changeCall_reaches _ _ _ hm)).trans (State.lanesEnd_reaches _)
  unfold State.endCallDirective
  split
  · exact hend
  · exact hend
  · exact .refl

theorem State.holdDirective_reaches (s : State) (hm : may .call) (h : s.voicePort.isOpen = true) :
    Reaches may s s.holdDirective.1 := by
  unfold State.holdDirective
  split
  · exact ((s.rearm_reaches .ms5 h).trans (State.changeCall_reaches _ _ _ hm)).trans (State.lanesHold_reaches _)
  · exact s.changeCall_reaches _ _ hm
  · exact .refl
  · exact .refl

theorem State.resumeDirective_reaches (s : State) (hm : may .call) (h : s.voicePort.isOpen = true) :
    Reaches may s s.resumeDirective.1 := by
  unfold State.resumeDirective
  split
  · simp only
    exact Relation.ReflTransGen.trans ((s.rearm_reaches .ms7_5 h).trans (State.changeCall_reaches _ _ _ hm))
      (State.lanesEnter_reaches _ false)
  · exact .refl
  · exact .refl
  · exact .refl

/-! ## Taking a frame and taking a directive -/

theorem State.endCut_reaches (s : State) (link : Link) : Reaches may s (s.endCut link) := by
  cases link with
  | air => exact (Change.air (s := s) { s.airPort with cut := false } rfl id id).reaches
  | voice =>
    exact (Change.voice (s := s) { s.voicePort with cut := false } s.directives ⟨rfl, rfl, rfl, rfl, rfl, rfl⟩ rfl id id).reaches

/-- A frame that ends at a port, taken or not (R130, R141). -/
theorem State.atPort_reaches (s : State) (link : Link) (take : State → State)
    (h : s.portOpen link = true → Reaches may s (take s)) : Reaches may s (s.atPort link take) := by
  unfold State.atPort
  split
  · split
    · exact s.endCut_reaches link
    · exact h ‹_›
  · exact .refl

/-- A directive is the consuming of the mask, its effect, and its reply (R146, R155). -/
theorem State.takeDirective_reaches (s : State) (code seq : Byte) (p : List Byte)
    (act : Option Word → State → State × Option Reply) (hm : may .mask)
    (h : s.consumeMask.voicePort.isOpen = true → directiveLength code.toNat p.length = true →
      Reaches may s.consumeMask (act s.directives.mask s.consumeMask).1) :
    Reaches may s (s.takeDirective code seq p act) := by
  have hmask : Reaches may s s.consumeMask := (Change.maskConsumed hm).reaches
  refine s.atPort_reaches _ _ fun ho => ?_
  split
  · rename_i hfits
    unfold State.conclude
    split
    · exact (hmask.trans (h ho hfits)).trans (State.post_reaches _ _)
    · exact hmask.trans (h ho hfits)
  · exact hmask.trans (State.post_reaches _ _)

theorem State.takeCall_reaches (s : State) (what : CallDirective) (seq : Byte) (p : List Byte) (hm : may .mask)
    (hc : may .call) : Reaches may s (s.takeCall what seq p) := by
  cases what with
  | beginCall => exact s.takeDirective_reaches _ _ _ _ hm fun ho _ => State.beginCallDirective_reaches _ hc ho
  | endCall => exact s.takeDirective_reaches _ _ _ _ hm fun ho _ => State.endCallDirective_reaches _ hc ho
  | hold => exact s.takeDirective_reaches _ _ _ _ hm fun ho _ => State.holdDirective_reaches _ hc ho
  | resume => exact s.takeDirective_reaches _ _ _ _ hm fun ho _ => State.resumeDirective_reaches _ hc ho

/-! ## Cadences -/

theorem Cadence.takeMix_reaches (c : Cadence) (kind : CadenceKind) (hm : may .swapTaking) :
    Reaches may c.state (c.takeMix kind).state := by
  have hswap : Reaches may c.state c.state.takeSwap := (Change.swapTaken hm).reaches
  unfold Cadence.takeMix
  simp only
  split
  · exact hswap
  · exact hswap
  · exact hswap.trans (State.emitSilence_reaches _)
  · exact hswap
  · exact hswap

theorem Cadence.takeHold_reaches (c : Cadence) (hm : may .call) : Reaches may c.state c.takeHold.state := by
  unfold Cadence.takeHold
  split
  · exact c.state.autoHold_reaches hm
  · exact .refl

theorem Cadence.form_reaches (c : Cadence) (far : List Int) : Reaches may c.state (c.form far).state := by
  unfold Cadence.form
  split
  · split
    · exact c.state.formOutputs_reaches _ _
    · exact .refl
  · exact .refl

/-- One act of a cadence (R104, R117). -/
theorem Cadence.act_reaches (i : CadenceInput) (c : Cadence) (a : CadenceAct) (hs : may .swapTaking) (hc : may .call)
    (hm : a.isCall = true → may .mask) : Reaches may c.state (c.act i a).state := by
  cases a with
  | supervise => exact c.state.supervise_reaches _
  | countdown => exact c.state.countdown_reaches
  | lanes =>
    simp only [Cadence.act, Cadence.takeLanes]
    split
    · exact .refl
    · exact c.state.lanesTake_reaches _ _
    · exact c.state.lanesTake_reaches _ _
  | mix => exact c.takeMix_reaches _ hs
  | form => exact c.form_reaches _
  | hold => exact c.takeHold_reaches hc
  | call what seq => exact (c.takeHold_reaches hc).trans (State.takeCall_reaches _ _ _ _ (hm rfl) hc)

/-- A directive among the acts of a cadence is one that the order brings in. -/
theorem mem_of_mem_cadenceActs {order : List CadenceAct} {a : CadenceAct} (ha : a ∈ visitOrder order (cadenceActs order))
    (hc : a.isCall = true) : a ∈ order := by
  rw [(visitOrder_perm _ _).mem_iff, cadenceActs, List.mem_append, List.mem_filter] at ha
  rcases ha with ha | ha
  · fin_cases ha <;> simp [CadenceAct.isCall] at hc
  · exact ha.1

/-- A cadence as every block takes it (R117). -/
theorem State.runCadence_reaches (s : State) (i : CadenceInput) (due : Bool) (order : List CadenceAct)
    (hs : may .swapTaking) (hc : may .call) (hm : (∃ a ∈ order, a.isCall = true) → may .mask) :
    Reaches may s (s.runCadence i due order) := by
  have hacts : ∀ (l : List CadenceAct) (c : Cadence), (∀ a ∈ l, a.isCall = true → may .mask) →
      Reaches may c.state (l.foldl (Cadence.act i) c).state := by
    intro l
    induction l with
    | nil => exact fun c _ => .refl
    | cons a l ih =>
      intro c hl
      exact (c.act_reaches i a hs hc (hl a (by simp))).trans (ih _ fun b hb => hl b (by simp [hb]))
  exact ((hacts _ ⟨s, due, none, false⟩ fun a ha hcall => hm ⟨a, mem_of_mem_cadenceActs ha hcall, hcall⟩).trans
    (Cadence.form_reaches _ _)).trans (State.clearHandover_reaches _)

theorem State.timerExpiry_reaches (s : State) (o : CadenceOrder) (hs : may .swapTaking) (hc : may .call)
    (hm : (∃ a ∈ o.acts, a.isCall = true) → may .mask) : Reaches may s (s.timerExpiry o) := by
  have hidle : s.callCtl.timer.isSome = true → Reaches may s (s.idleCadence o) := fun ht =>
    (Change.armed (s := s) .ms5 (.inr ht)).reaches.trans (State.runCadence_reaches _ _ _ _ hs hc hm)
  have hfill : s.callCtl.timer.isSome = true → Reaches may s (s.fillCadence o) := fun ht =>
    (s.countFill_reaches.trans (Change.armed (s := s.countFill) .ms5 (.inr ht)).reaches).trans
      (State.runCadence_reaches _ _ _ _ hs hc hm)
  unfold State.timerExpiry
  split <;> rename_i ht _
  · exact .refl
  · exact hfill (by rw [ht]; rfl)
  · exact hidle (by rw [ht]; rfl)
  · exact hidle (by rw [ht]; rfl)

theorem State.voiceFrame_reaches (s : State) (far : Block) (o : CadenceOrder) (hs : may .swapTaking) (hc : may .call)
    (hm : (∃ a ∈ o.acts, a.isCall = true) → may .mask) (ho : s.voicePort.isOpen = true) :
    Reaches may s (s.voiceFrame far o) := by
  have hcadence : ∀ (t : State) (before : Option (Vector LaneState 3)), t.voicePort.isOpen = true →
      Reaches may t (t.voiceCadence far before o) := fun t before ht =>
    (t.rearm_reaches .ms7_5 ht).trans (State.runCadence_reaches _ _ _ _ hs hc hm)
  unfold State.voiceFrame
  split
  · exact hcadence s none ho
  · have henter := (s.zeroFills_reaches.trans (State.changeCall_reaches _ .inCall .voiceReturned hc)).trans
      (State.lanesEnter_reaches _ false)
    refine henter.trans (hcadence _ _ ?_)
    rw [(State.lanesEnter_only _ false).only.line.1]
    exact (State.postEvent_only _ _).line.1.trans ho
  · exact s.discardVoice_reaches
  · exact s.discardVoice_reaches

/-! ## The table space -/

theorem State.OnlyTables.refl (s : State) : s.OnlyTables s := by constructor <;> rfl

theorem State.OnlyTables.trans {s t u : State} (h : s.OnlyTables t) (k : t.OnlyTables u) : s.OnlyTables u where
  buds := k.buds.trans h.buds
  defaults := k.defaults.trans h.defaults
  context := k.context.trans h.context
  intake := k.intake.trans h.intake
  laneUnit := k.laneUnit.trans h.laneUnit
  active := k.active.trans h.active
  swapPending := k.swapPending.trans h.swapPending
  clips := k.clips.trans h.clips
  callCtl := k.callCtl.trans h.callCtl
  airPort := k.airPort.trans h.airPort
  voicePort := k.voicePort.trans h.voicePort
  region := k.region.trans h.region
  index := k.index.trans h.index
  mask := k.mask.trans h.mask
  reports := k.reports.trans h.reports
  reportsLost := k.reportsLost.trans h.reportsLost
  pages := k.pages.trans h.pages
  state := k.state.trans h.state
  restartPending := k.restartPending.trans h.restartPending
  pending := k.pending.trans h.pending

/-- One written word reaches the tables alone (R153). -/
theorem State.writeWord_onlyTables (s : State) (r : RegionIx) (i : Nat) (w : Word) : s.OnlyTables (s.writeWord r i w) := by
  unfold State.writeWord
  split
  case h_2 =>
    unfold Mix.setCell
    split <;> constructor <;> rfl
  case h_5 => split <;> constructor <;> rfl
  case h_8 =>
    unfold DirectiveUnit.setProtection
    split <;> constructor <;> rfl
  all_goals constructor <;> rfl

/-- A word of another region than 13 leaves the modes and the lock (R157). -/
theorem State.writeWord_modes (s : State) {r : RegionIx} (i : Nat) (w : Word) (h : r.val ≠ 13) :
    (s.writeWord r i w).directives.lock = s.directives.lock ∧ (s.writeWord r i w).directives.modes = s.directives.modes := by
  unfold State.writeWord
  split
  case h_5 => split <;> exact ⟨rfl, rfl⟩
  case h_8 heq => exact absurd heq h
  all_goals exact ⟨rfl, rfl⟩

/-- The cell that a word of region 3 names is the one it is written to. -/
theorem Mix.setCell_fixed {m : Mix} {i : Nat} (n : Nat) (hi : i < 25) (h : m.FixedCellsZero) : (m.setCell i n).FixedCellsZero := by
  intro j hj
  unfold Mix.setCell
  split
  · exact h j hj
  · rename_i hfree
    have hne : Fin.ofNat 25 i ≠ j := by
      rintro rfl
      rw [Fin.val_ofNat, Nat.mod_eq_of_lt hi] at hj
      exact hfree hj
    simp only [update]
    rw [getElem_set_fin, if_neg hne]
    exact h j hj

theorem State.writeWord_fixed {s : State} {r : RegionIx} {i : Nat} (w : Word) (hi : i < regionCount r)
    (h : s.mix.FixedCellsZero) : (s.writeWord r i w).mix.FixedCellsZero := by
  unfold State.writeWord
  split
  case h_2 heq =>
    have hr : regionCount r = 25 := by simp [regionCount, Config.regionWords, heq]
    exact Mix.setCell_fixed _ (hr ▸ hi) h
  case h_5 => split <;> exact h
  all_goals exact h

/-- A run of written words reaches the tables alone, keeps the fixed cells, and leaves the modes and the lock unless it is
in region 13. -/
theorem State.writeWords_keeps (ws : List Word) (s : State) (r : RegionIx) (i : Nat) (hi : i + ws.length ≤ regionCount r) :
    s.OnlyTables (s.writeWords r i ws) ∧ (s.mix.FixedCellsZero → (s.writeWords r i ws).mix.FixedCellsZero) ∧
      (r.val ≠ 13 → (s.writeWords r i ws).directives.lock = s.directives.lock ∧
        (s.writeWords r i ws).directives.modes = s.directives.modes) := by
  induction ws generalizing s i with
  | nil => exact ⟨.refl s, id, fun _ => ⟨rfl, rfl⟩⟩
  | cons w ws ih =>
    rw [List.length_cons] at hi
    obtain ⟨honly, hfixed, hmodes⟩ := ih (s.writeWord r i w) (i + 1) (by omega)
    refine ⟨(s.writeWord_onlyTables r i w).trans honly, fun h => hfixed (State.writeWord_fixed w (by omega) h), fun h => ?_⟩
    have hone := s.writeWord_modes i w h
    exact ⟨(hmodes h).1.trans hone.1, (hmodes h).2.trans hone.2⟩

theorem State.afterWrite_reaches (s : State) (old : Vector Listener 4) : Reaches may s (s.afterWrite old) := by
  unfold State.afterWrite
  simp only
  refine Relation.ReflTransGen.trans (b := if _ then s.resortWait else s) ?_ (Reaches.foldl _ _ (fun x _ s => ?_) _)
  · split
    · exact s.resortWait_reaches
    · exact .refl
  · split
    · exact .refl
    · exact s.notice_reaches x

theorem State.wordsToWrite_length (s : State) (m : Option Word) (ws : List Word) : (s.wordsToWrite m ws).length = ws.length := by
  unfold State.wordsToWrite
  split <;> rfl

/-- WRITE (R152). -/
theorem State.writeDirective_reaches (s : State) (m : Option Word) (p : List Byte)
    (ht : may .tables ∧ may .stagingPage ∧ may .admission ∧ may .bonds) (hp : may .pointer) :
    Reaches may s (s.writeDirective m p).1 := by
  unfold State.writeDirective
  simp only
  split
  · exact .refl
  · rename_i hfit
    split
    · exact .refl
    · rename_i hfree
      split
      · exact .refl
      · obtain ⟨honly, hfixed, hmodes⟩ := s.writeWords_keeps (s.wordsToWrite m (payloadWords p)) s.directives.region
          s.directives.index (by rw [State.wordsToWrite_length]; omega)
        have hwrite : Reaches may s (s.writeWords s.directives.region s.directives.index (s.wordsToWrite m (payloadWords p))) := by
          refine (Change.tables _ honly ht hfixed fun hl => ?_).reaches
          have hr : s.directives.region.val ≠ 13 := by
            intro hr
            simp [DirectiveUnit.writeProtected, hr, hl] at hfree
          exact ⟨(hmodes hr).1.trans hl, (hmodes hr).2⟩
        exact (hwrite.trans (State.afterWrite_reaches _ _)).trans (Change.pointer _ _ hp).reaches

/-! ## The store -/

theorem State.storePageDirective_reaches (s : State) (n : Byte) (hm : may .operation) :
    Reaches may s (s.storePageDirective n).1 := by
  unfold State.storePageDirective
  split
  · exact .refl
  · rename_i p _
    split
    · exact .refl
    · rename_i hfree
      split
      · exact .refl
      · split
        · exact .refl
        · refine (Change.operation _ (by simp) (fun q hq => ?_) hm).reaches
          obtain rfl : p = q := by simpa [StoreState.inFlight] using hq
          simpa using hfree

theorem State.erasePageDirective_reaches (s : State) (n : Byte) (hm : may .operation) :
    Reaches may s (s.erasePageDirective n).1 := by
  unfold State.erasePageDirective
  split
  · exact .refl
  · rename_i p _
    split
    · exact .refl
    · rename_i hfree
      split
      · exact .refl
      · refine (Change.operation _ (by simp) (fun q hq => ?_) hm).reaches
        obtain rfl : p = q := by simpa [StoreState.inFlight] using hq
        simpa using hfree

theorem State.loadPageDirective_reaches (s : State) (n : Byte) (hm : may .stagingPage) :
    Reaches may s (s.loadPageDirective n).1 := by
  unfold State.loadPageDirective
  split
  · exact .refl
  · split
    · exact .refl
    · split
      · exact .refl
      · exact (Change.stagingPage _ hm).reaches

theorem StoreState.operation_none {t : StoreState} : t.operation = none ↔ t = .idle := by
  cases t <;> simp [StoreState.operation]

theorem Store.settle_of_idle {t : Store} (h : t.state = .idle) : t.settle = t := by
  simp only [Store.settle, h]

theorem State.restartDirective_reaches (s : State) (a : Arriving) (hm : may .startUp) (hd : may .deferral) :
    Reaches may s (s.restartDirective a).1 := by
  unfold State.restartDirective
  split
  · rename_i hop
    have hidle := StoreState.operation_none.1 hop
    have hrestart := Change.restarted (s := s) a (.inl hidle) hm
    rw [Store.settle_of_idle hidle] at hrestart
    exact hrestart.reaches
  · rename_i hop
    split
    · exact .refl
    · have hidle : s.store.state ≠ .idle := fun h => by simp [StoreState.operation_none.2 h] at hop
      exact (Change.deferral hd hidle).reaches.trans (State.postEvent_reaches _ _)

theorem State.complete_reaches (s : State) (a : Arriving) (hm : may .pages ∧ may .startUp) : Reaches may s (s.complete a) := by
  unfold State.complete
  split
  · exact .refl
  · simp only
    split
    · exact (Change.restarted a (.inr hm.1) hm.2).reaches
    · rename_i hp
      exact (Change.settled (by simpa using hp) hm).reaches.trans (State.postEvent_reaches _ _)

/-! ## The commands -/

theorem State.finishAir_reaches (s : State) : Reaches may s { s with airPort := s.airPort.finish } := by
  obtain ⟨ho, -⟩ := AirPort.choose_keeps { s.airPort with sending := none }
  exact (Change.air _ ho (fun _ => AirPort.choose_Busy _) fun h => AirPort.choose_bounded (a := { s.airPort with sending := none }) h).reaches

theorem State.finishVoice_reaches (s : State) : Reaches may s s.finishVoice :=
  (Change.choice s { s.voicePort with sending := none } s.directives ⟨rfl, rfl, rfl, rfl, rfl, rfl⟩ rfl id).reaches

theorem State.releaseHoldOff_reaches (s : State) (link : Link) : Reaches may s ((s.setHoldOff link false).chooseAt link) := by
  cases link with
  | air =>
    obtain ⟨ho, -⟩ := AirPort.choose_keeps { s.airPort with holdOff := false }
    exact (Change.air (s := s) _ ho (fun _ => AirPort.choose_Busy _)
      fun h => AirPort.choose_bounded (a := { s.airPort with holdOff := false }) h).reaches
  | voice =>
    exact (Change.choice s { s.voicePort with holdOff := false } s.directives ⟨rfl, rfl, rfl, rfl, rfl, rfl⟩ rfl id).reaches

theorem State.assertHoldOff_reaches (s : State) (link : Link) : Reaches may s (s.setHoldOff link true) := by
  cases link with
  | air =>
    exact (Change.air (s := s) { s.airPort with holdOff := true } rfl (fun _ _ hh => by simp at hh) id).reaches
  | voice =>
    exact (Change.voice (s := s) { s.voicePort with holdOff := true } s.directives ⟨rfl, rfl, rfl, rfl, rfl, rfl⟩ rfl
      (fun _ _ hh => by simp at hh) id).reaches

theorem State.countMalformed_reaches (s : State) (link : Link) : Reaches may s (s.countMalformed link) := by
  cases link with
  | air =>
    exact (Change.air (s := s) { s.airPort with malformed := satInc Config.counterMax s.airPort.malformed } rfl id
      fun h => ⟨satInc_le _ _, h.2⟩).reaches
  | voice =>
    exact (Change.voice (s := s) { s.voicePort with malformed := satInc Config.counterMax s.voicePort.malformed }
      s.directives ⟨rfl, rfl, rfl, rfl, rfl, rfl⟩ rfl id fun h => ⟨satInc_le _ _, h.2⟩).reaches

theorem State.bondDirective_reaches (s : State) (n : Byte) (hm : may .bonds) : Reaches may s (s.bondDirective n).1 := by
  unfold State.bondDirective
  split
  · exact .refl
  · split
    · exact .refl
    · split
      · exact .refl
      · split
        · exact .refl
        · exact s.enterBond_reaches _ _ hm

theorem State.evictDirective_reaches (s : State) (n : Byte) : Reaches may s (s.evictDirective n).1 := by
  unfold State.evictDirective
  split
  · exact .refl
  · split
    · exact .refl
    · unfold State.evictBud
      split
      · exact (s.sendAir_reaches _).trans (State.freeBud_reaches _ _ _)
      · exact s.freeBud_reaches _ _

theorem State.admissionDirective_reaches (s : State) (o : Bool) (hm : may .admission) :
    Reaches may s (s.admissionDirective o).1 := by
  unfold State.admissionDirective
  split
  · exact (Change.admission o hm).reaches
  · exact .refl

theorem State.clearCountersDirective_reaches (s : State) : Reaches may s s.clearCountersDirective.1 := by
  unfold State.clearCountersDirective
  split
  · exact Change.counters.reaches
  · exact .refl

theorem State.pointDirective_reaches (s : State) (p : List Byte) (hm : may .pointer) :
    Reaches may s (s.pointDirective p).1 := by
  unfold State.pointDirective
  split
  · exact (Change.pointer _ _ hm).reaches
  · exact .refl

theorem State.readDirective_reaches (s : State) (p : List Byte) (hm : may .pointer) :
    Reaches may s (s.readDirective p).1 := by
  unfold State.readDirective
  simp only
  split
  · exact .refl
  · split
    · exact .refl
    · split
      · exact .refl
      · exact (Change.pointer _ _ hm).reaches

theorem State.grantAt_reaches (s : State) (k : LaneIx) :
    Reaches may s (match s.laneUnit.lanes[k].state with
      | .draining => s.drainShare k
      | .vacant => s.grantHead k
      | .priming | .mixing => s) := by
  split
  · exact s.drainShare_reaches k
  · exact s.grantHead_reaches k
  · exact .refl
  · exact .refl

/-- Either branch of a condition is a path. -/
theorem Reaches.ite {s t u : State} {p : Prop} [Decidable p] (ht : Reaches may s t) (hu : Reaches may s u) :
    Reaches may s (if p then t else u) := by
  split
  · exact ht
  · exact hu

/-- Every command answers a next state, by a path of changes that it is permitted. -/
theorem exec_reaches (c : Instr) (s : State) : ∃ t, exec c s = .next t ∧ Reaches (permits c) s t := by
  cases c with
  | audio h q b => exact ⟨_, rfl, s.atPort_reaches _ _ fun _ => s.arrival_reaches _ _⟩
  | silence h q => exact ⟨_, rfl, s.atPort_reaches _ _ fun _ => s.arrival_reaches _ _⟩
  | join h q a t r => exact ⟨_, rfl, s.atPort_reaches _ _ fun _ => s.joinRequest_reaches _ rfl⟩
  | confirm h q => exact ⟨_, rfl, s.atPort_reaches _ _ fun _ => s.confirmRequest_reaches _ _⟩
  | leave h q => exact ⟨_, rfl, s.atPort_reaches _ _ fun _ => s.leaveRequest_reaches _⟩
  | park h q => exact ⟨_, rfl, s.atPort_reaches _ _ fun _ => s.parkRequest_reaches _⟩
  | adjust h q f => exact ⟨_, rfl, s.atPort_reaches _ _ fun _ => s.adjustRequest_reaches _ _ _⟩
  | handleDropped h q => exact ⟨_, rfl, s.atPort_reaches _ _ fun _ => s.handleDroppedNotice_reaches _⟩
  | farVoice b2 b3 far o =>
    exact ⟨_, rfl, s.atPort_reaches _ _ fun ho => s.voiceFrame_reaches _ _ rfl rfl .inr ho⟩
  | frameMalformed link b l => exact ⟨_, rfl, s.atPort_reaches _ _ fun _ => s.countMalformed_reaches _⟩
  | directiveUnknown code q p =>
    exact ⟨_, rfl, s.atPort_reaches _ _ fun _ => (Change.maskConsumed (.inl rfl)).reaches.trans (State.post_reaches _ _)⟩
  | point q p => exact ⟨_, rfl, s.takeDirective_reaches _ _ _ _ (.inl rfl) fun _ _ => State.pointDirective_reaches _ _ rfl⟩
  | read q p => exact ⟨_, rfl, s.takeDirective_reaches _ _ _ _ (.inl rfl) fun _ _ => State.readDirective_reaches _ _ rfl⟩
  | write q p =>
    exact ⟨_, rfl, s.takeDirective_reaches _ _ _ _ (.inl rfl) fun _ _ =>
      State.writeDirective_reaches _ _ _ ⟨rfl, .inl rfl, rfl, rfl⟩ rfl⟩
  | mask q p =>
    exact ⟨_, rfl, s.takeDirective_reaches _ _ _ _ (.inl rfl) fun _ _ => (Change.maskValue _ ⟨q, p, rfl⟩).reaches⟩
  | beginCall q p => exact ⟨_, rfl, s.takeCall_reaches _ _ _ (.inl rfl) rfl⟩
  | endCall q p => exact ⟨_, rfl, s.takeCall_reaches _ _ _ (.inl rfl) rfl⟩
  | hold q p => exact ⟨_, rfl, s.takeCall_reaches _ _ _ (.inl rfl) rfl⟩
  | resume q p => exact ⟨_, rfl, s.takeCall_reaches _ _ _ (.inl rfl) rfl⟩
  | swap q p =>
    exact ⟨_, rfl, s.takeDirective_reaches _ _ _ _ (.inl rfl) fun _ _ => (Change.swapFlag ⟨q, p, rfl⟩).reaches⟩
  | openAdmission q p =>
    exact ⟨_, rfl, s.takeDirective_reaches _ _ _ _ (.inl rfl) fun _ _ => State.admissionDirective_reaches _ _ rfl⟩
  | closeAdmission q p =>
    exact ⟨_, rfl, s.takeDirective_reaches _ _ _ _ (.inl rfl) fun _ _ => State.admissionDirective_reaches _ _ rfl⟩
  | evict q p => exact ⟨_, rfl, s.takeDirective_reaches _ _ _ _ (.inl rfl) fun _ _ => State.evictDirective_reaches _ _⟩
  | bond q p => exact ⟨_, rfl, s.takeDirective_reaches _ _ _ _ (.inl rfl) fun _ _ => State.bondDirective_reaches _ _ rfl⟩
  | storePage q p =>
    exact ⟨_, rfl, s.takeDirective_reaches _ _ _ _ (.inl rfl) fun _ _ =>
      State.storePageDirective_reaches _ _ ⟨q, p, .inl rfl⟩⟩
  | erasePage q p =>
    exact ⟨_, rfl, s.takeDirective_reaches _ _ _ _ (.inl rfl) fun _ _ =>
      State.erasePageDirective_reaches _ _ ⟨q, p, .inr rfl⟩⟩
  | loadPage q p =>
    exact ⟨_, rfl, s.takeDirective_reaches _ _ _ _ (.inl rfl) fun _ _ =>
      State.loadPageDirective_reaches _ _ (.inr ⟨q, p, rfl⟩)⟩
  | clearCounters q p =>
    exact ⟨_, rfl, s.takeDirective_reaches _ _ _ _ (.inl rfl) fun _ _ => State.clearCountersDirective_reaches _⟩
  | status q p => exact ⟨_, rfl, s.takeDirective_reaches _ _ _ _ (.inl rfl) fun _ _ => .refl⟩
  | restart q p a =>
    exact ⟨_, rfl, s.takeDirective_reaches _ _ _ _ (.inl rfl) fun _ _ => State.restartDirective_reaches _ _ rfl ⟨q, p, a, rfl⟩⟩
  | cadenceTimerExpiry o => exact ⟨_, rfl, s.timerExpiry_reaches o rfl rfl .inr⟩
  | fillTimeout o => exact ⟨_, rfl, .ite (s.timerExpiry_reaches o rfl rfl .inr) .refl⟩
  | confirmTimeout =>
    cases h : s.pairing.context with
    | none => exact ⟨s, by simp only [exec, execConfirmTimeout, h], .refl⟩
    | some c => exact ⟨_, by simp only [exec, execConfirmTimeout, h]; rfl, .ite s.countdown_reaches .refl⟩
  | noArrivals b => exact ⟨_, rfl, .ite (s.supervise_reaches _) .refl⟩
  | swapTaken => exact ⟨_, rfl, Change.reaches (may := permits .swapTaken) (.swapTaken rfl)⟩
  | promotion k => exact ⟨_, rfl, .ite ((s.examineLane_reaches k).trans (State.countMixing_reaches _)) .refl⟩
  | drainLastPull k => exact ⟨_, rfl, .ite (s.drainShare_reaches k) .refl⟩
  | reservationComplete k => exact ⟨_, rfl, .ite (s.drainShare_reaches k) .refl⟩
  | waitListGrant k => exact ⟨_, rfl, .ite (s.grantAt_reaches k) .refl⟩
  | moveIntoRing b => exact ⟨_, rfl, s.moveFor_reaches b⟩
  | operationCompletion a => exact ⟨_, rfl, s.complete_reaches a ⟨rfl, rfl⟩⟩
  | deferredRestartTaken a => exact ⟨_, rfl, .ite (s.complete_reaches a ⟨rfl, rfl⟩) .refl⟩
  | powerUp => exact ⟨_, rfl, Change.reaches (may := permits .powerUp) (.poweredUp ⟨rfl, rfl⟩)⟩
  | powerRemoval => exact ⟨_, rfl, Change.reaches (may := permits .powerRemoval) (.powerLost ⟨rfl, rfl⟩)⟩
  | airFrameSent => exact ⟨_, rfl, s.finishAir_reaches⟩
  | voiceFrameSent => exact ⟨_, rfl, s.finishVoice_reaches⟩
  | holdOffReleased link => exact ⟨_, rfl, s.releaseHoldOff_reaches link⟩
  | holdOffAsserted link => exact ⟨_, rfl, s.assertHoldOff_reaches link⟩
  | frameBegunWhileClosed link => exact ⟨_, rfl, .refl⟩

end Sys2Proof.Machine
end

