-- ==== Sys2Proof/Proofs/Invariants.lean ====
section
/-! PROOFS. The invariants and the frames that hold of every single change, and so of every command: the ceilings, the
arbiters, the power, the fixed cells, the locks, and what each table is changed by. -/

namespace Sys2Proof.Machine

variable {may : Part → Prop} {s t : State}

/-! ## From one change to a command and a step -/

/-- A reflexive and transitive relation that every change obeys is obeyed by every path. -/
theorem Reaches.induct {R : State → State → Prop} (hrefl : ∀ s, R s s) (htrans : ∀ {s t u}, R s t → R t u → R s u)
    (hone : ∀ s t, Change may s t → R s t) (h : Reaches may s t) : R s t := by
  induction h with
  | refl => exact hrefl _
  | tail _ hc ih => exact htrans ih (hone _ _ hc)

/-- A law that every change keeps is kept by every path. -/
theorem Reaches.keeps {P : State → Prop} (hone : ∀ s t, Change may s t → P s → P t) (h : Reaches may s t) : P s → P t :=
  h.induct (R := fun s t => P s → P t) (fun _ => id) (fun h k hs => k (h hs)) hone

/-- A field that every change leaves is left by every path. -/
theorem Reaches.field_eq {α : Type} (f : State → α) (hone : ∀ s t, Change may s t → f t = f s) (h : Reaches may s t) :
    f t = f s :=
  h.induct (R := fun s t => f t = f s) (fun _ => rfl) (fun h k => k.trans h) hone

/-- The path of the state that a command answers. -/
theorem reaches_of_exec {c : Instr} (h : exec c s = .next t) : Reaches (permits c) s t := by
  obtain ⟨u, hu, hr⟩ := exec_reaches c s
  rw [hu] at h
  exact Host.Outcome.next.inj h ▸ hr

/-- A step of the bridge idles, or runs the front command on the rest of the queue. -/
theorem step_cases (h : step s = .next t) : t = s ∨ ∃ c rest, s.pending = c :: rest ∧ exec c (s.withPending rest) = .next t := by
  unfold step at h
  split at h
  · exact .inl (Host.Outcome.next.inj h).symm
  · exact .inr ⟨_, _, ‹_›, h⟩

/-- A law that does not read the queue and that every command keeps is kept by every step. -/
theorem step_keeps {P : State → Prop} (hqueue : ∀ s p, P s → P (State.withPending s p))
    (hexec : ∀ c s t, P s → exec c s = .next t → P t) (hs : P s) (h : step s = .next t) : P t := by
  rcases step_cases h with rfl | ⟨c, rest, -, he⟩
  · exact hs
  · exact hexec c _ _ (hqueue s rest hs) he

/-! ## Start-up -/

/-- Start-up leaves every block but the Voice Port and the report queue as its last stage leaves it. -/
theorem State.start_only (s : State) (cause : StartCause) : (s.startUp cause).OnlyReports (s.start cause) :=
  State.chooseVoice_only _

theorem State.startUp_bounded (s : State) (cause : StartCause) : (s.startUp cause).Bounded := by
  constructor <;> simp [State.startUp, State.openPorts, State.loadPages, State.volatileReset, Roster.start, Intake.start,
    LaneUnit.start, Mix.start, CallCtl.start, DirectiveUnit.start, Bud.Bounded, Discards.Bounded, Lane.CountersBounded,
    Lane.InRange, CallCtl.Bounded, AirPort.Bounded]

theorem State.losePower_bounded (s : State) : s.losePower.Bounded := by
  constructor <;> simp [State.losePower, State.volatileReset, Roster.start, Intake.start,
    LaneUnit.start, Mix.start, CallCtl.start, DirectiveUnit.start, Bud.Bounded, Discards.Bounded, Lane.CountersBounded,
    Lane.InRange, CallCtl.Bounded, AirPort.Bounded]

/-- The ceilings of the blocks that a choice of the Voice Port's arbiter leaves, with those that it keeps. -/
theorem State.chooseVoice_keeps_bounded (h : s.Bounded) : s.chooseVoice.Bounded := by
  have hv := State.chooseVoice_bounded (s := s) ⟨h.voice, h.reports, h.lost⟩
  constructor
  case voice => exact hv.1
  case reports => exact hv.2.1
  case lost => exact hv.2.2
  case buds => simpa using h.buds
  case discards => simpa using h.discards
  case queues => simpa using h.queues
  case lanes => simpa using h.lanes
  case ranges => simpa using h.ranges
  case clips => simpa using h.clips
  case call => simpa using h.call
  case air => simpa using h.air

theorem State.start_bounded (s : State) (cause : StartCause) : (s.start cause).Bounded :=
  State.chooseVoice_keeps_bounded (s.startUp_bounded cause)

theorem loadCell_fixed (pages : Pages) {i : Fin 25} (h : fixedCell i.val = true) : loadCell pages i = 0 := by
  unfold loadCell
  rw [if_pos h]

theorem State.start_mix (s : State) (cause : StartCause) : (s.start cause).mix = Mix.start (loadTables s.store.pages) :=
  (s.start_only cause).mix

theorem State.start_store (s : State) (cause : StartCause) :
    (s.start cause).store = { pages := s.store.pages, state := .idle, restartPending := false, staging := blankImage } :=
  (s.start_only cause).store

/-- Both banks have their fixed cells 0 after a start-up, whatever the pages hold (R99, R166). -/
theorem State.start_fixed (s : State) (cause : StartCause) : (s.start cause).mix.FixedCellsZero := by
  rw [State.start_mix]
  intro i hi
  simp [Mix.start, loadTables, loadCell_fixed s.store.pages hi]

theorem State.losePower_fixed (s : State) : s.losePower.mix.FixedCellsZero := by
  intro i hi
  simp [State.losePower, State.volatileReset, Mix.start, builtInTables, defaultMix, defaultCell, hi]

theorem State.start_arbitersBusy (s : State) (cause : StartCause) : (s.start cause).ArbitersBusy := by
  refine ⟨?_, State.chooseVoice_Busy _⟩
  rw [(s.start_only cause).airPort]
  exact fun _ _ _ => rfl

theorem State.start_powerSound (s : State) (cause : StartCause) : (s.start cause).PowerSound := by
  have only := s.start_only cause
  rw [State.PowerSound, only.airPort, only.callCtl, only.line.1]
  exact ⟨rfl, rfl⟩

/-! ## The ceilings (O4) -/

theorem State.Bounded.feeds (h : s.Bounded) : FeedsBounded s.laneUnit s.intake := ⟨h.discards, h.queues, h.lanes, h.ranges⟩

theorem State.clearCounters_bounded (h : s.Bounded) : s.clearCounters.Bounded where
  buds := h.buds
  discards b := by simp [State.clearCounters, Discards.Bounded]
  queues := h.queues
  lanes k := by simp [State.clearCounters, Lane.clearCounters, Lane.CountersBounded]
  ranges k := by simpa [State.clearCounters, Lane.clearCounters, Lane.InRange] using h.ranges k
  clips i := by simp [State.clearCounters]
  call := ⟨h.call.1, Nat.zero_le _, Nat.zero_le _⟩
  air := ⟨Nat.zero_le _, Nat.zero_le _, Nat.zero_le _, h.air.2.2.2⟩
  voice := Nat.zero_le _
  reports := h.reports
  lost := Nat.zero_le _

/-- Every change keeps every counter, queue and lane field within its ceiling or range. -/
theorem Change.bounded (h : Change may s t) (hs : s.Bounded) : t.Bounded := by
  cases h with
  | roster r _ hb => exact { hs with buds := hb hs.buds }
  | lanes u i hb =>
    have hf := hb hs.feeds
    exact { hs with discards := hf.discards, queues := hf.queues, lanes := hf.counters, ranges := hf.ranges }
  | mixCounters clips seq hb => exact { hs with clips := hb hs.clips }
  | swapTaken =>
    refine { hs with clips := ?_ }
    simp only [State.takeSwap, Mix.takeSwap]
    split <;> exact hs.clips
  | call c _ _ hb => exact { hs with call := hb hs.call }
  | air a _ _ hb => exact { hs with air := hb hs.air }
  | voice v d _ _ _ hb =>
    have hv := hb ⟨hs.voice, hs.reports, hs.lost⟩
    exact { hs with voice := hv.1, reports := hv.2.1, lost := hv.2.2 }
  | tables _ h =>
    exact {
      buds := h.buds ▸ hs.buds, discards := h.intake ▸ hs.discards, queues := h.intake ▸ hs.queues
      lanes := h.laneUnit ▸ hs.lanes, ranges := h.laneUnit ▸ hs.ranges, clips := h.clips ▸ hs.clips
      call := h.callCtl ▸ hs.call, air := h.airPort ▸ hs.air, voice := h.voicePort ▸ hs.voice
      reports := h.reports ▸ hs.reports, lost := h.reportsLost ▸ hs.lost }
  | counters => exact State.clearCounters_bounded hs
  | restarted => exact State.start_bounded _ _
  | poweredUp => exact State.start_bounded _ _
  | powerLost => exact State.losePower_bounded _
  | context | admission | bonds | swapFlag | armed | maskConsumed | maskValue | pointer | stagingPage | operation | deferral
  | settled => exact { hs with }

/-- Settles O4: one change at a time. -/
theorem stepKeepsCeilings : Obligations.StepKeepsCeilings := by
  unfold Obligations.StepKeepsCeilings
  intro s t hs h
  exact step_keeps (P := State.Bounded) (fun s p h => { h with })
    (fun c s t hs h => (reaches_of_exec h).keeps (fun s t => Change.bounded) hs) hs h

/-! ## The arbiters, the power, the restart and the fixed cells (O8) -/

theorem Change.arbitersBusy (h : Change may s t) (hs : s.ArbitersBusy) : t.ArbitersBusy := by
  cases h with
  | air a _ hq => exact ⟨hq hs.1, hs.2⟩
  | voice v d _ _ hq => exact ⟨hs.1, hq hs.2⟩
  | tables _ h =>
    rw [State.ArbitersBusy, h.airPort, h.voicePort, h.reports]
    exact hs
  | restarted => exact State.start_arbitersBusy _ _
  | poweredUp => exact State.start_arbitersBusy _ _
  | powerLost => exact ⟨fun ho => (Bool.false_ne_true ho).elim, fun ho => (Bool.false_ne_true ho).elim⟩
  | roster | context | admission | bonds | lanes | mixCounters | swapFlag | swapTaken | call | armed | maskConsumed | maskValue
  | pointer | counters | stagingPage | operation | deferral | settled => exact hs

theorem Change.powerSound (h : Change may s t) (hs : s.PowerSound) : t.PowerSound := by
  obtain ⟨hports, htimer⟩ := hs
  cases h with
  | call c _ ht => exact ⟨hports, ht ▸ htimer⟩
  | armed i h =>
    refine ⟨hports, ?_⟩
    rcases h with h | h
    · exact (hports.trans h).symm
    · exact (htimer.symm.trans h).symm
  | air a ho => exact ⟨ho.trans hports, htimer.trans ho.symm⟩
  | voice v d _ ho => exact ⟨hports.trans ho.symm, htimer⟩
  | tables _ h =>
    rw [State.PowerSound, h.airPort, h.voicePort, h.callCtl]
    exact ⟨hports, htimer⟩
  | restarted => exact State.start_powerSound _ _
  | poweredUp => exact State.start_powerSound _ _
  | powerLost => exact ⟨rfl, rfl⟩
  | roster | context | admission | bonds | lanes | mixCounters | swapFlag | swapTaken | maskConsumed | maskValue
  | pointer | counters | stagingPage | operation | deferral | settled => exact ⟨hports, htimer⟩

theorem Change.restartSound (h : Change may s t) (hs : s.store.RestartSound) : t.store.RestartSound := by
  cases h with
  | tables _ h => exact fun hp => h.state ▸ hs (h.restartPending ▸ hp)
  | operation _ hi => exact fun _ => hi
  | deferral _ hi => exact fun _ => hi
  | settled hp =>
    have hkept : s.store.settle.restartPending = s.store.restartPending := by
      unfold Store.settle
      split <;> rfl
    exact fun h => by simp [hkept, hp] at h
  | restarted =>
    simp only [State.restart, State.start_store]
    exact fun h => (Bool.false_ne_true h).elim
  | poweredUp =>
    simp only [State.start_store]
    exact fun h => (Bool.false_ne_true h).elim
  | powerLost => exact fun h => (Bool.false_ne_true h).elim
  | roster | context | admission | bonds | lanes | mixCounters | swapFlag | swapTaken | call | armed | air | voice | maskConsumed
  | maskValue | pointer | counters | stagingPage => exact hs

theorem Mix.takeSwap_fixed {m : Mix} (h : m.FixedCellsZero) : m.takeSwap.FixedCellsZero := by
  unfold Mix.takeSwap
  split
  · exact fun i hi => ⟨(h i hi).1, (h i hi).1⟩
  · exact h

theorem Change.fixedCells (h : Change may s t) (hs : s.mix.FixedCellsZero) : t.mix.FixedCellsZero := by
  cases h with
  | swapTaken => exact Mix.takeSwap_fixed hs
  | tables _ _ _ hf => exact hf hs
  | restarted => exact State.start_fixed _ _
  | poweredUp => exact State.start_fixed _ _
  | powerLost => exact State.losePower_fixed _
  | roster | context | admission | bonds | lanes | mixCounters | swapFlag | call | armed | air | voice | maskConsumed | maskValue
  | pointer | counters | stagingPage | operation | deferral | settled => exact hs

/-- Settles O8: each of the four laws is kept by every change. -/
theorem stepKeepsPortsStoreAndBanks : Obligations.StepKeepsPortsStoreAndBanks := by
  unfold Obligations.StepKeepsPortsStoreAndBanks
  intro s t h
  have keeps : ∀ {P : State → Prop}, (∀ s p, P s → P (State.withPending s p)) →
      (∀ {may : Part → Prop} s t, Change may s t → P s → P t) → P s → P t :=
    fun hqueue hone hs => step_keeps hqueue (fun c s t hs h => (reaches_of_exec h).keeps hone hs) hs h
  exact ⟨fun ha hp hr =>
      ⟨keeps (P := State.ArbitersBusy) (fun _ _ h => h) (fun _ _ => Change.arbitersBusy) ha,
        keeps (P := State.PowerSound) (fun _ _ h => h) (fun _ _ => Change.powerSound) hp,
        keeps (P := fun s => s.store.RestartSound) (fun _ _ h => h) (fun _ _ => Change.restartSound) hr⟩,
    keeps (P := fun s => s.mix.FixedCellsZero) (fun _ _ h => h) (fun _ _ => Change.fixedCells)⟩

/-! ## The locks (O9) -/

/-- An operation in flight on another page than 0 leaves page 0 as it is when it ends (R171) or is lost (R164). -/
theorem Store.settle_pageZero {d : Store} (h : d.state.inFlight ≠ some 0) :
    d.settle.pages[0] = d.pages[0] ∧ d.settle.state.inFlight = none := by
  have hset : ∀ (p : PageIx) (v : Option Page), p ≠ 0 → (d.pages.set p v)[0] = d.pages[0] := fun p v hp =>
    Vector.getElem_set_ne p.isLt _ fun e => hp (Fin.ext e)
  unfold Store.settle
  split
  · rename_i he
    exact ⟨rfl, by rw [he]; rfl⟩
  · rename_i p image he
    exact ⟨hset p _ (by rintro rfl; exact h (by rw [he]; rfl)), rfl⟩
  · rename_i p he
    exact ⟨hset p _ (by rintro rfl; exact h (by rw [he]; rfl)), rfl⟩

theorem Store.loseFlight_pageZero {d : Store} (h : d.state.inFlight ≠ some 0) : d.loseFlight.pages[0] = d.pages[0] := by
  unfold Store.loseFlight
  split
  · rename_i p he
    exact Vector.getElem_set_ne p.isLt _ fun hp => h (he.trans (congrArg some (Fin.ext hp)))
  · rfl

/-- A locked page 0 stays locked while it is the same page and no operation on it begins. -/
theorem Store.PageZeroLocked.of_same {d e : Store} (h : d.PageZeroLocked) (hpage : e.pages[0] = d.pages[0])
    (hflight : e.state.inFlight ≠ some 0) : e.PageZeroLocked ∧ e.pages[0] = d.pages[0] := by
  refine ⟨⟨?_, hflight⟩, hpage⟩
  rw [← h.1]
  unfold pageZeroLocked
  rw [hpage]

theorem Change.pageZero (h : Change may s t) (hs : s.store.PageZeroLocked) :
    t.store.PageZeroLocked ∧ t.store.pages[0] = s.store.pages[0] := by
  cases h with
  | tables _ h => exact hs.of_same (by rw [h.pages]) (by rw [h.state]; exact hs.2)
  | stagingPage => exact hs.of_same rfl hs.2
  | operation d _ hp =>
    refine hs.of_same rfl fun he => ?_
    have hfree := hp 0 he
    rw [State.pageProtected, if_pos rfl, hs.1] at hfree
    exact Bool.false_ne_true hfree.symm
  | deferral => exact hs.of_same rfl hs.2
  | settled =>
    obtain ⟨hpage, hflight⟩ := Store.settle_pageZero hs.2
    exact hs.of_same hpage (by rw [hflight]; simp)
  | restarted =>
    refine hs.of_same ?_ ?_ <;> simp only [State.restart, State.start_store, State.cutArrivals]
    · exact (Store.settle_pageZero hs.2).1
    · simp [StoreState.inFlight]
  | poweredUp =>
    refine hs.of_same ?_ ?_ <;> simp only [State.start_store, State.stopLinks_store]
    · exact Store.loseFlight_pageZero hs.2
    · simp [StoreState.inFlight]
  | powerLost =>
    refine hs.of_same (Store.loseFlight_pageZero hs.2) ?_
    simp [State.losePower, State.volatileReset, StoreState.inFlight]
  | roster | context | admission | bonds | lanes | mixCounters | swapFlag | swapTaken | call | armed | air | voice | maskConsumed
  | maskValue | pointer | counters => exact ⟨hs, rfl⟩

/-- A set lock of region 13 keeps the region until a start-up or a removal of power (R157). -/
theorem Change.lock (h : Change may s t) (hm : ¬ may .startUp) (hl : s.directives.lock = true) :
    t.directives.lock = true ∧ t.directives.modes = s.directives.modes := by
  cases h with
  | voice v d hd => exact ⟨hd.2.2.2.2.1.trans hl, hd.2.2.2.1⟩
  | tables _ _ _ _ hk => exact hk hl
  | settled _ h => exact absurd h.2 hm
  | restarted _ _ h => exact absurd h hm
  | poweredUp h => exact absurd h.2 hm
  | powerLost h => exact absurd h.2 hm
  | roster | context | admission | bonds | lanes | mixCounters | swapFlag | swapTaken | call | armed | air | maskConsumed
  | maskValue | pointer | counters | stagingPage | operation | deferral => exact ⟨hl, rfl⟩

/-- Settles O9: page 0 and region 13 under one change at a time. -/
theorem locksHold : Obligations.LocksHold := by
  unfold Obligations.LocksHold
  refine ⟨fun s t hs h => ?_, fun c s t hm hl h => ?_⟩
  · rcases step_cases h with rfl | ⟨c, rest, -, he⟩
    · exact ⟨hs, rfl⟩
    · have hkept := (reaches_of_exec he).induct
        (R := fun u v => u.store.PageZeroLocked → v.store.PageZeroLocked ∧ v.store.pages[0] = u.store.pages[0])
        (fun _ hu => ⟨hu, rfl⟩) (fun h k hu => ⟨(k (h hu).1).1, (k (h hu).1).2.trans (h hu).2⟩)
        fun _ _ => Change.pageZero
      exact hkept hs
  · have hstart : ¬ permits c .startUp := fun h => by simp [permits, hm] at h
    exact (reaches_of_exec h).induct
      (R := fun u v => u.directives.lock = true → v.directives.lock = true ∧ v.directives.modes = u.directives.modes)
      (fun _ hu => ⟨hu, rfl⟩) (fun h k hu => ⟨(k (h hu).1).1, (k (h hu).1).2.trans (h hu).2⟩)
      (fun _ _ hc => hc.lock hstart) hl

/-! ## The queue of waiting commands (O2) -/

theorem Change.pending (h : Change may s t) : t.pending = s.pending := by
  cases h with
  | tables _ h => exact h.pending
  | restarted => exact (State.start_only _ _).pending
  | poweredUp => exact (State.start_only _ _).pending
  | roster | context | admission | bonds | lanes | mixCounters | swapFlag | swapTaken | call | armed | air | voice | maskConsumed
  | maskValue | pointer | counters | stagingPage | operation | deferral | settled | powerLost => rfl

/-- Settles O2: no change touches the queue. -/
theorem commandsLeaveTheQueue : Obligations.CommandsLeaveTheQueue := by
  unfold Obligations.CommandsLeaveTheQueue
  intro c s
  obtain ⟨t, ht, hr⟩ := exec_reaches c s
  exact ⟨t, ht, hr.field_eq State.pending fun _ _ => Change.pending⟩

/-- Settles O1: the step's own equation. -/
theorem stepRunsFrontCommand : Obligations.StepRunsFrontCommand := fun _ _ _ => rfl

/-! ## What each table is changed by (O10) -/

/-- The store's pages change by completions and by power alone (R164). -/
theorem Change.pages_eq (h : Change may s t) (hm : ¬ may .pages) : t.store.pages = s.store.pages := by
  cases h with
  | tables _ h => exact h.pages
  | settled _ h => exact absurd h.1 hm
  | restarted a hi =>
    have hidle := hi.resolve_right hm
    simp only [State.restart, State.start_store, State.cutArrivals, Store.settle_of_idle hidle]
  | poweredUp h => exact absurd h.1 hm
  | powerLost h => exact absurd h.1 hm
  | roster | context | admission | bonds | lanes | mixCounters | swapFlag | swapTaken | call | armed | air | voice | maskConsumed
  | maskValue | pointer | counters | stagingPage | operation | deferral => rfl

/-- The table pointer, which POINT, READ and WRITE move (R150). -/
theorem Change.pointer_eq (h : Change may s t) (hs : ¬ may .startUp) (hm : ¬ may .pointer) :
    (t.directives.region, t.directives.index) = (s.directives.region, s.directives.index) := by
  cases h with
  | voice _ _ hd => rw [hd.1, hd.2.1]
  | pointer _ _ h => exact absurd h hm
  | tables _ h => rw [h.region, h.index]
  | settled _ h => exact absurd h.2 hs
  | restarted _ _ h => exact absurd h hs
  | poweredUp h => exact absurd h.2 hs
  | powerLost h => exact absurd h.2 hs
  | roster | context | admission | bonds | lanes | mixCounters | swapFlag | swapTaken | call | armed | air | maskConsumed
  | maskValue | counters | stagingPage | operation | deferral => rfl

/-- The tables that WRITE alone changes (R98, R102, R103, R25, R154, R156). -/
def State.writtenTables (s : State) :
    Vector Gain 64 × Vector Gain 4 × Vector GainIx 25 × Vector Window 4 × Settings × Vector Mode 14 × Bool :=
  (s.mix.curve, s.mix.openMic, s.mix.staging, s.pairing.windows, s.directives.settings, s.directives.modes,
    s.directives.lock)

theorem Change.tables_eq (h : Change may s t) (hs : ¬ may .startUp) (hm : ¬ may .tables) :
    t.writtenTables = s.writtenTables := by
  cases h with
  | swapTaken =>
    simp only [State.writtenTables, State.takeSwap, Mix.takeSwap]
    split <;> rfl
  | voice _ _ hd =>
    obtain ⟨-, -, -, hmodes, hlock, hsettings⟩ := hd
    simp only [State.writtenTables, hmodes, hlock, hsettings]
  | tables _ _ h => exact absurd h.1 hm
  | settled _ h => exact absurd h.2 hs
  | restarted _ _ h => exact absurd h hs
  | poweredUp h => exact absurd h.2 hs
  | powerLost h => exact absurd h.2 hs
  | roster | context | admission | bonds | lanes | mixCounters | swapFlag | call | armed | air | maskConsumed
  | maskValue | pointer | counters | stagingPage | operation | deferral => rfl

theorem Change.stagingPage_eq (h : Change may s t) (hs : ¬ may .startUp) (hm : ¬ may .stagingPage) :
    t.store.staging = s.store.staging := by
  cases h with
  | tables _ _ h => exact absurd h.2.1 hm
  | stagingPage _ h => exact absurd h hm
  | settled _ h => exact absurd h.2 hs
  | restarted _ _ h => exact absurd h hs
  | poweredUp h => exact absurd h.2 hs
  | powerLost h => exact absurd h.2 hs
  | roster | context | admission | bonds | lanes | mixCounters | swapFlag | swapTaken | call | armed | air | voice | maskConsumed
  | maskValue | pointer | counters | operation | deferral => rfl

theorem Change.operation_eq (h : Change may s t) (hs : ¬ may .startUp) (hm : ¬ may .operation) :
    t.store.state = s.store.state := by
  cases h with
  | tables _ h => exact h.state
  | operation _ _ _ h => exact absurd h hm
  | settled _ h => exact absurd h.2 hs
  | restarted _ _ h => exact absurd h hs
  | poweredUp h => exact absurd h.2 hs
  | powerLost h => exact absurd h.2 hs
  | roster | context | admission | bonds | lanes | mixCounters | swapFlag | swapTaken | call | armed | air | voice | maskConsumed
  | maskValue | pointer | counters | stagingPage | deferral => rfl

theorem Change.restartPending_eq (h : Change may s t) (hs : ¬ may .startUp) (hm : ¬ may .deferral) :
    t.store.restartPending = s.store.restartPending := by
  cases h with
  | tables _ h => exact h.restartPending
  | deferral h => exact absurd h hm
  | settled _ h => exact absurd h.2 hs
  | restarted _ _ h => exact absurd h hs
  | poweredUp h => exact absurd h.2 hs
  | powerLost h => exact absurd h.2 hs
  | roster | context | admission | bonds | lanes | mixCounters | swapFlag | swapTaken | call | armed | air | voice | maskConsumed
  | maskValue | pointer | counters | stagingPage | operation => rfl

theorem Change.active_eq (h : Change may s t) (hs : ¬ may .startUp) (hm : ¬ may .swapTaking) :
    t.mix.active = s.mix.active := by
  cases h with
  | swapTaken h => exact absurd h hm
  | tables _ h => exact h.active
  | settled _ h => exact absurd h.2 hs
  | restarted _ _ h => exact absurd h hs
  | poweredUp h => exact absurd h.2 hs
  | powerLost h => exact absurd h.2 hs
  | roster | context | admission | bonds | lanes | mixCounters | swapFlag | call | armed | air | voice | maskConsumed
  | maskValue | pointer | counters | stagingPage | operation | deferral => rfl

/-- A SWAP that is pending is taken at a cadence alone, and set by SWAP alone (R100, R101). -/
theorem Change.swapPending_eq (h : Change may s t) (hs : ¬ may .startUp) (hm : ¬ may .swapTaking) :
    t.mix.swapPending = s.mix.swapPending ∨ may .swapFlag ∧ t.mix.swapPending = true := by
  cases h with
  | swapFlag h => exact .inr ⟨h, rfl⟩
  | swapTaken h => exact absurd h hm
  | tables _ h => exact .inl h.swapPending
  | settled _ h => exact absurd h.2 hs
  | restarted _ _ h => exact absurd h hs
  | poweredUp h => exact absurd h.2 hs
  | powerLost h => exact absurd h.2 hs
  | roster | context | admission | bonds | lanes | mixCounters | call | armed | air | voice | maskConsumed
  | maskValue | pointer | counters | stagingPage | operation | deferral => exact .inl rfl

/-- What a cadence makes of the banks and the pending SWAP: nothing, or the taking of it (R101). -/
def Mix.SwapKept (m n : Mix) : Prop :=
  n.staging = m.staging ∧ (n.swapPending = m.swapPending ∧ n.active = m.active ∨
    n.swapPending = false ∧ n.active = if m.swapPending then m.staging else m.active)

theorem Mix.SwapKept.trans {m n o : Mix} (h : m.SwapKept n) (k : n.SwapKept o) : m.SwapKept o := by
  obtain ⟨hstaging, h⟩ := h
  obtain ⟨kstaging, k⟩ := k
  refine ⟨kstaging.trans hstaging, ?_⟩
  rcases h with ⟨hp, ha⟩ | ⟨hp, ha⟩ <;> rcases k with ⟨kp, ka⟩ | ⟨kp, ka⟩
  · exact .inl ⟨kp.trans hp, ka.trans ha⟩
  · exact .inr ⟨kp, by rw [ka, hp, hstaging, ha]⟩
  · exact .inr ⟨kp.trans hp, ka.trans ha⟩
  · exact .inr ⟨kp, by rw [ka, hp, ha]; rfl⟩

theorem Change.swapKept (h : Change may s t) (hs : ¬ may .startUp) (hf : ¬ may .swapFlag) (hm : ¬ may .tables) :
    s.mix.SwapKept t.mix := by
  cases h with
  | swapFlag h => exact absurd h hf
  | swapTaken =>
    simp only [Mix.SwapKept, State.takeSwap, Mix.takeSwap]
    cases hp : s.mix.swapPending <;> simp [hp]
  | tables _ _ h => exact absurd h.1 hm
  | settled _ h => exact absurd h.2 hs
  | restarted _ _ h => exact absurd h hs
  | poweredUp h => exact absurd h.2 hs
  | powerLost h => exact absurd h.2 hs
  | roster | context | admission | bonds | lanes | mixCounters | call | armed | air | voice | maskConsumed
  | maskValue | pointer | counters | stagingPage | operation | deferral => exact ⟨rfl, .inl ⟨rfl, rfl⟩⟩

theorem Change.admission_eq (h : Change may s t) (hs : ¬ may .startUp) (hm : ¬ may .admission) :
    t.pairing.admissionOpen = s.pairing.admissionOpen := by
  cases h with
  | admission _ h => exact absurd h hm
  | tables _ _ h => exact absurd h.2.2.1 hm
  | settled _ h => exact absurd h.2 hs
  | restarted _ _ h => exact absurd h hs
  | poweredUp h => exact absurd h.2 hs
  | powerLost h => exact absurd h.2 hs
  | roster | context | bonds | lanes | mixCounters | swapFlag | swapTaken | call | armed | air | voice | maskConsumed
  | maskValue | pointer | counters | stagingPage | operation | deferral => rfl

theorem Change.bonds_eq (h : Change may s t) (hs : ¬ may .startUp) (hm : ¬ may .bonds) :
    t.pairing.bonds = s.pairing.bonds := by
  cases h with
  | bonds _ h => exact absurd h hm
  | tables _ _ h => exact absurd h.2.2.2 hm
  | settled _ h => exact absurd h.2 hs
  | restarted _ _ h => exact absurd h hs
  | poweredUp h => exact absurd h.2 hs
  | powerLost h => exact absurd h.2 hs
  | roster | context | admission | lanes | mixCounters | swapFlag | swapTaken | call | armed | air | voice | maskConsumed
  | maskValue | pointer | counters | stagingPage | operation | deferral => rfl

theorem Change.call_eq (h : Change may s t) (hs : ¬ may .startUp) (hm : ¬ may .call) : t.callCtl.state = s.callCtl.state := by
  cases h with
  | call _ h => exact not_not.1 fun hne => hm (h hne)
  | tables _ h => rw [h.callCtl]
  | settled _ h => exact absurd h.2 hs
  | restarted _ _ h => exact absurd h hs
  | poweredUp h => exact absurd h.2 hs
  | powerLost h => exact absurd h.2 hs
  | roster | context | admission | bonds | lanes | mixCounters | swapFlag | swapTaken | armed | air | voice | maskConsumed
  | maskValue | pointer | counters | stagingPage | operation | deferral => rfl

theorem Change.mask_eq (h : Change may s t) (hs : ¬ may .startUp) (hm : ¬ may .maskValue) :
    t.directives.mask = s.directives.mask ∨ may .mask ∧ t.directives.mask = none := by
  cases h with
  | voice _ _ hd => exact .inl hd.2.2.1
  | maskConsumed h => exact .inr ⟨h, rfl⟩
  | maskValue _ h => exact absurd h hm
  | tables _ h => exact .inl h.mask
  | settled _ h => exact absurd h.2 hs
  | restarted _ _ h => exact absurd h hs
  | poweredUp h => exact absurd h.2 hs
  | powerLost h => exact absurd h.2 hs
  | roster | context | admission | bonds | lanes | mixCounters | swapFlag | swapTaken | call | armed | air
  | pointer | counters | stagingPage | operation | deferral => exact .inl rfl

theorem Change.defaults_eq (h : Change may s t) (hs : ¬ may .startUp) : t.roster.defaults = s.roster.defaults := by
  cases h with
  | roster _ hd => exact hd
  | tables _ h => exact h.defaults
  | settled _ h => exact absurd h.2 hs
  | restarted _ _ h => exact absurd h hs
  | poweredUp h => exact absurd h.2 hs
  | powerLost h => exact absurd h.2 hs
  | context | admission | bonds | lanes | mixCounters | swapFlag | swapTaken | call | armed | air | voice | maskConsumed
  | maskValue | pointer | counters | stagingPage | operation | deferral => rfl

/-- A cadence is no WRITE and no SWAP. -/
theorem not_permits_of_mayTakeSwap {c : Instr} (h : mayTakeSwap c = true) : ¬ permits c .tables ∧ ¬ permits c .swapFlag := by
  cases c <;> simp [mayTakeSwap, permits, isWrite] at h ⊢

/-- Settles O10: each table under one change at a time, by what the command is permitted. -/
theorem tablesChangeOnlyByTheirCommands : Obligations.TablesChangeOnlyByTheirCommands := by
  unfold Obligations.TablesChangeOnlyByTheirCommands
  intro c s t hexec
  have path := reaches_of_exec hexec
  refine ⟨fun h => path.field_eq (·.store.pages) fun _ _ hc => hc.pages_eq (by simp [permits, h]), fun hstart => ?_⟩
  have hs : ¬ permits c .startUp := by simp [permits, hstart]
  refine ⟨fun h => ?_, fun h => ?_, fun h => ?_, ?_, fun h => ⟨?_, ?_⟩, fun h => ?_, fun h => ?_, fun h => ?_, fun h => ?_,
    fun h => ?_, ?_⟩
  · have hp := path.field_eq (fun s => (s.directives.region, s.directives.index)) fun _ _ hc =>
      hc.pointer_eq hs (by simp [permits, h])
    exact Prod.mk.inj hp
  · have htables := path.field_eq State.writtenTables fun _ _ hc => hc.tables_eq hs (by simp [permits, h])
    simp only [State.writtenTables, Prod.mk.injEq] at htables
    obtain ⟨hcurve, hmic, hstaging, hwindows, hsettings, hmodes, hlock⟩ := htables
    exact ⟨hcurve, hmic, hstaging, hwindows, hsettings, hmodes, hlock, fun hl =>
      path.field_eq (·.store.staging) fun _ _ hc => hc.stagingPage_eq hs (by simp [permits, h, hl])⟩
  · refine path.field_eq (·.store.state) fun _ _ hc => hc.operation_eq hs ?_
    rintro ⟨seq, p, rfl | rfl⟩
    · exact (h seq p).1 rfl
    · exact (h seq p).2 rfl
  · refine path.field_eq (·.store.restartPending) fun _ _ hc => hc.restartPending_eq hs ?_
    rintro ⟨seq, p, a, rfl⟩
    simp [mayStartUp] at hstart
  · exact path.field_eq (·.mix.active) fun _ _ hc => hc.active_eq hs (by simp [permits, h])
  · refine path.induct
      (R := fun u v => v.mix.swapPending = u.mix.swapPending ∨ permits c .swapFlag ∧ v.mix.swapPending = true)
      (fun _ => .inl rfl) (fun hu hv => ?_) fun _ _ hc => hc.swapPending_eq hs (by simp [permits, h])
    rcases hv with hv | hv
    · exact hu.imp hv.trans fun hu => ⟨hu.1, hv.trans hu.2⟩
    · exact .inr hv
  · obtain ⟨htables, hflag⟩ := not_permits_of_mayTakeSwap h
    exact (path.induct (R := fun u v => u.mix.SwapKept v.mix) (fun _ => ⟨rfl, .inl ⟨rfl, rfl⟩⟩) Mix.SwapKept.trans
      fun _ _ hc => hc.swapKept hs hflag htables).2
  · exact path.field_eq (·.pairing.admissionOpen) fun _ _ hc => hc.admission_eq hs (by simp [permits, h])
  · exact path.field_eq (·.pairing.bonds) fun _ _ hc => hc.bonds_eq hs (by simp [permits, h])
  · exact path.field_eq (·.callCtl.state) fun _ _ hc => hc.call_eq hs (by simp [permits, h])
  · have hvalue : ¬ permits c .maskValue := by
      rintro ⟨seq, p, rfl⟩
      simp [isDirective] at h
    have hmask := path.induct
      (R := fun u v => v.directives.mask = u.directives.mask ∨ permits c .mask ∧ v.directives.mask = none)
      (fun _ => .inl rfl) (fun hu hv => ?_) fun _ _ hc => hc.mask_eq hs hvalue
    · exact hmask.imp id fun hm => ⟨hm.1.resolve_left (by simp [h]), hm.2⟩
    · rcases hv with hv | hv
      · exact hu.imp hv.trans fun hu => ⟨hu.1, hv.trans hu.2⟩
      · exact .inr hv
  · exact path.field_eq (·.roster.defaults) fun _ _ hc => hc.defaults_eq hs

end Sys2Proof.Machine
end

