-- ==== Sys2Proof/Proofs/Wire.lean ====
section
/-! PROOFS. Frames as bytes: every frame that a command is reads back as that command, and the frames the bridge sends
(R130, R131, R142 to R144, R147). -/

namespace Sys2Proof

/-! ## Words, addresses and samples as bytes -/

/-- A word is its high byte before its low byte (R130). -/
theorem append_bytes_word (x : Word) : (x.extractLsb' 8 8 ++ x.extractLsb' 0 8 : Word) = x := by
  ext i hi
  simp only [BitVec.getElem_append, BitVec.getElem_extractLsb']
  split
  · rw [← BitVec.getLsbD_eq_getElem]; simp
  · rw [← BitVec.getLsbD_eq_getElem]; congr 1; omega

/-- An air address is its three bytes, highest first (R130). -/
theorem append_bytes_address (x : Address) :
    (x.extractLsb' 16 8 ++ x.extractLsb' 8 8 ++ x.extractLsb' 0 8 : Address) = x := by
  ext i hi
  simp only [BitVec.getElem_append, BitVec.getElem_extractLsb']
  rw [← BitVec.getLsbD_eq_getElem]
  split
  · simp
  · split <;> (congr 1; omega)

/-- The two bytes of the k-th sample of an audio payload (R142). -/
theorem byteAt_flatMap_sampleBytes (l : List Sample) (k : Nat) :
    byteAt (l.flatMap sampleBytes) (2 * k) = (l.getD k 0).extractLsb' 0 8 ∧
      byteAt (l.flatMap sampleBytes) (2 * k + 1) = (l.getD k 0).extractLsb' 8 8 := by
  induction l generalizing k with
  | nil => simp [byteAt]
  | cons x l ih =>
    cases k with
    | zero => simp [byteAt, sampleBytes]
    | succ k => simpa [byteAt, sampleBytes, Nat.mul_succ] using ih k

theorem samplesOf_blockBytes (b : Block) : samplesOf (blockBytes b) = b := by
  ext i hi
  have hb := byteAt_flatMap_sampleBytes b.toList i
  simp only [samplesOf, Vector.getElem_ofFn, blockBytes, hb.1, hb.2, append_bytes_word]
  simp [hi]

theorem blockBytes_length (b : Block) : (blockBytes b).length = 160 := by
  simp [blockBytes, sampleBytes, List.length_flatMap]

theorem handleOf_ofNat (h : Handle) : handleOf (BitVec.ofNat 8 h.val) = h := by
  have hlt : h.val < 256 := by omega
  ext
  simp only [handleOf, BitVec.toNat_ofNat, Fin.val_ofNat]
  omega

/-! ## A frame read back -/

theorem splitFrame_frameBytes (kind : Nat) (second third : Byte) {p : List Byte} (h : p.length ≤ 255) :
    splitFrame (frameBytes kind second third p) 0 = some ⟨BitVec.ofNat 8 kind, second, third, p⟩ := by
  have hlen : p.length = (BitVec.ofNat 8 p.length).toNat := by rw [BitVec.toNat_ofNat, Nat.mod_eq_of_lt (by omega)]
  show splitFrame (BitVec.ofNat 8 kind :: second :: third :: BitVec.ofNat 8 p.length :: p) 0 = _
  rw [splitFrame, if_pos ⟨rfl, hlen⟩]

/-- A frame of bytes that passes the checks of its link is itself (R130, R131). -/
theorem checkFrame_frameBytes {link : Link} {kind : Nat} {second third : Byte} {p : List Byte} (hp : p.length ≤ 255)
    (hs : Frame.suits link ⟨BitVec.ofNat 8 kind, second, third, p⟩ = true) :
    checkFrame link (frameBytes kind second third p) 0 = some ⟨BitVec.ofNat 8 kind, second, third, p⟩ := by
  rw [checkFrame, splitFrame_frameBytes kind second third hp]
  exact Option.filter_eq_some_iff.2 ⟨rfl, hs⟩

/-- An Air Link frame of a kind with the length it requires is the command of its kind (R132). -/
theorem receive_air (o : CadenceOrder) (a : Arriving) (kind : Nat) (h : Handle) (third : Byte) {p : List Byte}
    (hk : inboundLength .air (BitVec.ofNat 8 kind).toNat = some (some p.length)) (hp : p.length ≤ 255) :
    receive .air o a (frameBytes kind (BitVec.ofNat 8 h.val) third p) 0 =
      airCommand ⟨BitVec.ofNat 8 kind, BitVec.ofNat 8 h.val, third, p⟩ := by
  have hhandle : (BitVec.ofNat 8 h.val).toNat ≤ 15 := by
    rw [BitVec.toNat_ofNat]
    omega
  have hs : Frame.suits .air ⟨BitVec.ofNat 8 kind, BitVec.ofNat 8 h.val, third, p⟩ = true :=
    (Frame.suits_iff _ _).2 ⟨.inr hk, fun _ => hhandle⟩
  rw [receive, checkFrame_frameBytes hp hs]

/-- A FAR VOICE frame with 160 payload bytes is that command (R133). -/
theorem receive_farVoice (o : CadenceOrder) (a : Arriving) (x y : Byte) (samples : Block) :
    receive .voice o a (frameBytes 33 x y (blockBytes samples)) 0 = .farVoice x y samples o := by
  have hlen := blockBytes_length samples
  have hs : Frame.suits .voice ⟨BitVec.ofNat 8 33, x, y, blockBytes samples⟩ = true :=
    (Frame.suits_iff _ _).2 ⟨.inr (by rw [hlen]; rfl), nofun⟩
  rw [receive, checkFrame_frameBytes (by omega) hs]
  simp only [voiceCommand, samplesOf_blockBytes]
  rfl

/-- A DIRECTIVE frame is the command of its code, whatever its length (R133, R147). -/
theorem receive_directive (o : CadenceOrder) (a : Arriving) (code seq : Byte) {p : List Byte} (hp : p.length ≤ 255) :
    receive .voice o a (frameBytes 34 code seq p) 0 = directiveOf code seq p a := by
  have hs : Frame.suits .voice ⟨BitVec.ofNat 8 34, code, seq, p⟩ = true := (Frame.suits_iff _ _).2 ⟨.inl rfl, nofun⟩
  rw [receive, checkFrame_frameBytes hp hs]
  rfl

theorem airCommand_audio (h : Handle) (q : Byte) (samples : Block) :
    airCommand ⟨1, BitVec.ofNat 8 h.val, q, blockBytes samples⟩ = .audio h q samples := by
  show Instr.audio (handleOf (BitVec.ofNat 8 h.val)) q (samplesOf (blockBytes samples)) = _
  rw [handleOf_ofNat, samplesOf_blockBytes]

theorem receive_audio (o : CadenceOrder) (a : Arriving) (h : Handle) (q : Byte) (samples : Block) :
    receive .air o a (frameBytes 1 (BitVec.ofNat 8 h.val) q (blockBytes samples)) 0 = .audio h q samples := by
  have hlen := blockBytes_length samples
  rw [receive_air o a 1 h q (by rw [hlen]; rfl) (by omega)]
  exact airCommand_audio h q samples

theorem directiveOf_unknown {code : Byte} (seq : Byte) (p : List Byte) (a : Arriving) (h : unknownCode code = true) :
    directiveOf code seq p a = .directiveUnknown code seq p := by
  simp only [unknownCode, Bool.or_eq_true, beq_iff_eq, decide_eq_true_eq] at h
  unfold directiveOf
  split <;> (try omega)
  rfl

/-- Settles O13, by the command that the frame is. -/
theorem receiveReadsBackEveryFrame : Obligations.ReceiveReadsBackEveryFrame := by
  unfold Obligations.ReceiveReadsBackEveryFrame
  intro c link bytes loose hw hf
  have air : ∀ {kind : Nat} {h : Handle} {q : Byte} {p : List Byte} {o : CadenceOrder} {a : Arriving} {i : Instr},
      airBytes kind h q p = some (link, bytes, loose) →
      inboundLength .air (BitVec.ofNat 8 kind).toNat = some (some p.length) → p.length ≤ 255 →
      airCommand ⟨BitVec.ofNat 8 kind, BitVec.ofNat 8 h.val, q, p⟩ = i → receive link o a bytes loose = i := by
    intro kind h q p o a i he hk hp hi
    obtain ⟨rfl, rfl, rfl⟩ : Link.air = link ∧ _ = bytes ∧ 0 = loose := by simpa [airBytes] using he
    rw [receive_air o a kind h q hk hp, hi]
  have directive : ∀ {code : Nat} {q : Byte} {p : List Byte} {o : CadenceOrder} {a : Arriving} {i : Instr},
      directiveBytes code q p = some (link, bytes, loose) → payloadFits p = true →
      directiveOf (BitVec.ofNat 8 code) q p a = i → receive link o a bytes loose = i := by
    intro code q p o a i he hp hi
    obtain ⟨rfl, rfl, rfl⟩ : Link.voice = link ∧ _ = bytes ∧ 0 = loose := by simpa [directiveBytes] using he
    rw [receive_directive o a _ q (by simpa [payloadFits] using hp), hi]
  cases c with
  | audio h q samples =>
    exact air hf (by rw [blockBytes_length]; rfl) (by rw [blockBytes_length]; omega) (airCommand_audio h q samples)
  | silence h q => exact air hf rfl (by simp) (congrArg (Instr.silence · q) (handleOf_ofNat h))
  | join h q addr tag role =>
    refine air hf rfl (by simp) ?_
    show Instr.join (handleOf (BitVec.ofNat 8 h.val)) q
      (addr.extractLsb' 16 8 ++ addr.extractLsb' 8 8 ++ addr.extractLsb' 0 8) (tag.extractLsb' 8 8 ++ tag.extractLsb' 0 8)
      role = _
    rw [handleOf_ofNat, append_bytes_address, append_bytes_word]
  | confirm h q => exact air hf rfl (by simp) (congrArg (Instr.confirm · q) (handleOf_ofNat h))
  | leave h q => exact air hf rfl (by simp) (congrArg (Instr.leave · q) (handleOf_ofNat h))
  | park h q => exact air hf rfl (by simp) (congrArg (Instr.park · q) (handleOf_ofNat h))
  | adjust h q f => exact air hf rfl (by simp [AdjustField.bytes]) (congrArg (Instr.adjust · q f) (handleOf_ofNat h))
  | handleDropped h q => exact air hf rfl (by simp) (congrArg (Instr.handleDropped · q) (handleOf_ofNat h))
  | farVoice x y samples o =>
    obtain ⟨rfl, rfl, rfl⟩ : Link.voice = link ∧ _ = bytes ∧ 0 = loose := by simpa [frameOf] using hf
    exact receive_farVoice o _ x y samples
  | frameMalformed l b n =>
    obtain ⟨rfl, rfl, rfl⟩ : l = link ∧ b = bytes ∧ n = loose := by simpa [frameOf] using hf
    simp only [Instr.wellFormed, malformed, Bool.and_eq_true, Option.isNone_iff_eq_none] at hw
    simp only [receive, hw.2]
  | directiveUnknown code q p =>
    obtain ⟨rfl, rfl, rfl⟩ : Link.voice = link ∧ _ = bytes ∧ 0 = loose := by simpa [frameOf] using hf
    simp only [Instr.wellFormed, Bool.and_eq_true] at hw
    rw [receive_directive _ _ _ _ (by simpa [payloadFits] using hw.2), directiveOf_unknown _ _ _ hw.1]
  | point | read | write | mask | beginCall | endCall | hold | resume | swap | openAdmission | closeAdmission | evict | bond
  | storePage | erasePage | loadPage | clearCounters | status | restart => exact directive hf hw rfl
  | cadenceTimerExpiry | fillTimeout | confirmTimeout | noArrivals | swapTaken | promotion | drainLastPull
  | reservationComplete | waitListGrant | moveIntoRing | operationCompletion | deferredRestartTaken | powerUp | powerRemoval
  | airFrameSent | voiceFrameSent | holdOffReleased | holdOffAsserted | frameBegunWhileClosed => exact nomatch hf

end Sys2Proof

namespace Sys2Proof.Machine

/-! ## Outbound frames -/

theorem flatMap_wordBytes_length (words : List Word) : (words.flatMap wordBytes).length = 2 * words.length := by
  simp [wordBytes, List.length_flatMap, Nat.mul_comm]

theorem reply_data_bytes (lost : Bool) (code q : Byte) (r : RegionIx) (i : Nat) (words : List Word) :
    (Report.reply code q (.data r i words)).bytes lost =
      [50, 3, q, BitVec.ofNat 8 (4 + 2 * words.length), byteNat (flagCode lost), code, byteNat r.val, byteNat i] ++
        words.flatMap wordBytes := by
  have hlen : ([byteNat (flagCode lost), code] ++ (Reply.data r i words).fields).length = 4 + 2 * words.length := by
    simp only [Reply.fields, List.length_append, flatMap_wordBytes_length, List.length_cons, List.length_nil]
    omega
  simp only [Report.bytes, frameBytes, hlen]
  rfl

theorem reply_status_bytes (lost : Bool) (code q : Byte) {words : List Word} (h : words.length = 24) :
    (Report.reply code q (.status words)).bytes lost =
      [50, 4, q, 50, byteNat (flagCode lost), code] ++ words.flatMap wordBytes := by
  have hlen : ([byteNat (flagCode lost), code] ++ (Reply.status words).fields).length = 50 := by
    simp only [Reply.fields, List.length_append, flatMap_wordBytes_length, List.length_cons, List.length_nil, h]
  simp only [Report.bytes, frameBytes, hlen]
  rfl

/-- An audio frame of either outbound link (R142). -/
theorem frameBytes_block (kind : Nat) (second third : Byte) (samples : Block) :
    frameBytes kind second third (blockBytes samples) = [BitVec.ofNat 8 kind, second, third, 160] ++ blockBytes samples := by
  rw [frameBytes, blockBytes_length]
  rfl

/-- The mark byte of a report (R144, R162). -/
theorem byteNat_flagCode (b : Bool) : byteNat (flagCode b) = if b then 1 else 0 := by
  cases b <;> rfl

/-- Settles O14, frame by frame. -/
theorem framesOnTheWire : Obligations.FramesOnTheWire := by
  unfold Obligations.FramesOnTheWire
  intro sampled address worded bit
  have mark : ∀ b : Bool, bit b = byteNat (flagCode b) := fun b => (byteNat_flagCode b).symm
  refine ⟨by decide, ?_, ?_, ?_, ?_, ?_, ?_, ?_, ?_, ?_, ?_, ?_, ?_, ?_, ?_⟩
  · intro o a h q x y samples held
    have hblock : ∀ kind second third, ([BitVec.ofNat 8 kind, second, third, 160] ++ sampled samples : List Byte) =
      frameBytes kind second third (blockBytes samples) := fun kind second third => (frameBytes_block kind second third samples).symm
    have hempty : ∀ kind, inboundLength .air (BitVec.ofNat 8 kind).toNat = some (some ([] : List Byte).length) →
        receive .air o a [BitVec.ofNat 8 kind, held, q, 0] 0 = airCommand ⟨BitVec.ofNat 8 kind, held, q, []⟩ :=
      fun kind hk => receive_air o a kind h q hk (by simp)
    refine ⟨?_, ?_, ?_, ?_, ?_, ?_, ?_⟩
    · exact (congrArg (receive .air o a · 0) (hblock 1 held q)).trans (receive_audio o a h q samples)
    · exact (hempty 2 rfl).trans (congrArg (Instr.silence · q) (handleOf_ofNat h))
    · exact (hempty 4 rfl).trans (congrArg (Instr.confirm · q) (handleOf_ofNat h))
    · exact (hempty 5 rfl).trans (congrArg (Instr.leave · q) (handleOf_ofNat h))
    · exact (hempty 6 rfl).trans (congrArg (Instr.park · q) (handleOf_ofNat h))
    · exact (hempty 8 rfl).trans (congrArg (Instr.handleDropped · q) (handleOf_ofNat h))
    · exact (congrArg (receive .voice o a · 0) (hblock 33 x y)).trans (receive_farVoice o a x y samples)
  · intro o a q p hp
    have hcode : ∀ code : Byte, receive .voice o a ([34, code, q, BitVec.ofNat 8 p.length] ++ p) 0 = directiveOf code q p a :=
      fun code => receive_directive o a code q hp
    simp only [hcode]
    rfl
  · intro h q samples
    exact ⟨frameBytes_block 17 _ q samples, rfl, frameBytes_block 49 0 q samples⟩
  · exact fun h q b x => rfl
  · exact fun h q n => rfl
  · intro h q reason
    cases reason <;> rfl
  · exact fun h b => rfl
  · intro h q x volume sidetone mute
    cases volume <;> cases sidetone <;> rcases mute with _ | _ | _ <;> rfl
  · intro lost code q
    rw [mark]
    refine ⟨rfl, fun reason => ?_, fun r i words _ => reply_data_bytes lost code q r i words,
      fun words hw => reply_status_bytes lost code q hw⟩
    cases reason <;> rfl
  · intro lost cause
    rw [mark]
    cases cause <;> rfl
  · intro lost b x a bonded created cause
    simp only [mark]
    cases cause <;> exact ⟨rfl, rfl⟩
  · intro lost x b p cause
    rw [mark]
    cases cause <;> rfl
  · intro lost new previous cause state
    have hstate : ∀ c : CallState, state c = [byteNat c.code, byteNat c.holdCode] := by
      rintro (_ | _ | _ | _) <;> rfl
    have hcause : (Event.callState new previous cause).fields =
        state new ++ state previous ++ [byteNat cause.code] := by
      rw [hstate, hstate]
      rfl
    simp only [Report.bytes, hcause, hstate, mark]
    cases cause <;> rfl
  · intro lost p op
    simp only [mark]
    cases op <;> exact ⟨rfl, rfl⟩

end Sys2Proof.Machine
end

