-- ==== Sys2Proof/Proofs/Arbiters.lean ====
section
/-! PROOFS. Frames at a closed port (R130, R141), the arbiters of both ports (R136, R139), and what every directive has in
common: its length, its code and the pending mask (R147, R150, R155). -/

namespace Sys2Proof.Machine

variable {s t : State}

/-! ## Ports that discard (R141) -/

/-- Taking a directive is taking a frame at the Voice Port (R133). -/
theorem takeDirective_atPort (code seq : Byte) (p : List Byte) (act : Option Word → State → State × Option Reply) :
    ∃ take : State → State, ∀ s : State, s.takeDirective code seq p act = s.atPort .voice take := ⟨_, fun _ => rfl⟩

/-- A call-control directive is a directive. -/
theorem takeCall_atPort (what : CallDirective) (seq : Byte) (p : List Byte) :
    ∃ take : State → State, ∀ s : State, s.takeCall what seq p = s.atPort .voice take := by
  cases what with
  | beginCall => exact takeDirective_atPort 5 seq p (answered State.beginCallDirective)
  | endCall => exact takeDirective_atPort 6 seq p (answered State.endCallDirective)
  | hold => exact takeDirective_atPort 7 seq p (answered State.holdDirective)
  | resume => exact takeDirective_atPort 8 seq p (answered State.resumeDirective)

/-- A command that arrives at a port is taken there or discarded, whatever its meaning (R132, R133). -/
theorem exec_of_arrivesAt {c : Instr} {link : Link} (h : arrivesAt c = some link) :
    ∃ take : State → State, ∀ s, exec c s = .next (s.atPort link take) := by
  cases c with
  | audio | silence | join | confirm | leave | park | adjust | handleDropped | farVoice | frameMalformed | directiveUnknown
  | point | read | write | mask | swap | openAdmission | closeAdmission | evict | bond | storePage | erasePage | loadPage
  | clearCounters | status | restart =>
    obtain rfl := Option.some.inj h
    exact ⟨_, fun _ => rfl⟩
  | beginCall q p | endCall q p | hold q p | resume q p =>
    obtain rfl := Option.some.inj h
    obtain ⟨take, htake⟩ := takeCall_atPort _ q p
    exact ⟨take, fun s => congrArg Host.Outcome.next (htake s)⟩
  | cadenceTimerExpiry | fillTimeout | confirmTimeout | noArrivals | swapTaken | promotion | drainLastPull
  | reservationComplete | waitListGrant | moveIntoRing | operationCompletion | deferredRestartTaken | powerUp | powerRemoval
  | airFrameSent | voiceFrameSent | holdOffReleased | holdOffAsserted | frameBegunWhileClosed => simp [arrivesAt, isDirective] at h

/-- Settles O11, by what taking a frame at a port is for every command that arrives at one. -/
theorem closedPortDiscards : Obligations.ClosedPortDiscards := by
  unfold Obligations.ClosedPortDiscards
  refine ⟨fun c link s ha hclosed => ?_, fun c s ha ho hc => ?_, fun c s ha ho hc => ?_, fun _ _ => rfl⟩
  · obtain ⟨take, he⟩ := exec_of_arrivesAt ha
    rw [he, State.atPort_closed _ hclosed]
  · obtain ⟨take, he⟩ := exec_of_arrivesAt ha
    rw [he, State.atPort_cut (link := .air) _ ho hc]
    rfl
  · obtain ⟨take, he⟩ := exec_of_arrivesAt ha
    rw [he, State.atPort_cut (link := .voice) _ ho hc]
    rfl

/-! ## The Air Port's arbiter (R136) -/

/-- Nothing is chosen while the port is closed, held off or sending, nor from an empty queue (R136). -/
theorem AirPort.choose_of_barred {a : AirPort}
    (h : a.isOpen = false ∨ a.holdOff = true ∨ a.sending.isSome = true ∨ a.queue = []) : a.choose = a := by
  unfold AirPort.choose
  split
  case isTrue hfree =>
    have hq : a.queue = [] := by
      rcases h with h | h | h | h
      · simp [h] at hfree
      · simp [h] at hfree
      · obtain ⟨f, hf⟩ := Option.isSome_iff_exists.1 h
        simp [hf] at hfree
      · exact h
    simp [hq, takeFirst]
  case isFalse => rfl

section
variable {a : AirPort} (ho : a.isOpen = true) (hh : a.holdOff = false) (hs : a.sending = none)

include ho hh hs

/-- An idle transmitter takes the oldest answer frame (R136). -/
theorem AirPort.choose_of_answer {before after : List AirFrame} {f : AirFrame} (hq : a.queue = before ++ f :: after)
    (hb : ∀ g ∈ before, g.isAnswer = false) (hf : f.isAnswer = true) :
    a.choose = { a with sending := some f, queue := before ++ after } := by
  have htake : takeFirst AirFrame.isAnswer a.queue = some (f, before ++ after) :=
    takeFirst_eq_some.2 ⟨before, after, hq, hb, hf, rfl⟩
  simp [AirPort.choose, ho, hh, hs, htake]

/-- Without an answer frame an idle transmitter takes the oldest downlink frame (R136). -/
theorem AirPort.choose_of_downlink {after : List AirFrame} {f : AirFrame} (hq : a.queue = f :: after)
    (hd : ∀ g ∈ f :: after, g.isAnswer = false) : a.choose = { a with sending := some f, queue := after } := by
  have htake : takeFirst AirFrame.isAnswer (f :: after) = none := takeFirst_eq_none.2 hd
  simp [AirPort.choose, ho, hh, hs, hq, htake]

end

/-- Settles O16, by the first frame that the arbiter's two searches find. -/
theorem airArbiterChooses : Obligations.AirArbiterChooses := by
  unfold Obligations.AirArbiterChooses
  refine ⟨fun _ => rfl, fun _ => rfl, fun _ => rfl, fun a => AirPort.choose_of_barred,
    fun a before f after ho hh hs hq hb => ⟨AirPort.choose_of_answer ho hh hs hq hb, fun hnil hd => ?_⟩⟩
  subst hnil
  exact AirPort.choose_of_downlink ho hh hs hq hd

/-! ## The Voice Port's arbiter (R139) -/

/-- Nothing is chosen while the port is closed, held off or sending, nor with nothing waiting (R139). -/
theorem State.chooseVoice_of_barred (h : s.voicePort.isOpen = false ∨ s.voicePort.holdOff = true ∨
    s.voicePort.sending.isSome = true ∨ (s.voicePort.slot = none ∧ s.directives.reports = [])) : s.chooseVoice = s := by
  unfold State.chooseVoice
  split
  case isTrue hfree =>
    have hnone : s.voicePort.slot = none ∧ s.directives.reports = [] := by
      rcases h with h | h | h | h
      · simp [h] at hfree
      · simp [h] at hfree
      · obtain ⟨f, hf⟩ := Option.isSome_iff_exists.1 h
        simp [hf] at hfree
      · exact h
    simp [hnone.1, hnone.2]
  case isFalse => rfl

/-- An idle transmitter takes the uplink frame in the slot (R139). -/
theorem State.chooseVoice_of_slot {f : UplinkFrame} (ho : s.voicePort.isOpen = true) (hh : s.voicePort.holdOff = false)
    (hs : s.voicePort.sending = none) (hf : s.voicePort.slot = some f) :
    s.chooseVoice = { s with voicePort := { s.voicePort with sending := some (.uplink f), slot := none } } := by
  simp [State.chooseVoice, ho, hh, hs, hf]

/-- Settles O17, by what the arbiter finds waiting. -/
theorem voiceArbiterChooses : Obligations.VoiceArbiterChooses := by
  unfold Obligations.VoiceArbiterChooses
  exact ⟨fun _ => rfl, fun _ => rfl, fun _ => rfl, fun _ => State.chooseVoice_of_barred,
    fun _ _ => State.chooseVoice_of_slot, fun _ _ _ => State.chooseVoice_of_report⟩

/-! ## The form of a directive (R147) -/

/-- A directive of the set whose length does not suit its code is refused FORMAT (R147). -/
theorem exec_directiveOf_of_unfit {code seq : Byte} {p : List Byte} (a : Arriving) (ht : s.VoiceTakes)
    (hlo : 1 ≤ code.toNat) (hhi : code.toNat ≤ 19) (hunfit : directiveLength code.toNat p.length = false) :
    exec (directiveOf code seq p a) s = .next (s.consumeMask.reply code seq (.refused .format)) := by
  have hcode : code = BitVec.ofNat 8 code.toNat := (BitVec.ofNat_toNat 8 code).symm ▸ by simp
  generalize code.toNat = n at *
  subst hcode
  interval_cases n <;> exact congrArg Host.Outcome.next (State.takeDirective_unfit _ ht hunfit)

/-- The lengths of R147 as the statement groups them. -/
theorem directiveLength_eq_false {code length : Nat} (h : ¬
    (if code = 1 ∨ code = 4 then length = 2
      else if code = 2 ∨ (12 ≤ code ∧ code ≤ 16) then length = 1
      else if code = 3 then 2 ≤ length ∧ length ≤ 64 ∧ length % 2 = 0
      else length = 0)) (hhi : code ≤ 19) : directiveLength code length = false := by
  interval_cases code <;> simp_all [directiveLength]

/-- Settles O19, by the length that each code requires. -/
theorem directiveFormIsJudged : Obligations.DirectiveFormIsJudged := by
  unfold Obligations.DirectiveFormIsJudged
  intro s code seq p a ht
  refine ⟨fun hlo hhi hunfit => ?_, fun _ => congrArg Host.Outcome.next (State.atPort_voice _ ht)⟩
  exact exec_directiveOf_of_unfit a ht hlo hhi (directiveLength_eq_false hunfit hhi)

/-! ## POINT and MASK (R150, R155) -/

/-- A POINT that the Voice Port takes is the act of R150 and its reply. -/
theorem exec_point (seq region index : Byte) (h : s.VoiceTakes) :
    exec (.point seq [region, index]) s =
      .next ((s.consumeMask.pointDirective [region, index]).1.post
        (.reply 1 seq (s.consumeMask.pointDirective [region, index]).2)) :=
  congrArg Host.Outcome.next (State.takeDirective_answered (fun s => s.pointDirective [region, index]) h rfl)

theorem pointTarget_eq_some {region index : Byte} (hr : region.toNat < 15)
    (hi : index.toNat < regionCount ⟨region.toNat, hr⟩) :
    pointTarget region index = some (⟨region.toNat, hr⟩, index.toNat) := (dif_pos hr).trans (if_pos hi)

theorem pointTarget_eq_none {region index : Byte}
    (h : ∀ hr : region.toNat < 15, regionCount ⟨region.toNat, hr⟩ ≤ index.toNat) : pointTarget region index = none := by
  unfold pointTarget
  split
  case isTrue hr => exact if_neg (Nat.not_lt.2 (h hr))
  case isFalse => rfl

/-- A change that may not set the mask keeps an absent one absent; a start-up leaves none (R155, R163). -/
theorem Change.mask_none {may : Part → Prop} (h : Change may s t) (hm : ¬ may .maskValue) (hs : s.directives.mask = none) :
    t.directives.mask = none := by
  cases h with
  | voice _ _ hd => exact hd.2.2.1.trans hs
  | maskConsumed => rfl
  | maskValue _ h => exact absurd h hm
  | tables _ h => exact h.mask.trans hs
  | restarted => exact (State.start_only _ _).tables.2.2.1
  | poweredUp => exact (State.start_only _ _).tables.2.2.1
  | powerLost => rfl
  | roster | context | admission | bonds | lanes | mixCounters | swapFlag | swapTaken | call | armed | air | pointer | counters
  | stagingPage | operation | deferral | settled => exact hs

/-- The permission of every directive but MASK (R155). -/
def keepsNoMask (p : Part) : Prop := p ≠ .maskValue

theorem Reaches.mask_none (h : Reaches keepsNoMask s t) : s.directives.mask = none → t.directives.mask = none :=
  Reaches.keeps (P := fun s => s.directives.mask = none) (fun _ _ hc => hc.mask_none fun h => h rfl) h

/-- A directive leaves no mask when its effect sets none (R155). -/
theorem State.takeDirective_mask {code seq : Byte} {p : List Byte} {act : Option Word → State → State × Option Reply}
    (ht : s.VoiceTakes) (h : directiveLength code.toNat p.length = true →
      Reaches keepsNoMask s.consumeMask (act s.directives.mask s.consumeMask).1) :
    (s.takeDirective code seq p act).directives.mask = none := by
  cases hfits : directiveLength code.toNat p.length with
  | false =>
    rw [State.takeDirective_unfit act ht hfits]
    exact (State.post_only _ _).tables.2.2.1
  | true =>
    rw [State.takeDirective_fits act ht hfits]
    have hmask := Reaches.mask_none (h hfits) rfl
    unfold State.conclude
    split
    · exact (State.post_only _ _).tables.2.2.1.trans hmask
    · exact hmask

/-- Whatever its outcome, a directive other than a MASK of two bytes leaves no mask pending (R155). -/
theorem exec_mask_none {c : Instr} (hd : isDirective c = true) (hmask : ∀ seq p, c = .mask seq p → p.length ≠ 2)
    (ht : s.VoiceTakes) (he : exec c s = .next t) : t.directives.mask = none := by
  have ho : s.consumeMask.voicePort.isOpen = true := ht.1
  cases c with
  | audio | silence | join | confirm | leave | park | adjust | handleDropped | farVoice | frameMalformed | cadenceTimerExpiry
  | fillTimeout | confirmTimeout | noArrivals | swapTaken | promotion | drainLastPull | reservationComplete | waitListGrant
  | moveIntoRing | operationCompletion | deferredRestartTaken | powerUp | powerRemoval | airFrameSent | voiceFrameSent
  | holdOffReleased | holdOffAsserted | frameBegunWhileClosed => cases hd
  | directiveUnknown code seq p =>
    have hnext : exec (.directiveUnknown code seq p) s = .next (s.consumeMask.reply code seq (.refused .unknown)) :=
      congrArg Host.Outcome.next (State.atPort_voice _ ht)
    obtain rfl := Host.Outcome.next.inj (hnext.symm.trans he)
    exact (State.post_only _ _).tables.2.2.1
  | mask seq p =>
    have hunfit : directiveLength (4 : Byte).toNat p.length = false := by simpa [directiveLength] using hmask seq p rfl
    obtain rfl := Host.Outcome.next.inj he
    exact State.takeDirective_mask ht fun hfits => absurd (hfits.symm.trans hunfit) Bool.noConfusion
  | point seq p =>
    obtain rfl := Host.Outcome.next.inj he
    exact State.takeDirective_mask ht fun _ => State.pointDirective_reaches _ p nofun
  | read seq p =>
    obtain rfl := Host.Outcome.next.inj he
    exact State.takeDirective_mask ht fun _ => State.readDirective_reaches _ p nofun
  | write seq p =>
    obtain rfl := Host.Outcome.next.inj he
    exact State.takeDirective_mask ht fun _ => State.writeDirective_reaches _ _ p ⟨nofun, nofun, nofun, nofun⟩ nofun
  | beginCall seq p =>
    obtain rfl := Host.Outcome.next.inj he
    exact State.takeDirective_mask ht fun _ => State.beginCallDirective_reaches _ nofun ho
  | endCall seq p =>
    obtain rfl := Host.Outcome.next.inj he
    exact State.takeDirective_mask ht fun _ => State.endCallDirective_reaches _ nofun ho
  | hold seq p =>
    obtain rfl := Host.Outcome.next.inj he
    exact State.takeDirective_mask ht fun _ => State.holdDirective_reaches _ nofun ho
  | resume seq p =>
    obtain rfl := Host.Outcome.next.inj he
    exact State.takeDirective_mask ht fun _ => State.resumeDirective_reaches _ nofun ho
  | swap seq p =>
    obtain rfl := Host.Outcome.next.inj he
    exact State.takeDirective_mask ht fun _ => (Change.swapFlag nofun).reaches
  | openAdmission seq p =>
    obtain rfl := Host.Outcome.next.inj he
    exact State.takeDirective_mask ht fun _ => State.admissionDirective_reaches _ true nofun
  | closeAdmission seq p =>
    obtain rfl := Host.Outcome.next.inj he
    exact State.takeDirective_mask ht fun _ => State.admissionDirective_reaches _ false nofun
  | evict seq p =>
    obtain rfl := Host.Outcome.next.inj he
    exact State.takeDirective_mask ht fun _ => State.evictDirective_reaches _ _
  | bond seq p =>
    obtain rfl := Host.Outcome.next.inj he
    exact State.takeDirective_mask ht fun _ => State.bondDirective_reaches _ _ nofun
  | storePage seq p =>
    obtain rfl := Host.Outcome.next.inj he
    exact State.takeDirective_mask ht fun _ => State.storePageDirective_reaches _ _ nofun
  | erasePage seq p =>
    obtain rfl := Host.Outcome.next.inj he
    exact State.takeDirective_mask ht fun _ => State.erasePageDirective_reaches _ _ nofun
  | loadPage seq p =>
    obtain rfl := Host.Outcome.next.inj he
    exact State.takeDirective_mask ht fun _ => State.loadPageDirective_reaches _ _ nofun
  | clearCounters seq p =>
    obtain rfl := Host.Outcome.next.inj he
    exact State.takeDirective_mask ht fun _ => State.clearCountersDirective_reaches _
  | status seq p =>
    obtain rfl := Host.Outcome.next.inj he
    exact State.takeDirective_mask ht fun _ => .refl
  | restart seq p a =>
    obtain rfl := Host.Outcome.next.inj he
    exact State.takeDirective_mask ht fun _ => State.restartDirective_reaches _ a nofun nofun

/-- Settles O20: the target of POINT, MASK's own register, the mask that every other directive consumes, and the merge. -/
theorem pointAndMaskSetTheirRegisters : Obligations.PointAndMaskSetTheirRegisters := by
  unfold Obligations.PointAndMaskSetTheirRegisters
  refine ⟨fun s seq region index ht => ⟨fun hr hi => ?_, fun hbad => ?_⟩, fun s seq lo hi ht => ?_,
    fun c s t hd hm ht he => exec_mask_none hd hm ht he, fun mask old written i hi => ?_⟩
  · have hr' : region.toNat < 15 := Nat.lt_succ_of_le hr
    have hindex : (⟨region.toNat, hr'⟩ : RegionIx) = Fin.ofNat 15 region.toNat :=
      Fin.ext (Nat.mod_eq_of_lt hr').symm
    rw [exec_point seq region index ht, State.pointDirective, payloadByte, payloadByte, List.getD_cons_zero,
      List.getD_cons_succ, List.getD_cons_zero, pointTarget_eq_some hr' hi, hindex]
    rfl
  · have hnone : pointTarget region index = none := pointTarget_eq_none fun hr =>
      hbad.resolve_left (Nat.not_lt.2 (Nat.le_of_lt_succ hr))
    rw [exec_point seq region index ht, State.pointDirective, payloadByte, payloadByte, List.getD_cons_zero,
      List.getD_cons_succ, List.getD_cons_zero, hnone]
    rfl
  · exact congrArg Host.Outcome.next (State.takeDirective_answered (fun s => s.maskDirective [lo, hi]) ht rfl)
  · simp only [mergeMask, BitVec.getLsbD_or, BitVec.getLsbD_and, BitVec.getLsbD_not, hi, decide_true, Bool.true_and]
    cases mask.getLsbD i <;> simp

end Sys2Proof.Machine
end

