-- ==== Sys2Proof/Proofs/Flags.lean ====
section
/-! PROOFS. STATUS (R144, R159), SWAP and the admission-open flag (R26, R100), and BOND (R42). -/

namespace Sys2Proof.Machine

variable {s : State}

/-! ## The lowest-numbered record with a property -/

/-- A search through all numbers in order finds the lowest that passes. -/
theorem find?_eq_some_iff_lowest {n : Nat} {l : List (Fin n)} {p : Fin n → Bool} {i : Fin n} (hl : l.Pairwise (· < ·))
    (hall : ∀ j, j ∈ l) : l.find? p = some i ↔ p i = true ∧ ∀ j, j < i → p j = false := by
  rw [List.find?_eq_some_iff_append]
  refine and_congr_right fun _ => ⟨?_, fun hlow => ?_⟩
  · rintro ⟨before, after, rfl, hb⟩ j hj
    have hafter : ∀ k ∈ after, i < k := (List.pairwise_cons.1 (List.pairwise_append.1 hl).2.1).1
    rcases List.mem_append.1 (hall j) with hm | hm
    · simpa using hb j hm
    · rcases List.mem_cons.1 hm with rfl | hm
      · exact absurd hj (lt_irrefl _)
      · exact absurd hj (hafter j hm).asymm
  · obtain ⟨before, after, rfl⟩ := List.append_of_mem (hall i)
    have hbefore : ∀ k ∈ before, k < i := fun k hk => (List.pairwise_append.1 hl).2.2 k hk i (by simp)
    exact ⟨before, after, rfl, fun k hk => by simpa using hlow k (hbefore k hk)⟩

/-- The entry that a bonded admission goes through: the lowest-numbered in-use one that holds the address (R27). -/
theorem Pairing.bondOf_eq_some {p : Pairing} {a : Address} {i : Fin 8} :
    p.bondOf a = some i ↔ (p.bonds[i].inUse = true ∧ p.bonds[i].addr = a) ∧
      ∀ j : Fin 8, j < i → ¬ (p.bonds[j].inUse = true ∧ p.bonds[j].addr = a) := by
  have h := find?_eq_some_iff_lowest (l := Config.bondEntries)
    (p := fun i : Fin 8 => p.bonds[i].inUse && p.bonds[i].addr == a) (i := i) (by decide) (by decide)
  rw [Pairing.bondOf, h]
  simp

/-- No in-use entry holds an address that is not bonded (R27). -/
theorem Pairing.bondOf_eq_none {p : Pairing} {a : Address} :
    p.bondOf a = none ↔ ∀ j : Fin 8, ¬ (p.bonds[j].inUse = true ∧ p.bonds[j].addr = a) := by
  have hall : ∀ j : Fin 8, j ∈ Config.bondEntries := by decide
  simp [Pairing.bondOf, List.find?_eq_none, hall]

/-- The lowest-numbered entry not in use (R42). -/
theorem Pairing.freeBond_eq_some {p : Pairing} {i : Fin 8} :
    p.freeBond = some i ↔ p.bonds[i].inUse = false ∧ ∀ j : Fin 8, j < i → p.bonds[j].inUse = true := by
  have h := find?_eq_some_iff_lowest (l := Config.bondEntries) (p := fun i : Fin 8 => !p.bonds[i].inUse) (i := i)
    (by decide) (by decide)
  rw [Pairing.freeBond, h]
  simp

/-- Every entry is in use. -/
theorem Pairing.freeBond_eq_none {p : Pairing} : p.freeBond = none ↔ ∀ j : Fin 8, p.bonds[j].inUse = true := by
  have hall : ∀ j : Fin 8, j ∈ Config.bondEntries := by decide
  simp [Pairing.freeBond, List.find?_eq_none, hall]

/-! ## STATUS (R144, R159) -/

/-- The two words of one place of the wait list (R144). -/
def waitPair : Option WaitEntry → List Nat
  | none => [0, 0]
  | some e => [e.listener.val + 1, e.bud.val + 1]

/-- Four places hold a list of up to four entries (R144). -/
theorem waitWords_eq {w : List WaitEntry} (h : w.length ≤ 4) :
    waitWords w = waitPair w[0]? ++ waitPair w[1]? ++ waitPair w[2]? ++ waitPair w[3]? := by
  match w, h with
  | [], _ | [_], _ | [_, _], _ | [_, _, _], _ | [_, _, _, _], _ => rfl

theorem waitPair_eq (e : Option WaitEntry) : ∃ x b, waitPair e = [x, b] ∧ x ≤ 4 ∧ b ≤ 8 := by
  cases e with
  | none => exact ⟨0, 0, rfl, by omega, by omega⟩
  | some e => exact ⟨_, _, rfl, by omega, by omega⟩

theorem contextWords_eq (c : Option Context) : ∃ x y z, contextWords c = [x, y, z] ∧ x ≤ 1 ∧ y ≤ 15 ∧ z ≤ 8 := by
  cases c with
  | none => exact ⟨0, 0, 0, rfl, by omega, by omega, by omega⟩
  | some c => exact ⟨1, _, _, rfl, by omega, by omega, by omega⟩

theorem StoreState.words_eq (t : StoreState) : ∃ x y, t.words = [x, y] ∧ x ≤ 2 ∧ y ≤ 20 := by
  cases t with
  | idle => exact ⟨0, 0, rfl, by omega, by omega⟩
  | programming p => exact ⟨1, p.val, rfl, by omega, by omega⟩
  | erasing p => exact ⟨2, p.val, rfl, by omega, by omega⟩

theorem numberOf_le {n : Nat} (i : Option (Fin n)) : numberOf i ≤ n := by
  cases i with
  | none => exact Nat.zero_le _
  | some i => exact i.isLt

theorem flagCode_le (b : Bool) : flagCode b ≤ 1 := by cases b <;> decide

theorem CallState.code_le (c : CallState) : c.code ≤ 2 ∧ c.holdCode ≤ 2 := by
  rcases c with _ | _ | (_ | _) <;> decide

/-- Numbers of a word's size are themselves as words. -/
theorem map_wordNat_toNat {l : List Nat} (h : ∀ n ∈ l, n < 65536) : (l.map wordNat).map (·.toNat) = l := by
  rw [List.map_map]
  refine (List.map_congr_left fun n hn => ?_).trans l.map_id
  simpa [wordNat] using h n hn

/-- The speaking buds as STATUS gives them (R144). -/
theorem speaking_toList (v : Vector (Option BudIx) 4) : v.toList = [v[0], v[1], v[2], v[3]] :=
  List.ext_getElem (by simp) fun i h _ => by
    have hi : i < 4 := by simpa using h
    interval_cases i <;> simp

/-- The 24 numbers that STATUS's words are, in the order of R144's table. -/
theorem State.statusWords_eq (s : State) (h : s.laneUnit.waitList.length ≤ 4) :
    s.statusWords.map (·.toNat) =
      [s.callCtl.state.code, s.callCtl.state.holdCode, flagCode s.mix.swapPending] ++ contextWords s.pairing.context ++
        s.store.state.words ++ [flagCode s.store.restartPending, s.laneUnit.evictPtr.val + 1] ++
        [numberOf s.laneUnit.speaking[0], numberOf s.laneUnit.speaking[1], numberOf s.laneUnit.speaking[2],
          numberOf s.laneUnit.speaking[3]] ++ [s.laneUnit.waitList.length] ++
        (waitPair s.laneUnit.waitList[0]? ++ waitPair s.laneUnit.waitList[1]? ++ waitPair s.laneUnit.waitList[2]? ++
          waitPair s.laneUnit.waitList[3]?) ++ [flagCode s.pairing.admissionOpen] := by
  rw [State.statusWords, map_wordNat_toNat]
  · simp [speaking_toList, waitWords_eq h]
  · obtain ⟨x, y, z, hctx, hx, hy, hz⟩ := contextWords_eq s.pairing.context
    obtain ⟨u, v, hst, hu, hv⟩ := s.store.state.words_eq
    have hpairs : ∀ e, ∀ n ∈ waitPair e, n < 65536 := fun e n hn => by
      obtain ⟨x, b, he, hx, hb⟩ := waitPair_eq e
      simp only [he, List.mem_cons, List.not_mem_nil, or_false] at hn
      omega
    have hcode := s.callCtl.state.code_le
    have hnum : ∀ b : Option BudIx, numberOf b < 65536 := fun b => (numberOf_le b).trans_lt (by omega)
    have hflag : ∀ b, flagCode b < 65536 := fun b => (flagCode_le b).trans_lt (by omega)
    simp only [speaking_toList, waitWords_eq h, hctx, hst, List.forall_mem_append, List.map_cons, List.map_nil,
      List.forall_mem_cons, List.not_mem_nil, false_implies, implies_true, and_true, hnum, hflag]
    exact ⟨⟨⟨⟨⟨⟨by omega, by omega⟩, by omega, by omega, by omega⟩, by omega, by omega⟩, by omega⟩, by omega⟩,
      ⟨⟨hpairs _, hpairs _⟩, hpairs _⟩, hpairs _⟩

/-- Settles O26, from the 24 numbers in their order. -/
theorem statusIsASnapshot : Obligations.StatusIsASnapshot := by
  unfold Obligations.StatusIsASnapshot
  intro s seq ht hw
  refine ⟨congrArg Host.Outcome.next (State.takeDirective_answered State.statusDirective ht rfl), ?_⟩
  obtain ⟨x, y, z, hctx, -⟩ := contextWords_eq s.pairing.context
  obtain ⟨u, v, hst, -⟩ := s.store.state.words_eq
  obtain ⟨x0, b0, h0, -⟩ := waitPair_eq s.laneUnit.waitList[0]?
  obtain ⟨x1, b1, h1, -⟩ := waitPair_eq s.laneUnit.waitList[1]?
  obtain ⟨x2, b2, h2, -⟩ := waitPair_eq s.laneUnit.waitList[2]?
  obtain ⟨x3, b3, h3, -⟩ := waitPair_eq s.laneUnit.waitList[3]?
  have hpair : ∀ i : Fin 4, waitPair s.laneUnit.waitList[i.val]? =
      [[x0, x1, x2, x3].getD i.val 0, [b0, b1, b2, b3].getD i.val 0] := fun i => by
    fin_cases i
    · exact h0
    · exact h1
    · exact h2
    · exact h3
  rw [s.statusWords_eq hw, hctx, hst, h0, h1, h2, h3]
  refine ⟨rfl, rfl, fun hc => ?_, fun c hc => ?_, fun hi => ?_, fun q image hi => ?_, fun q hi => ?_, rfl, fun i => ?_, rfl,
    fun i e hi => ?_, fun i hi => ?_, rfl⟩
  · exact hctx.symm.trans (congrArg contextWords hc)
  · exact hctx.symm.trans (congrArg contextWords hc)
  · exact hst.symm.trans (congrArg StoreState.words hi)
  · exact hst.symm.trans (congrArg StoreState.words hi)
  · exact hst.symm.trans (congrArg StoreState.words hi)
  · refine Eq.trans (b := numberOf s.laneUnit.speaking[i]) (by fin_cases i <;> rfl) ?_
    cases s.laneUnit.speaking[i] <;> rfl
  · obtain ⟨hx, hb⟩ := List.cons_eq_cons.1 ((congrArg waitPair hi).symm.trans (hpair i))
    exact ⟨.trans (by fin_cases i <;> rfl) hx.symm, .trans (by fin_cases i <;> rfl) (List.cons_eq_cons.1 hb).1.symm⟩
  · obtain ⟨hx, hb⟩ := List.cons_eq_cons.1 ((congrArg waitPair hi).symm.trans (hpair i))
    exact ⟨.trans (by fin_cases i <;> rfl) hx.symm, .trans (by fin_cases i <;> rfl) (List.cons_eq_cons.1 hb).1.symm⟩

/-! ## SWAP and the admission-open flag (R26, R100) -/

theorem exec_openAdmission (seq : Byte) (h : s.VoiceTakes) :
    exec (.openAdmission seq []) s =
      .next ((s.consumeMask.admissionDirective true).1.post (.reply 10 seq (s.consumeMask.admissionDirective true).2)) :=
  congrArg Host.Outcome.next (State.takeDirective_answered (fun s => s.admissionDirective true) h rfl)

theorem exec_closeAdmission (seq : Byte) (h : s.VoiceTakes) :
    exec (.closeAdmission seq []) s =
      .next ((s.consumeMask.admissionDirective false).1.post (.reply 11 seq (s.consumeMask.admissionDirective false).2)) :=
  congrArg Host.Outcome.next (State.takeDirective_answered (fun s => s.admissionDirective false) h rfl)

theorem State.admissionDirective_of_opened (o : Bool) (h : s.directives.modes[7] = .opened) :
    s.admissionDirective o = (s.setAdmission o, .done) := if_pos h

theorem State.admissionDirective_of_protected (o : Bool) (h : s.directives.modes[7] ≠ .opened) :
    s.admissionDirective o = (s, .refused .protection) := if_neg h

/-- Settles O27, by whether region 7 is OPEN. -/
theorem swapAndAdmissionSetTheirFlags : Obligations.SwapAndAdmissionSetTheirFlags := by
  unfold Obligations.SwapAndAdmissionSetTheirFlags
  intro s seq ht
  refine ⟨congrArg Host.Outcome.next (State.takeDirective_answered State.swapDirective ht rfl), ?_, ?_⟩
  · rw [exec_openAdmission seq ht]
    refine congrArg Host.Outcome.next ?_
    split_ifs with hmode
    · rw [State.admissionDirective_of_opened (s := s.consumeMask) true hmode]; rfl
    · rw [State.admissionDirective_of_protected (s := s.consumeMask) true hmode]; rfl
  · rw [exec_closeAdmission seq ht]
    refine congrArg Host.Outcome.next ?_
    split_ifs with hmode
    · rw [State.admissionDirective_of_opened (s := s.consumeMask) false hmode]; rfl
    · rw [State.admissionDirective_of_protected (s := s.consumeMask) false hmode]; rfl

/-! ## BOND (R42) -/

/-- A byte of 1 to 8 names the bud of that number (R41, R42). -/
theorem budOperand_eq_some {n : Byte} {b : BudIx} (h : n.toNat = b.val + 1) : budOperand n = some b :=
  (dif_pos (by omega)).trans (congrArg some (Fin.ext (by simp only [h, Nat.add_sub_cancel])))

/-- Any other byte names none (R41, R42). -/
theorem budOperand_eq_none {n : Byte} (h : n.toNat = 0 ∨ 8 < n.toNat) : budOperand n = none := dif_neg (by omega)

/-- A BOND that the Voice Port takes is the act of R42 and its reply. -/
theorem exec_bond (seq n : Byte) (h : s.VoiceTakes) :
    exec (.bond seq [n]) s =
      .next ((s.consumeMask.bondDirective n).1.post (.reply 13 seq (s.consumeMask.bondDirective n).2)) :=
  congrArg Host.Outcome.next (State.takeDirective_answered (fun s => s.bondDirective n) h rfl)

section
variable {n : Byte} {b : BudIx} (hn : n.toNat = b.val + 1)

include hn

/-- Check 2 of BOND: region 8 is OPEN (R42). -/
theorem State.bondDirective_of_protected (h : s.directives.modes[8] ≠ .opened) :
    s.bondDirective n = (s, .refused .protection) := by
  rw [State.bondDirective, budOperand_eq_some hn]
  exact if_pos h

variable (hm : s.directives.modes[8] = .opened)

include hm

/-- Check 3 of BOND: the bud is not FREE (R42). -/
theorem State.bondDirective_of_free (h : s.roster.buds[b].link = .free) :
    s.bondDirective n = (s, .refused .state) := by
  rw [State.bondDirective, budOperand_eq_some hn]
  exact (if_neg (not_not_intro hm)).trans (if_pos h)

variable (hl : s.roster.buds[b].link ≠ .free)

include hl

/-- Check 4 of BOND: there is an entry for the bud (R42). -/
theorem State.bondDirective_of_full (h : s.pairing.bondTarget s.roster.buds[b].addr = none) :
    s.bondDirective n = (s, .refused .full) := by
  rw [State.bondDirective, budOperand_eq_some hn]
  simp only [hm, hl, ne_eq, not_true_eq_false, if_false, h]

/-- Otherwise the bud is entered into its entry (R42). -/
theorem State.bondDirective_of_target {i : Fin 8} (h : s.pairing.bondTarget s.roster.buds[b].addr = some i) :
    s.bondDirective n = (s.enterBond b i, .done) := by
  rw [State.bondDirective, budOperand_eq_some hn]
  simp only [hm, hl, ne_eq, not_true_eq_false, if_false, h]

end

/-- The entry takes the priority of the bud's listener (R42). -/
theorem State.enterBond_of_listener {b : BudIx} {x : ListenerIx} (i : Fin 8) (h : s.roster.buds[b].listener = some x) :
    s.enterBond b i =
      { s with
        roster := { s.roster with buds := s.roster.buds.set b { s.roster.buds[b] with bonded := true } }
        pairing :=
          { s.pairing with
            bonds := s.pairing.bonds.set i
              { inUse := true, addr := s.roster.buds[b].addr, setTag := s.roster.buds[b].setTag,
                role := s.roster.buds[b].role, priority := s.roster.listeners[x].priority } } } := by
  simp only [State.enterBond, State.recordPriority, h]
  rfl

/-- Settles O28, check by check, and then by which entry the searches find. -/
theorem bondEntersTheBud : Obligations.BondEntersTheBud := by
  unfold Obligations.BondEntersTheBud
  intro s seq n ht
  refine ⟨fun hrange => ?_, fun b hn => ⟨fun hm => ?_, fun hm hl => ?_, fun hm hl x hx => ?_⟩⟩
  · rw [exec_bond seq n ht, State.bondDirective, budOperand_eq_none hrange]
    rfl
  · rw [exec_bond seq n ht, State.bondDirective_of_protected (s := s.consumeMask) hn hm]
    rfl
  · rw [exec_bond seq n ht, State.bondDirective_of_free (s := s.consumeMask) hn hm hl]
    rfl
  have entered : ∀ i : Fin 8, s.pairing.bondTarget s.roster.buds[b].addr = some i →
      exec (.bond seq [n]) s = .next ((s.consumeMask.enterBond b i).post (.reply 13 seq .done)) := fun i hi => by
    rw [exec_bond seq n ht, State.bondDirective_of_target (s := s.consumeMask) hn hm hl hi]
  refine ⟨fun i hu ha hlow => ?_, fun hnone => ⟨fun i hu hlow => ?_, fun hall => ?_⟩⟩
  · have hbond : s.pairing.bondOf s.roster.buds[b].addr = some i :=
      Pairing.bondOf_eq_some.2 ⟨⟨hu, ha⟩, fun j hj ⟨hju, hja⟩ => hlow j hj hju hja⟩
    rw [entered i (by rw [Pairing.bondTarget, hbond, Option.some_or]), State.enterBond_of_listener (s := s.consumeMask) i hx]
    rfl
  · have hbond : s.pairing.bondOf s.roster.buds[b].addr = none :=
      Pairing.bondOf_eq_none.2 fun j ⟨hju, hja⟩ => hnone j hju hja
    have hfree : s.pairing.freeBond = some i := Pairing.freeBond_eq_some.2 ⟨hu, hlow⟩
    rw [entered i (by rw [Pairing.bondTarget, hbond, Option.none_or, hfree]),
      State.enterBond_of_listener (s := s.consumeMask) i hx]
    rfl
  · have hbond : s.pairing.bondOf s.roster.buds[b].addr = none :=
      Pairing.bondOf_eq_none.2 fun j ⟨hju, hja⟩ => hnone j hju hja
    have hfree : s.pairing.freeBond = none := Pairing.freeBond_eq_none.2 hall
    have htarget : s.pairing.bondTarget s.roster.buds[b].addr = none := by
      rw [Pairing.bondTarget, hbond, Option.none_or, hfree]
    rw [exec_bond seq n ht, State.bondDirective_of_full (s := s.consumeMask) hn hm hl htarget]
    rfl

end Sys2Proof.Machine
end

