-- ==== Sys2Proof/Proofs/StoreAndStart.lean ====
section
/-! PROOFS. STORE PAGE and ERASE PAGE (R167, R169, R170), completions and RESTART (R171, R173), start-up (R174), the pages
across a removal of power (R164), and the bridge after reset. -/

namespace Sys2Proof.Machine

variable {s : State}

/-! ## STORE PAGE and ERASE PAGE (R169, R170) -/

theorem exec_storePage (seq n : Byte) (h : s.VoiceTakes) :
    exec (.storePage seq [n]) s =
      .next ((s.consumeMask.storePageDirective n).1.post (.reply 14 seq (s.consumeMask.storePageDirective n).2)) :=
  congrArg Host.Outcome.next (State.takeDirective_answered (fun s => s.storePageDirective n) h rfl)

theorem exec_erasePage (seq n : Byte) (h : s.VoiceTakes) :
    exec (.erasePage seq [n]) s =
      .next ((s.consumeMask.erasePageDirective n).1.post (.reply 15 seq (s.consumeMask.erasePageDirective n).2)) :=
  congrArg Host.Outcome.next (State.takeDirective_answered (fun s => s.erasePageDirective n) h rfl)

section
variable {n : Byte} {q : PageIx}

/-- STORE PAGE of a page, its checks in order (R169). -/
theorem State.storePageDirective_of_page (hq : n.toNat = q.val) :
    s.storePageDirective n =
      if s.pageProtected q = true then (s, .refused .protection)
      else if s.store.state ≠ .idle then (s, .refused .busy)
      else if s.store.pages[q] ≠ none then (s, .refused .state)
      else (s.setStore (.programming q s.store.staging), .done) := by
  simp only [State.storePageDirective, pageOperand_eq_some hq, Option.isSome_iff_ne_none]

/-- ERASE PAGE of a page, its checks in order (R170). -/
theorem State.erasePageDirective_of_page (hq : n.toNat = q.val) :
    s.erasePageDirective n =
      if s.pageProtected q = true then (s, .refused .protection)
      else if s.store.state ≠ .idle then (s, .refused .busy)
      else (s.setStore (.erasing q), .done) := by
  rw [State.erasePageDirective, pageOperand_eq_some hq]

end

/-- The mode that governs a page, and what it protects the page from; page 0 apart (R167). -/
theorem State.pageProtected_of_region {q : PageIx} {r : RegionIx} (h0 : q ≠ 0) (hr : pageRegion q = r) :
    (s.pageProtected q = true ↔ s.directives.modeOf r ≠ .opened) ∧
      (s.loadProtected q = true ↔ s.directives.modeOf r = .hidden) := by
  simp [State.pageProtected, State.loadProtected, h0, hr]

theorem pageZeroLocked_eq_true {pages : Pages} : pageZeroLocked pages = true ↔ ∃ p : Page, pages[0] = some p ∧ p[14] ≠ 0 := by
  unfold pageZeroLocked
  cases pages[0] with
  | none => simp
  | some p => simp [pageByte, pick]

/-- The protection of a page is that of page 0's own lock or of a mode: the lock of region 13 does not enter (R167). -/
theorem State.pageProtected_congr {t : State} (hp : t.store.pages = s.store.pages) (hm : t.directives.modes = s.directives.modes)
    (q : PageIx) : t.pageProtected q = s.pageProtected q := by
  simp only [State.pageProtected, DirectiveUnit.modeOf, hp, hm]

/-- Settles O29, check by check; the table of R167 by its rows. -/
theorem storeAndEraseAreChecked : Obligations.StoreAndEraseAreChecked := by
  unfold Obligations.StoreAndEraseAreChecked
  refine ⟨fun s seq n ht => ⟨fun hrange => ⟨?_, ?_⟩, fun q hq => ⟨?_, ?_⟩⟩,
    fun s => ⟨fun q r hrow => ?_, ?_, rfl, fun q => (State.pageProtected_congr rfl rfl q).symm⟩⟩
  · rw [exec_storePage seq n ht, State.storePageDirective, pageOperand_eq_none hrange]
    rfl
  · rw [exec_erasePage seq n ht, State.erasePageDirective, pageOperand_eq_none hrange]
    rfl
  · have hprot : s.consumeMask.pageProtected q = s.pageProtected q := State.pageProtected_congr rfl rfl q
    rw [exec_storePage seq n ht, State.storePageDirective_of_page (s := s.consumeMask) hq, hprot, State.consumeMask_store]
    refine congrArg Host.Outcome.next ?_
    split_ifs <;> rfl
  · have hprot : s.consumeMask.pageProtected q = s.pageProtected q := State.pageProtected_congr rfl rfl q
    rw [exec_erasePage seq n ht, State.erasePageDirective_of_page (s := s.consumeMask) hq, hprot, State.consumeMask_store]
    refine congrArg Host.Outcome.next ?_
    split_ifs <;> rfl
  · have htable : ∀ (q : PageIx) (r : RegionIx), (q.val, r.val) ∈
          [(1, 7), (2, 7), (3, 8), (4, 8), (5, 8), (6, 8), (7, 8), (8, 8), (9, 5), (10, 5), (11, 5), (12, 5), (13, 5), (14, 5),
            (15, 5), (16, 5), (17, 6), (18, 9), (19, 3), (20, 3)] → q ≠ 0 ∧ pageRegion q = r := by decide
    exact State.pageProtected_of_region (htable q r hrow).1 (htable q r hrow).2
  · exact pageZeroLocked_eq_true

/-! ## Completions and RESTART (R171, R173) -/

/-- The operation in flight, its page and what its completion makes of it (R168, R171). -/
theorem StoreState.operation_eq {t : StoreState} {q : PageIx} {op : StoreOp} (h : (t = .erasing q ∧ op = .erase) ∨
    (∃ image, t = .programming q image ∧ op = .store)) : t.operation = some (q, op) := by
  obtain ⟨rfl, rfl⟩ | ⟨image, rfl, rfl⟩ := h <;> rfl

/-- A completion posts STORE DONE where no RESTART waits (R171). -/
theorem State.complete_of_operation {q : PageIx} {op : StoreOp} (a : Arriving) (ho : s.store.state.operation = some (q, op))
    (hp : s.store.restartPending = false) :
    s.complete a = ({ s with store := s.store.settle } : State).post (.event (.storeDone q op)) := by
  simp only [State.complete, ho, hp]
  rfl

/-- A completion is the RESTART that waited for it (R173). -/
theorem State.complete_of_restart {q : PageIx} {op : StoreOp} (a : Arriving) (ho : s.store.state.operation = some (q, op))
    (hp : s.store.restartPending = true) : s.complete a = ({ s with store := s.store.settle } : State).restart a := by
  simp only [State.complete, ho, hp, if_true]

/-- With nothing in flight there is no completion (log entry 6). -/
theorem State.complete_of_idle (a : Arriving) (h : s.store.state = .idle) : s.complete a = s := by
  simp only [State.complete, StoreState.operation_none.2 h]

/-- A RESTART is taken at once while the controller is IDLE (R173). -/
theorem State.restartDirective_of_idle (a : Arriving) (h : s.store.state = .idle) :
    s.restartDirective a = (s.restart a, none) := by
  simp only [State.restartDirective, StoreState.operation_none.2 h]

/-- A RESTART behind an operation is deferred, once (R173). -/
theorem State.restartDirective_of_operation {q : PageIx} {op : StoreOp} (a : Arriving)
    (ho : s.store.state.operation = some (q, op)) :
    s.restartDirective a =
      if s.store.restartPending then (s, some .done)
      else (s.deferRestart.postEvent (.restartDeferred q op), some .done) := by
  simp only [State.restartDirective, ho]

/-- A RESTART that the Voice Port takes is the act of R173, with its reply where there is one (R160). -/
theorem exec_restart (seq : Byte) (a : Arriving) (h : s.VoiceTakes) :
    exec (.restart seq [] a) s = .next (State.conclude 19 seq (s.consumeMask.restartDirective a)) :=
  congrArg Host.Outcome.next (State.takeDirective_fits _ h rfl)

/-- Settles O31, by whether an operation is in flight and whether a RESTART waits. -/
theorem completionsAndRestarts : Obligations.CompletionsAndRestarts := by
  unfold Obligations.CompletionsAndRestarts
  intro a
  refine ⟨fun s q op page hop => ?_, fun s seq ht => ⟨fun hidle => ?_, fun q op hop => ⟨fun hp => ?_, fun hp => ?_⟩⟩,
    fun s hidle => congrArg Host.Outcome.next (State.complete_of_idle a hidle), fun s hp => ?_⟩
  · have hsettle : s.store.settle = { s.store with pages := s.store.pages.set q page, state := .idle } := by
      obtain ⟨hstate, -, rfl⟩ | ⟨image, hstate, -, rfl⟩ := hop <;> simp only [Store.settle, hstate]
    have hflight : s.store.state.operation = some (q, op) :=
      StoreState.operation_eq (hop.imp (fun h => ⟨h.1, h.2.1⟩) fun ⟨image, h⟩ => ⟨image, h.1, h.2.1⟩)
    refine ⟨fun hp => ?_, fun hp => ⟨?_, ?_⟩⟩
    · exact congrArg Host.Outcome.next ((State.complete_of_operation a hflight hp).trans (by rw [hsettle]))
    · exact congrArg Host.Outcome.next ((State.complete_of_restart a hflight hp).trans (by rw [hsettle]; rfl))
    · refine congrArg Host.Outcome.next ((if_pos hp).trans ?_)
      exact (State.complete_of_restart a hflight hp).trans (by rw [hsettle]; rfl)
  · rw [exec_restart seq a ht, State.restartDirective_of_idle (s := s.consumeMask) a hidle]
    rfl
  · have hflight : s.consumeMask.store.state.operation = some (q, op) := StoreState.operation_eq hop
    rw [exec_restart seq a ht, State.restartDirective_of_operation a hflight, State.consumeMask_store, hp]
    rfl
  · have hflight : s.consumeMask.store.state.operation = some (q, op) := StoreState.operation_eq hop
    rw [exec_restart seq a ht, State.restartDirective_of_operation a hflight, State.consumeMask_store, hp]
    rfl
  · exact congrArg Host.Outcome.next (if_neg (by simp [hp]))

/-! ## Start-up and power (R164, R174) -/

/-- The pages that a loss of power leaves (R164). -/
theorem Store.loseFlight_pages (t : Store) :
    t.loseFlight.pages = match t.state.inFlight with | some q => t.pages.set q none | none => t.pages := by
  unfold Store.loseFlight
  cases t.state.inFlight <;> rfl

/-- An idle Voice transmitter that is not held off has chosen READY; any other goes on, and READY waits (R139, R174). -/
theorem State.start_ready (s : State) (cause : StartCause) :
    if s.voicePort.sending = none ∧ s.voicePort.holdOff = false then
      (s.start cause).voicePort.sending = some (.report (.event (.ready cause)) false) ∧ (s.start cause).directives.reports = []
    else (s.start cause).voicePort.sending = s.voicePort.sending ∧
      (s.start cause).directives.reports = [.event (.ready cause)] := by
  split_ifs with hfree
  · rw [State.start, State.chooseVoice_of_report (s := s.startUp cause) (r := readyReport cause) (rest := []) rfl hfree.2 hfree.1 rfl rfl]
    exact ⟨rfl, rfl⟩
  · have hbusy : (s.startUp cause).chooseVoice = s.startUp cause := by
      refine State.chooseVoice_of_barred ?_
      rcases not_and_or.1 hfree with hs | hh
      · exact .inr (.inr (.inl (Option.isSome_iff_ne_none.2 hs)))
      · exact .inr (.inl (Bool.eq_true_of_not_eq_false hh))
    rw [State.start, hbusy]
    exact ⟨rfl, rfl⟩

/-- The slot is empty after a start-up. -/
theorem State.start_slot (s : State) (cause : StartCause) : (s.start cause).voicePort.slot = none := by
  have hkeep : ∀ u : State, u.voicePort.slot = none → u.chooseVoice.voicePort.slot = none := fun u hu => by
    unfold State.chooseVoice
    split
    · split
      · rfl
      · split <;> exact hu
    · exact hu
  exact hkeep (s.startUp cause) rfl

/-- A priority clamps to 0..3 (R16). -/
theorem clampPriority_eq (n : Nat) : clampPriority n = Fin.ofNat 4 (min n 3) :=
  Fin.ext (Nat.mod_eq_of_lt (by omega)).symm

/-- Settles O32: the stages of start-up leave everything but the Voice Port's choice, which `start_ready` tells. -/
theorem startUpLeavesStartValues : Obligations.StartUpLeavesStartValues := by
  unfold Obligations.StartUpLeavesStartValues
  refine ⟨fun s cause => ?_, fun s => ⟨_, rfl, s.store.loseFlight_pages, rfl, rfl, rfl, rfl, rfl, rfl, rfl⟩⟩
  have only := s.start_only cause
  obtain ⟨hopen, hcut, hhold, hmal⟩ := only.line
  have hready := s.start_ready cause
  simp only [only.roster, only.pairing, only.intake, only.laneUnit, only.mix, only.callCtl, only.airPort, only.store,
    only.pending]
  refine ⟨fun b => Vector.getElem_replicate _, fun x => (Vector.getElem_replicate _).trans ?_, rfl, rfl,
    fun b => ⟨Vector.getElem_replicate _, Vector.getElem_replicate _⟩, fun k => Vector.getElem_replicate _, rfl, rfl,
    fun x => Vector.getElem_replicate _, rfl, rfl, rfl, only.tables, hopen, hcut, s.start_slot cause, hmal, hhold, hready, rfl, rfl⟩
  simp only [Listener.unused, clampPriority_eq]
  rfl

/-- Settles O33: only a page in flight is touched, and by neither start-up nor the closing of the ports. -/
theorem pagesOutlivePower : Obligations.PagesOutlivePower := by
  unfold Obligations.PagesOutlivePower
  refine fun s => ⟨_, _, rfl, rfl, rfl, rfl, rfl, fun q => ?_⟩
  rw [State.start_store]
  have hidle : s.losePower.store.loseFlight.pages = s.store.loseFlight.pages := rfl
  refine (congrArg (·[q]) (hidle.trans s.store.loseFlight_pages)).trans ?_
  cases hf : s.store.state.inFlight with
  | none => simp
  | some p =>
    rw [getElem_set_fin]
    simp [eq_comm]

end Sys2Proof.Machine
end

