-- ==== Sys2Proof/Proofs/StartValues.lean ====
section
/-! PROOFS. The laws of the party, the lanes, the wait list and the queues hold of the values that a start-up leaves (R23, R43,
R57, R80), and the bridge after reset. -/

namespace Sys2Proof.Machine

variable {s : State}

/-! ## The records after a start-up -/

theorem Roster.start_bud (t : Tables) (b : BudIx) : (Roster.start t).buds[b] = {} := Vector.getElem_replicate _

theorem Roster.start_listener (t : Tables) (x : ListenerIx) :
    (Roster.start t).listeners[x] = Listener.unused t.defaults t.settings.defaultPriority := Vector.getElem_replicate _

theorem LaneUnit.start_lane (k : LaneIx) : LaneUnit.start.lanes[k] = {} := Vector.getElem_replicate _

theorem LaneUnit.start_speaking (x : ListenerIx) : LaneUnit.start.speaking[x] = none := Vector.getElem_replicate _

theorem Intake.start_queue (b : BudIx) : Intake.start.queues[b] = [] := Vector.getElem_replicate _

/-- A listener not in use has no speaking bud (R60). -/
theorem Roster.speakingBud_of_unused {r : Roster} {x : ListenerIx} (h : r.listeners[x].inUse = false) :
    r.speakingBud x = none := by
  simp only [Roster.speakingBud, h, Bool.not_false, Bool.true_or, if_true]

/-- No lane is bound after a start-up (R80). -/
theorem LaneUnit.start_boundLane (b : BudIx) : LaneUnit.start.boundLane b = none := by
  cases h : LaneUnit.start.boundLane b with
  | none => rfl
  | some k =>
    have hc := (LaneUnit.boundLane_some h).1
    rw [LaneUnit.start_lane] at hc
    exact absurd hc (by decide)

/-! ## The laws of a start-up -/

theorem Roster.start_budsSound (t : Tables) : (Roster.start t).BudsSound := by
  refine ⟨fun b _ => Roster.start_bud t b, fun b h => absurd ?_ h, fun b c _ h => absurd ?_ h⟩ <;>
    rw [Roster.start_bud]

theorem Roster.start_membership (t : Tables) : (Roster.start t).MembershipLaw := by
  refine ⟨fun b x => ?_, fun b => ?_⟩
  · rw [Roster.start_listener, Roster.start_bud]
    simp [Listener.unused]
  · rw [Roster.start_bud]
    simp

theorem Roster.start_compatible (t : Tables) : (Roster.start t).MembersCompatible := by
  refine ⟨fun x => ?_, fun x => ?_⟩ <;> rw [Roster.start_listener] <;> simp [Listener.unused]

theorem Roster.start_useSound (t : Tables) : (Roster.start t).UseSound := by
  refine ⟨fun x => ?_, fun x => ?_, fun x => ?_⟩ <;> rw [Roster.start_listener] <;> simp [Listener.unused]

theorem Roster.start_tagsSound (t : Tables) : (Roster.start t).TagsSound := by
  intro x y _ hx
  rw [Roster.start_listener] at hx
  exact absurd hx (by simp [Listener.unused])

/-- Nobody has joined: the party of a start-up is sound (R23, R43). -/
theorem State.partySound_of_start {t : Tables} (hr : s.roster = Roster.start t) (hc : s.pairing.context = none)
    (hs : s.directives.settings.InRange) : s.PartySound where
  settings := hs
  buds := hr ▸ Roster.start_budsSound t
  membership := hr ▸ Roster.start_membership t
  compatible := hr ▸ Roster.start_compatible t
  use := hr ▸ Roster.start_useSound t
  tags := hr ▸ Roster.start_tagsSound t
  context := by
    refine ⟨fun b => ?_, fun c h => ?_⟩
    · rw [hr, hc, Roster.start_bud]
      simp
    · simp [hc] at h

/-- A cleared lane with its counters at 0 has its fields sound (R58). -/
theorem Lane.default_sound : ({} : Lane).FieldsSound ∧ ({} : Lane).InRange := by
  refine ⟨⟨fun _ => rfl, rfl, rfl, ?_, fun _ => rfl, ?_, ?_, rfl⟩, ?_⟩ <;> simp [Lane.InRange]

/-- No lane carries a talker: the lanes, the wait list and the queues of a start-up are sound (R57, R80). -/
theorem State.lanesSound_of_start {t : Tables} (hr : s.roster = Roster.start t) (hc : s.pairing.context = none)
    (hs : s.directives.settings.InRange) (hi : s.intake = Intake.start) (hl : s.laneUnit = LaneUnit.start) :
    s.LanesSound where
  party := State.partySound_of_start hr hc hs
  speaking := fun x => by
    rw [hl, hr, LaneUnit.start_speaking, Roster.speakingBud_of_unused]
    rw [Roster.start_listener]
    rfl
  ranges := fun k => by
    rw [hl, LaneUnit.start_lane]
    exact Lane.default_sound.2
  fields := fun k => by
    rw [hl, LaneUnit.start_lane]
    exact Lane.default_sound.1
  exclusive := by
    refine ⟨fun j k _ h => ?_, fun j k _ h => ?_, fun _ k => ?_⟩
    · rw [hl, LaneUnit.start_lane] at h
      exact absurd h (by decide)
    · rw [hl, LaneUnit.start_lane] at h
      exact absurd h (by decide)
    · rw [hl, LaneUnit.start_lane]
  reservations := fun k x h => by
    rw [hl, LaneUnit.start_lane] at h
    cases h
  carry := fun k h => by
    rw [hl, LaneUnit.start_lane] at h
    exact absurd h (by decide)
  waitList := by
    rw [State.WaitListSound, hl]
    refine ⟨List.nodup_nil, nofun, List.nodup_nil, nofun, List.Pairwise.nil, fun _ => rfl, fun _ x h => ?_⟩
    rw [LaneUnit.start_speaking] at h
    cases h
  queues := by
    rw [State.QueuesSound, hl, hi]
    refine ⟨fun b => ?_, fun b _ => ?_, fun b k h => ?_, fun b _ => Intake.start_queue b⟩
    · rw [Intake.start_queue]
      exact List.nodup_nil
    · rw [Intake.start_queue]
      exact Nat.zero_le _
    · rw [LaneUnit.start_boundLane] at h
      cases h

/-! ## The settings of a start-up (R154, R165) -/

theorem settingRange_le {i : Nat} (hi : i < 9) : (settingRange i).1 ≤ (settingRange i).2 := by
  interval_cases i <;> decide

/-- A setting takes the nearer bound of its range (R154). -/
theorem clampSetting_eq {i : Nat} (hi : i < 9) (n : Nat) :
    clampSetting i n = max (settingRange i).1 (min n (settingRange i).2) := by
  have := settingRange_le hi
  simp only [clampSetting, clampNat]
  split_ifs <;> omega

/-- A written setting is what it clamps to, and the others stay (R153, R154). -/
theorem Settings.word_setWord (t : Settings) {i j : Nat} (hi : i < 9) (n : Nat) (hj : j < 9) :
    (t.setWord i n).word j = if i = j then clampSetting i n else t.word j := by
  interval_cases i <;> interval_cases j <;> rfl

/-- A written setting keeps every setting in its range (R154). -/
theorem Settings.setWord_inRange {t : Settings} (i n : Nat) (h : t.InRange) : (t.setWord i n).InRange := by
  intro j
  by_cases hi : i < 9
  · rw [Settings.word_setWord t hi n j.isLt]
    split_ifs with hij
    · subst hij
      rw [clampSetting_eq hi]
      have := settingRange_le hi
      omega
    · exact h j
  · have hsame : t.setWord i n = t := by
      obtain ⟨m, rfl⟩ : ∃ m, i = m + 9 := ⟨i - 9, by omega⟩
      rfl
    rw [hsame]
    exact h j

theorem defaultSettings_inRange : defaultSettings.InRange := by decide

/-- Whatever page 18 holds, the settings are in their ranges (R154, R165). -/
theorem loadSettings_inRange (pages : Pages) : (loadSettings pages).InRange := by
  have hfold : ∀ (f : Nat → Nat) (l : List Nat) (t : Settings), t.InRange → (l.foldl (fun t i => t.setWord i (f i)) t).InRange := by
    intro f l
    induction l with
    | nil => exact fun _ h => h
    | cons i l ih => exact fun t h => ih _ (Settings.setWord_inRange i _ h)
  unfold loadSettings
  split
  · exact hfold (fun i => (pageByte _ i).toNat) _ _ defaultSettings_inRange
  · exact defaultSettings_inRange

/-- Every law of the party, the lanes and the queues holds after a start-up (R174). -/
theorem State.start_lanesSound (s : State) (cause : StartCause) : (s.start cause).LanesSound := by
  have only := s.start_only cause
  refine State.lanesSound_of_start (t := loadTables s.store.pages) only.roster ?_ ?_ only.intake only.laneUnit
  · rw [only.pairing]
    rfl
  · rw [only.tables.settings]
    exact loadSettings_inRange s.store.pages

/-- And while the bridge has no power (R164). -/
theorem State.losePower_lanesSound (s : State) : s.losePower.LanesSound :=
  State.lanesSound_of_start (t := builtInTables) rfl rfl defaultSettings_inRange rfl rfl

/-! ## The bridge after reset -/

/-- The built-in gain curve, written out (R102). -/
theorem defaultCurve_eq : defaultCurve.map (·.val) =
    #v[0, 160, 176, 192, 208, 224, 240, 256, 288, 320, 352, 384, 416, 448, 480, 512,
      576, 640, 704, 768, 832, 896, 960, 1024, 1152, 1280, 1408, 1536, 1664, 1792, 1920, 2048,
      2304, 2560, 2816, 3072, 3328, 3584, 3840, 4096, 4608, 5120, 5632, 6144, 6656, 7168, 7680, 8192,
      9216, 10240, 11264, 12288, 13312, 14336, 15360, 16384, 18432, 20480, 22528, 24576, 26624, 28672, 30720, 32768] := by
  ext i hi
  simp only [defaultCurve, Vector.getElem_map, Vector.getElem_ofFn]
  interval_cases i <;> rfl

theorem State.reset_bounded : State.reset.Bounded := by
  constructor <;> simp [State.reset, Roster.start, Intake.start, LaneUnit.start, Mix.start, CallCtl.start,
    DirectiveUnit.start, Bud.Bounded, Discards.Bounded, Lane.CountersBounded, Lane.InRange, CallCtl.Bounded, AirPort.Bounded]

theorem State.reset_fixed : State.reset.mix.FixedCellsZero := by
  intro i hi
  simp [State.reset, Mix.start, builtInTables, defaultMix, defaultCell, hi]

/-- Settles O3, field by field; the laws are those of any start-up. -/
theorem resetIsStartOfBlankStore : Obligations.ResetIsStartOfBlankStore := by
  unfold Obligations.ResetIsStartOfBlankStore
  exact ⟨rfl, rfl, rfl, rfl, by decide, rfl, rfl, defaultCurve_eq, rfl, rfl, rfl, rfl, rfl, rfl, rfl, rfl, rfl,
    State.reset_bounded, State.reset_fixed,
    State.lanesSound_of_start (t := builtInTables) rfl rfl defaultSettings_inRange rfl rfl,
    ⟨fun _ _ _ => rfl, fun _ _ h => absurd h (by decide)⟩, ⟨rfl, rfl⟩, fun h => absurd h (by decide)⟩

end Sys2Proof.Machine
end

