-- ==== Sys2Proof/Proofs/Requests.lean ====
section
/-! PROOFS. Requests on the Air Link and what they free: unknown handles (R2, R31), LEAVE, HANDLE DROPPED and EVICT (R38, R40,
R41), ADJUST (R21, R22), the stages of a JOIN (R32), CONFIRM and its countdown (R35, R36), and the call-control directives
(R122 to R126). -/

namespace Sys2Proof.Machine

variable {s : State}

/-! ## Handles (R2, R31) -/

/-- In a sound Bud Table a handle names the one bud that holds it (R2). -/
theorem Roster.budByHandle_eq_some {r : Roster} {h : Handle} (hs : r.BudsSound) {b : BudIx} :
    r.budByHandle h = some b ↔ r.buds[b].link ≠ .free ∧ r.buds[b].handle = some h := by
  refine ⟨Roster.budByHandle_some, fun ⟨hl, hh⟩ => ?_⟩
  cases e : r.budByHandle h with
  | none => exact absurd hh (Roster.budByHandle_none e b hl)
  | some c =>
    obtain ⟨-, hc⟩ := Roster.budByHandle_some e
    by_contra hne
    exact hs.2.2 b c (fun hbc => hne (congrArg some hbc.symm)) hl (hh.trans hc.symm)

/-- A handle is unknown when no bud that is not FREE holds it (R2). -/
theorem Roster.budByHandle_eq_none {r : Roster} {h : Handle} :
    r.budByHandle h = none ↔ ∀ b : BudIx, r.buds[b].link ≠ .free → r.buds[b].handle ≠ some h := by
  refine ⟨Roster.budByHandle_none, fun hn => ?_⟩
  cases e : r.budByHandle h with
  | none => rfl
  | some b => exact absurd (Roster.budByHandle_some e).2 (hn b (Roster.budByHandle_some e).1)

theorem exec_leave (h : Handle) (q : Byte) (ht : s.AirTakes) : exec (.leave h q) s = .next (s.leaveRequest h) :=
  congrArg Host.Outcome.next (State.atPort_air _ ht)

theorem exec_handleDropped (h : Handle) (q : Byte) (ht : s.AirTakes) :
    exec (.handleDropped h q) s = .next (s.handleDroppedNotice h) :=
  congrArg Host.Outcome.next (State.atPort_air _ ht)

theorem exec_adjust (h : Handle) (q : Byte) (f : AdjustFields) (ht : s.AirTakes) :
    exec (.adjust h q f) s = .next (s.adjustRequest h q f) :=
  congrArg Host.Outcome.next (State.atPort_air _ ht)

/-- Settles O35: the search by handle, and what each request does when it answers none or the OFFERED bud. -/
theorem unknownHandlesAreStray : Obligations.UnknownHandlesAreStray := by
  unfold Obligations.UnknownHandlesAreStray
  refine ⟨fun r h hs => ⟨fun b => Roster.budByHandle_eq_some hs, Roster.budByHandle_eq_none⟩,
    fun s h q samples f ht => ⟨fun hb => ?_, fun b hb hl => ?_⟩⟩
  · have hstray : ∀ b : BudIx, s.roster.budByHandle h = some b → s.roster.buds[b].link = .offered := by simp [hb]
    rw [exec_audio h q samples ht, exec_silence h q ht, exec_leave h q ht, exec_park h q ht, exec_adjust h q f ht,
      exec_handleDropped h q ht, State.arrival_of_stray _ hstray, State.arrival_of_stray _ hstray,
      State.parkRequest_of_stray hstray]
    simp only [State.leaveRequest, State.adjustRequest, State.handleDroppedNotice, hb]
    exact ⟨rfl, rfl, rfl, rfl, rfl, trivial⟩
  · have hstray : ∀ c : BudIx, s.roster.budByHandle h = some c → s.roster.buds[c].link = .offered := fun c hc =>
      Option.some.inj (hb.symm.trans hc) ▸ hl
    rw [exec_audio h q samples ht, exec_silence h q ht, exec_park h q ht, State.arrival_of_stray _ hstray,
      State.arrival_of_stray _ hstray, State.parkRequest_of_stray hstray]
    exact ⟨rfl, rfl, rfl⟩

/-! ## LEAVE, HANDLE DROPPED and EVICT (R38, R40, R41) -/

theorem exec_evict (seq n : Byte) (h : s.VoiceTakes) :
    exec (.evict seq [n]) s =
      .next ((s.consumeMask.evictDirective n).1.post (.reply 12 seq (s.consumeMask.evictDirective n).2)) :=
  congrArg Host.Outcome.next (State.takeDirective_answered (fun s => s.evictDirective n) h rfl)

/-- EVICT of a bud is refused for a FREE one and frees any other (R41). -/
theorem State.evictDirective_of_bud {n : Byte} {b : BudIx} (hn : n.toNat = b.val + 1) :
    s.evictDirective n = if s.roster.buds[b].link = .free then (s, .refused .state) else (s.evictBud b, .done) := by
  rw [State.evictDirective, budOperand_eq_some hn]

/-- DISMISS goes to the bud's handle before the bud is freed (R41). -/
theorem State.evictBud_of_handle {b : BudIx} {h : Handle} (hh : s.roster.buds[b].handle = some h) :
    s.evictBud b = (s.sendAir (.dismiss h b)).freeBud b .evict := by
  simp only [State.evictBud, hh]

/-- Settles O41, by whom the handle or the operand names. -/
theorem leaveDropAndEvictFreeTheBud : Obligations.LeaveDropAndEvictFreeTheBud := by
  unfold Obligations.LeaveDropAndEvictFreeTheBud
  refine ⟨fun s h q b ht hb => ⟨?_, (s.freeBud_keeps b .leave).2.2.1, ?_, (s.freeBud_keeps b .handleDropped).2.2.1⟩,
    fun s seq n ht => ⟨fun hrange => ?_, fun b hn => ⟨fun hl => ?_, fun h hl hh => ?_⟩⟩⟩
  · rw [exec_leave h q ht]
    simp only [State.leaveRequest, hb]
  · rw [exec_handleDropped h q ht]
    simp only [State.handleDroppedNotice, hb]
  · rw [exec_evict seq n ht, State.evictDirective, budOperand_eq_none hrange]
    rfl
  · rw [exec_evict seq n ht, State.evictDirective_of_bud (s := s.consumeMask) hn, State.consumeMask_roster, if_pos hl]
    rfl
  · rw [exec_evict seq n ht, State.evictDirective_of_bud (s := s.consumeMask) hn, State.consumeMask_roster, if_neg hl,
      State.evictBud_of_handle (s := s.consumeMask) hh]
    rfl

/-! ## ADJUST (R21, R22) -/

/-- A gain index clamps to 0..63 (R21, R153). -/
theorem clampIndex_eq (n : Nat) : clampIndex n = Fin.ofNat 64 (min n 63) := Fin.ext (Nat.mod_eq_of_lt (by omega)).symm

theorem AdjustField.named_eq (f : AdjustField) : AdjustField.named f = !decide (f.presence = 0) := by
  simp [AdjustField.named, bne, beq_eq_decide]

/-- A named field takes the value given, an unnamed one stays (R21). -/
theorem AdjustField.ite_named {α : Type} (f : AdjustField) (x y : α) :
    (if AdjustField.named f then x else y) = if f.presence = 0 then y else x := by
  rw [AdjustField.named_eq]
  by_cases h : f.presence = 0 <;> simp [h]

/-- The three controls an ADJUST reaches (R21). -/
theorem Listener.adjust_eq (l : Listener) (f : AdjustFields) :
    l.adjust f =
      { l with
        volume := if f.volume.presence = 0 then l.volume else Fin.ofNat 64 (min f.volume.value.toNat 63)
        sidetone := if f.sidetone.presence = 0 then l.sidetone else Fin.ofNat 64 (min f.sidetone.value.toNat 63)
        mute := if f.mute.presence = 0 then l.mute else decide (f.mute.value ≠ 0) } := by
  have hmute : (f.mute.value != 0) = decide (f.mute.value ≠ 0) := by simp [bne, beq_eq_decide]
  simp only [Listener.adjust, AdjustField.ite_named, clampIndex_eq, hmute]

section
variable {b : BudIx} {x : ListenerIx} (h : Handle) (q : Byte) (f : AdjustFields) (hx : s.roster.buds[b].listener = some x)

include hx

/-- An ADJUST that may be applied sets the listener's controls, tells the Lane Unit of a change of mute, and is answered
with the values now held (R21, R22). -/
theorem State.adjustFrom_of_allowed (hl : s.roster.buds[b].link ≠ .offered) (hc : s.roster.listeners[x].budControls = true) :
    s.adjustFrom b h q f =
      (if (s.roster.listeners[x].adjust f).mute = s.roster.listeners[x].mute then
          s.setListener x (s.roster.listeners[x].adjust f)
        else (s.setListener x (s.roster.listeners[x].adjust f)).notice x).sendAir
        (adjustReply h q x (s.roster.listeners[x].adjust f) f) := by
  simp only [State.adjustFrom, hx]
  exact if_pos ⟨hl, hc⟩

/-- Any other is answered with no fields (R21, R22). -/
theorem State.adjustFrom_of_barred (hl : s.roster.buds[b].link = .offered ∨ s.roster.listeners[x].budControls = false) :
    s.adjustFrom b h q f = s.sendAir (.adjustReply h q (some x) none none none) := by
  simp only [State.adjustFrom, hx]
  exact if_neg fun ⟨ho, hc⟩ => hl.elim ho fun hf => Bool.noConfusion (hf.symm.trans hc)

end

/-- A notice that may be given leaves the Roster (R11). -/
theorem State.ite_notice_roster (p : Prop) [Decidable p] (t : State) (x : ListenerIx) :
    (if p then t else t.notice x).roster = t.roster := by
  split
  · rfl
  · exact (t.notice_only x).roster

/-- Settles O44, by whether the bud may adjust. -/
theorem adjustReachesOnlyOwnControls : Obligations.AdjustReachesOnlyOwnControls := by
  unfold Obligations.AdjustReachesOnlyOwnControls
  intro s h q f b x ht hb hx
  rw [exec_adjust h q f ht]
  simp only [State.adjustRequest, hb, ← Listener.adjust_eq]
  refine ⟨fun hl hc => ⟨?_, ?_⟩, fun hl => congrArg Host.Outcome.next (State.adjustFrom_of_barred h q f hx hl)⟩
  · rw [State.adjustFrom_of_allowed h q f hx hl hc]
    simp only [adjustReply, AdjustField.ite_named, Listener.adjust_eq]
    rfl
  · exact State.ite_notice_roster _ _ x

/-! ## A freeing and the records (R17) -/

/-- Steps 1 to 5 of a freeing, written out (R17). -/
theorem State.unlinkBud_eq (s : State) (b : BudIx) :
    s.unlinkBud b =
      { s with
        roster :=
          { s.roster with
            buds := s.roster.buds.set b {}
            listeners := match s.roster.buds[b].listener with
              | some x => s.roster.listeners.set x (s.roster.listeners[x].drop b)
              | none => s.roster.listeners }
        intake := { s.intake with queues := s.intake.queues.set b [] }
        pairing := { s.pairing with
          context := if s.roster.buds[b].link = .offered then none else s.pairing.context } } := by
  unfold State.unlinkBud
  simp only
  cases s.roster.buds[b].listener with
  | none => split <;> rfl
  | some x => split <;> rfl

/-- A freeing makes the bud's record FREE and leaves every other record (R17). -/
theorem State.freeBud_buds (s : State) (b : BudIx) (cause : FreeCause) :
    (s.freeBud b cause).roster.buds = s.roster.buds.set b {} := by
  rw [State.freeBud, ((s.unlinkBud b).finishDeparture_keeps _).1, State.unlinkBud_eq]

/-- A freeing empties the context of the OFFERED bud and no other (R17, R24). -/
theorem State.freeBud_pairing (s : State) (b : BudIx) (cause : FreeCause) :
    (s.freeBud b cause).pairing =
      { s.pairing with context := if s.roster.buds[b].link = .offered then none else s.pairing.context } := by
  rw [State.freeBud, ((s.unlinkBud b).finishDeparture_keeps _).2.2.1, State.unlinkBud_eq]

/-! ## JOIN (R32) -/

theorem roleOf_toNat (role : Byte) : roleOf role.toNat = if role = 0 then .left else if role = 1 then .right else .mono := by
  have h0 : role.toNat = 0 ↔ role = 0 := BitVec.toNat_eq (y := (0 : Byte)) |>.symm
  have h1 : role.toNat = 1 ↔ role = 1 := BitVec.toNat_eq (y := (1 : Byte)) |>.symm
  simp only [roleOf, h0, h1]

/-- A JOIN that the Air Port takes is the request of R32. -/
theorem exec_join (h : Handle) (q : Byte) (a : Address) (tag : Word) (role : Byte) (ht : s.AirTakes) :
    exec (.join h q a tag role) s =
      .next (s.joinRequest ⟨h, q, a, tag, if role = 0 then .left else if role = 1 then .right else .mono⟩) := by
  rw [← roleOf_toNat]
  exact congrArg Host.Outcome.next (State.atPort_air _ ht)

section
variable {j : JoinRequest}

/-- Stage 1: the same handle and address are offered again (R32). -/
theorem State.joinRequest_of_same {b : BudIx} (hb : s.roster.budByHandle j.handle = some b) (ha : s.roster.buds[b].addr = j.addr) :
    s.joinRequest j = s.sendAir (.offer j.handle j.seq b s.roster.buds[b].listener) := by
  simp only [State.joinRequest, hb]
  exact if_pos ha

/-- Stage 2: another address frees the bud that held the handle (R32). -/
theorem State.joinRequest_of_reused {b : BudIx} (hb : s.roster.budByHandle j.handle = some b)
    (ha : s.roster.buds[b].addr ≠ j.addr) : s.joinRequest j = (s.freeBud b .handleReused).newJoin j := by
  simp only [State.joinRequest, hb]
  exact if_neg ha

theorem State.joinRequest_of_unknown (hb : s.roster.budByHandle j.handle = none) : s.joinRequest j = s.newJoin j := by
  simp only [State.joinRequest, hb]

/-- Stage 3: DEFER while the context is busy (R32). -/
theorem State.newJoin_of_busy {c : Context} (hc : s.pairing.context = some c) :
    s.newJoin j = s.sendAir (.defer j.handle j.seq s.directives.settings.deferInterval) := by
  simp only [State.newJoin, hc]

theorem State.newJoin_of_empty (hc : s.pairing.context = none) : s.newJoin j = s.admitJoin j := by
  simp only [State.newJoin, hc]

/-- Stage 4: REFUSE where the address is not admitted (R32). -/
theorem State.admitJoin_of_refused (ha : s.pairing.admission j.addr = .refused) :
    s.admitJoin j = s.sendAir (.refuse j.handle j.seq .notAdmitted) := by
  simp only [State.admitJoin, ha]

/-- Stages 5 and 6: REFUSE where the bud is not placed, and the offer where it is (R32). -/
theorem State.admitJoin_of_admitted (ha : s.pairing.admission j.addr ≠ .refused) :
    s.admitJoin j = match s.roster.place j.setTag j.role with
      | .refused reason => s.sendAir (.refuse j.handle j.seq reason)
      | .existing x => s.offer j x false (s.pairing.admission j.addr)
      | .opened x => s.offer j x true (s.pairing.admission j.addr) := by
  unfold State.admitJoin
  cases h : s.pairing.admission j.addr with
  | refused => exact absurd h ha
  | bonded i => rfl
  | window => rfl

end

/-- Once the bud is freed, its handle is unknown: no other bud held it (R2, R17). -/
theorem State.budByHandle_of_freed {h : Handle} {b : BudIx} (cause : FreeCause) (hs : s.roster.BudsSound)
    (hb : s.roster.budByHandle h = some b) : (s.freeBud b cause).roster.budByHandle h = none := by
  refine Roster.budByHandle_eq_none.2 fun c => ?_
  rw [State.freeBud_buds, getElem_set_fin]
  split_ifs with hbc
  · exact fun hl => absurd rfl hl
  · intro hl hh
    have hc := (Roster.budByHandle_eq_some hs).2 ⟨hl, hh⟩
    exact hbc (Option.some.inj (hb.symm.trans hc))

/-- Settles O46, stage by stage. -/
theorem joinGoesThroughItsStages : Obligations.JoinGoesThroughItsStages := by
  unfold Obligations.JoinGoesThroughItsStages
  intro s h q a tag role ht
  refine ⟨fun b hb => ⟨fun ha => ?_, fun ha hp => ?_⟩, fun hb => ⟨fun c hc => ?_, fun hc => ⟨fun ha => ?_, fun ha => ?_⟩⟩⟩
  · rw [exec_join h q a tag role ht, State.joinRequest_of_same hb ha]
  · have hfreed := State.budByHandle_of_freed .handleReused hp.buds hb
    have htakes : (s.freeBud b .handleReused).AirTakes := by
      rw [State.AirTakes, (s.freeBud_keeps b .handleReused).2.2.1]
      exact ht
    refine ⟨hfreed, ?_⟩
    rw [exec_join h q a tag role ht, exec_join h q a tag role htakes, State.joinRequest_of_reused hb ha,
      State.joinRequest_of_unknown (s := s.freeBud b .handleReused) hfreed]
  · rw [exec_join h q a tag role ht, State.joinRequest_of_unknown hb, State.newJoin_of_busy hc]
  · rw [exec_join h q a tag role ht, State.joinRequest_of_unknown hb, State.newJoin_of_empty hc, State.admitJoin_of_refused ha]
  · rw [exec_join h q a tag role ht, State.joinRequest_of_unknown hb, State.newJoin_of_empty hc, State.admitJoin_of_admitted ha]
    exact ⟨fun reason hr => by simp only [hr], fun x hx => by simp only [hx], fun x hx => by simp only [hx]⟩

/-! ## CONFIRM and the countdown (R35, R36) -/

theorem exec_confirm (h : Handle) (q : Byte) (ht : s.AirTakes) : exec (.confirm h q) s = .next (s.confirmRequest h q) :=
  congrArg Host.Outcome.next (State.atPort_air _ ht)

/-- A CONFIRM that is not from the handle of the busy context is refused (R35). -/
theorem State.confirmRequest_of_other {h : Handle} (q : Byte) (hc : ∀ c, s.pairing.context = some c → c.handle ≠ h) :
    s.confirmRequest h q = s.sendAir (.refuse h q .noOffer) := by
  unfold State.confirmRequest
  cases he : s.pairing.context with
  | none => rfl
  | some c => exact if_neg (hc c he)

/-- The countdown of a busy context (R36). -/
theorem State.countdown_of_busy {c : Context} (hc : s.pairing.context = some c) :
    s.countdown =
      if c.countdown ≤ 1 then
        ({ s with pairing := { s.pairing with context := some { c with countdown := c.countdown - 1 } } } :
          State).freeBud c.bud .confirmTimeout
      else { s with pairing := { s.pairing with context := some { c with countdown := c.countdown - 1 } } } := by
  simp only [State.countdown, hc]

theorem exec_confirmTimeout_of_busy {c : Context} (hc : s.pairing.context = some c) :
    exec .confirmTimeout s = .next (if c.countdown ≤ 1 then s.countdown else s) := by
  simp only [exec, execConfirmTimeout, hc]

/-- Settles O48, by the context and its countdown. -/
theorem confirmOrCountdownEndsTheHandshake : Obligations.ConfirmOrCountdownEndsTheHandshake := by
  unfold Obligations.ConfirmOrCountdownEndsTheHandshake
  refine ⟨fun s h q ht => ⟨fun c hc hh => ⟨?_, (State.noticeFor_only _ _).airPort⟩, fun hc => ?_⟩,
    fun s => ⟨fun hc => ⟨?_, ?_⟩, fun c hc => ⟨fun h2 => ⟨?_, ?_⟩, fun h1 => ⟨?_, ?_, fun hp => ?_⟩⟩⟩⟩
  · rw [exec_confirm h q ht]
    simp only [State.confirmRequest, hc, hh, if_true]
    rfl
  · rw [exec_confirm h q ht, State.confirmRequest_of_other q hc]
  · simp only [State.countdown, hc]
  · simp only [exec, execConfirmTimeout, hc]
  · rw [State.countdown_of_busy hc, if_neg (by omega)]
  · rw [exec_confirmTimeout_of_busy hc, if_neg (by omega)]
  · rw [State.countdown_of_busy hc, if_pos (by omega)]
  · rw [exec_confirmTimeout_of_busy hc, State.countdown_of_busy hc, if_pos (by omega), if_pos (by omega)]
  · have hoffered : s.roster.buds[c.bud].link = .offered := (hp.context.1 c.bud).2 (by rw [hc]; rfl)
    refine ⟨?_, ?_, (State.freeBud_keeps _ _ _).2.2.1⟩
    · rw [State.freeBud_pairing]
      exact if_pos hoffered
    · rw [State.freeBud_buds, getElem_set_fin, if_pos rfl]

/-! ## The call-control directives (R122 to R126) -/

theorem exec_beginCall (seq : Byte) (h : s.VoiceTakes) :
    exec (.beginCall seq []) s =
      .next (s.consumeMask.beginCallDirective.1.post (.reply 5 seq s.consumeMask.beginCallDirective.2)) :=
  congrArg Host.Outcome.next (State.takeDirective_answered State.beginCallDirective h rfl)

theorem exec_endCall (seq : Byte) (h : s.VoiceTakes) :
    exec (.endCall seq []) s =
      .next (s.consumeMask.endCallDirective.1.post (.reply 6 seq s.consumeMask.endCallDirective.2)) :=
  congrArg Host.Outcome.next (State.takeDirective_answered State.endCallDirective h rfl)

theorem exec_hold (seq : Byte) (h : s.VoiceTakes) :
    exec (.hold seq []) s =
      .next (s.consumeMask.holdDirective.1.post (.reply 7 seq s.consumeMask.holdDirective.2)) :=
  congrArg Host.Outcome.next (State.takeDirective_answered State.holdDirective h rfl)

theorem exec_resume (seq : Byte) (h : s.VoiceTakes) :
    exec (.resume seq []) s =
      .next (s.consumeMask.resumeDirective.1.post (.reply 8 seq s.consumeMask.resumeDirective.2)) :=
  congrArg Host.Outcome.next (State.takeDirective_answered State.resumeDirective h rfl)

/-- Settles O49, by the call state. -/
theorem callDirectivesChangeTheCall : Obligations.CallDirectivesChangeTheCall := by
  unfold Obligations.CallDirectivesChangeTheCall
  intro s seq ht
  rw [exec_beginCall seq ht, exec_endCall seq ht, exec_hold seq ht, exec_resume seq ht]
  simp only [State.beginCallDirective, State.endCallDirective, State.holdDirective, State.resumeDirective, State.changeCall,
    State.postEvent, State.consumeMask_callCtl, State.zeroFills_callCtl, State.armTimer_callCtl]
  cases hc : s.callCtl.state with
  | noCall => dsimp only; exact ⟨rfl, rfl, rfl, rfl⟩
  | inCall => dsimp only; exact ⟨rfl, rfl, rfl, rfl⟩
  | holding cause =>
    cases cause with
    | directed => dsimp only; exact ⟨rfl, rfl, rfl, rfl⟩
    | auto => dsimp only; exact ⟨rfl, rfl, rfl, rfl⟩

end Sys2Proof.Machine
end

