-- ==== Sys2Proof/Proofs/Admission.lean ====
section
/-! PROOFS. Admission and placement (R25, R28, R29), and what an arrival makes of a bud's record (R5, R9, R10). -/

namespace Sys2Proof.Machine

variable {s : State}

/-! ## Admission (R25, R28) -/

theorem Pairing.admission_eq_bonded {p : Pairing} {a : Address} {i : Fin 8} :
    p.admission a = .bonded i ↔ p.bondOf a = some i := by
  unfold Pairing.admission
  cases p.bondOf a with
  | none => simp only [reduceCtorEq, iff_false]; split <;> exact nofun
  | some j => simp

theorem Window.matches_eq_true {w : Window} {a : Address} :
    w.matches a = true ↔ w.enable = true ∧
      a.toNat / 2 ^ (24 - w.compareLength.val) = w.base.toNat / 2 ^ (24 - w.compareLength.val) := by
  simp [Window.matches]

theorem Pairing.admission_eq_window {p : Pairing} {a : Address} :
    p.admission a = .window ↔ p.bondOf a = none ∧ p.admissionOpen = true ∧ ∃ i : Fin 4, p.windows[i].matches a = true := by
  have hall : ∀ i : Fin 4, i ∈ Config.windows := by decide
  unfold Pairing.admission
  cases p.bondOf a with
  | some j => simp
  | none => simp [hall]

/-! ## Placement (R29) -/

/-- The listener that R13 opens: the lowest-numbered one not in use. -/
theorem Roster.freeListener_eq_some {r : Roster} {x : ListenerIx} :
    r.freeListener = some x ↔ r.listeners[x].inUse = false ∧ ∀ y : ListenerIx, y < x → r.listeners[y].inUse = true := by
  have h := find?_eq_some_iff_lowest (l := Config.listeners) (p := fun x : ListenerIx => !r.listeners[x].inUse) (i := x)
    (by decide) (by decide)
  rw [Roster.freeListener, h]
  simp

theorem Roster.freeListener_eq_none {r : Roster} :
    r.freeListener = none ↔ ∀ x : ListenerIx, r.listeners[x].inUse = true := by
  simp [Roster.freeListener, List.find?_eq_none, mem_listeners]

/-- A new listener is the lowest not in use, or FULL (R29). -/
theorem Roster.placeNew_iff (r : Roster) :
    (∀ x : ListenerIx, r.placeNew = .opened x ↔
      r.listeners[x].inUse = false ∧ ∀ y : ListenerIx, y < x → r.listeners[y].inUse = true) ∧
    (r.placeNew = .refused .full ↔ ∀ x : ListenerIx, r.listeners[x].inUse = true) := by
  simp only [← Roster.freeListener_eq_some, ← Roster.freeListener_eq_none]
  unfold Roster.placeNew
  cases r.freeListener with
  | none => simp
  | some y => simp

/-- Set tag 0, and a tag that no listener in use carries, need a new listener (R29). -/
theorem Roster.place_of_fresh {r : Roster} {tag : Word} (role : Role)
    (h : tag = 0 ∨ ∀ x : ListenerIx, r.listeners[x].inUse = true → r.listeners[x].setTag ≠ tag) :
    r.place tag role = r.placeNew := by
  unfold Roster.place
  split
  · rfl
  · have hnone : (Config.listeners.find? fun x => r.listeners[x].inUse && r.listeners[x].setTag == tag) = none :=
      List.find?_eq_none.2 fun x _ hx => by
        obtain ⟨hu, ht⟩ : r.listeners[x].inUse = true ∧ r.listeners[x].setTag = tag := by simpa using hx
        exact (h.resolve_left ‹_›) x hu ht
    rw [hnone]

/-- Another tag goes to the one listener in use that carries it, unless its members conflict (R29). -/
theorem Roster.place_of_tag {r : Roster} {tag : Word} {x : ListenerIx} (role : Role) (h0 : tag ≠ 0)
    (hu : r.listeners[x].inUse = true) (ht : r.listeners[x].setTag = tag) (hs : r.TagsSound) :
    r.place tag role = if r.conflicts x role then .refused .roleTaken else .existing x := by
  have hfind : (Config.listeners.find? fun x => r.listeners[x].inUse && r.listeners[x].setTag == tag) = some x := by
    cases e : Config.listeners.find? fun x => r.listeners[x].inUse && r.listeners[x].setTag == tag with
    | none =>
      have hno := List.find?_eq_none.1 e x (mem_listeners x)
      exact absurd (by rw [hu, ht]; simp) hno
    | some y =>
      obtain ⟨hyu, hyt⟩ : r.listeners[y].inUse = true ∧ r.listeners[y].setTag = tag := by
        simpa using List.find?_some e
      by_contra hne
      have hxy : x ≠ y := fun hxy => hne (congrArg some hxy.symm)
      exact h0 (ht ▸ hs x y hxy hu hyu (ht.trans hyt.symm))
  rw [Roster.place, if_neg h0, hfind]

/-- A role conflicts with a listener's members: its own role among them, MONO on either side, or two members (R29). -/
theorem Roster.conflicts_eq_true {r : Roster} {x : ListenerIx} {role : Role} (h2 : r.listeners[x].members.length ≤ 2) :
    r.conflicts x role = true ↔
      (∃ b ∈ r.listeners[x].members, r.buds[b].role = role ∨ r.buds[b].role = .mono ∨ role = .mono) ∨
        r.listeners[x].members.length = 2 := by
  have hlen : 2 ≤ r.listeners[x].members.length ↔ r.listeners[x].members.length = 2 := ⟨fun h => le_antisymm h2 h, fun h => h.ge⟩
  have hmem : (!r.listeners[x].members.isEmpty) = true ↔ ∃ b, b ∈ r.listeners[x].members := by
    rw [Bool.not_eq_true', List.isEmpty_eq_false_iff_exists_mem]
  simp only [Roster.conflicts, Bool.or_eq_true, Bool.and_eq_true, decide_eq_true_eq, hlen, hmem, List.any_eq_true, beq_iff_eq]
  constructor
  · rintro ((⟨b, hb, h⟩ | ⟨hm, b, hb⟩) | h)
    · exact .inl ⟨b, hb, h.imp_right .inl⟩
    · exact .inl ⟨b, hb, .inr (.inr hm)⟩
    · exact .inr h
  · rintro (⟨b, hb, h | h | h⟩ | h)
    · exact .inl (.inl ⟨b, hb, .inl h⟩)
    · exact .inl (.inl ⟨b, hb, .inr h⟩)
    · exact .inl (.inr ⟨h, b, hb⟩)
    · exact .inr h

/-- What a placement says of its listener: one in use that carries the tag and does not conflict, or one not in use (R29). -/
theorem Roster.place_eq_existing {r : Roster} {tag : Word} {role : Role} {x : ListenerIx} (h : r.place tag role = .existing x) :
    tag ≠ 0 ∧ r.listeners[x].inUse = true ∧ r.listeners[x].setTag = tag ∧ r.conflicts x role = false := by
  have hnew : r.placeNew ≠ .existing x := by unfold Roster.placeNew; split <;> exact nofun
  unfold Roster.place at h
  split at h
  case isTrue => exact absurd h hnew
  case isFalse h0 =>
    split at h
    · rename_i y hy
      split at h
      · cases h
      · obtain rfl := Placement.existing.inj h
        have hf := List.find?_some hy
        simp only [Bool.and_eq_true, beq_iff_eq] at hf
        exact ⟨h0, hf.1, hf.2, Bool.eq_false_of_not_eq_true ‹_›⟩
    · exact absurd h hnew

theorem Roster.place_eq_opened {r : Roster} {tag : Word} {role : Role} {x : ListenerIx} (h : r.place tag role = .opened x) :
    r.listeners[x].inUse = false ∧ (tag = 0 ∨ ∀ y : ListenerIx, r.listeners[y].inUse = true → r.listeners[y].setTag ≠ tag) := by
  have hnew : r.placeNew = .opened x → r.listeners[x].inUse = false := fun h => ((r.placeNew_iff.1 x).1 h).1
  unfold Roster.place at h
  split at h
  · exact ⟨hnew h, .inl ‹_›⟩
  · split at h
    · split at h <;> cases h
    · rename_i hnone
      refine ⟨hnew h, .inr fun y hu ht => ?_⟩
      have hno := List.find?_eq_none.1 hnone y (mem_listeners y)
      exact absurd (by rw [hu, ht]; simp) hno

/-- A listener that can take a bud has at most one member (R14, R29). -/
theorem Roster.place_roomy {r : Roster} {tag : Word} {role : Role} (hu : r.UseSound)
    (h : ∀ reason, r.place tag role ≠ .refused reason) : ∃ x : ListenerIx, r.listeners[x].members.length ≤ 1 := by
  cases e : r.place tag role with
  | refused reason => exact absurd e (h reason)
  | existing x =>
    have hc := (Roster.place_eq_existing e).2.2.2
    simp only [Roster.conflicts, Bool.or_eq_false_iff, decide_eq_false_iff_not] at hc
    exact ⟨x, by omega⟩
  | opened x =>
    refine ⟨x, ?_⟩
    have hempty : r.listeners[x].members = [] := by
      by_contra hne
      exact Bool.noConfusion ((Roster.place_eq_opened e).1.symm.trans ((hu.1 x).2 hne))
    rw [hempty]
    exact Nat.zero_le 1

/-- Eight buds do not fit into listeners of which one has room: some bud is FREE (R3, R14). -/
theorem Roster.exists_free {r : Roster} (hm : r.MembershipLaw) (hc : r.MembersCompatible) {x : ListenerIx}
    (hx : r.listeners[x].members.length ≤ 1) : ∃ b : BudIx, r.buds[b].link = .free := by
  by_contra hall
  have hsome : ∀ b : BudIx, ∃ y : ListenerIx, r.buds[b].listener = some y := fun b =>
    Option.ne_none_iff_exists'.1 fun hn => hall ⟨b, (hm.2 b).2 hn⟩
  choose f hf using hsome
  have hfiber : ∀ y, (Finset.univ.filter fun b => f b = y).card ≤ r.listeners[y].members.length := fun y => by
    refine (Finset.card_le_card (t := r.listeners[y].members.toFinset) fun b hb => ?_).trans (List.toFinset_card_le _)
    rw [List.mem_toFinset, hm.1 b y, hf b]
    exact congrArg some (Finset.mem_filter.1 hb).2
  have hcount := Finset.card_eq_sum_card_fiberwise (f := f) (s := Finset.univ) (t := Finset.univ) fun b _ => Finset.mem_univ _
  have hle : ∀ y, (Finset.univ.filter fun b => f b = y).card ≤ if y = x then 1 else 2 := fun y => by
    split_ifs with hyx
    · subst hyx
      exact (hfiber y).trans hx
    · exact (hfiber y).trans (hc.1 y).2
  have hsum : ∀ x : ListenerIx, ∑ y : ListenerIx, (if y = x then 1 else 2) = 7 := by decide
  have htotal := (hcount.le.trans (Finset.sum_le_sum fun y _ => hle y)).trans (hsum x).le
  simp at htotal

/-- The record that R3 allocates: the lowest-numbered FREE one. -/
theorem Roster.freeBud_eq_some {r : Roster} {b : BudIx} :
    r.freeBud = some b ↔ r.buds[b].link = .free ∧ ∀ c : BudIx, c < b → r.buds[c].link ≠ .free := by
  have h := find?_eq_some_iff_lowest (l := Config.buds) (p := fun b : BudIx => r.buds[b].link == .free) (i := b)
    (by decide) (by decide)
  rw [Roster.freeBud, h]
  simp

/-- A placement that succeeds finds a FREE record (R29). -/
theorem Roster.freeBud_of_placed {r : Roster} {tag : Word} {role : Role} (hm : r.MembershipLaw) (hc : r.MembersCompatible)
    (hu : r.UseSound) (h : ∀ reason, r.place tag role ≠ .refused reason) : ∃ b : BudIx, r.freeBud = some b := by
  obtain ⟨x, hx⟩ := Roster.place_roomy hu h
  obtain ⟨b, hb⟩ := Roster.exists_free hm hc hx
  cases e : r.freeBud with
  | some c => exact ⟨c, rfl⟩
  | none => exact absurd (by rw [hb]; rfl) (List.find?_eq_none.1 e b (mem_buds b))

/-- Settles O45: the searches of R25 to R29, and the count of the buds. -/
theorem admissionAndPlacement : Obligations.AdmissionAndPlacement := by
  unfold Obligations.AdmissionAndPlacement
  refine ⟨fun p a => ⟨fun i => ?_, ?_⟩, fun r tag role => ⟨fun h0 => ?_, fun _ hno => ?_, fun h0 x hu ht hs h2 => ?_,
    fun hm hc hu hplaced => ?_⟩⟩
  · rw [Pairing.admission_eq_bonded, Pairing.bondOf_eq_some, and_assoc]
  · rw [Pairing.admission_eq_window, Pairing.bondOf_eq_none]
    simp only [Window.matches_eq_true]
  · rw [Roster.place_of_fresh role (.inl h0)]
    exact r.placeNew_iff
  · rw [Roster.place_of_fresh role (.inr hno)]
    exact r.placeNew_iff
  · rw [← Roster.conflicts_eq_true h2, Roster.place_of_tag role h0 hu ht hs]
    exact ⟨fun h => if_pos h, fun h => if_neg h⟩
  · obtain ⟨b, hb⟩ := Roster.freeBud_of_placed hm hc hu hplaced
    exact ⟨b, hb, Roster.freeBud_eq_some.1 hb⟩

/-! ## What an arrival makes of the record (R5, R9, R10) -/

/-- Step 3 of an arrival and the rejoining of a PARKED bud (R5, R10). -/
theorem Bud.credit_eq (r : Bud) :
    r.credit =
      { r with
        link := if r.link = .parked then .joining else r.link
        talk := if r.link = .parked then .silent else r.talk
        goodRun := if r.arrival then r.goodRun else min (r.goodRun + 1) 255
        missRun := 0
        arrival := true } := by
  obtain ⟨link, _, _, _, _, _, _, _, arrival⟩ := r
  cases link <;> cases arrival <;> rfl

/-- Step 4 of an arrival (R5). -/
theorem Bud.qualify_eq (r : Bud) (n : Nat) :
    r.qualify n =
      { r with
        link :=
          if r.link = .joining then (if n ≤ r.goodRun then .live else .joining)
          else if r.link = .fading then .live else r.link } := by
  obtain ⟨link⟩ := r
  unfold Bud.qualify
  cases link with
  | joining => simp only; split <;> simp [*]
  | free | offered | live | fading | parked => simp

/-- The talk state after an arrival (R9). -/
theorem Bud.hear_eq (r : Bud) (body : Body) (n : Nat) :
    r.hear body n =
      { r with
        silenceRun := match body with | .audio _ => 0 | .silence => min (r.silenceRun + 1) 255
        talk := match body with
          | .audio _ => .talking
          | .silence => if n ≤ min (r.silenceRun + 1) 255 then .silent else r.talk } := by
  unfold Bud.hear
  cases body with
  | audio b => rfl
  | silence =>
    simp only [satInc, Config.runMax]
    by_cases hn : n ≤ min (r.silenceRun + 1) 255
    · cases ht : r.talk <;> simp only [hn, and_true, if_true, reduceCtorEq, if_false]
    · simp only [hn, and_false, if_false]

/-- An arrival reaches one record of the Roster, the lanes, the queues and the reports (R45). -/
theorem State.arrival_keeps {h : Handle} {b : BudIx} (e : Entry) (hb : s.roster.budByHandle h = some b)
    (hl : s.roster.buds[b].link ≠ .offered) :
    let t := s.arrival h e
    t.roster = { s.roster with
      buds := s.roster.buds.set b (s.roster.buds[b].arrive e.body s.directives.settings) } ∧ t.pairing = s.pairing ∧
      t.mix = s.mix ∧ t.callCtl = s.callCtl ∧ t.airPort = s.airPort ∧ t.store = s.store ∧
      t.directives.SameTables s.directives ∧ t.voicePort.SameLine s.voicePort ∧ t.pending = s.pending := by
  have hframe := s.intakeArrival_frame b e
  have only : ((s.intakeArrival b e).setBud b (s.roster.buds[b].arrive e.body s.directives.settings)).OnlyLanesAndReports
      (s.arrival h e) := by
    rw [State.arrival_of_known e hb hl, State.rosterArrival, State.intakeArrival_roster, State.intakeArrival_directives]
    split
    · exact .refl _
    · exact State.noticeFor_only _ _
  obtain ⟨h1, h2, h3, h4, h5, h6, h7, h8, h9, -⟩ := only
  rw [hframe] at h1 h2 h3 h4 h5 h6 h7 h8 h9
  exact ⟨h1, h2, h3, h4, h5, h6, h8, h9, h7⟩

/-- Settles O37: the record's fields by the steps of an arrival, and the frame by what an arrival reaches. -/
theorem arrivalUpdatesTheRecord : Obligations.ArrivalUpdatesTheRecord := by
  unfold Obligations.ArrivalUpdatesTheRecord
  intro s h q samples b i mark ht hb hl hi
  obtain ⟨body, hexec, hbody⟩ : ∃ body : Body, exec i s = .next (s.arrival h ⟨q, body⟩) ∧
      (body = .audio samples ∧ mark = false ∨ body = .silence ∧ mark = true) := by
    obtain ⟨rfl, hm⟩ | ⟨rfl, hm⟩ := hi
    · exact ⟨_, exec_audio h q samples ht, .inl ⟨rfl, hm⟩⟩
    · exact ⟨_, exec_silence h q ht, .inr ⟨rfl, hm⟩⟩
  obtain ⟨hr, hp, hmix, hcall, hair, hstore, htables, hline, hpending⟩ := State.arrival_keeps (h := h) ⟨q, body⟩ hb hl
  refine ⟨_, hexec, ?_, fun c hc => ?_, ?_, ?_, hp, hmix, hcall, hair, hstore, htables, hline, hpending⟩
  · rw [hr]
    simp only [getElem_set_fin, if_pos, Bud.arrive, Bud.hear_eq, Bud.qualify_eq, Bud.credit_eq]
    have hlink : ∀ link joined : LinkState,
        (if (if link = .parked then LinkState.joining else link) = .joining then joined
          else if (if link = .parked then LinkState.joining else link) = .fading then .live
          else if link = .parked then .joining else link) =
        if link = .joining ∨ link = .parked then joined else if link = .fading then .live else link := fun link joined => by
      cases link <;> rfl
    simp only [hlink, true_and, and_true]
    obtain ⟨rfl, rfl⟩ | ⟨rfl, rfl⟩ := hbody
    · exact ⟨rfl, rfl⟩
    · refine ⟨rfl, ?_⟩
      by_cases hp : s.roster.buds[b].link = .parked <;>
        simp only [hp, if_true, if_false, true_or, false_or, ite_self, reduceCtorEq]
  · rw [hr]
    simp only
    rw [getElem_set_fin, if_neg hc.symm]
  · rw [hr]
  · rw [hr]

end Sys2Proof.Machine
end

