-- ==== Sys2Proof/Proofs/WaitList.lean ====
section
/-! PROOFS. The wait list (R68, R69): its order, placement, removal, renaming and sorting. -/

namespace Sys2Proof.Machine

variable {s : State} {p : ListenerIx → Nat} {w : List WaitEntry}

/-! ## The order of entries (R68) -/

theorem waitBefore_iff {a b : WaitEntry} :
    waitBefore p a b = true ↔ p b.listener < p a.listener ∨ p a.listener = p b.listener ∧ a.order < b.order := by
  simp [waitBefore]

theorem waitBefore_trans {a b c : WaitEntry} (h : waitBefore p a b = true) (k : waitBefore p b c = true) :
    waitBefore p a c = true := by
  rw [waitBefore_iff] at *
  omega

/-- Of two entries with different request orders one stands before the other (R68). -/
theorem waitBefore_of_not {a b : WaitEntry} (h : ¬ waitBefore p a b = true) (ho : a.order ≠ b.order) :
    waitBefore p b a = true := by
  rw [waitBefore_iff] at *
  omega

/-- What R68 keeps of a wait list: one entry for a listener, the request orders 1 to n, and the order of the entries. -/
structure WaitOrderly (p : ListenerIx → Nat) (w : List WaitEntry) : Prop where
  listeners : (w.map (·.listener)).Nodup
  orders : (w.map (·.order)).Nodup
  range : ∀ e ∈ w, 1 ≤ e.order ∧ e.order ≤ w.length
  sorted : w.Pairwise fun a b => waitBefore p a b = true

theorem WaitOrderly.nil : WaitOrderly p [] := ⟨List.nodup_nil, List.nodup_nil, nofun, List.Pairwise.nil⟩

theorem waits_eq_true {x : ListenerIx} : waits x w = true ↔ ∃ e ∈ w, e.listener = x := by simp [waits]

theorem waits_eq_false {x : ListenerIx} : waits x w = false ↔ ∀ e ∈ w, e.listener ≠ x := by simp [waits]

/-! ## Placement (R68) -/

theorem insertWait_perm (p : ListenerIx → Nat) (e : WaitEntry) (w : List WaitEntry) : (insertWait p e w).Perm (e :: w) := by
  induction w with
  | nil => exact List.Perm.refl _
  | cons a w ih =>
    unfold insertWait
    split
    · exact List.Perm.refl _
    · exact (ih.cons a).trans (List.Perm.swap e a w)

/-- An entry is put before the first one that it precedes. -/
theorem insertWait_split (p : ListenerIx → Nat) (e : WaitEntry) (w : List WaitEntry) :
    ∃ before after, w = before ++ after ∧ insertWait p e w = before ++ e :: after ∧
      (∀ a ∈ before, ¬ waitBefore p e a = true) ∧ ∀ a ∈ after.head?, waitBefore p e a = true := by
  induction w with
  | nil => exact ⟨[], [], rfl, rfl, nofun, nofun⟩
  | cons a w ih =>
    unfold insertWait
    split
    case isTrue h => exact ⟨[], a :: w, rfl, rfl, nofun, fun b hb => Option.some.inj hb ▸ h⟩
    case isFalse h =>
      obtain ⟨before, after, hw, hi, hb, ha⟩ := ih
      refine ⟨a :: before, after, by rw [hw]; rfl, by rw [hi]; rfl, fun b hm => ?_, ha⟩
      rcases List.mem_cons.1 hm with rfl | hm
      · exact h
      · exact hb b hm

/-- In a list in order, the entry precedes all that it is put before. -/
theorem insertWait_split_sorted (e : WaitEntry) (hw : w.Pairwise fun a b => waitBefore p a b = true) :
    ∃ before after, w = before ++ after ∧ insertWait p e w = before ++ e :: after ∧
      (∀ a ∈ before, ¬ waitBefore p e a = true) ∧ ∀ a ∈ after, waitBefore p e a = true := by
  obtain ⟨before, after, rfl, hi, hb, ha⟩ := insertWait_split p e w
  refine ⟨before, after, rfl, hi, hb, ?_⟩
  cases after with
  | nil => exact nofun
  | cons c after =>
    intro a hm
    have hc := ha c rfl
    rcases List.mem_cons.1 hm with rfl | hm
    · exact hc
    · exact waitBefore_trans hc ((List.pairwise_cons.1 (List.pairwise_append.1 hw).2.1).1 a hm)

/-- A list in order stays in order by the placement of an entry with a new request order (R68). -/
theorem insertWait_sorted {e : WaitEntry} (hw : w.Pairwise fun a b => waitBefore p a b = true)
    (ho : ∀ a ∈ w, a.order ≠ e.order) : (insertWait p e w).Pairwise fun a b => waitBefore p a b = true := by
  obtain ⟨before, after, rfl, hi, hb, ha⟩ := insertWait_split_sorted e hw
  obtain ⟨hbefore, hafter, hcross⟩ := List.pairwise_append.1 hw
  rw [hi]
  refine List.pairwise_append.2 ⟨hbefore, List.pairwise_cons.2 ⟨ha, hafter⟩, fun a hm c hc => ?_⟩
  rcases List.mem_cons.1 hc with rfl | hc
  · exact waitBefore_of_not (hb a hm) (ho a (by simp [hm])).symm
  · exact hcross a hm c hc

/-- Distinct request orders from 1 to n: the greatest is n. -/
theorem greatestOrder_eq_length (ho : (w.map (·.order)).Nodup) (hr : ∀ e ∈ w, 1 ≤ e.order ∧ e.order ≤ w.length) :
    greatestOrder w = w.length := by
  have hfold : ∀ (l : List WaitEntry) (m : Nat),
      m ≤ l.foldl (fun n e => max n e.order) m ∧ (∀ e ∈ l, e.order ≤ l.foldl (fun n e => max n e.order) m) ∧
        ∀ c, m ≤ c → (∀ e ∈ l, e.order ≤ c) → l.foldl (fun n e => max n e.order) m ≤ c := by
    intro l
    induction l with
    | nil => exact fun m => ⟨le_rfl, nofun, fun c hc _ => hc⟩
    | cons a l ih =>
      intro m
      obtain ⟨h1, h2, h3⟩ := ih (max m a.order)
      refine ⟨(le_max_left _ _).trans h1, fun e he => ?_, fun c hm hc => ?_⟩
      · rcases List.mem_cons.1 he with rfl | he
        · exact (le_max_right _ _).trans h1
        · exact h2 e he
      · exact h3 c (max_le hm (hc a (by simp))) fun e he => hc e (by simp [he])
  obtain ⟨-, hge, hle⟩ := hfold w 0
  refine le_antisymm (hle _ (Nat.zero_le _) fun e he => (hr e he).2) ?_
  have hsub : (w.map (·.order)).toFinset ⊆ Finset.Icc 1 (greatestOrder w) := fun n hn => by
    obtain ⟨e, he, rfl⟩ := List.mem_map.1 (List.mem_toFinset.1 hn)
    exact Finset.mem_Icc.2 ⟨(hr e he).1, hge e he⟩
  have hcard := Finset.card_le_card hsub
  rw [List.toFinset_card_of_nodup ho] at hcard
  simpa using hcard

/-- A listener that waits already is not placed again (R68). -/
theorem State.placeWaiting_of_waits {x : ListenerIx} (b : BudIx) (h : waits x s.laneUnit.waitList = true) :
    s.placeWaiting x b = s := if_pos h

/-- A listener without an entry is placed with the next request order (R68). -/
theorem State.placeWaiting_of_new {x : ListenerIx} (b : BudIx) (h : waits x s.laneUnit.waitList = false)
    (hw : WaitOrderly s.priorityOf s.laneUnit.waitList) :
    s.placeWaiting x b = s.setWait (insertWait s.priorityOf
      { listener := x, bud := b, order := s.laneUnit.waitList.length + 1, denied := false } s.laneUnit.waitList) := by
  rw [State.placeWaiting, if_neg (by rw [h]; exact Bool.false_ne_true), greatestOrder_eq_length hw.orders hw.range]

/-- A placement keeps the list orderly (R68). -/
theorem WaitOrderly.insert (h : WaitOrderly p w) {e : WaitEntry} (hx : ∀ a ∈ w, a.listener ≠ e.listener)
    (ho : e.order = w.length + 1) : WaitOrderly p (insertWait p e w) := by
  have hperm := insertWait_perm p e w
  have hnew : ∀ a ∈ w, a.order ≠ e.order := fun a ha => by have := h.range a ha; omega
  refine ⟨(hperm.map _).nodup_iff.2 ?_, (hperm.map _).nodup_iff.2 ?_, fun a ha => ?_, insertWait_sorted h.sorted hnew⟩
  · exact List.nodup_cons.2 ⟨fun hm => by obtain ⟨a, ha, he⟩ := List.mem_map.1 hm; exact hx a ha he, h.listeners⟩
  · exact List.nodup_cons.2 ⟨fun hm => by obtain ⟨a, ha, he⟩ := List.mem_map.1 hm; exact hnew a ha he, h.orders⟩
  · rw [hperm.length_eq, List.length_cons]
    rcases List.mem_cons.1 (hperm.mem_iff.1 ha) with rfl | ha
    · omega
    · have := h.range a ha
      omega

theorem State.placeWaiting_orderly (x : ListenerIx) (b : BudIx) (h : WaitOrderly s.priorityOf s.laneUnit.waitList) :
    WaitOrderly s.priorityOf (s.placeWaiting x b).laneUnit.waitList := by
  cases hx : waits x s.laneUnit.waitList with
  | true => rwa [State.placeWaiting_of_waits b hx]
  | false =>
    rw [State.placeWaiting_of_new b hx h]
    exact h.insert (waits_eq_false.1 hx) rfl

/-! ## Removal (R61, R64, R68) -/

/-- The entry of a removal with the orders above it lowered (R68). -/
def lowered (n : Nat) (e : WaitEntry) : WaitEntry := if n < e.order then { e with order := e.order - 1 } else e

@[simp] theorem lowered_listener (n : Nat) (e : WaitEntry) : (lowered n e).listener = e.listener := by
  unfold lowered; split <;> rfl
@[simp] theorem lowered_bud (n : Nat) (e : WaitEntry) : (lowered n e).bud = e.bud := by unfold lowered; split <;> rfl
@[simp] theorem lowered_denied (n : Nat) (e : WaitEntry) : (lowered n e).denied = e.denied := by
  unfold lowered; split <;> rfl

theorem lowered_order (n : Nat) (e : WaitEntry) : (lowered n e).order = if n < e.order then e.order - 1 else e.order := by
  unfold lowered; split <;> rfl

/-- Lowering keeps the order of the other entries (R68). -/
theorem waitBefore_lowered {n : Nat} {a b : WaitEntry} (ha : a.order ≠ n) (hb : b.order ≠ n) :
    waitBefore p (lowered n a) (lowered n b) = true ↔ waitBefore p a b = true := by
  simp only [waitBefore_iff, lowered_listener, lowered_order]
  split_ifs <;> omega

/-- A listener that does not wait is not removed. -/
theorem removeWait_of_absent {x : ListenerIx} (h : ∀ e ∈ w, e.listener ≠ x) : removeWait x w = w := by
  have hnone : w.find? (·.listener == x) = none := List.find?_eq_none.2 fun e he => by simpa using h e he
  simp only [removeWait, hnone]

/-- The entry of a listener goes, and the others stay in their places (R68). -/
theorem removeWait_of_entry {x : ListenerIx} {before after : List WaitEntry} {gone : WaitEntry}
    (hx : gone.listener = x) (hn : ((before ++ gone :: after).map (·.listener)).Nodup) :
    removeWait x (before ++ gone :: after) = (before ++ after).map (lowered gone.order) := by
  rw [List.map_append, List.map_cons, List.nodup_append] at hn
  obtain ⟨-, hafter, hcross⟩ := hn
  have hb : ∀ e ∈ before, e.listener ≠ x := fun e he h =>
    hcross _ (List.mem_map_of_mem he) _ List.mem_cons_self (h.trans hx.symm)
  have ha : ∀ e ∈ after, e.listener ≠ x := fun e he h =>
    (List.nodup_cons.1 hafter).1 (List.mem_map.2 ⟨e, he, h.trans hx.symm⟩)
  have hfind : (before ++ gone :: after).find? (·.listener == x) = some gone :=
    List.find?_eq_some_iff_append.2 ⟨by simpa using hx, before, after, rfl, fun e he => by simpa using hb e he⟩
  have hfilter : (before ++ gone :: after).filter (·.listener != x) = before ++ after := by
    rw [List.filter_append, List.filter_cons_of_neg (by simpa using hx),
      List.filter_eq_self.2 fun e he => by simpa using hb e he, List.filter_eq_self.2 fun e he => by simpa using ha e he]
  simp only [removeWait, hfind, hfilter]
  rfl

/-- What is left of the entries of a removal: those of the other listeners, but for their request orders (R68). -/
theorem mem_removeWait {x : ListenerIx} {e : WaitEntry} (h : e ∈ removeWait x w) :
    e.listener ≠ x ∧ ∃ a ∈ w, a.listener = e.listener ∧ a.bud = e.bud ∧ a.denied = e.denied := by
  unfold removeWait at h
  split at h
  case h_1 hnone => exact ⟨by simpa using List.find?_eq_none.1 hnone e h, e, h, rfl, rfl, rfl⟩
  case h_2 gone _ =>
    obtain ⟨a, ha, rfl⟩ := List.mem_map.1 h
    obtain ⟨ha, hne⟩ := List.mem_filter.1 ha
    have hlow : (if gone.order < a.order then { a with order := a.order - 1 } else a) = lowered gone.order a := rfl
    rw [hlow]
    simp only [lowered_listener, lowered_bud, lowered_denied]
    exact ⟨by simpa using hne, a, ha, rfl, rfl, rfl⟩

/-- A removal takes no other listener's entry (R68). -/
theorem waits_removeWait {x y : ListenerIx} (hy : y ≠ x) : waits y (removeWait x w) = waits y w := by
  have hiff : waits y (removeWait x w) = true ↔ waits y w = true := by
    rw [waits_eq_true, waits_eq_true]
    refine ⟨fun ⟨e, he, h⟩ => ?_, fun ⟨e, he, h⟩ => ?_⟩
    · obtain ⟨-, a, ha, hl, -⟩ := mem_removeWait he
      exact ⟨a, ha, hl.trans h⟩
    · unfold removeWait
      split
      · exact ⟨e, he, h⟩
      · rename_i gone _
        refine ⟨lowered gone.order e, List.mem_map.2 ⟨e, List.mem_filter.2 ⟨he, ?_⟩, rfl⟩, (lowered_listener _ _).trans h⟩
        simpa [h] using hy
  exact Bool.eq_iff_iff.2 hiff

/-- A removal keeps the list orderly (R68). -/
theorem WaitOrderly.remove (h : WaitOrderly p w) (x : ListenerIx) : WaitOrderly p (removeWait x w) := by
  by_cases hx : ∀ e ∈ w, e.listener ≠ x
  · rwa [removeWait_of_absent hx]
  push Not at hx
  obtain ⟨gone, hg, hx⟩ := hx
  obtain ⟨before, after, rfl⟩ := List.append_of_mem hg
  rw [removeWait_of_entry hx h.listeners]
  have hsub : (before ++ after).Sublist (before ++ gone :: after) :=
    (List.Sublist.refl before).append (List.sublist_cons_self gone after)
  have horder : ∀ e ∈ before ++ after, e.order ≠ gone.order := fun e he heq => by
    have hn := h.orders
    rw [List.map_append, List.map_cons, List.nodup_append] at hn
    obtain ⟨-, hafter, hcross⟩ := hn
    rcases List.mem_append.1 he with he | he
    · exact hcross _ (List.mem_map_of_mem he) _ List.mem_cons_self heq
    · exact (List.nodup_cons.1 hafter).1 (List.mem_map.2 ⟨e, he, heq⟩)
  have hgone := h.range gone hg
  refine ⟨?_, ?_, fun e he => ?_, ?_⟩
  · rw [List.map_map, show (fun e : WaitEntry => e.listener) ∘ lowered gone.order = (·.listener) from
      funext (lowered_listener _)]
    exact h.listeners.sublist (hsub.map _)
  · rw [List.map_map, List.Nodup, List.pairwise_map]
    refine (List.pairwise_map.1 (h.orders.sublist (hsub.map _))).imp_of_mem fun {a b} ha hb hne => ?_
    have := horder a ha
    have := horder b hb
    simp only [Function.comp_apply, lowered_order]
    split_ifs <;> omega
  · obtain ⟨a, ha, rfl⟩ := List.mem_map.1 he
    have hlen : ((before ++ after).map (lowered gone.order)).length + 1 = (before ++ gone :: after).length := by
      simp only [List.length_map, List.length_append, List.length_cons]
      omega
    have := h.range a (hsub.subset ha)
    have := horder a ha
    rw [lowered_order]
    split_ifs <;> omega
  · rw [List.pairwise_map]
    exact (h.sorted.sublist hsub).imp_of_mem fun ha hb hab =>
      (waitBefore_lowered (horder _ ha) (horder _ hb)).2 hab

/-! ## Marks, names and sorting (R61, R67, R69) -/

/-- A change that leaves the listeners and the request orders keeps the list orderly. -/
theorem WaitOrderly.map (h : WaitOrderly p w) (f : WaitEntry → WaitEntry) (hl : ∀ e, (f e).listener = e.listener)
    (ho : ∀ e, (f e).order = e.order) : WaitOrderly p (w.map f) := by
  refine ⟨?_, ?_, fun e he => ?_, ?_⟩
  · rw [List.map_map, show (fun e : WaitEntry => e.listener) ∘ f = (·.listener) from funext hl]
    exact h.listeners
  · rw [List.map_map, show (fun e : WaitEntry => e.order) ∘ f = (·.order) from funext ho]
    exact h.orders
  · obtain ⟨a, ha, rfl⟩ := List.mem_map.1 he
    rw [ho, List.length_map]
    exact h.range a ha
  · rw [List.pairwise_map]
    exact h.sorted.imp fun hab => by simpa only [waitBefore_iff, hl, ho] using hab

theorem sortWait_perm (p : ListenerIx → Nat) (w : List WaitEntry) : (sortWait p w).Perm w := by
  induction w with
  | nil => exact List.Perm.refl _
  | cons e w ih => exact (insertWait_perm p e _).trans (ih.cons e)

/-- Sorting puts entries with distinct request orders in order (R69). -/
theorem sortWait_sorted (ho : (w.map (·.order)).Nodup) : (sortWait p w).Pairwise fun a b => waitBefore p a b = true := by
  induction w with
  | nil => exact List.Pairwise.nil
  | cons e w ih =>
    obtain ⟨hnew, ho⟩ := List.nodup_cons.1 ho
    refine insertWait_sorted (ih ho) fun a ha heq => hnew ?_
    exact List.mem_map.2 ⟨a, (sortWait_perm p w).mem_iff.1 ha, heq⟩

/-- After a change of priorities, sorting makes the list orderly again (R69). -/
theorem WaitOrderly.sort {q : ListenerIx → Nat} (h : WaitOrderly p w) : WaitOrderly q (sortWait q w) := by
  have hperm := sortWait_perm q w
  refine ⟨(hperm.map _).nodup_iff.2 h.listeners, (hperm.map _).nodup_iff.2 h.orders, fun e he => ?_, sortWait_sorted h.orders⟩
  rw [hperm.length_eq]
  exact h.range e (hperm.mem_iff.1 he)

/-! ## The statement -/

/-- Settles O56: where an entry is put, what a removal leaves, and what renaming leaves. -/
theorem waitListKeepsItsOrder : Obligations.WaitListKeepsItsOrder := by
  unfold Obligations.WaitListKeepsItsOrder
  intro s x b
  dsimp only
  intro hl ho hr hs
  have h : WaitOrderly s.priorityOf s.laneUnit.waitList := ⟨hl, ho, hr, hs⟩
  have hname : ∀ e : WaitEntry, (if e.listener = x then { e with bud := b } else e).listener = e.listener ∧
      (if e.listener = x then { e with bud := b } else e).order = e.order ∧
      (if e.listener = x then { e with bud := b } else e).denied = e.denied := fun e => by
    split <;> exact ⟨rfl, rfl, rfl⟩
  refine ⟨fun hx => State.placeWaiting_of_waits b (waits_eq_true.2 hx), fun hx => ?_, fun before gone after hw hg => ⟨?_, ?_⟩,
    ?_, fun e he hx => ?_⟩
  · obtain ⟨before, after, hw, hi, hb, ha⟩ := insertWait_split_sorted
      { listener := x, bud := b, order := s.laneUnit.waitList.length + 1, denied := false } hs
    refine ⟨before, after, hw, ?_, fun e he => ?_, fun e he => ?_⟩
    · rw [State.placeWaiting_of_new b (waits_eq_false.2 hx) h, hi]
    · have hnot := hb e he
      have hlt := (hr e (by rw [hw]; simp [he])).2
      rw [waitBefore_iff] at hnot
      simp only [State.priorityOf] at hnot
      exact Fin.le_def.2 (by omega)
    · have hbefore := ha e he
      have hlt := (hr e (by rw [hw]; simp [he])).2
      rw [waitBefore_iff] at hbefore
      simp only [State.priorityOf] at hbefore
      exact Fin.lt_def.2 (by omega)
  · rw [State.cancelWait, hw, removeWait_of_entry hg (hw ▸ hl)]
    rfl
  · exact (h.remove x).sorted
  · rw [State.renameWait, State.setWait_laneUnit, List.map_map]
    exact List.map_congr_left fun e _ => by simp only [Function.comp_apply, (hname e).1, (hname e).2.1, (hname e).2.2]
  · obtain ⟨a, -, rfl⟩ := List.mem_map.1 he
    split at hx
    · rw [if_pos ‹_›]
    · exact absurd hx ‹_›

end Sys2Proof.Machine
end

