-- ==== Sys2Proof/Proofs/TableSpace.lean ====
section
/-! PROOFS. What the words of the regions are (R149), and WRITE, from its checks to its owners' acts (R69, R152, R155, R157). -/

namespace Sys2Proof.Machine

variable {s : State}

/-! ## Numbers in words (R149) -/

theorem wordNat_toNat {n : Nat} (h : n < 65536) : (wordNat n).toNat = n := by
  simpa [wordNat] using h

theorem wordPair_toNat {low high : Nat} (hl : low < 256) (hh : high < 256) : (wordPair low high).toNat = low + 256 * high := by
  have hsum : low + 256 * high < 65536 := by omega
  simpa [wordPair] using hsum

theorem pick_eq {α : Type} {n : Nat} [NeZero n] (v : Vector α n) {k : Nat} (h : k < n) : pick v k = v[k] := by
  simp only [pick, Fin.ofNat, Fin.getElem_fin, Nat.mod_eq_of_lt h]

/-- An address is its high part and its low part (R149). -/
theorem address_parts (a : Address) : 65536 * (wordNat (addressHigh a).toNat).toNat + (addressLow a).toNat = a.toNat := by
  have hhigh : (addressHigh a).toNat < 65536 := (addressHigh a).isLt.trans (by omega)
  have ha := a.isLt
  rw [wordNat_toNat hhigh]
  simp only [addressHigh, addressLow, BitVec.extractLsb'_toNat, Nat.shiftRight_eq_div_pow]
  omega

theorem word_lane_step {n : Nat} (h1 : 65472 ≤ n) (h2 : n ≤ 65600) : (BitVec.ofInt 16 ((n : Int) - 65536)).toInt = (n : Int) - 65536 := by
  rw [BitVec.toInt_ofInt]
  exact Int.bmod_eq_of_le (by omega) (by omega)

/-! ## The records behind a region's words (R148, R149) -/

theorem State.readWord_bud (s : State) (b : BudIx) {j : Nat} (h : j < 8) :
    s.readWord 1 (8 * b.val + j) = s.roster.buds[b].word j := by
  have hd : (8 * b.val + j) / 8 = b.val := by omega
  have hm : (8 * b.val + j) % 8 = j := by omega
  simp only [State.readWord, hd, hm, pick_eq _ b.isLt]
  rfl

theorem State.readWord_listener (s : State) (x : ListenerIx) {j : Nat} (h : j < 8) :
    s.readWord 2 (8 * x.val + j) = s.roster.listeners[x].word j := by
  have hd : (8 * x.val + j) / 8 = x.val := by omega
  have hm : (8 * x.val + j) % 8 = j := by omega
  simp only [State.readWord, hd, hm, pick_eq _ x.isLt]
  rfl

theorem State.readWord_window (s : State) (i : Fin 4) {j : Nat} (h : j < 4) :
    s.readWord 7 (4 * i.val + j) = s.pairing.windows[i].word j := by
  have hd : (4 * i.val + j) / 4 = i.val := by omega
  have hm : (4 * i.val + j) % 4 = j := by omega
  have hlt : 4 * i.val + j < 16 := by omega
  simp only [State.readWord, hd, hm, pick_eq _ i.isLt, hlt, if_true]
  rfl

theorem State.readWord_bond (s : State) (i : Fin 8) {j : Nat} (h : j < 6) :
    s.readWord 8 (6 * i.val + j) = s.pairing.bonds[i].word j := by
  have hd : (6 * i.val + j) / 6 = i.val := by omega
  have hm : (6 * i.val + j) % 6 = j := by omega
  simp only [State.readWord, hd, hm, pick_eq _ i.isLt]
  rfl

theorem State.readWord_lane (s : State) (k : LaneIx) {j : Nat} (h : j < 8) :
    s.readWord 11 (8 * k.val + j) = s.laneUnit.lanes[k].word j := by
  have hd : (8 * k.val + j) / 8 = k.val := by omega
  have hm : (8 * k.val + j) % 8 = j := by omega
  simp only [State.readWord, hd, hm, pick_eq _ k.isLt]
  rfl

theorem State.readWord_bank (s : State) (i : Fin 25) :
    s.readWord 3 i.val = wordNat s.mix.staging[i].val ∧ s.readWord 4 i.val = wordNat s.mix.active[i].val := by
  simp only [State.readWord, pick_eq _ i.isLt]
  exact ⟨rfl, rfl⟩

theorem State.readWord_curve (s : State) (i : Fin 64) : s.readWord 5 i.val = wordNat s.mix.curve[i].val := by
  simp only [State.readWord, pick_eq _ i.isLt]
  rfl

theorem State.readWord_openMic (s : State) (i : Fin 4) : s.readWord 6 i.val = wordNat s.mix.openMic[i].val := by
  simp only [State.readWord, pick_eq _ i.isLt]
  rfl

theorem State.readWord_discards (s : State) (b : BudIx) {j : Nat} (h : j < 3) :
    s.readWord 10 (3 * b.val + j) =
      wordNat ([s.intake.discards[b].late, s.intake.discards[b].duplicate, s.intake.discards[b].overflow].getD j 0) := by
  have hd : (3 * b.val + j) / 3 = b.val := by omega
  have hm : (3 * b.val + j) % 3 = j := by omega
  have hlt : 3 * b.val + j < 24 := by omega
  simp only [State.readWord, State.counterWord, hd, hm, pick_eq _ b.isLt, hlt, if_true]
  rfl

/-- The counters of the ports, the mix, the call and the report queue, in their places (R149). -/
theorem State.readWord_counter (s : State) {i : Nat} (h : 24 ≤ i) :
    s.readWord 10 i =
      wordNat (([s.airPort.malformed, s.airPort.stray, s.airPort.drops, s.voicePort.malformed] ++ s.mix.clips.toList ++
        [s.callCtl.discardedVoice, s.directives.reportsLost]).getD (i - 24) 0) := by
  have hlt : ¬ i < 24 := by omega
  simp only [State.readWord, State.counterWord, hlt, if_false]
  rfl

theorem clips_toList (v : Vector Nat 5) : v.toList = [v[0], v[1], v[2], v[3], v[4]] :=
  List.ext_getElem (by simp) fun i h _ => by
    have hi : i < 5 := by simpa using h
    interval_cases i <;> simp

/-- The eleven counters that follow the discard counters in region 10 (R149). -/
def State.lateCounters (s : State) : List Nat :=
  [s.airPort.malformed, s.airPort.stray, s.airPort.drops, s.voicePort.malformed, s.mix.clips[0], s.mix.clips[1],
    s.mix.clips[2], s.mix.clips[3], s.mix.clips[4], s.callCtl.discardedVoice, s.directives.reportsLost]

theorem State.lateCounters_lt (hb : s.Bounded) : ∀ n ∈ s.lateCounters, n < 65536 := by
  obtain ⟨hm, hs, hd, -⟩ := hb.air
  have hclips := fun i => Nat.lt_succ_of_le (hb.clips i)
  simp only [State.lateCounters, List.forall_mem_cons, List.not_mem_nil, false_implies, implies_true, and_true]
  exact ⟨by omega, by omega, by omega, Nat.lt_succ_of_le hb.voice, hclips 0, hclips 1, hclips 2, hclips 3, hclips 4,
    Nat.lt_succ_of_le hb.call.2.2, Nat.lt_succ_of_le hb.lost⟩

/-- The counters of the ports, the mix, the call and the report queue, in their places (R149). -/
theorem State.counterWord_toNat (hb : s.Bounded) {i : Nat} (h : 24 ≤ i) :
    (s.readWord 10 i).toNat = s.lateCounters.getD (i - 24) 0 := by
  have hlt : ∀ j, s.lateCounters.getD j 0 < 65536 := fun j => by
    rw [List.getD_eq_getElem?_getD]
    cases hj : s.lateCounters[j]? with
    | none => exact Nat.zero_lt_succ _
    | some n => exact State.lateCounters_lt hb n (List.mem_of_getElem? hj)
  rw [s.readWord_counter h, clips_toList]
  exact wordNat_toNat (hlt _)

theorem State.readWord_mode (s : State) (i : Fin 14) : s.readWord 13 i.val = wordNat s.directives.modes[i].code := by
  simp only [State.readWord, pick_eq _ i.isLt, i.isLt, if_true]
  rfl

theorem State.readWord_staging (s : State) (i : Fin 8) :
    s.readWord 14 i.val = wordOf s.store.staging[2 * i.val] s.store.staging[2 * i.val + 1] := by
  simp only [State.readWord, pick_eq _ (show 2 * i.val < 16 by omega), pick_eq _ (show 2 * i.val + 1 < 16 by omega)]

/-! ## The fields in the words (R149) -/

theorem LinkState.code_le (l : LinkState) : l.code ≤ 5 := by cases l <;> decide

theorem Talk.code_le (t : Talk) : t.code ≤ 1 := by cases t <;> decide

theorem Role.code_le (r : Role) : r.code ≤ 2 := by cases r <;> decide

theorem Mode.code_le (m : Mode) : m.code ≤ 2 := by cases m <;> decide

theorem LaneState.code_le (l : LaneState) : l.code ≤ 3 := by cases l <;> decide

theorem wordNat_flag (b : Bool) : (wordNat (flagCode b)).toNat = flagCode b :=
  wordNat_toNat ((flagCode_le b).trans_lt (by omega))

theorem wordNat_number {n : Nat} (i : Option (Fin n)) (h : n < 65536) : (wordNat (numberOf i)).toNat = numberOf i :=
  wordNat_toNat ((numberOf_le i).trans_lt h)

theorem wordNat_fin {n : Nat} (i : Fin n) (h : n ≤ 65536) : (wordNat i.val).toNat = i.val := wordNat_toNat (by omega)

/-- The bytes of a word of the staging page, low byte first (R149). -/
theorem wordOf_toNat (lo hi : Byte) : (wordOf lo hi).toNat = lo.toNat + 256 * hi.toNat := by
  have hl : lo.toNat < 2 ^ 8 := lo.isLt
  rw [wordOf, BitVec.toNat_append, Nat.shiftLeft_eq, ← Nat.mul_comm, ← Nat.two_pow_add_eq_or_of_lt hl]
  omega

/-- The words of a bud's record (R149). -/
theorem Bud.words (b : Bud) (hb : b.Bounded) :
    (b.word 0).toNat = b.link.code + 256 * b.talk.code ∧
      (b.word 1).toNat = (match b.handle with | some h => h.val | none => 0) + 256 * numberOf b.listener ∧
      65536 * (b.word 2).toNat + (b.word 3).toNat = b.addr.toNat ∧ b.word 4 = b.setTag ∧
      (b.word 5).toNat = b.role.code + 256 * flagCode b.bonded ∧ (b.word 6).toNat = b.goodRun + 256 * b.missRun ∧
      (b.word 7).toNat = b.silenceRun + 256 * b.dlSeq.toNat := by
  have hhandle : (match b.handle with | some h => h.val | none => 0) < 256 := by
    cases b.handle with
    | none => exact Nat.zero_lt_succ _
    | some h => exact h.isLt.trans (by omega)
  obtain ⟨hg, hm, hs⟩ := hb
  have := b.link.code_le
  have := b.talk.code_le
  have := b.role.code_le
  have := flagCode_le b.bonded
  have := numberOf_le b.listener
  have := b.dlSeq.isLt
  exact ⟨wordPair_toNat (by omega) (by omega), wordPair_toNat hhandle (by omega), address_parts b.addr, rfl,
    wordPair_toNat (by omega) (by omega), wordPair_toNat (by omega) (by omega), wordPair_toNat (by omega) (by omega)⟩

/-- The words of a listener's record (R149). -/
theorem Listener.words (l : Listener) :
    (l.word 0).toNat = flagCode l.inUse ∧ l.word 1 = l.setTag ∧
      (l.word 2).toNat = numberOf l.members[0]? + 256 * numberOf l.members[1]? ∧
      (l.word 3).toNat = numberOf l.primary + 256 * flagCode l.stale ∧ (l.word 4).toNat = l.priority.val ∧
      (l.word 5).toNat = l.volume.val + 256 * l.sidetone.val ∧
      (l.word 6).toNat = l.micGain.val + 256 * flagCode l.mute ∧ (l.word 7).toNat = flagCode l.budControls := by
  have := numberOf_le l.members[0]?
  have := numberOf_le l.members[1]?
  have := numberOf_le l.primary
  have := flagCode_le l.stale
  have := flagCode_le l.mute
  exact ⟨wordNat_flag _, rfl, wordPair_toNat (by omega) (by omega), wordPair_toNat (by omega) (by omega),
    wordNat_fin _ (by omega), wordPair_toNat (by omega) (by omega), wordPair_toNat (by omega) (by omega), wordNat_flag _⟩

theorem Listener.stale_eq (l : Listener) : l.stale = decide (∃ b, l.primary = some b ∧ b ∉ l.members) := by
  unfold Listener.stale
  cases l.primary with
  | none => simp
  | some p => simp

theorem flagCode_decide (q : Prop) [Decidable q] : 256 * flagCode (decide q) = if q then 256 else 0 := by
  by_cases h : q <;> simp [flagCode, h]

/-- The words of an admission window (R149). -/
theorem Window.words (v : Window) :
    (v.word 0).toNat = flagCode v.enable ∧ 65536 * (v.word 1).toNat + (v.word 2).toNat = v.base.toNat ∧
      (v.word 3).toNat = v.compareLength.val :=
  ⟨wordNat_flag _, address_parts v.base, wordNat_fin _ (by omega)⟩

/-- The words of a bond entry (R149). -/
theorem BondEntry.words (e : BondEntry) :
    (e.word 0).toNat = flagCode e.inUse ∧ 65536 * (e.word 1).toNat + (e.word 2).toNat = e.addr.toNat ∧
      e.word 3 = e.setTag ∧ (e.word 4).toNat = e.role.code ∧ (e.word 5).toNat = e.priority.val :=
  ⟨wordNat_flag _, address_parts e.addr, rfl, wordNat_toNat (e.role.code_le.trans_lt (by omega)), wordNat_fin _ (by omega)⟩

/-- The words of a lane (R149). -/
theorem Lane.words (l : Lane) (hc : l.CountersBounded) (hr : l.InRange) :
    (l.word 0).toNat = l.state.code ∧ (l.word 1).toNat = numberOf l.bud ∧ (l.word 2).toNat = numberOf l.listener ∧
      (l.word 3).toNat = numberOf l.reservedFor ∧ (∀ x, l.expected = some x → (l.word 4).toNat = x.toNat) ∧
      (l.expected = none → (l.word 4).toNat = 32768) ∧ (l.word 5).toInt = (l.step : Int) - 65536 ∧
      (l.word 6).toNat = l.slips ∧ (l.word 7).toNat = l.conceals := by
  obtain ⟨hs, hn⟩ := hc
  obtain ⟨-, -, hlo, hhi, -⟩ := hr
  refine ⟨wordNat_toNat (l.state.code_le.trans_lt (by omega)), wordNat_number _ (by omega), wordNat_number _ (by omega),
    wordNat_number _ (by omega), fun x hx => ?_, fun hx => ?_, word_lane_step hlo hhi, wordNat_toNat (by omega),
    wordNat_toNat (by omega)⟩
  · have hw : l.word 4 = wordNat x.toNat := by simp only [Lane.word, hx]
    rw [hw, wordNat_toNat (x.isLt.trans (by omega))]
  · have hw : l.word 4 = wordNat 32768 := by simp only [Lane.word, hx]
    rw [hw]
    rfl

/-- Every setting within its range fits its word (R149, R154). -/
theorem Settings.words {t : Settings} (h : t.InRange) (i : Fin 9) : (wordNat (t.word i.val)).toNat = t.word i.val := by
  have hmax : ∀ i : Fin 9, (settingRange i.val).2 ≤ 255 := by decide
  exact wordNat_toNat (((h i).2.trans (hmax i)).trans_lt (by omega))

/-- Settles O22, region by region. -/
theorem regionsPresentTheirBlocks : Obligations.RegionsPresentTheirBlocks := by
  unfold Obligations.RegionsPresentTheirBlocks
  intro s hb word flag bud listener role mode
  have hflag : flag = flagCode := rfl
  have hbud : bud = numberOf := funext fun b => by cases b <;> rfl
  have hlistener : listener = numberOf := funext fun x => by cases x <;> rfl
  have hrole : role = Role.code := funext fun r => by cases r <;> rfl
  have hmode : mode = Mode.code := funext fun m => by cases m <;> rfl
  rw [hflag, hbud, hlistener, hrole, hmode]
  refine ⟨rfl, fun b => ?_, fun x => ?_, fun i => ⟨?_, ?_⟩, fun i => ?_, fun i => ?_, fun i => ?_, wordNat_flag _, fun i => ?_,
    fun hs => ?_, fun b => ?_, ?_, fun i => ?_, fun k => ?_, ?_, ?_, fun i => ?_, wordNat_flag _, fun i => ?_⟩
  · obtain ⟨h0, h1, h2, h4, h5, h6, h7⟩ := Bud.words s.roster.buds[b] (hb.buds b)
    have hw : ∀ j, j < 8 → s.readWord 1 (8 * b.val + j) = s.roster.buds[b].word j := fun j => s.readWord_bud b
    simp only [word, hw _ (by omega : 1 < 8), hw _ (by omega : 2 < 8), hw _ (by omega : 3 < 8), hw _ (by omega : 4 < 8),
      hw _ (by omega : 5 < 8), hw _ (by omega : 6 < 8), hw _ (by omega : 7 < 8)]
    exact ⟨(congrArg BitVec.toNat (hw 0 (by omega))).trans h0, h1, h2, h4, h5, h6, h7⟩
  · obtain ⟨h0, h1, h2, h3, h4, h5, h6, h7⟩ := Listener.words s.roster.listeners[x]
    have hw : ∀ j, j < 8 → s.readWord 2 (8 * x.val + j) = s.roster.listeners[x].word j := fun j => s.readWord_listener x
    simp only [word, hw _ (by omega : 1 < 8), hw _ (by omega : 2 < 8), hw _ (by omega : 3 < 8), hw _ (by omega : 4 < 8),
      hw _ (by omega : 5 < 8), hw _ (by omega : 6 < 8), hw _ (by omega : 7 < 8)]
    exact ⟨(congrArg BitVec.toNat (hw 0 (by omega))).trans h0, h1, h2, h3.trans (by rw [Listener.stale_eq, flagCode_decide]), h4, h5, h6, h7⟩
  · exact (congrArg BitVec.toNat (s.readWord_bank i).1).trans (wordNat_fin _ (by omega))
  · exact (congrArg BitVec.toNat (s.readWord_bank i).2).trans (wordNat_fin _ (by omega))
  · exact (congrArg BitVec.toNat (s.readWord_curve i)).trans (wordNat_fin _ (by omega))
  · exact (congrArg BitVec.toNat (s.readWord_openMic i)).trans (wordNat_fin _ (by omega))
  · obtain ⟨h0, h1, h3⟩ := Window.words s.pairing.windows[i]
    have hw : ∀ j, j < 4 → s.readWord 7 (4 * i.val + j) = s.pairing.windows[i].word j := fun j => s.readWord_window i
    simp only [word, hw _ (by omega : 1 < 4), hw _ (by omega : 2 < 4), hw _ (by omega : 3 < 4)]
    exact ⟨(congrArg BitVec.toNat (hw 0 (by omega))).trans h0, h1, h3⟩
  · obtain ⟨h0, h1, h3, h4, h5⟩ := BondEntry.words s.pairing.bonds[i]
    have hw : ∀ j, j < 6 → s.readWord 8 (6 * i.val + j) = s.pairing.bonds[i].word j := fun j => s.readWord_bond i
    simp only [word, hw _ (by omega : 1 < 6), hw _ (by omega : 2 < 6), hw _ (by omega : 3 < 6), hw _ (by omega : 4 < 6),
      hw _ (by omega : 5 < 6)]
    exact ⟨(congrArg BitVec.toNat (hw 0 (by omega))).trans h0, h1, h3, h4, h5⟩
  · have hmap : [0, 1, 2, 3, 4, 5, 6, 7, 8].map (word 9) =
        [0, 1, 2, 3, 4, 5, 6, 7, 8].map fun i => s.directives.settings.word i :=
      List.map_congr_left fun i hi => Settings.words hs ⟨i, by revert i; decide⟩
    exact hmap
  · obtain ⟨hl, hd, ho⟩ := hb.discards b
    have hw : ∀ j, j < 3 → _ := fun j => s.readWord_discards b (j := j)
    exact ⟨(congrArg BitVec.toNat (hw 0 (by omega))).trans (wordNat_toNat (by exact Nat.lt_succ_of_le hl)),
      (congrArg BitVec.toNat (hw 1 (by omega))).trans (wordNat_toNat (by exact Nat.lt_succ_of_le hd)),
      (congrArg BitVec.toNat (hw 2 (by omega))).trans (wordNat_toNat (by exact Nat.lt_succ_of_le ho))⟩
  · have hmap : [24, 25, 26, 27, 33, 34].map (word 10) =
        [24, 25, 26, 27, 33, 34].map fun i => s.lateCounters.getD (i - 24) 0 :=
      List.map_congr_left fun i hi => State.counterWord_toNat hb (by revert i; decide)
    exact hmap
  · refine (State.counterWord_toNat hb (by omega)).trans ?_
    fin_cases i <;> rfl
  · obtain ⟨h0, h1, h2, h3, h4, h4', h5, h6, h7⟩ := Lane.words s.laneUnit.lanes[k] (hb.lanes k) (hb.ranges k)
    have hw : ∀ j, j < 8 → s.readWord 11 (8 * k.val + j) = s.laneUnit.lanes[k].word j := fun j => s.readWord_lane k
    simp only [word, hw _ (by omega : 1 < 8), hw _ (by omega : 2 < 8), hw _ (by omega : 3 < 8), hw _ (by omega : 4 < 8),
      hw _ (by omega : 5 < 8), hw _ (by omega : 6 < 8), hw _ (by omega : 7 < 8)]
    exact ⟨(congrArg BitVec.toNat (hw 0 (by omega))).trans h0, h1, h2, h3, h4, h4', h5, h6, h7⟩
  · have hcode : [word 12 0, word 12 1] = [s.callCtl.state.code, s.callCtl.state.holdCode] := by
      have := s.callCtl.state.code_le
      exact congrArg₂ (fun a b => [a, b]) (wordNat_toNat (by omega)) (wordNat_toNat (by omega))
    refine hcode.trans ?_
    rcases s.callCtl.state with _ | _ | (_ | _) <;> rfl
  · obtain ⟨hf, ht, -⟩ := hb.call
    exact congrArg₂ (fun a b => [a, b]) (wordNat_toNat (by omega)) (wordNat_toNat (by omega))
  · exact (congrArg BitVec.toNat (s.readWord_mode i)).trans (wordNat_toNat ((Mode.code_le _).trans_lt (by omega)))
  · exact (congrArg BitVec.toNat (s.readWord_staging i)).trans (wordOf_toNat _ _)

end Sys2Proof.Machine
end

