-- ==== Sys2Proof/Proofs/Writing.lean ====
section
/-! PROOFS. WRITE (R69, R152, R155 to R157), and what a written word reads back as (R153). -/

namespace Sys2Proof.Machine

variable {s : State}

/-! ## The checks of WRITE (R152) -/

/-- The words of a payload of whole words, low byte first (R130, R152). -/
theorem payloadWords_eq (p : List Byte) :
    payloadWords p = (List.range (p.length / 2)).map fun k => p.getD (2 * k + 1) 0 ++ p.getD (2 * k) 0 := by
  match p with
  | [] => rfl
  | [_] => simp [payloadWords]
  | lo :: hi :: rest =>
    have hn : (lo :: hi :: rest).length / 2 = rest.length / 2 + 1 := by simp only [List.length_cons]; omega
    rw [hn, List.range_succ_eq_map, List.map_cons, List.map_map, payloadWords, payloadWords_eq rest]
    rfl

theorem DirectiveUnit.writeProtected_iff {d : DirectiveUnit} {r : RegionIx} :
    d.writeProtected r = true ↔ r.val = 13 ∧ d.lock = true ∨ r.val ≠ 13 ∧ d.modeOf r ≠ .opened := by
  unfold DirectiveUnit.writeProtected
  by_cases h : r.val = 13 <;> simp [h]

/-- A WRITE that the Voice Port takes is the act of R152, given the mask it consumed, and its reply. -/
theorem exec_write (seq : Byte) (p : List Byte) (ht : s.VoiceTakes) (h2 : 2 ≤ p.length) (h64 : p.length ≤ 64)
    (heven : p.length % 2 = 0) :
    exec (.write seq p) s =
      .next ((s.consumeMask.writeDirective s.directives.mask p).1.post
        (.reply 3 seq (s.consumeMask.writeDirective s.directives.mask p).2)) :=
  congrArg Host.Outcome.next (State.takeDirective_fits
    (fun m s => ((s.writeDirective m p).1, some (s.writeDirective m p).2)) ht (by simp [directiveLength, h2, h64, heven]))

section
variable (m : Option Word) {p : List Byte}

/-- Check 1 of WRITE: a run that ends within its region (R152). -/
theorem State.writeDirective_of_range
    (h : regionCount s.directives.region < s.directives.index + (payloadWords p).length) :
    s.writeDirective m p = (s, .refused .range) := if_pos h

variable (hr : ¬ regionCount s.directives.region < s.directives.index + (payloadWords p).length)

include hr

/-- Check 2 of WRITE: a region that may be written (R152). -/
theorem State.writeDirective_of_protected (h : s.directives.writeProtected s.directives.region = true) :
    s.writeDirective m p = (s, .refused .protection) := (if_neg hr).trans (if_pos h)

variable (hp : ¬ s.directives.writeProtected s.directives.region = true)

include hp

/-- Check 3 of WRITE: a region that is not fixed (R152). -/
theorem State.writeDirective_of_fixed (h : regionFixed s.directives.region = true) :
    s.writeDirective m p = (s, .refused .fixed) := (if_neg hr).trans ((if_neg hp).trans (if_pos h))

/-- Otherwise the words are applied, the owners act, and the pointer stands past the run (R152). -/
theorem State.writeDirective_of_run (h : ¬ regionFixed s.directives.region = true) :
    s.writeDirective m p =
      (((s.writeWords s.directives.region s.directives.index (s.wordsToWrite m (payloadWords p))).afterWrite
        s.roster.listeners).setPointer s.directives.region (s.directives.index + (payloadWords p).length), .done) :=
  (if_neg hr).trans ((if_neg hp).trans (if_neg h))

end

/-- A mask merges a run of one word, and no other (R155). -/
theorem State.wordsToWrite_eq (s : State) (m : Option Word) (ws : List Word) :
    s.wordsToWrite m ws =
      match m, ws with
      | some m, [w] => [(s.readWord s.directives.region s.directives.index &&& m) ||| (w &&& ~~~m)]
      | _, _ => ws := by
  rcases m with _ | m
  · rfl
  · rcases ws with _ | ⟨w, _ | ⟨v, ws⟩⟩ <;> rfl

/-! ## What the owners do (R16, R69) -/

/-- The notice that a written listener has (R16). -/
def State.tell (old new : Vector Listener 4) (s : State) (x : ListenerIx) : State :=
  if old[x].mute ≠ new[x].mute ∨ old[x].primary ≠ new[x].primary then s.notice x else s

theorem State.tell_roster (old new : Vector Listener 4) (s : State) (x : ListenerIx) : (s.tell old new x).roster = s.roster := by
  unfold State.tell
  split
  · exact (s.notice_only x).roster
  · rfl

/-- The owners act once: the wait list first, and then the listeners in number order (R16, R69, log entry 9). -/
theorem State.afterWrite_eq (s : State) (old : Vector Listener 4) :
    s.afterWrite old =
      Config.listeners.foldl (State.tell old s.roster.listeners)
        (if ∃ x : ListenerIx, old[x].priority ≠ s.roster.listeners[x].priority then s.resortWait else s) := by
  have hany : (Config.listeners.any fun x => old[x].priority != s.roster.listeners[x].priority) = true ↔
      ∃ x : ListenerIx, old[x].priority ≠ s.roster.listeners[x].priority := by
    simp only [List.any_eq_true, bne_iff_ne, mem_listeners, true_and]
  have hfold : ∀ (l : List ListenerIx) (u : State), u.roster = s.roster →
      l.foldl (fun s x => if old[x].mute = s.roster.listeners[x].mute ∧ old[x].primary = s.roster.listeners[x].primary then s
        else s.notice x) u = l.foldl (State.tell old s.roster.listeners) u := by
    intro l
    induction l with
    | nil => exact fun _ _ => rfl
    | cons x l ih =>
      intro u hu
      have htell : (if old[x].mute = u.roster.listeners[x].mute ∧ old[x].primary = u.roster.listeners[x].primary then u
          else u.notice x) = u.tell old s.roster.listeners x := by
        simp only [State.tell, hu, ne_eq, ← not_and_or, ite_not]
      rw [List.foldl_cons, List.foldl_cons, htell]
      exact ih _ ((u.tell_roster _ _ x).trans hu)
  unfold State.afterWrite
  simp only [hany]
  refine hfold _ _ ?_
  split <;> rfl

/-- Settles O23, check by check; then the owners' acts, and the order of a re-sorted wait list. -/
theorem writeIsCheckedThenApplied : Obligations.WriteIsCheckedThenApplied := by
  unfold Obligations.WriteIsCheckedThenApplied
  intro s seq p ht h2 h64 heven
  refine ⟨?_, fun e r => ⟨fun i hi => ?_, fun h14 => ?_⟩, fun u r i w rest => ⟨rfl, rfl⟩, fun u old => ?_, fun u => ⟨rfl,
    sortWait_perm _ _, fun ho => (sortWait_sorted ho).imp fun hab => ?_⟩⟩
  · have hlen : (payloadWords p).length = p.length / 2 := by simp [payloadWords_eq]
    have hfixed : regionFixed s.directives.region = true ↔ s.directives.region.val ∈ [0, 1, 4, 10, 11, 12] :=
      List.contains_iff_mem
    have hprot := DirectiveUnit.writeProtected_iff (d := s.directives) (r := s.directives.region)
    rw [exec_write seq p ht h2 h64 heven]
    refine congrArg Host.Outcome.next ?_
    simp only [← hfixed, ← hprot, ← hlen]
    split_ifs with hr hp hf
    · rw [State.writeDirective_of_range (s := s.consumeMask) _ hr]; rfl
    · rw [State.writeDirective_of_protected (s := s.consumeMask) _ hr hp]; rfl
    · rw [State.writeDirective_of_fixed (s := s.consumeMask) _ hr hp hf]; rfl
    · rw [State.writeDirective_of_run (s := s.consumeMask) _ hr hp hf, State.wordsToWrite_eq, hlen, payloadWords_eq]; rfl
  · rw [DirectiveUnit.modeOf, if_pos (by omega), pick_eq _ (by omega : r.val < 14)]
    simp only [hi]
    rfl
  · simp only [DirectiveUnit.modeOf, h14]
    rfl
  · rw [State.afterWrite_eq]
    rfl
  · exact (waitBefore_iff.1 hab).imp Fin.lt_def.2 fun h => ⟨Fin.ext h.1.symm, h.2⟩

end Sys2Proof.Machine
end

