-- ==== Sys2Proof/Proofs/ReadBack.lean ====
section
/-! PROOFS. What a written word reads back as, and that every other word reads as before (R153). -/

namespace Sys2Proof.Machine

/-! ## The parts of a word (R149) -/

theorem lowByte_toNat (w : Word) : (lowByte w).toNat = w.toNat % 256 := by
  simp [lowByte, BitVec.extractLsb'_toNat]

theorem highByte_toNat (w : Word) : (highByte w).toNat = w.toNat / 256 := by
  have hw := w.isLt
  simp only [highByte, BitVec.extractLsb'_toNat, Nat.shiftRight_eq_div_pow]
  omega

theorem addressOf_toNat (hi : Byte) (lo : Word) : (addressOf hi lo).toNat = lo.toNat + 65536 * hi.toNat := by
  have hl : lo.toNat < 2 ^ 16 := lo.isLt
  have happend : (addressOf hi lo).toNat = hi.toNat <<< 16 ||| lo.toNat := BitVec.toNat_append hi lo
  rw [happend, Nat.shiftLeft_eq, ← Nat.mul_comm, ← Nat.two_pow_add_eq_or_of_lt hl]
  omega

@[simp] theorem addressHigh_addressOf (hi : Byte) (lo : Word) : addressHigh (addressOf hi lo) = hi := by
  have hl := lo.isLt
  have hh := hi.isLt
  refine BitVec.eq_of_toNat_eq ?_
  simp only [addressHigh, BitVec.extractLsb'_toNat, addressOf_toNat, Nat.shiftRight_eq_div_pow]
  omega

@[simp] theorem addressLow_addressOf (hi : Byte) (lo : Word) : addressLow (addressOf hi lo) = lo := by
  have hl := lo.isLt
  refine BitVec.eq_of_toNat_eq ?_
  simp only [addressLow, BitVec.extractLsb'_toNat, addressOf_toNat, Nat.shiftRight_eq_div_pow]
  omega

theorem highOf_toNat (w : Word) : (highOf w).toNat = min w.toNat 255 := by
  simp only [highOf, BitVec.toNat_ofNat]
  omega

theorem flagCode_bne {n : Nat} (w : BitVec n) : flagCode (w != 0) = if w = 0 then 0 else 1 := by
  by_cases h : w = 0 <;> simp [flagCode, h]

theorem numberOf_primaryOf (n : Nat) : numberOf (primaryOf n) = min n 8 := by
  by_cases h : n = 0
  · simp [primaryOf, numberOf, h]
  · simp only [primaryOf, numberOf, h, if_false]
    omega

/-- A written primary is stale when it names a bud that is no member (R16, R149). -/
theorem stale_primaryOf (l : Listener) (n : Nat) :
    256 * flagCode ({ l with primary := primaryOf n } : Listener).stale =
      if min n 8 = 0 ∨ ∃ b ∈ l.members, b.val + 1 = min n 8 then 0 else 256 := by
  rw [Listener.stale_eq, flagCode_decide, ← ite_not]
  refine if_congr ?_ rfl rfl
  by_cases hn : n = 0
  · simp [primaryOf, hn]
  · have hval : ∀ b : BudIx, b.val + 1 = min n 8 ↔ b = ⟨min (n - 1) 7, by omega⟩ := fun b => by
      rw [Fin.ext_iff]
      dsimp only
      omega
    simp [primaryOf, hn, hval]

theorem roleOf_code (n : Nat) : (roleOf n).code = min n 2 := by
  unfold roleOf
  split_ifs <;> simp only [Role.code] <;> omega

theorem modeOf_code (n : Nat) : (modeOf n).code = min n 2 := by
  unfold modeOf
  split_ifs <;> simp only [Mode.code] <;> omega

theorem pick_update {α : Type} {n : Nat} [NeZero n] (v : Vector α n) (f : α → α) {i j : Nat} (hi : i < n) (hj : j < n) :
    pick (update v (Fin.ofNat n i) f) j = if i = j then f (pick v j) else pick v j := by
  have hval : ∀ {k}, k < n → (Fin.ofNat n k).val = k := fun h => Nat.mod_eq_of_lt h
  simp only [pick, update]
  rw [getElem_set_fin]
  by_cases h : i = j
  · rw [if_pos h, if_pos (congrArg _ h), h]
  · rw [if_neg h, if_neg fun e => h ?_]
    rw [← hval hi, ← hval hj, e]

/-! ## A written word of a record -/

theorem Listener.word_setWord (l : Listener) (w : Word) {j k : Nat} (hj : j < 8) (hk : k < 8) :
    (l.setWord j w).word k = if j = k then (l.setWord j w).word j else l.word k := by
  interval_cases j <;> interval_cases k <;> rfl

theorem Window.word_setWord (v : Window) (w : Word) {j k : Nat} (hj : j < 4) (hk : k < 4) :
    (v.setWord j w).word k = if j = k then (v.setWord j w).word j else v.word k := by
  interval_cases j <;> interval_cases k <;> simp [Window.setWord, Window.word]

theorem BondEntry.word_setWord (e : BondEntry) (w : Word) {j k : Nat} (hj : j < 6) (hk : k < 6) :
    (e.setWord j w).word k = if j = k then (e.setWord j w).word j else e.word k := by
  interval_cases j <;> interval_cases k <;> simp [BondEntry.setWord, BondEntry.word]

/-- What a word of a listener stores (R153). -/
def Listener.stored (l : Listener) (j : Nat) (w : Word) : Nat :=
  let lo := w.toNat % 256
  let hi := w.toNat / 256
  match j with
  | 3 => min lo 8 + (if min lo 8 = 0 ∨ ∃ b ∈ l.members, b.val + 1 = min lo 8 then 0 else 256)
  | 4 => min w.toNat 3
  | 5 => min lo 63 + 256 * min hi 63
  | 6 => min lo 63 + 256 * (if hi = 0 then 0 else 1)
  | 7 => if w = 0 then 0 else 1
  | _ => (l.word j).toNat

theorem Listener.setWord_stored (l : Listener) {j : Nat} (w : Word) (hj : j < 8) :
    ((l.setWord j w).word j).toNat = l.stored j w := by
  have hlo := lowByte_toNat w
  have hhi := highByte_toNat w
  obtain ⟨-, -, -, hprimary, hpriority, hvolumes, hmic, hcontrols⟩ := (l.setWord j w).words
  match j, hj with
  | 0, _ | 1, _ | 2, _ => rfl
  | 3, _ =>
    refine hprimary.trans ?_
    rw [setWord, stale_primaryOf, numberOf_primaryOf, hlo]
    rfl
  | 4, _ => exact hpriority
  | 5, _ =>
    refine hvolumes.trans ?_
    simp only [setWord, clampIndex, hlo, hhi]
    rfl
  | 6, _ =>
    refine hmic.trans ?_
    have hzero : highByte w = 0 ↔ w.toNat / 256 = 0 := by rw [← hhi, BitVec.toNat_eq]; rfl
    simp only [setWord, clampIndex, hlo, flagCode_bne, hzero]
    rfl
  | 7, _ => exact hcontrols.trans (flagCode_bne w)
  | n + 8, h => omega

/-- What a word of an admission window stores (R25, R153). -/
def Window.stored (j : Nat) (w : Word) : Nat :=
  match j with
  | 0 => if w = 0 then 0 else 1
  | 1 => min w.toNat 255
  | 2 => w.toNat
  | _ => min w.toNat 24

theorem Window.setWord_stored (v : Window) {j : Nat} (w : Word) (hj : j < 4) :
    ((v.setWord j w).word j).toNat = Window.stored j w := by
  match j, hj with
  | 0, _ => exact (Window.words _).1.trans (flagCode_bne w)
  | 1, _ =>
    simp only [setWord, word, addressHigh_addressOf, highOf_toNat]
    exact wordNat_toNat (by omega)
  | 2, _ => exact congrArg BitVec.toNat (addressLow_addressOf _ w)
  | 3, _ => exact (Window.words _).2.2
  | n + 4, h => omega

/-- What a word of a bond entry stores (R27, R153). -/
def BondEntry.stored (j : Nat) (w : Word) : Nat :=
  match j with
  | 0 => if w = 0 then 0 else 1
  | 1 => min w.toNat 255
  | 4 => min w.toNat 2
  | 5 => min w.toNat 3
  | _ => w.toNat

theorem BondEntry.setWord_stored (e : BondEntry) {j : Nat} (w : Word) (hj : j < 6) :
    ((e.setWord j w).word j).toNat = BondEntry.stored j w := by
  obtain ⟨huse, -, -, hrole, hpriority⟩ := (e.setWord j w).words
  match j, hj with
  | 0, _ => exact huse.trans (flagCode_bne w)
  | 1, _ =>
    simp only [setWord, word, addressHigh_addressOf, highOf_toNat]
    exact wordNat_toNat (by omega)
  | 2, _ => exact congrArg BitVec.toNat (addressLow_addressOf _ w)
  | 3, _ => rfl
  | 4, _ => exact hrole.trans (roleOf_code _)
  | 5, _ => exact hpriority
  | n + 6, h => omega

/-! ## A written table reaches the words of its own region alone -/

section
variable (s : State) {q : RegionIx} (j : Nat)

theorem State.readWord_of_listeners (l : Vector Listener 4) (h : q.val ≠ 2) :
    ({ s with roster := { s.roster with listeners := l } } : State).readWord q j = s.readWord q j := by
  unfold State.readWord
  split
  case h_3 heq => exact absurd heq h
  all_goals rfl

theorem State.readWord_of_bank (v : Vector GainIx 25) (h : q.val ≠ 3) :
    ({ s with mix := { s.mix with staging := v } } : State).readWord q j = s.readWord q j := by
  unfold State.readWord
  split
  case h_4 heq => exact absurd heq h
  all_goals rfl

theorem State.readWord_of_curve (v : Vector Gain 64) (h : q.val ≠ 5) :
    ({ s with mix := { s.mix with curve := v } } : State).readWord q j = s.readWord q j := by
  unfold State.readWord
  split
  case h_6 heq => exact absurd heq h
  all_goals rfl

theorem State.readWord_of_openMic (v : Vector Gain 4) (h : q.val ≠ 6) :
    ({ s with mix := { s.mix with openMic := v } } : State).readWord q j = s.readWord q j := by
  unfold State.readWord
  split
  case h_7 heq => exact absurd heq h
  all_goals rfl

theorem State.readWord_of_admission (v : Vector Window 4) (b : Bool) (h : q.val ≠ 7) :
    ({ s with pairing := { s.pairing with windows := v, admissionOpen := b } } : State).readWord q j = s.readWord q j := by
  unfold State.readWord
  split
  case h_8 heq => exact absurd heq h
  all_goals rfl

theorem State.readWord_of_bonds (v : Vector BondEntry 8) (h : q.val ≠ 8) :
    ({ s with pairing := { s.pairing with bonds := v } } : State).readWord q j = s.readWord q j := by
  unfold State.readWord
  split
  case h_9 heq => exact absurd heq h
  all_goals rfl

theorem State.readWord_of_settings (t : Settings) (h : q.val ≠ 9) :
    ({ s with directives := { s.directives with settings := t } } : State).readWord q j = s.readWord q j := by
  unfold State.readWord
  split
  case h_10 heq => exact absurd heq h
  all_goals rfl

theorem State.readWord_of_modes (v : Vector Mode 14) (b : Bool) (h : q.val ≠ 13) :
    ({ s with directives := { s.directives with modes := v, lock := b } } : State).readWord q j = s.readWord q j := by
  unfold State.readWord
  split
  case h_14 heq => exact absurd heq h
  all_goals rfl

theorem State.readWord_of_staging (v : Vector Byte 16) (h : q.val < 14) :
    ({ s with store := { s.store with staging := v } } : State).readWord q j = s.readWord q j := by
  obtain ⟨q, hq⟩ := q
  dsimp only at h
  interval_cases q <;> rfl

/-- A word written in a region leaves every word of the other regions (R153). -/
theorem State.readWord_writeWord_of_region (i : Nat) (w : Word) {r : RegionIx} (h : q ≠ r) :
    (s.writeWord r i w).readWord q j = s.readWord q j := by
  have hv : q.val ≠ r.val := fun e => h (Fin.ext e)
  have hq := q.isLt
  unfold State.writeWord
  split <;> rename_i heq
  case h_1 => exact s.readWord_of_listeners j _ (heq ▸ hv)
  case h_2 =>
    unfold Mix.setCell
    split
    · rfl
    · exact s.readWord_of_bank j _ (heq ▸ hv)
  case h_3 => exact s.readWord_of_curve j _ (heq ▸ hv)
  case h_4 => exact s.readWord_of_openMic j _ (heq ▸ hv)
  case h_5 =>
    split
    · exact s.readWord_of_admission j _ _ (heq ▸ hv)
    · exact s.readWord_of_admission j _ _ (heq ▸ hv)
  case h_6 => exact s.readWord_of_bonds j _ (heq ▸ hv)
  case h_7 => exact s.readWord_of_settings j _ (heq ▸ hv)
  case h_8 =>
    unfold DirectiveUnit.setProtection
    split
    · exact s.readWord_of_modes j _ _ (heq ▸ hv)
    · exact s.readWord_of_modes j _ _ (heq ▸ hv)
  case h_9 =>
    have hlast : q.val < 14 := by omega
    exact s.readWord_of_staging j _ hlast
  case h_10 => rfl

end

/-! ## The words of a written region -/

/-- A word written in a region of records of `n` words is that word of the record, and the other words of the region stay. -/
theorem record_reads {α : Type} {m n : Nat} [NeZero m] (word : α → Nat → Word) (setWord : α → Nat → Word → α)
    (hset : ∀ (a : α) (w : Word) {j k : Nat}, j < n → k < n →
      word (setWord a j w) k = if j = k then word (setWord a j w) j else word a k)
    (v : Vector α m) (w : Word) {i : Nat} (hi : i < m * n) :
    let u := update v (Fin.ofNat m (i / n)) fun a => setWord a (i % n) w
    word (pick u (i / n)) (i % n) = word (setWord (pick v (i / n)) (i % n) w) (i % n) ∧
      ∀ j, j < m * n → j ≠ i → word (pick u (j / n)) (j % n) = word (pick v (j / n)) (j % n) := by
  have hn : 0 < n := Nat.pos_of_mul_pos_left (Nat.zero_lt_of_lt hi)
  have hdiv : ∀ {k}, k < m * n → k / n < m := fun h => Nat.div_lt_of_lt_mul (Nat.mul_comm m n ▸ h)
  refine ⟨by rw [pick_update _ _ (hdiv hi) (hdiv hi), if_pos rfl], fun j hj hne => ?_⟩
  rw [pick_update _ _ (hdiv hi) (hdiv hj)]
  split
  · next heq =>
    rw [hset _ _ (Nat.mod_lt _ hn) (Nat.mod_lt _ hn), if_neg]
    intro hmod
    have hidiv := Nat.div_add_mod i n
    have hjdiv := Nat.div_add_mod j n
    rw [heq, hmod] at hidiv
    exact hne (hjdiv.symm.trans hidiv)
  · rfl

/-- A number written in a table of numbers is in its place, and the others stay. -/
theorem number_reads {m k : Nat} [NeZero m] (v : Vector (Fin k) m) (hk : k ≤ 65536) (n : Fin k) {i : Nat} (hi : i < m) :
    let u := update v (Fin.ofNat m i) fun _ => n
    (wordNat (pick u i).val).toNat = n.val ∧
      ∀ j, j < m → j ≠ i → wordNat (pick u j).val = wordNat (pick v j).val := by
  refine ⟨?_, fun j hj hne => ?_⟩
  · rw [pick_update _ _ hi hi, if_pos rfl]
    exact wordNat_fin _ hk
  · rw [pick_update _ _ hi hj, if_neg (Ne.symm hne)]

section
variable (s : State) {i : Nat} (w : Word)

theorem State.writeWord_listener (hi : i < 32) :
    ((s.writeWord 2 i w).readWord 2 i).toNat = s.roster.listeners[Fin.ofNat 4 (i / 8)].stored (i % 8) w ∧
      ∀ j, j < 32 → j ≠ i → (s.writeWord 2 i w).readWord 2 j = s.readWord 2 j := by
  obtain ⟨hat, hother⟩ := record_reads (m := 4) (n := 8) Listener.word Listener.setWord
    (fun l w _ _ => l.word_setWord w) s.roster.listeners w hi
  exact ⟨(congrArg BitVec.toNat hat).trans (Listener.setWord_stored _ w (Nat.mod_lt _ (by omega))), hother⟩

theorem State.writeWord_cell (hi : i < 25) :
    ((s.writeWord 3 i w).readWord 3 i).toNat =
        (if i ∈ [0, 6, 12, 18, 24] then (s.readWord 3 i).toNat else min w.toNat 63) ∧
      ∀ j, j < 25 → j ≠ i → (s.writeWord 3 i w).readWord 3 j = s.readWord 3 j := by
  have hfixed : ∀ i : Fin 25, fixedCell i.val = true ↔ i.val ∈ [0, 6, 12, 18, 24] := by decide
  have hwrite : s.writeWord 3 i w = { s with mix := s.mix.setCell i w.toNat } := rfl
  rw [hwrite, Mix.setCell]
  simp only [hfixed ⟨i, hi⟩]
  split
  · exact ⟨rfl, fun _ _ _ => rfl⟩
  · exact number_reads s.mix.staging (by omega) (clampIndex w.toNat) hi

theorem State.writeWord_window (hi : i < 16) :
    ((s.writeWord 7 i w).readWord 7 i).toNat = Window.stored (i % 4) w ∧
      ∀ j, j < 17 → j ≠ i → (s.writeWord 7 i w).readWord 7 j = s.readWord 7 j := by
  have hwrite : s.writeWord 7 i w =
      { s with pairing := { s.pairing with
          windows := update s.pairing.windows (Fin.ofNat 4 (i / 4)) fun v => v.setWord (i % 4) w } } := if_pos hi
  have hread : ∀ (s : State) j, j < 16 → s.readWord 7 j = (pick s.pairing.windows (j / 4)).word (j % 4) :=
    fun s j hj => if_pos hj
  obtain ⟨hat, hother⟩ := record_reads (m := 4) (n := 4) Window.word Window.setWord
    (fun v w _ _ => v.word_setWord w) s.pairing.windows w hi
  rw [hwrite]
  refine ⟨?_, fun j hj hne => ?_⟩
  · rw [hread _ i hi]
    exact (congrArg BitVec.toNat hat).trans (Window.setWord_stored _ w (Nat.mod_lt _ (by omega)))
  · by_cases hj16 : j < 16
    · rw [hread _ j hj16, hread _ j hj16]
      exact hother j hj16 hne
    · exact (if_neg hj16).trans (if_neg hj16).symm

theorem State.writeWord_admission :
    ((s.writeWord 7 16 w).readWord 7 16).toNat = (if w = 0 then 0 else 1) ∧
      ∀ j, j < 17 → j ≠ 16 → (s.writeWord 7 16 w).readWord 7 j = s.readWord 7 j :=
  ⟨(wordNat_flag _).trans (flagCode_bne w),
    fun j hj hne => (if_pos (show j < 16 by omega)).trans (if_pos (show j < 16 by omega)).symm⟩

theorem State.writeWord_bond (hi : i < 48) :
    ((s.writeWord 8 i w).readWord 8 i).toNat = BondEntry.stored (i % 6) w ∧
      ∀ j, j < 48 → j ≠ i → (s.writeWord 8 i w).readWord 8 j = s.readWord 8 j := by
  obtain ⟨hat, hother⟩ := record_reads (m := 8) (n := 6) BondEntry.word BondEntry.setWord
    (fun e w _ _ => e.word_setWord w) s.pairing.bonds w hi
  exact ⟨(congrArg BitVec.toNat hat).trans (BondEntry.setWord_stored _ w (Nat.mod_lt _ (by omega))), hother⟩

theorem State.writeWord_setting (hi : i < 9) :
    ((s.writeWord 9 i w).readWord 9 i).toNat = clampSetting i w.toNat ∧
      ∀ j, j < 9 → j ≠ i → (s.writeWord 9 i w).readWord 9 j = s.readWord 9 j := by
  have hrange : (settingRange i).1 ≤ 255 ∧ (settingRange i).2 ≤ 255 := by interval_cases i <;> decide
  have hread : ∀ j, j < 9 → (s.writeWord 9 i w).readWord 9 j =
      wordNat (if i = j then clampSetting i w.toNat else s.directives.settings.word j) := fun j hj =>
    congrArg wordNat (Settings.word_setWord _ hi _ hj)
  refine ⟨?_, fun j hj hne => ?_⟩
  · rw [hread i hi, if_pos rfl]
    refine wordNat_toNat ?_
    rw [clampSetting_eq hi]
    omega
  · rw [hread j hj, if_neg (Ne.symm hne)]
    rfl

theorem State.writeWord_mode (hi : i < 14) :
    ((s.writeWord 13 i w).readWord 13 i).toNat = min w.toNat 2 ∧
      ∀ j, j < 15 → j ≠ i → (s.writeWord 13 i w).readWord 13 j = s.readWord 13 j := by
  have hwrite : s.writeWord 13 i w =
      { s with directives := { s.directives with
          modes := update s.directives.modes (Fin.ofNat 14 i) fun _ => modeOf w.toNat } } := by
    simp only [State.writeWord, DirectiveUnit.setProtection, hi, if_true]
    rfl
  have hread : ∀ (s : State) j, j < 14 → s.readWord 13 j = wordNat (pick s.directives.modes j).code :=
    fun s j hj => if_pos hj
  rw [hwrite]
  refine ⟨?_, fun j hj hne => ?_⟩
  · rw [hread _ i hi, pick_update _ _ hi hi, if_pos rfl, wordNat_toNat ((Mode.code_le _).trans_lt (by omega)), modeOf_code]
  · by_cases hj14 : j < 14
    · rw [hread _ j hj14, hread _ j hj14, pick_update _ _ hi hj14, if_neg (Ne.symm hne)]
    · exact (if_neg hj14).trans (if_neg hj14).symm

theorem State.writeWord_lock :
    ((s.writeWord 13 14 w).readWord 13 14).toNat = (if w = 0 then 0 else 1) ∧
      ∀ j, j < 15 → j ≠ 14 → (s.writeWord 13 14 w).readWord 13 j = s.readWord 13 j := by
  have hzero : w.toNat = 0 ↔ w = 0 := by rw [BitVec.toNat_eq]; rfl
  refine ⟨(wordNat_flag _).trans ?_,
    fun j hj hne => (if_pos (show j < 14 by omega)).trans (if_pos (show j < 14 by omega)).symm⟩
  have hlock : (s.writeWord 13 14 w).directives.lock = (w.toNat != 0) := rfl
  rw [hlock]
  by_cases h : w = 0 <;> simp [flagCode, hzero, h]

theorem wordOf_bytes : wordOf (lowByte w) (highByte w) = w := by
  refine BitVec.eq_of_toNat_eq ?_
  rw [wordOf_toNat, lowByte_toNat, highByte_toNat]
  omega

theorem State.writeWord_staging (hi : i < 8) :
    (s.writeWord 14 i w).readWord 14 i = w ∧
      ∀ j, j < 8 → j ≠ i → (s.writeWord 14 i w).readWord 14 j = s.readWord 14 j := by
  have hbyte : ∀ k, k < 16 → pick (s.writeWord 14 i w).store.staging k =
      if 2 * i + 1 = k then highByte w else if 2 * i = k then lowByte w else pick s.store.staging k := by
    intro k hk
    have h0 := pick_update (s.store.staging.set (Fin.ofNat 16 (2 * i)) (lowByte w)) (fun _ => highByte w)
      (show 2 * i + 1 < 16 by omega) hk
    have h1 := pick_update s.store.staging (fun _ => lowByte w) (show 2 * i < 16 by omega) hk
    exact h0.trans (if_congr Iff.rfl rfl h1)
  have hread : ∀ (s : State) j, s.readWord 14 j = wordOf (pick s.store.staging (2 * j)) (pick s.store.staging (2 * j + 1)) :=
    fun s j => rfl
  refine ⟨?_, fun j hj hne => ?_⟩
  · rw [hread, hbyte _ (by omega), hbyte _ (by omega), if_pos rfl, if_neg (by omega), if_pos rfl, wordOf_bytes]
  · rw [hread, hread, hbyte _ (by omega), hbyte _ (by omega), if_neg (by omega), if_neg (by omega), if_neg (by omega),
      if_neg (by omega)]

/-- Words of other regions stay, so it is enough to know the words of the written one. -/
theorem State.writeWord_reads {r : RegionIx} {n : Nat}
    (h : ((s.writeWord r i w).readWord r i).toNat = n ∧
      ∀ j, j < regionCount r → j ≠ i → (s.writeWord r i w).readWord r j = s.readWord r j) :
    ((s.writeWord r i w).readWord r i).toNat = n ∧
      ∀ (q : RegionIx) (j : Nat), j < regionCount q → (q, j) ≠ (r, i) →
        (s.writeWord r i w).readWord q j = s.readWord q j := by
  refine ⟨h.1, fun q j hj hne => ?_⟩
  by_cases hq : q = r
  · subst hq
    exact h.2 j hj fun e => hne (e ▸ rfl)
  · exact s.readWord_writeWord_of_region j i w hq

end

/-- Settles O24, region by region. -/
theorem writtenWordReadsBack : Obligations.WrittenWordReadsBack := by
  unfold Obligations.WrittenWordReadsBack
  intro s r i w hi hr
  refine s.writeWord_reads w ?_
  have hwritable : ∀ r : RegionIx, r.val ∉ [0, 1, 4, 10, 11, 12] →
      r = 2 ∨ r = 3 ∨ r = 5 ∨ r = 6 ∨ r = 7 ∨ r = 8 ∨ r = 9 ∨ r = 13 ∨ r = 14 := by decide
  rcases hwritable r hr with rfl | rfl | rfl | rfl | rfl | rfl | rfl | rfl | rfl
  · exact s.writeWord_listener w hi
  · exact s.writeWord_cell w hi
  · exact number_reads s.mix.curve (by omega) (clampGain w.toNat) hi
  · exact number_reads s.mix.openMic (by omega) (clampGain w.toNat) hi
  · have hi17 : i < 17 := hi
    by_cases h16 : i = 16
    · subst h16
      exact s.writeWord_admission w
    · simp only [h16, if_false]
      exact s.writeWord_window (i := i) w (by omega)
  · exact s.writeWord_bond w hi
  · obtain ⟨hat, hother⟩ := s.writeWord_setting w (i := i) hi
    refine ⟨hat.trans ((clampSetting_eq hi _).trans ?_), hother⟩
    rfl
  · have hi15 : i < 15 := hi
    by_cases h14 : i = 14
    · subst h14
      exact s.writeWord_lock w
    · simp only [h14, if_false]
      exact s.writeWord_mode (i := i) w (by omega)
  · obtain ⟨hat, hother⟩ := s.writeWord_staging w hi
    exact ⟨congrArg BitVec.toNat hat, hother⟩

end Sys2Proof.Machine
end

