-- ==== Sys2Proof/Proofs/Loading.lean ====
section
/-! PROOFS. What the pages give the tables at start-up, byte by byte (R165, R166). -/

namespace Sys2Proof.Machine

variable (pages : Pages) (p q : Page)

theorem toList_getD_eq_pick {α : Type} {n : Nat} [NeZero n] (v : Vector α n) (d : α) {k : Nat} (h : k < n) :
    v.toList.getD k d = pick v k := by
  rw [pick_eq v h, List.getD_eq_getElem?_getD, Vector.getElem?_toList, Vector.getElem?_eq_getElem h]
  rfl

theorem pageByte_toNat {k : Nat} (h : k < 16) : (pageByte p k).toNat = (p.toList.getD k 0).toNat :=
  congrArg BitVec.toNat (toList_getD_eq_pick p 0 h).symm

theorem pageWord_toNat {k : Nat} (h : k < 8) :
    (pageWord p k).toNat = (p.toList.getD (2 * k) 0).toNat + 256 * (p.toList.getD (2 * k + 1) 0).toNat := by
  rw [pageWord, wordOf_toNat, pageByte_toNat p (by omega), pageByte_toNat p (by omega)]

theorem bne_zero_iff {n : Nat} (w : BitVec n) : (w != 0) = true ↔ w.toNat ≠ 0 := by
  rw [bne_iff_ne, ne_eq, BitVec.toNat_eq]
  rfl

/-- A window of a written page has its four words as written (R25, R165). -/
theorem loadWindow_of_written (i : Fin 4) (h : pick pages (1 + i.val / 2) = some p) :
    loadWindow pages i =
      { enable := pageWord p (4 * (i.val % 2)) != 0
        base := addressOf (highOf (pageWord p (4 * (i.val % 2) + 1))) (pageWord p (4 * (i.val % 2) + 2))
        compareLength := clampLength (pageWord p (4 * (i.val % 2) + 3)).toNat } := by
  simp only [loadWindow, h, List.foldl_cons, List.foldl_nil, Window.setWord, addressHigh_addressOf]
  rfl

theorem mapM_eq_none {α β : Type} {f : α → Option β} {l : List α} {a : α} (ha : a ∈ l) (h : f a = none) :
    l.mapM f = none := by
  induction l with
  | nil => exact absurd ha List.not_mem_nil
  | cons b l ih =>
    rw [List.mapM_cons]
    rcases List.mem_cons.1 ha with rfl | hl
    · rw [h]; rfl
    · rw [ih hl]; cases f b <;> rfl

theorem mapM_eq_map {α β : Type} {f : α → Option β} {g : α → β} {l : List α} (h : ∀ a ∈ l, f a = some (g a)) :
    l.mapM f = some (l.map g) := by
  induction l with
  | nil => rfl
  | cons b l ih =>
    rw [List.mapM_cons, h b List.mem_cons_self, ih fun a ha => h a (List.mem_cons_of_mem _ ha)]
    rfl

/-- A bond entry with a word on a blank page has the blank defaults (R166). -/
theorem loadBond_of_blank (i : Fin 8) {j : Nat} (hj : j < 6) (h : pick pages (3 + (6 * i.val + j) / 8) = none) :
    loadBond pages i = {} := by
  have hword : bondWord pages (6 * i.val + j) = none := by simp only [bondWord, h, Option.map_none]
  have hwords : ([0, 1, 2, 3, 4, 5].mapM fun j => bondWord pages (6 * i.val + j)) = none :=
    mapM_eq_none (List.mem_range.2 hj) hword
  rw [loadBond, hwords]

/-- A bond entry whose pages are written has its six words as written (R27, R165). -/
theorem loadBond_of_written (i : Fin 8) {word : Nat → Word}
    (h : ∀ k, k < 6 → bondWord pages (6 * i.val + k) = some (word k)) :
    loadBond pages i =
      { inUse := word 0 != 0
        addr := addressOf (highOf (word 1)) (word 2)
        setTag := word 3
        role := roleOf (word 4).toNat
        priority := clampPriority (word 5).toNat } := by
  have hwords : ([0, 1, 2, 3, 4, 5].mapM fun j => bondWord pages (6 * i.val + j)) =
      some [word 0, word 1, word 2, word 3, word 4, word 5] :=
    mapM_eq_map (g := word) fun k hk => h k (List.mem_range.1 hk)
  rw [loadBond, hwords]
  simp only [List.zipIdx_cons, List.zipIdx_nil, List.foldl_cons, List.foldl_nil, BondEntry.setWord, addressHigh_addressOf]

/-- The words of a bond entry lie on at most two pages (R165). -/
theorem bondWord_of_written (i : Fin 8) (hp : pick pages (3 + 6 * i.val / 8) = some p)
    (hq : pick pages (3 + (6 * i.val + 5) / 8) = some q) {k : Nat} (hk : k < 6) :
    bondWord pages (6 * i.val + k) =
      some (pageWord (if (6 * i.val + k) / 8 = 6 * i.val / 8 then p else q) ((6 * i.val + k) % 8)) := by
  split
  · next heq => simp only [bondWord, heq, hp, Option.map_some]
  · next hne =>
    have heq : (6 * i.val + k) / 8 = (6 * i.val + 5) / 8 := by omega
    simp only [bondWord, heq, hq, Option.map_some]

theorem defaultGain_val (i : Fin 64) :
    (defaultGain i.val).val =
      if i.val = 0 then 0 else 32768 / 2 ^ ((63 - i.val) / 8) * (16 - (63 - i.val) % 8) / 16 := by
  have hall : ∀ i : Fin 64, (defaultGain i.val).val =
      if i.val = 0 then 0 else 32768 / 2 ^ ((63 - i.val) / 8) * (16 - (63 - i.val) % 8) / 16 := by decide
  exact hall i

/-- A setting of a written page is within its range (R154, R166). -/
theorem loadSettings_of_written (h : pages[18] = some p) {i : Nat} (hi : i < 9) :
    (loadSettings pages).word i = clampSetting i (pageByte p i).toNat := by
  rw [loadSettings, h]
  interval_cases i <;> rfl

theorem loadCell_of_fixed {i : Fin 25} (h : fixedCell i.val = true) : loadCell pages i = 0 := if_pos h

theorem loadCell_of_free {i : Fin 25} (h : ¬ fixedCell i.val = true) :
    loadCell pages i =
      match if i.val < 16 then pages[19] else pages[20] with
      | some p => clampIndex (pageByte p (i.val % 16)).toNat
      | none => defaultCell i.val := by
  have hlt := i.isLt
  rw [loadCell, if_neg h]
  split_ifs with h16
  · rw [Nat.mod_eq_of_lt h16]
    cases pages[19] <;> rfl
  · have hmod : i.val % 16 = i.val - 16 := by omega
    rw [hmod]
    cases pages[20] <;> rfl

/-- Settles O34, table by table. -/
theorem pagesAreLoadedIntoTheirTables : Obligations.PagesAreLoadedIntoTheirTables := by
  unfold Obligations.PagesAreLoadedIntoTheirTables
  intro pages t page byte word
  have hpage : ∀ n, n < 21 → page n = pick pages n := fun n h => toList_getD_eq_pick pages none h
  have hbyte : ∀ (p : Page) k, k < 16 → byte p k = (pageByte p k).toNat := fun p k h => (pageByte_toNat p h).symm
  have hword : ∀ (p : Page) k, k < 8 → word p k = (pageWord p k).toNat := fun p k h => (pageWord_toNat p h).symm
  refine ⟨fun i => ?_, ?_, fun i => ?_, fun i => ⟨?_, ?_⟩, fun i => ?_, ?_, fun i => ?_, fun i => ?_⟩
  · have hmodes : t.modes[i] = (loadModes pages)[i] := rfl
    rw [hmodes, loadModes]
    cases pages[0] with
    | none => exact Vector.getElem_replicate ..
    | some p =>
      have hmode : (Vector.ofFn fun i : Fin 14 => modeOf (pageByte p i.val).toNat)[i] = modeOf (pageByte p i.val).toNat :=
        Vector.getElem_ofFn ..
      dsimp only
      rw [hmode, hbyte p _ (by omega)]
      exact modeOf_code _
  · exact pageZeroLocked_eq_true
  · have hwindow : t.windows[i] = loadWindow pages i := Vector.getElem_ofFn ..
    rw [hpage _ (by omega), hwindow]
    cases h : pick pages (1 + i.val / 2) with
    | none => rw [loadWindow, h]
    | some p =>
      rw [loadWindow_of_written pages p i h]
      dsimp only
      rw [hword p _ (by omega), hword p _ (by omega), hword p _ (by omega), hword p _ (by omega), addressOf_toNat,
        highOf_toNat, Nat.add_comm]
      exact ⟨bne_zero_iff _, rfl, rfl⟩
  · rintro ⟨j, hj⟩
    have hbond : t.bonds[i] = loadBond pages i := Vector.getElem_ofFn ..
    rw [hbond]
    exact loadBond_of_blank pages i j.isLt ((hpage _ (by omega)).symm.trans hj)
  · intro p q hp hq entry
    rw [hpage _ (by omega)] at hp hq
    have hentry : ∀ k, k < 6 → entry k =
        (pageWord (if (6 * i.val + k) / 8 = 6 * i.val / 8 then p else q) ((6 * i.val + k) % 8)).toNat :=
      fun k _ => hword _ _ (by omega)
    have hbond : t.bonds[i] = loadBond pages i := Vector.getElem_ofFn ..
    rw [hbond, loadBond_of_written pages i fun k => bondWord_of_written pages p q i hp hq, hentry 0 (by omega),
      hentry 1 (by omega), hentry 2 (by omega), hentry 3 (by omega), hentry 4 (by omega), hentry 5 (by omega)]
    dsimp only
    rw [addressOf_toNat, highOf_toNat, Nat.add_comm (BitVec.toNat _)]
    exact ⟨bne_zero_iff _, rfl, rfl, roleOf_code _, rfl⟩
  · have hgain : t.curve[i] = loadGain pages i := Vector.getElem_ofFn ..
    rw [hpage _ (by omega), hgain, loadGain]
    cases pick pages (9 + i.val / 8) with
    | none => exact defaultGain_val i
    | some p =>
      dsimp only
      rw [hword p _ (by omega)]
      rfl
  · have hmic : t.openMic = loadOpenMic pages := rfl
    have hdefaults : t.defaults = loadDefaults pages := rfl
    rw [hmic, hdefaults, loadOpenMic, loadDefaults]
    cases pages[17] with
    | none => exact ⟨rfl, rfl⟩
    | some p =>
      have hgain : ∀ i : Fin 4, (Vector.ofFn fun i : Fin 4 => clampGain (pageWord p i.val).toNat)[i] =
          clampGain (pageWord p i.val).toNat := fun i => Vector.getElem_ofFn ..
      have hat : ∀ k (h : k < 16), pageByte p k = p[k] := fun k h => pick_eq p h
      dsimp only
      rw [hat 8 (by omega), hat 9 (by omega), hat 10 (by omega), hat 11 (by omega), hat 12 (by omega)]
      refine ⟨fun i => ?_, rfl, rfl, rfl, bne_iff_ne, bne_iff_ne⟩
      rw [hgain, hword p _ (by omega)]
      rfl
  · intro u values
    have hvalue : values.getD i.val 0 = (loadSettings pages).word i.val := rfl
    rw [hvalue]
    cases h : pages[18] with
    | none =>
      rw [loadSettings, h]
      have hall : ∀ i : Fin 9, defaultSettings.word i.val = [4, 2, 200, 40, 160, 20, 10, 40, 1].getD i.val 0 := by decide
      exact hall i
    | some p =>
      rw [loadSettings_of_written pages p h i.isLt, clampSetting_eq i.isLt]
      dsimp only
      rw [hbyte p _ (by omega)]
      rfl
  · have hcell : t.mix[i] = loadCell pages i := Vector.getElem_ofFn ..
    have hfixed : ∀ i : Fin 25, i.val ∈ [0, 6, 12, 18, 24] ↔ fixedCell i.val = true := by decide
    rw [hcell]
    simp only [hfixed i]
    split
    · next h => exact loadCell_of_fixed pages h
    · next h =>
      rw [loadCell_of_free pages h]
      generalize (if i.val < 16 then pages[19] else pages[20]) = held
      cases held with
      | none =>
        dsimp only
        rw [defaultCell, if_neg h]
        split <;> rfl
      | some p =>
        dsimp only
        rw [hbyte p _ (by omega)]
        rfl

end Sys2Proof.Machine
end

