-- ==== Sys2Proof/Proofs/Movement.lean ====
section
/-! PROOFS. Movement into the ring, arrivals for a bound bud, and what a binding makes of a queue (R46 to R52, R64). -/

namespace Sys2Proof.Machine

/-! ## Moved blocks (R51) -/

/-- The 80 samples of an entry: those of an AUDIO block, 80 zeros for a SILENCE mark (R51). -/
def Entry.block (e : Entry) : Block :=
  match e.body with
  | .audio b => b
  | .silence => Vector.replicate 80 0

/-- The conceal count after a move of an entry (R51). -/
def Entry.concealAfter (e : Entry) (n : Nat) : Nat :=
  match e.body with
  | .audio _ => 0
  | .silence => n

/-- Steps 2 to 4 of a move (R51). -/
theorem Lane.takeBlock_eq (l : Lane) (e : Entry) :
    l.takeBlock e =
      { l with
        ring := l.ring ++ e.block.toList
        expected := l.expected.map (· + 1)
        lastGood := e.block
        concealCount := e.concealAfter l.concealCount } := by
  unfold Lane.takeBlock Entry.block Entry.concealAfter
  cases e.body <;> rfl

/-- The moves of a list of blocks, one after another. -/
def Lane.takeAll (l : Lane) (moved : List Entry) : Lane := moved.foldl Lane.takeBlock l

/-- What the moves of a list of blocks make of a lane (R51). -/
theorem Lane.takeAll_eq (l : Lane) (moved : List Entry) :
    l.takeAll moved =
      { l with
        ring := l.ring ++ moved.flatMap fun e => e.block.toList
        expected := l.expected.map (· + BitVec.ofNat 8 moved.length)
        lastGood := (moved.getLast?.map Entry.block).getD l.lastGood
        concealCount := if ∃ e ∈ moved, e.body ≠ .silence then 0 else l.concealCount } := by
  induction moved using List.reverseRecOn with
  | nil => simp [takeAll]
  | append_singleton moved e ih =>
    have hexpected : l.expected.map (fun x => x + BitVec.ofNat 8 (moved ++ [e]).length) =
        (l.expected.map (· + BitVec.ofNat 8 moved.length)).map (· + 1) := by
      rw [Option.map_map, List.length_append]
      refine congrArg (Option.map · _) (funext fun x => ?_)
      simp [BitVec.ofNat_add, BitVec.add_assoc]
    have hcount : e.concealAfter (if ∃ e ∈ moved, e.body ≠ .silence then 0 else l.concealCount) =
        if ∃ a ∈ moved ++ [e], a.body ≠ .silence then 0 else l.concealCount := by
      unfold Entry.concealAfter
      cases hb : e.body with
      | audio b =>
        have hsome : ∃ a ∈ moved ++ [e], a.body ≠ .silence := ⟨e, by simp, by simp [hb]⟩
        rw [if_pos hsome]
      | silence => exact if_congr (by simp [hb]) rfl rfl
    have hstep : l.takeAll (moved ++ [e]) = (l.takeAll moved).takeBlock e := List.foldl_append ..
    rw [hstep, ih, takeBlock_eq, hexpected]
    dsimp only
    rw [hcount]
    simp

/-- A movement takes the due heads, one after another while the ring holds at most 240 samples (R51). -/
theorem moveDue_moved (q : List Entry) (l : Lane) :
    ∃ moved : List Entry, q = moved ++ (moveDue q l).1 ∧ (moveDue q l).2 = l.takeAll moved ∧
      ∀ (i : Nat) (e : Entry), moved[i]? = some e →
        l.expected = some (e.seq - BitVec.ofNat 8 i) ∧ l.ring.length + 80 * i ≤ 240 := by
  induction q generalizing l with
  | nil => exact ⟨[], rfl, rfl, by simp⟩
  | cons a q ih =>
    unfold moveDue
    split
    · next hd =>
      rw [Bool.and_eq_true, Lane.isDue, beq_iff_eq, decide_eq_true_eq] at hd
      obtain ⟨hdue, hroom⟩ := hd
      obtain ⟨moved, hq, hlane, hmoved⟩ := ih (l.takeBlock a)
      refine ⟨a :: moved, congrArg (a :: ·) hq, hlane, fun i e he => ?_⟩
      match i with
      | 0 =>
        obtain rfl : a = e := by simpa using he
        exact ⟨by simpa using hdue, hroom⟩
      | i + 1 =>
        obtain ⟨hexpected, hring⟩ := hmoved i e (by simpa using he)
        rw [Lane.takeBlock_expected, hdue, Option.map_some, Option.some.injEq] at hexpected
        rw [Lane.takeBlock_ring] at hring
        refine ⟨?_, by omega⟩
        rw [hdue, BitVec.ofNat_add, ← BitVec.sub_sub, ← hexpected]
        simp
    · exact ⟨[], rfl, rfl, by simp⟩

/-- MOVE INTO RING, sent alone, is Intake's test for movement (R51, log entry 6). -/
theorem exec_moveIntoRing (s : State) (b : BudIx) : exec (.moveIntoRing b) s = .next (s.moveFor b) := rfl

/-- Settles O40, by the moves of the due heads. -/
theorem movementFillsTheRing : Obligations.MovementFillsTheRing := by
  unfold Obligations.MovementFillsTheRing
  refine ⟨fun f => ?_, fun s b => ⟨fun k hk => ?_, fun hk => ?_⟩⟩
  · obtain ⟨moved, hq, hlane, hmoved⟩ := moveDue_moved f.queue f.lane
    have hmove : f.move.lane = f.lane.takeAll moved := hlane
    have heq := f.lane.takeAll_eq moved
    refine ⟨moved, f.move.queue, hq, rfl, rfl, fun e he hd => ?_, ?_, ?_, moveDue_ring _ _, hmoved, ?_, ?_, ?_⟩
    · obtain ⟨rest, hrest⟩ := List.head?_eq_some_iff.1 he
      exact moveDue_movedAll f.queue f.lane e rest hrest hd
    · rw [hmove, heq]
      refine congrArg (f.lane.ring ++ ·) (congrArg (List.flatMap · moved) (funext fun e => ?_))
      unfold Entry.block
      cases e.body <;> rfl
    · rw [hmove, heq]
    · rw [hmove, heq]
      cases moved.getLast? with
      | none => rfl
      | some e =>
        cases hb : e.body <;> simp [Entry.block, hb]
    · rw [hmove, heq]
    · rw [hmove, heq]
  · rw [exec_moveIntoRing, State.moveFor, hk]
  · rw [exec_moveIntoRing, State.moveFor, hk]

/-! ## Arrivals for a bound bud (R48 to R50) -/

theorem any_seq {q : List Entry} {e : Entry} : (q.any (·.seq == e.seq)) = true ↔ ∃ a ∈ q, a.seq = e.seq := by simp

/-- A due head moves at once into an empty ring (R50, R51). -/
theorem moveDue_singleton {e : Entry} {l : Lane} (hdue : l.expected = some e.seq) (hroom : l.ring.length ≤ 240) :
    moveDue [e] l = ([], l.takeBlock e) := by
  have hmove : (l.isDue e && decide (l.ring.length ≤ Config.ringRoom)) = true := by
    simp [Lane.isDue, hdue, Config.ringRoom, hroom]
  simp only [moveDue, hmove, if_true]

/-- An arrival at an unset expected sequence sets it and moves at once (R50). -/
theorem Feed.arrive_of_unset (f : Feed) (e : Entry) (h : f.lane.expected = none) (hr : f.lane.ring = []) :
    f.arrive e = { f with queue := [], lane := ({ f.lane with expected := some e.seq } : Lane).takeBlock e } := by
  have hmove : moveDue [e] { f.lane with expected := some e.seq } =
      ([], ({ f.lane with expected := some e.seq } : Lane).takeBlock e) := moveDue_singleton rfl (by simp [hr])
  simp only [arrive, h, move, hmove]

section
variable {f : Feed} {e : Entry} {x : Byte} (hx : f.lane.expected = some x)

include hx

theorem Feed.arrive_of_late (h : 128 ≤ distance e.seq x) :
    f.arrive e = { f with discards := f.discards.addLate } := by
  simp only [arrive, hx, h, if_true]

variable (hd : distance e.seq x < 128)

include hd

theorem Feed.arrive_of_duplicate (h : ∃ a ∈ f.queue, a.seq = e.seq) :
    f.arrive e = { f with discards := f.discards.addDuplicate } := by
  simp only [arrive, hx, if_neg (Nat.not_le.2 hd), any_seq.2 h, if_true]

/-- Any other arrival is placed, after room has been made in a full queue (R48, R49). -/
theorem Feed.arrive_of_new (h : ∀ a ∈ f.queue, a.seq ≠ e.seq) :
    f.arrive e = (if 8 ≤ f.queue.length then f.makeRoom else f).place e := by
  have hnew : ¬ (f.queue.any (·.seq == e.seq)) = true := fun hq => by
    obtain ⟨a, ha, hs⟩ := any_seq.1 hq
    exact h a ha hs
  simp only [arrive, hx, if_neg (Nat.not_le.2 hd), if_neg hnew, Config.boundQueueLimit]
  exact (apply_ite (Feed.place · e) _ _ _).symm

end

theorem distance_inj {a b x : Byte} (h : distance a x = distance b x) : a = b :=
  sub_left_inj.1 (BitVec.eq_of_toNat_eq h)

/-- In a queue in distance order an arrival goes behind every nearer entry and before every farther one (R48). -/
theorem insertByDistance_split {x : Byte} {e : Entry} {q : List Entry}
    (hs : q.Pairwise fun a b => distance a.seq x < distance b.seq x) (hn : ∀ a ∈ q, a.seq ≠ e.seq) :
    ∃ near far : List Entry, q = near ++ far ∧ insertByDistance x e q = near ++ e :: far ∧
      (∀ a ∈ near, distance a.seq x < distance e.seq x) ∧ ∀ a ∈ far, distance e.seq x < distance a.seq x := by
  induction q with
  | nil => exact ⟨[], [], rfl, rfl, by simp, by simp⟩
  | cons a q ih =>
    obtain ⟨hhead, htail⟩ := List.pairwise_cons.1 hs
    unfold insertByDistance
    split
    · next hlt =>
      obtain ⟨near, far, rfl, hins, hnear, hfar⟩ := ih htail fun b hb => hn b (List.mem_cons_of_mem _ hb)
      exact ⟨a :: near, far, rfl, congrArg (a :: ·) hins, List.forall_mem_cons.2 ⟨hlt, hnear⟩, hfar⟩
    · next hge =>
      have hgt : distance e.seq x < distance a.seq x :=
        lt_of_le_of_ne (not_lt.1 hge) fun h => hn a List.mem_cons_self (distance_inj h).symm
      exact ⟨[], a :: q, rfl, rfl, by simp, List.forall_mem_cons.2 ⟨hgt, fun b hb => hgt.trans (hhead b hb)⟩⟩

/-- Beyond the expected sequence, every distance falls by 1 as it advances (R46, R49). -/
theorem distance_succ {a x : Byte} (h : a ≠ x) : distance a (x + 1) + 1 = distance a x := by
  have hne : a.toNat ≠ x.toNat := fun e => h (BitVec.eq_of_toNat_eq e)
  have ha := a.isLt
  have hx := x.isLt
  have hone : (1 : Byte).toNat = 1 := rfl
  simp only [distance, BitVec.toNat_sub, BitVec.toNat_add, hone]
  omega

/-- A queue in order without its due head is in order against the next sequence (R46, R49). -/
theorem pairwise_distance_succ {x : Byte} {q : List Entry}
    (hs : q.Pairwise fun a b => distance a.seq x < distance b.seq x) (hn : ∀ a ∈ q, a.seq ≠ x) :
    q.Pairwise fun a b => distance a.seq (x + 1) < distance b.seq (x + 1) := by
  refine hs.imp_of_mem fun {a b} ha hb hlt => ?_
  have hda := distance_succ (hn a ha)
  have hdb := distance_succ (hn b hb)
  omega

/-- What making room leaves of a full queue in order (R49). -/
theorem Feed.makeRoom_of_cons {f : Feed} {x : Byte} {head : Entry} {rest : List Entry} (hx : f.lane.expected = some x)
    (hq : f.queue = head :: rest) :
    f.makeRoom =
      if head.seq = x then
        { f with
          queue := rest
          lane := { f.lane with expected := some (x + 1), slips := satInc Config.counterMax f.lane.slips } }
      else { f with queue := rest, discards := f.discards.addOverflow } := by
  have hdue : f.lane.isDue head = true ↔ head.seq = x := by
    rw [Lane.isDue, hx, beq_iff_eq, Option.some.injEq, eq_comm]
  simp only [makeRoom, hq, hdue, Lane.advanceExpected, hx, Option.map_some]

/-- After room has been made the queue is in order against the expected sequence, which is set (R46, R49). -/
theorem Feed.makeRoom_sorted {f : Feed} {x : Byte} (hx : f.lane.expected = some x)
    (hs : f.queue.Pairwise fun a b => distance a.seq x < distance b.seq x) :
    ∃ y : Byte, f.makeRoom.lane.expected = some y ∧ f.makeRoom.queue <:+ f.queue ∧
      f.makeRoom.queue.Pairwise fun a b => distance a.seq y < distance b.seq y := by
  cases hq : f.queue with
  | nil => exact ⟨x, by simp [makeRoom, hq, hx], by simp [makeRoom, hq], by simp [makeRoom, hq]⟩
  | cons head rest =>
    rw [hq] at hs
    obtain ⟨hhead, htail⟩ := List.pairwise_cons.1 hs
    rw [makeRoom_of_cons hx hq]
    split
    · next heq =>
      refine ⟨x + 1, rfl, List.suffix_cons head rest, pairwise_distance_succ htail fun a ha h => ?_⟩
      have hlt := hhead a ha
      rw [heq, h] at hlt
      exact lt_irrefl _ hlt
    · exact ⟨x, hx, List.suffix_cons head rest, htail⟩

/-- The lane that Intake reckons an arrival against: the lowest-numbered that carries the bud (R46). -/
theorem LaneUnit.boundLane_eq_some {u : LaneUnit} {b : BudIx} {k : LaneIx} :
    u.boundLane b = some k ↔
      (u.lanes[k].carries = true ∧ u.lanes[k].bud = some b) ∧
        ∀ j, j < k → ¬ (u.lanes[j].carries = true ∧ u.lanes[j].bud = some b) := by
  have h := find?_eq_some_iff_lowest (l := Config.lanes)
    (p := fun k : LaneIx => u.lanes[k].carries && u.lanes[k].bud == some b) (i := k) (by decide) (by decide)
  rw [boundLane, h]
  simp

theorem Lane.carries_iff (l : Lane) : l.carries = true ↔ l.state = .priming ∨ l.state = .mixing := by
  unfold Lane.carries
  cases l.state <;> simp

/-- Settles O39: the lane and its feed; then the arrival by its distance. -/
theorem boundArrivalIsReckonedByDistance : Obligations.BoundArrivalIsReckonedByDistance := by
  unfold Obligations.BoundArrivalIsReckonedByDistance
  refine ⟨?_, ?_, ?_⟩
  · intro s b k e names
    refine ⟨?_, fun hk => State.intakeArrival_of_bound e hk⟩
    rw [LaneUnit.boundLane_eq_some]
    simp only [Lane.carries_iff]
    exact Iff.rfl
  · intro f e hx hr hq
    rw [Feed.arrive_of_unset f e hx hr, ← hq, Lane.takeBlock_eq]
    unfold Entry.block Entry.concealAfter
    cases e.body <;> simp [hr]
  · intro f e x hx hord hlen hn d full
    refine ⟨Feed.arrive_of_late hx, Feed.arrive_of_duplicate hx, ?_⟩
    intro hd hnew
    obtain ⟨-, hsorted, -⟩ := hord
    obtain ⟨y, hy, hsuffix, hroom⟩ := Feed.makeRoom_sorted hx (hsorted x hx)
    have hfull : 8 ≤ f.queue.length ↔ full := ⟨fun h => le_antisymm hlen h, fun h => h.ge⟩
    have hg : ∃ z : Byte, (if 8 ≤ f.queue.length then f.makeRoom else f).lane.expected = some z ∧
        (if 8 ≤ f.queue.length then f.makeRoom else f).queue <:+ f.queue ∧
        (if 8 ≤ f.queue.length then f.makeRoom else f).queue.Pairwise fun a b => distance a.seq z < distance b.seq z := by
      split
      · exact ⟨y, hy, hsuffix, hroom⟩
      · exact ⟨x, hx, List.suffix_refl _, hsorted x hx⟩
    obtain ⟨z, hz, hsub, hpair⟩ := hg
    obtain ⟨near, far, hsplit, hins, hnear, hfar⟩ :=
      insertByDistance_split (e := e) hpair fun a ha => hnew a (hsub.subset ha)
    refine ⟨if 8 ≤ f.queue.length then f.makeRoom else f, z, near, far, hz, hsplit, hnear, hfar, ?_, fun h => ?_,
      fun head rest h hq hs => ?_, fun head rest h hq hs => ?_⟩
    · rw [Feed.arrive_of_new hx hd hnew, Feed.place, hz]
      dsimp only
      rw [hins]
    · exact if_neg fun h8 => h (hfull.1 h8)
    · rw [if_pos (hfull.2 h), Feed.makeRoom_of_cons hx hq, if_pos hs]
      rfl
    · rw [if_pos (hfull.2 h), Feed.makeRoom_of_cons hx hq, if_neg hs]
      rfl

/-! ## Binding (R52, R64) -/

theorem keepLast_of_le {n : Nat} {q : List Entry} (h : q.length ≤ n) : keepLast n q = q := by
  rw [keepLast, Nat.sub_eq_zero_of_le h, List.drop_zero]

/-- A lane just emptied and bound to a bud (R64). -/
def Lane.primed (l : Lane) (b : BudIx) (x : ListenerIx) : Lane :=
  { state := .priming, bud := some b, listener := some x, slips := l.slips, conceals := l.conceals }

/-- The feed that Intake prepares for a binding (R52, R64). -/
def State.primedFeed (s : State) (k : LaneIx) (b : BudIx) (x : ListenerIx) : Feed where
  lane := s.laneUnit.lanes[k].primed b x
  queue := s.intake.queues[b]
  discards := s.intake.discards[b]

theorem State.bindLane_eq (s : State) (k : LaneIx) (b : BudIx) (x : ListenerIx) :
    s.bindLane k b x = (s.setFeed k b (s.primedFeed k b x).prepare).cancelWait x := rfl

theorem Feed.prepare_of_empty {f : Feed} (h : f.queue = []) : f.prepare = f := by
  obtain ⟨lane, queue, discards⟩ := f
  subst h
  rfl

/-- The older entry sets the expected sequence, and moves with what is due behind it into an empty ring (R52, R51). -/
theorem Feed.prepare_of_entries {f : Feed} {older : Entry} {newer : List Entry} (h : f.queue = older :: newer)
    (hlen : newer.length ≤ 1) (hr : f.lane.ring = []) :
    f.prepare =
      let lane := ({ f.lane with expected := some older.seq } : Lane).takeBlock older
      let r := moveDue (newer.filter fun e => distance e.seq older.seq < 128) lane
      { queue := r.1
        lane := r.2
        discards :=
          (newer.filter fun e => !decide (distance e.seq older.seq < 128)).foldl (fun d _ => d.addLate) f.discards } := by
  have hkeep : keepLast Config.unboundQueueLimit f.queue = older :: newer := by
    rw [h]
    exact keepLast_of_le (Nat.succ_le_succ hlen)
  have hdue : (({ f.lane with expected := some older.seq } : Lane).isDue older &&
      decide (f.lane.ring.length ≤ Config.ringRoom)) = true := by
    simp [Lane.isDue, hr]
  simp only [prepare, hkeep, move, moveDue, hdue, if_true]

/-- A lane that is not due an entry does not move it (R51). -/
theorem moveDue_of_not_due {e : Entry} {q : List Entry} {l : Lane} (h : l.expected ≠ some e.seq) :
    moveDue (e :: q) l = (e :: q, l) := by
  have hdue : l.isDue e = false := by
    rw [Lane.isDue]
    exact beq_false_of_ne h
  simp only [moveDue, hdue, Bool.false_and, Bool.false_eq_true, if_false]

theorem Lane.takeBlock_primed (l : Lane) (b : BudIx) (x : ListenerIx) (e : Entry) :
    ({ l.primed b x with expected := some e.seq } : Lane).takeBlock e =
      { l.primed b x with ring := e.block.toList, expected := some (e.seq + 1), lastGood := e.block } := by
  rw [takeBlock_eq]
  unfold Entry.concealAfter
  cases e.body <;> rfl

/-- What a binding makes of an emptied lane and a queue of at most two entries (R52, R64). -/
theorem State.primedFeed_prepare (s : State) (k : LaneIx) (b : BudIx) (x : ListenerIx) :
    let f := (s.primedFeed k b x).prepare
    let primed := s.laneUnit.lanes[k].primed b x
    let one := fun e : Entry => { primed with ring := e.block.toList, expected := some (e.seq + 1), lastGood := e.block }
    let d := s.intake.discards[b]
    (s.intake.queues[b] = [] → f = ⟨primed, [], d⟩) ∧
    (∀ e, s.intake.queues[b] = [e] → f = ⟨one e, [], d⟩) ∧
    (∀ e g : Entry, s.intake.queues[b] = [e, g] →
      (g.seq = e.seq + 1 →
        f = ⟨{ primed with
          ring := e.block.toList ++ g.block.toList, expected := some (e.seq + 2), lastGood := g.block }, [], d⟩) ∧
      (128 ≤ distance g.seq e.seq → f = ⟨one e, [], d.addLate⟩) ∧
      (g.seq ≠ e.seq + 1 → distance g.seq e.seq < 128 → f = ⟨one e, [g], d⟩)) := by
  intro f primed one d
  refine ⟨fun h => ?_, fun e h => ?_, fun e g h => ?_⟩
  · exact (Feed.prepare_of_empty h).trans (congrArg (fun q => (⟨primed, q, d⟩ : Feed)) h)
  · refine (Feed.prepare_of_entries h (Nat.zero_le _) rfl).trans ?_
    dsimp only
    exact congrArg (fun l => (⟨l, [], d⟩ : Feed)) (Lane.takeBlock_primed _ b x e)
  have hprep := Feed.prepare_of_entries (f := s.primedFeed k b x) h (le_refl 1) rfl
  have hone : ({ (s.primedFeed k b x).lane with expected := some e.seq } : Lane).takeBlock e = one e :=
    Lane.takeBlock_primed _ b x e
  rw [hone] at hprep
  refine ⟨fun hnext => ?_, fun hfar => ?_, fun hgap hnear => ?_⟩
  · have hdist : distance g.seq e.seq < 128 := by
      have hd : distance g.seq e.seq = 1 := by
        rw [distance, hnext, BitVec.add_comm, BitVec.add_sub_cancel]
        rfl
      omega
    have hkeep : [g].filter (fun a => decide (distance a.seq e.seq < 128)) = [g] := by simp [hdist]
    have hlate : [g].filter (fun a => !decide (distance a.seq e.seq < 128)) = [] := by simp [hdist]
    have hmove : moveDue [g] (one e) = ([], (one e).takeBlock g) :=
      moveDue_singleton (congrArg some hnext.symm) (by simp [one])
    have htwo : (one e).takeBlock g =
        { primed with
          ring := e.block.toList ++ g.block.toList, expected := some (e.seq + 2), lastGood := g.block } := by
      have hseq : e.seq + 1 + 1 = e.seq + 2 := BitVec.add_assoc ..
      rw [Lane.takeBlock_eq]
      unfold Entry.concealAfter
      cases g.body <;> simpa [one, primed, Lane.primed] using hseq
    rw [hkeep, hlate] at hprep
    dsimp only at hprep
    rw [hmove, htwo] at hprep
    exact hprep
  · have hkeep : [g].filter (fun a => decide (distance a.seq e.seq < 128)) = [] := by simp [hfar]
    have hlate : [g].filter (fun a => !decide (distance a.seq e.seq < 128)) = [g] := by simp [hfar]
    rw [hkeep, hlate] at hprep
    exact hprep
  · have hkeep : [g].filter (fun a => decide (distance a.seq e.seq < 128)) = [g] := by simp [hnear]
    have hlate : [g].filter (fun a => !decide (distance a.seq e.seq < 128)) = [] := by simp [hnear]
    have hmove : moveDue [g] (one e) = ([g], one e) :=
      moveDue_of_not_due fun hs => hgap (Option.some.inj hs).symm
    rw [hkeep, hlate] at hprep
    dsimp only at hprep
    rw [hmove] at hprep
    exact hprep

theorem State.bindLane_lane (s : State) (k : LaneIx) (b : BudIx) (x : ListenerIx) (j : LaneIx) :
    (s.bindLane k b x).laneUnit.lanes[j] = if k = j then (s.primedFeed k b x).prepare.lane else s.laneUnit.lanes[j] :=
  getElem_set_fin ..

theorem State.bindLane_queue (s : State) (k : LaneIx) (b : BudIx) (x : ListenerIx) (c : BudIx) :
    (s.bindLane k b x).intake.queues[c] = (if b = c then (s.primedFeed k b x).prepare.queue else s.intake.queues[c]) ∧
      (s.bindLane k b x).intake.discards[c] =
        if b = c then (s.primedFeed k b x).prepare.discards else s.intake.discards[c] :=
  ⟨getElem_set_fin .., getElem_set_fin ..⟩

/-- Settles O55, by the length of the queue and the distance of its newer entry. -/
theorem bindingPrimesTheLane : Obligations.BindingPrimesTheLane := by
  unfold Obligations.BindingPrimesTheLane
  intro s k b x l t audio primed d left
  have haudio : audio = Entry.block := rfl
  have hleft : ∀ {lane queue discards}, (s.primedFeed k b x).prepare = ⟨lane, queue, discards⟩ → left lane queue discards := by
    intro lane queue discards h
    obtain ⟨hqueue, hdiscards⟩ := s.bindLane_queue k b x b
    rw [if_pos rfl, h] at hqueue hdiscards
    refine ⟨?_, hqueue, hdiscards⟩
    rw [s.bindLane_lane, if_pos rfl, h]
  obtain ⟨hnone, hone, htwo⟩ := s.primedFeed_prepare k b x
  rw [haudio]
  refine ⟨fun h => hleft (hnone h), fun e h => hleft (hone e h), fun e f h => ?_, fun j hj => ?_, fun c hc => ?_, rfl,
    fun e he => (mem_removeWait he).1, rfl, rfl, rfl, rfl⟩
  · obtain ⟨hnext, hfar, hgap⟩ := htwo e f h
    exact ⟨fun hs => hleft (hnext hs), fun hs => ⟨fun hd => hleft (hfar hd), fun _ hd => hleft (hgap hs hd)⟩⟩
  · rw [s.bindLane_lane, if_neg (Ne.symm hj)]
  · obtain ⟨hqueue, hdiscards⟩ := s.bindLane_queue k b x c
    rw [if_neg (Ne.symm hc)] at hqueue hdiscards
    exact ⟨hqueue, hdiscards⟩

end Sys2Proof.Machine
end

