-- ==== Sys2Proof/Proofs/Mixing.lean ====
section
/-! PROOFS. The forming of the five outputs, and their emission (R105 to R111). -/

namespace Sys2Proof.Machine

variable {s : State}

/-! ## Sources and rows (R105 to R107) -/

/-- The values of a source at a sample that both sources have. -/
theorem addSources_getD {a b : List Int} {k : Nat} (ha : a.length = 80) (hb : b.length = 80) (hk : k < 80) :
    (addSources a b).getD k 0 = a.getD k 0 + b.getD k 0 := by
  have hka : k < a.length := ha ▸ hk
  have hkb : k < b.length := hb ▸ hk
  simp [addSources, List.getD_eq_getElem?_getD, hka, hkb]

theorem addSources_length {a b : List Int} (ha : a.length = 80) (hb : b.length = 80) : (addSources a b).length = 80 := by
  simp [addSources, ha, hb]

theorem map_getD {a : List Int} {k : Nat} (f : Int → Int) (ha : a.length = 80) (hk : k < 80) :
    (a.map f).getD k 0 = f (a.getD k 0) := by
  have hka : k < a.length := ha ▸ hk
  simp [List.getD_eq_getElem?_getD, hka]

/-- A sum of sources is summed sample by sample. -/
theorem foldl_addSources {α : Type} (f : α → List Int) (l : List α) (sum : List Int) {k : Nat} (hk : k < 80)
    (hf : ∀ c ∈ l, (f c).length = 80) (hs : sum.length = 80) :
    (l.foldl (fun sum c => addSources sum (f c)) sum).length = 80 ∧
      (l.foldl (fun sum c => addSources sum (f c)) sum).getD k 0 = sum.getD k 0 + (l.map fun c => (f c).getD k 0).sum := by
  induction l generalizing sum with
  | nil => exact ⟨hs, by simp⟩
  | cons c l ih =>
    obtain ⟨hc, hl⟩ := List.forall_mem_cons.1 hf
    obtain ⟨hlen, hget⟩ := ih (addSources sum (f c)) hl (addSources_length hs hc)
    refine ⟨hlen, hget.trans ?_⟩
    rw [addSources_getD hs hc hk, List.map_cons, List.sum_cons, add_assoc]

theorem silentSource_length : silentSource.length = 80 := rfl

theorem silentSource_getD (k : Nat) : silentSource.getD k 0 = 0 := by
  rw [silentSource, List.getD_eq_getElem?_getD, List.getElem?_replicate]
  split <;> rfl

/-- Source Lj (R105). -/
theorem State.talkSource_getD (s : State) {h : Handover} (j : ListenerIx) {k : Nat} (hk : k < 80)
    (hc : ∀ c ∈ h.contributions, c.samples.length = 80) :
    (s.talkSource h j).length = 80 ∧
      (s.talkSource h j).getD k 0 =
        ((h.contributions.filter (·.listener = j)).map fun c =>
          scale (c.samples.getD k 0) (s.mix.gain s.roster.listeners[j].micGain)).sum := by
  obtain ⟨hlen, hget⟩ := foldl_addSources (fun c : Contribution => c.samples.map fun y =>
    scale y (s.mix.gain s.roster.listeners[j].micGain)) (h.contributions.filter (·.listener == j)) silentSource hk
    (fun c hm => by rw [List.length_map]; exact hc c (List.mem_of_mem_filter hm)) silentSource_length
  refine ⟨hlen, hget.trans ?_⟩
  rw [silentSource_getD, zero_add]
  refine congrArg List.sum (List.map_congr_left fun c hm => map_getD _ (hc c (List.mem_of_mem_filter hm)) hk)

/-- A row's weighted sum of five sources (R106). -/
theorem State.accumulate_getD (s : State) (row : Fin 5) {far t0 t1 t2 t3 : List Int} {k : Nat} (hk : k < 80)
    (hf : far.length = 80) (h0 : t0.length = 80) (h1 : t1.length = 80) (h2 : t2.length = 80) (h3 : t3.length = 80) :
    (s.accumulate row [far, t0, t1, t2, t3]).length = 80 ∧
      (s.accumulate row [far, t0, t1, t2, t3]).getD k 0 =
        far.getD k 0 * s.weight row 0 + t0.getD k 0 * s.weight row 1 + t1.getD k 0 * s.weight row 2 +
          t2.getD k 0 * s.weight row 3 + t3.getD k 0 * s.weight row 4 := by
  obtain ⟨hlen, hget⟩ := foldl_addSources (fun p : List Int × Nat => p.1.map fun x => x * (p.2 : Int))
    [(far, s.weight row 0), (t0, s.weight row 1), (t1, s.weight row 2), (t2, s.weight row 3), (t3, s.weight row 4)]
    silentSource hk (by simp [hf, h0, h1, h2, h3]) silentSource_length
  refine ⟨hlen, hget.trans ?_⟩
  simp only [List.map_cons, List.map_nil, map_getD _ hf hk, map_getD _ h0 hk, map_getD _ h1 hk, map_getD _ h2 hk,
    map_getD _ h3 hk, silentSource_getD, List.sum_cons, List.sum_nil]
  ring

/-- A row of the outputs, sample by sample (R106, R107). -/
theorem State.rows_getD (s : State) {far : List Int} {h : Handover} {k : Nat} (row : Fin 5) (hf : far.length = 80)
    (hk : k < 80) (hc : ∀ c ∈ h.contributions, c.samples.length = 80) :
    ((s.rows far h).getD row.val []).getD k 0 =
      scale (midOf (far.getD k 0 * s.weight row 0 + (s.talkSource h 0).getD k 0 * s.weight row 1 +
        (s.talkSource h 1).getD k 0 * s.weight row 2 + (s.talkSource h 2).getD k 0 * s.weight row 3 +
        (s.talkSource h 3).getD k 0 * s.weight row 4)) (s.finalGain row h.mixing) := by
  have hrow : (s.rows far h).getD row.val [] = s.rowValues row (s.sources far h) h.mixing := by
    fin_cases row <;> rfl
  have hlen := fun j => (s.talkSource_getD j hk hc).1
  obtain ⟨hacc, hget⟩ := s.accumulate_getD row hk hf (hlen 0) (hlen 1) (hlen 2) (hlen 3)
  rw [hrow, State.rowValues]
  exact (map_getD _ hacc hk).trans (congrArg (fun v => scale (midOf v) (s.finalGain row h.mixing)) hget)

/-- A listener's row is not UP. -/
theorem row_ne_up (x : ListenerIx) (hx : x.val + 1 < 5) : (⟨x.val + 1, hx⟩ : Fin 5) ≠ 0 :=
  fun h => absurd (congrArg Fin.val h) (Nat.succ_ne_zero _)

/-- The weights of a listener's row: its sidetone for its own voice (R106). -/
theorem State.weight_listener (s : State) (x j : ListenerIx) (hx : x.val + 1 < 5) (hj : j.val + 1 < 5) :
    ((s.weight ⟨x.val + 1, hx⟩ ⟨j.val + 1, hj⟩ : Nat) : Int) =
      if j = x then (s.mix.curve[s.roster.listeners[x].sidetone].val : Int)
      else (s.mix.curve[s.mix.active[Fin.ofNat 25 (5 * (x.val + 1) + (j.val + 1))]].val : Int) := by
  by_cases h : j = x
  · subst h
    rw [if_pos rfl, State.weight, dif_pos ⟨rfl, row_ne_up j hx⟩]
    rfl
  · have hne : ¬ ((⟨x.val + 1, hx⟩ : Fin 5) = ⟨j.val + 1, hj⟩ ∧ (⟨x.val + 1, hx⟩ : Fin 5) ≠ 0) := fun hw =>
      h (Fin.ext (Nat.succ.inj (Fin.mk.inj hw.1)).symm)
    have hcell : Fin.ofNat 25 (5 * (x.val + 1) + (j.val + 1)) = ⟨5 * (x.val + 1) + (j.val + 1), by omega⟩ :=
      Fin.ext (Nat.mod_eq_of_lt (by omega))
    rw [if_neg h, State.weight, dif_neg hne]
    exact congrArg (fun i => (s.mix.gain s.mix.active[i] : Int)) hcell.symm

theorem State.weight_far (s : State) (x : ListenerIx) (hx : x.val + 1 < 5) :
    s.weight ⟨x.val + 1, hx⟩ 0 = s.mix.gain s.mix.active[Fin.ofNat 25 (5 * (x.val + 1) + 0)] := by
  have hne : ¬ ((⟨x.val + 1, hx⟩ : Fin 5) = 0 ∧ (⟨x.val + 1, hx⟩ : Fin 5) ≠ 0) := fun hw => hw.2 hw.1
  have hcell : Fin.ofNat 25 (5 * (x.val + 1) + 0) = ⟨5 * (x.val + 1) + 0, by omega⟩ :=
    Fin.ext (Nat.mod_eq_of_lt (by omega))
  rw [State.weight, dif_neg hne]
  exact congrArg (fun i => s.mix.gain s.mix.active[i]) hcell.symm

theorem State.finalGain_listener (s : State) (x : ListenerIx) (hx : x.val + 1 < 5) (n : Nat) :
    s.finalGain ⟨x.val + 1, hx⟩ n = s.mix.gain s.roster.listeners[x].volume := by
  rw [State.finalGain, dif_pos (row_ne_up x hx)]
  rfl

theorem State.finalGain_up (s : State) {n : Nat} (h : n ≤ 3) : s.finalGain 0 n = (s.mix.openMic[Fin.ofNat 4 n]).val := by
  have hn : (⟨min n 3, by omega⟩ : Fin 4) = Fin.ofNat 4 n :=
    Fin.ext ((Nat.min_eq_left h).trans (Nat.mod_eq_of_lt (Nat.lt_succ_of_le h)).symm)
  rw [State.finalGain, dif_neg (not_not.2 rfl)]
  exact congrArg (fun i => s.mix.openMic[i].val) hn

/-- Settles O59, row by row. -/
theorem mixRowsAreScaledAndSummed : Obligations.MixRowsAreScaledAndSummed := by
  unfold Obligations.MixRowsAreScaledAndSummed
  intro s far h k hf hk hm hc gain talk cell out
  have htalk : ∀ j, (s.talkSource h j).getD k 0 = talk j := fun j => (s.talkSource_getD j hk hc).2
  refine ⟨?_, fun x => ?_⟩
  · have hrow := s.rows_getD (h := h) 0 hf hk hc
    rw [s.finalGain_up hm, htalk, htalk, htalk, htalk] at hrow
    exact hrow
  · intro row weight
    have hx : x.val + 1 < 5 := by omega
    have hrow := s.rows_getD (h := h) ⟨x.val + 1, hx⟩ hf hk hc
    have hweight : ∀ (j : ListenerIx) (hj : j.val + 1 < 5), ((s.weight ⟨x.val + 1, hx⟩ ⟨j.val + 1, hj⟩ : Nat) : Int) = weight j :=
      fun j hj => s.weight_listener x j hx hj
    have h1 : ((s.weight ⟨x.val + 1, hx⟩ 1 : Nat) : Int) = weight 0 := hweight 0 (by decide)
    have h2 : ((s.weight ⟨x.val + 1, hx⟩ 2 : Nat) : Int) = weight 1 := hweight 1 (by decide)
    have h3 : ((s.weight ⟨x.val + 1, hx⟩ 3 : Nat) : Int) = weight 2 := hweight 2 (by decide)
    have h4 : ((s.weight ⟨x.val + 1, hx⟩ 4 : Nat) : Int) = weight 3 := hweight 3 (by decide)
    rw [s.finalGain_listener x hx, s.weight_far x hx, h1, h2, h3, h4, htalk, htalk, htalk, htalk] at hrow
    exact hrow

/-! ## Saturation (R108) -/

theorem clampInt_eq {lo hi : Int} (h : lo ≤ hi) (n : Int) : clampInt lo hi n = max lo (min hi n) := by
  unfold clampInt
  split_ifs <;> omega

theorem saturate_toInt (n : Int) : (saturate n).toInt = max (-32768) (min 32767 n) := by
  rw [saturate, sampleOf, clampInt_eq (by omega), BitVec.toInt_ofInt]
  exact Int.bmod_eq_of_le (by omega) (by omega)

theorem Mix.countClips_clips (m : Mix) (rows : List (List Int)) (i : Fin 5) :
    (m.countClips rows).clips[i] =
      if ∃ v ∈ rows.getD i.val [], v < -32768 ∨ 32767 < v then min (m.clips[i] + 1) 65535 else m.clips[i] := by
  have hclips : (m.countClips rows).clips[i] =
      if (rows.getD i.val []).any isClipped then satInc Config.counterMax m.clips[i] else m.clips[i] :=
    Vector.getElem_mapIdx ..
  have hany : (rows.getD i.val []).any isClipped = true ↔ ∃ v ∈ rows.getD i.val [], v < -32768 ∨ 32767 < v := by
    simp [List.any_eq_true, isClipped]
  rw [hclips]
  simp only [hany]
  rfl

/-! ## Recipients and emission (R109 to R111) -/

theorem LinkState.supervised_iff (l : LinkState) : l.supervised = true ↔ l = .joining ∨ l = .live ∨ l = .fading := by
  cases l <;> simp [LinkState.supervised]

theorem Roster.recipient_eq (r : Roster) (x : ListenerIx) (b : BudIx) :
    r.recipient x b =
      if (r.buds[b].link.supervised && r.buds[b].handle.isSome) = true then
        some { listener := x, bud := b, handle := r.buds[b].handle.getD 0, seq := r.buds[b].dlSeq }
      else none := by
  unfold Roster.recipient
  generalize r.buds[b] = c
  cases c.link.supervised <;> cases c.handle <;> rfl

/-- The eligible members of a listener, in join order (R110). -/
theorem Roster.recipients_eq (r : Roster) :
    r.recipients = Config.listeners.flatMap fun x =>
      (r.listeners[x].members.filter fun b => r.buds[b].link.supervised && r.buds[b].handle.isSome).map fun b =>
        { listener := x, bud := b, handle := r.buds[b].handle.getD 0, seq := r.buds[b].dlSeq } := by
  unfold Roster.recipients
  refine congrArg (List.flatMap · Config.listeners) (funext fun x => ?_)
  generalize r.listeners[x].members = l
  induction l with
  | nil => rfl
  | cons b l ih =>
    rw [List.filterMap_cons, List.filter_cons, ih, Roster.recipient_eq]
    split_ifs <;> rfl

/-- The recipients in a sound party: every supervised bud, with its downlink sequence, and no other (R110). -/
theorem State.mem_recipients (hp : s.PartySound) (b : BudIx) :
    (∃ r ∈ s.roster.recipients, r.bud = b) ↔ s.roster.buds[b].link.supervised = true := by
  obtain ⟨-, hhandle, -⟩ := hp.buds
  obtain ⟨hmember, hnamed⟩ := hp.membership
  simp only [Roster.recipients_eq, List.mem_flatMap, List.mem_map, List.mem_filter, Bool.and_eq_true]
  constructor
  · rintro ⟨r, ⟨x, -, c, ⟨-, hsup, -⟩, rfl⟩, rfl⟩
    exact hsup
  · intro hsup
    have hfree : s.roster.buds[b].link ≠ .free := fun h => by rw [h] at hsup; exact absurd hsup (by decide)
    obtain ⟨x, hx⟩ := Option.ne_none_iff_exists'.1 (mt (hnamed b).2 hfree)
    exact ⟨_, ⟨x, mem_listeners x, b, ⟨(hmember b x).2 hx, hsup, hhandle b hfree⟩, rfl⟩, rfl⟩

theorem Roster.recipients_seq {r : Roster} {p : Recipient} (h : p ∈ r.recipients) :
    p.seq = r.buds[p.bud].dlSeq ∧ r.buds[p.bud].link ≠ .free := by
  simp only [Roster.recipients_eq, List.mem_flatMap, List.mem_map, List.mem_filter, Bool.and_eq_true] at h
  obtain ⟨x, -, b, ⟨-, hsup, -⟩, rfl⟩ := h
  exact ⟨rfl, fun h => by rw [h] at hsup; exact absurd hsup (by decide)⟩

/-- The hand-over of one frame to each of a list of recipients. -/
def State.sendEach (s : State) (rs : List Recipient) (f : Recipient → AirFrame) : State :=
  rs.foldl (fun s r => s.sendDownlink r (f r)) s

theorem State.sendDownlink_frame (s : State) (r : Recipient) (f : AirFrame) :
    s.sendDownlink r f =
      { s with airPort := s.airPort.handOver f, roster := { s.roster with buds := (s.sendDownlink r f).roster.buds } } := by
  unfold State.sendDownlink
  dsimp only
  split <;> rfl

/-- Emission reaches the Air Port's queue and the bud records alone (R110, R111). -/
theorem State.sendEach_frame (s : State) (rs : List Recipient) (f : Recipient → AirFrame) :
    s.sendEach rs f =
      { s with
        airPort := (rs.map f).foldl AirPort.handOver s.airPort
        roster := { s.roster with buds := (s.sendEach rs f).roster.buds } } := by
  induction rs using List.reverseRecOn with
  | nil => rfl
  | append_singleton rs r ih =>
    have hstep : s.sendEach (rs ++ [r]) f = (s.sendEach rs f).sendDownlink r (f r) := List.foldl_append ..
    rw [hstep, State.sendDownlink_frame, ih, List.map_append, List.foldl_append]
    rfl

/-- A downlink sequence advances by 1 for a bud that was handed a frame (R110, R111). -/
theorem State.sendEach_buds (s : State) (rs : List Recipient) (f : Recipient → AirFrame)
    (h : ∀ r ∈ rs, r.seq = s.roster.buds[r.bud].dlSeq ∧ s.roster.buds[r.bud].link ≠ .free) (b : BudIx) :
    (s.sendEach rs f).roster.buds[b] =
      { s.roster.buds[b] with
        dlSeq := if ∃ r ∈ rs, r.bud = b then s.roster.buds[b].dlSeq + 1 else s.roster.buds[b].dlSeq } := by
  induction rs using List.reverseRecOn generalizing b with
  | nil => simp [sendEach]
  | append_singleton rs r ih =>
    have hbuds := ih fun p hp => h p (List.mem_append_left _ hp)
    obtain ⟨hseq, hlink⟩ := h r (by simp)
    have hstep : s.sendEach (rs ++ [r]) f = (s.sendEach rs f).sendDownlink r (f r) := List.foldl_append ..
    have hfree : ¬ (s.sendEach rs f).roster.buds[r.bud].link = .free := by rw [hbuds r.bud]; exact hlink
    have hsend : ((s.sendEach rs f).sendDownlink r (f r)).roster.buds =
        (s.sendEach rs f).roster.buds.set r.bud { (s.sendEach rs f).roster.buds[r.bud] with dlSeq := r.seq + 1 } := by
      unfold State.sendDownlink
      dsimp only
      rw [if_neg (by exact hfree)]
      rfl
    rw [hstep, hsend, getElem_set_fin, hbuds b, hbuds r.bud, hseq]
    by_cases hb : r.bud = b
    · have hex : ∃ p ∈ rs ++ [r], p.bud = b := ⟨r, by simp, hb⟩
      subst hb
      rw [if_pos rfl, if_pos hex]
    · have hex : (∃ p ∈ rs ++ [r], p.bud = b) ↔ ∃ p ∈ rs, p.bud = b := by
        constructor
        · rintro ⟨p, hp, rfl⟩
          rcases List.mem_append.1 hp with hp | hp
          · exact ⟨p, hp, rfl⟩
          · exact absurd (congrArg Recipient.bud (List.mem_singleton.1 hp)).symm hb
        · rintro ⟨p, hp, rfl⟩
          exact ⟨p, List.mem_append_left _ hp, rfl⟩
      rw [if_neg hb]
      simp only [hex]

/-- The Voice Port's choice depends on the port and on the report queue alone (R139). -/
theorem State.chooseVoice_voicePort (s : State) (m : Mix) :
    ({ s with mix := m } : State).chooseVoice.voicePort = s.chooseVoice.voicePort := by
  unfold State.chooseVoice
  split
  · cases s.voicePort.slot with
    | some f => rfl
    | none => cases s.directives.reports <;> rfl
  · rfl

/-- The forming of the outputs: clip counts, the uplink frame, and one frame to each of the audience (R108 to R110). -/
theorem State.formOutputs_eq (s : State) (far : List Int) (audience : List Recipient) :
    s.formOutputs far audience =
      (({ s with mix := s.mix.countClips (s.rows far s.laneUnit.handover) } : State).emitUplink
        (outputBlock ((s.rows far s.laneUnit.handover).getD 0 []))).sendEach audience
          fun r => .downlinkAudio r.handle r.seq (outputBlock ((s.rows far s.laneUnit.handover).getD (r.listener.val + 1) [])) :=
  rfl

theorem State.emitUplink_only (s : State) (up : Block) :
    (s.emitUplink up).roster = s.roster ∧ (s.emitUplink up).airPort = s.airPort ∧
      (s.emitUplink up).mix = { s.mix with uplinkSeq := s.mix.uplinkSeq + 1 } :=
  ⟨State.chooseVoice_roster _, State.chooseVoice_airPort _, State.chooseVoice_mix _⟩

theorem State.emitUplink_voicePort (s : State) (m : Mix) (up : Block) :
    (({ s with mix := m } : State).emitUplink up).voicePort =
      ({ s with voicePort := { s.voicePort with slot := some { seq := m.uplinkSeq, samples := up } } } :
        State).chooseVoice.voicePort :=
  State.chooseVoice_voicePort { s with voicePort := { s.voicePort with slot := some { seq := m.uplinkSeq, samples := up } } } _

/-- What the hand-over to the audience of a sound party makes of the records (R110, R111). -/
theorem State.sendEach_recipients (hp : s.PartySound) {t : State} (ht : t.roster = s.roster) (f : Recipient → AirFrame)
    (b : BudIx) :
    (t.sendEach s.roster.recipients f).roster.buds[b] =
      { s.roster.buds[b] with
        dlSeq := if s.roster.buds[b].link = .joining ∨ s.roster.buds[b].link = .live ∨ s.roster.buds[b].link = .fading
          then s.roster.buds[b].dlSeq + 1 else s.roster.buds[b].dlSeq } := by
  rw [t.sendEach_buds _ f (fun r hr => by rw [ht]; exact Roster.recipients_seq hr) b, ht]
  simp only [State.mem_recipients hp, LinkState.supervised_iff]

/-- Settles O60: saturation, the audience, and the emission of a mixing cadence and of a hold. -/
theorem outputsAreSaturatedAndEmitted : Obligations.OutputsAreSaturatedAndEmitted := by
  unfold Obligations.OutputsAreSaturatedAndEmitted
  refine ⟨fun values k => ?_, fun r => ?_, ?_⟩
  · have hblock : (outputBlock values)[k] = saturate (values.getD k.val 0) := Vector.getElem_ofFn ..
    rw [hblock, saturate_toInt]
  · rw [Roster.recipients_eq]
    refine congrArg (List.flatMap · Config.listeners) (funext fun x => congrArg (List.map _) (List.filter_congr fun b _ => ?_))
    rw [Bool.eq_iff_iff]
    simp only [Bool.and_eq_true, LinkState.supervised_iff, decide_eq_true_eq, Option.isSome_iff_ne_none]
  · intro s far hp rows audience frame t served advanced
    obtain ⟨hroster, hair, hmix⟩ := State.emitUplink_only { s with mix := s.mix.countClips rows } (outputBlock (rows.getD 0 []))
    have ht : t = _ := s.formOutputs_eq far audience
    have hframe := ht.trans (State.sendEach_frame _ audience frame)
    have hclips : t.mix.clips = (s.mix.countClips rows).clips := by rw [hframe]; dsimp only; rw [hmix]
    refine ⟨fun i => ?_, ?_, ?_, ?_, fun b => ?_, ?_, ?_, fun b => ?_, ?_⟩
    · rw [hclips]
      exact Mix.countClips_clips ..
    · rw [hclips, hframe]
      dsimp only
      rw [hmix]
      rfl
    · rw [hframe]
      exact State.emitUplink_voicePort s _ _
    · rw [hframe]
      dsimp only
      rw [hair]
    · rw [ht]
      exact State.sendEach_recipients hp hroster frame b
    · rw [hframe]
      dsimp only
      rw [hroster]
    · have hsilence := State.sendEach_frame s audience fun r => .downlinkSilence r.handle r.seq
      exact hsilence.trans (congrArg (fun q => ({ s with airPort := _, roster := q } : State))
        (congrArg State.roster hsilence).symm)
    · exact State.sendEach_recipients hp rfl _ b
    · rw [show s.emitSilence = s.sendEach audience _ from rfl, State.sendEach_frame]

end Sys2Proof.Machine
end

