-- ==== Sys2Proof/Proofs/Pulls.lean ====
section
/-! PROOFS. What the stages of a pull compute (R83 to R92), and what a concealment block does to the queue (R54). -/

namespace Sys2Proof.Machine

/-! ## Concealment (R85, R86) -/

/-- The concealment block for a conceal count (R85). -/
theorem concealBlock_toList (count : Nat) (good : Block) :
    (concealBlock count good).toList = good.toList.map fun x : Sample =>
      BitVec.ofInt 16 ((x.toInt * (if count = 0 then 16384 else if count = 1 then 8192 else 0) + 16384) / 32768) := by
  rw [concealBlock, Vector.toList_map]
  refine congrArg (List.map · _) (funext fun x => ?_)
  rw [sampleOf, scale, sampleInt]
  match count with
  | 0 | 1 => rfl
  | _ + 2 => rfl

/-- A conceal count of 2 stands for every greater one (R85). -/
theorem concealBlock_min (n : Nat) (good : Block) : concealBlock (min n 2) good = concealBlock n good := by
  match n with
  | 0 | 1 => rfl
  | n + 2 =>
    rw [Nat.min_eq_right (by omega)]
    rfl

/-- What a concealment block makes of the queue: a head that it drives past distance 0 is a counted late discard (R54). -/
def dropDue (x : Option Byte) (q : List Entry × Discards) : List Entry × Discards :=
  match q.1 with
  | head :: rest => if some head.seq = x then (rest, { q.2 with late := min (q.2.late + 1) 65535 }) else q
  | [] => q

theorem Feed.conceal_kept (f : Feed) :
    (f.conceal.queue, f.conceal.discards) = dropDue f.lane.expected (f.queue, f.discards) := by
  unfold Feed.conceal dropDue
  cases hq : f.queue with
  | nil => rfl
  | cons head rest =>
    dsimp only
    by_cases hdue : f.lane.isDue head = true
    · have hx : some head.seq = f.lane.expected := by rw [Lane.isDue, beq_iff_eq] at hdue; exact hdue.symm
      rw [if_pos hdue, if_pos hx]
      rfl
    · have hx : ¬ some head.seq = f.lane.expected := fun h => hdue (by rw [Lane.isDue, beq_iff_eq]; exact h.symm)
      rw [if_neg hdue, if_neg hx]

/-- How many concealment blocks stage 2 appends for a need of at most 160 (R86). -/
def blocksFor (n held : Nat) : Nat := if n ≤ held then 0 else if n ≤ held + 80 then 1 else 2

theorem blocksFor_holds {n held : Nat} (h : n ≤ 160) : n ≤ held + 80 * blocksFor n held := by
  unfold blocksFor
  split_ifs <;> omega

/-- Stage 2, for each number of blocks (R86). -/
theorem Feed.concealTo_eq (f : Feed) (n : Nat) :
    f.concealTo n =
      if blocksFor n f.lane.ring.length = 0 then f
      else if blocksFor n f.lane.ring.length = 1 then f.conceal else f.conceal.conceal := by
  unfold Feed.concealTo blocksFor
  dsimp only
  rw [Feed.conceal_ring]
  by_cases hnone : n ≤ f.lane.ring.length
  · simp [hnone]
  · by_cases hone : n ≤ f.lane.ring.length + 80 <;> simp [hnone, hone]

/-- What stage 2 makes of a lane in range (R85, R86). -/
theorem Feed.concealTo_lane {f : Feed} (hr : f.lane.InRange) (hc : f.lane.CountersBounded) (n : Nat) :
    let l := f.lane
    let blocks := blocksFor n l.ring.length
    let conceal := fun count : Nat => (concealBlock count l.lastGood).toList
    (f.concealTo n).lane =
      { l with
        ring := l.ring ++
          (if blocks = 0 then [] else if blocks = 1 then conceal l.concealCount
            else conceal l.concealCount ++ conceal (l.concealCount + 1))
        expected := l.expected.map (· + BitVec.ofNat 8 blocks)
        concealCount := min (l.concealCount + blocks) 2
        conceals := min (l.conceals + blocks) 65535 } := by
  intro l blocks conceal
  obtain ⟨-, -, -, -, -, -, hcount⟩ := hr
  obtain ⟨-, hconceals⟩ := hc
  have hblocks : blocks = 0 ∨ blocks = 1 ∨ blocks = 2 := by
    simp only [blocks, blocksFor]
    split_ifs <;> simp
  have heq : f.concealTo n = if blocks = 0 then f else if blocks = 1 then f.conceal else f.conceal.conceal :=
    f.concealTo_eq n
  rw [heq]
  rcases hblocks with h | h | h <;> rw [h]
  · have hmap : l.expected.map (· + BitVec.ofNat 8 0) = l.expected := by
      cases l.expected <;> simp
    have hsame : min (l.concealCount + 0) 2 = l.concealCount := Nat.min_eq_left hcount
    have hkept : min (l.conceals + 0) 65535 = l.conceals := Nat.min_eq_left hconceals
    rw [hmap, hsame, hkept]
    simp only [if_true, List.append_nil]
    rfl
  · exact f.conceal_lane
  · have hmap : (l.expected.map (· + 1)).map (· + 1) = l.expected.map (· + BitVec.ofNat 8 2) := by
      rw [Option.map_map]
      exact congrArg (Option.map · l.expected) (funext fun x => BitVec.add_assoc x 1 1)
    have hmin : min (min (l.concealCount + 1) 2 + 1) 2 = min (l.concealCount + 2) 2 := by omega
    have hsat : satInc Config.counterMax (satInc Config.counterMax l.conceals) = min (l.conceals + 2) 65535 := by
      simp only [satInc, Config.counterMax]
      omega
    have htwo : ¬ (2 : Nat) = 0 ∧ ¬ (2 : Nat) = 1 := by decide
    simp only [if_neg htwo.1, if_neg htwo.2, Feed.conceal_lane, concealBlock_min]
    rw [hmap, hmin, hsat, List.append_assoc]

/-! ## Interpolation and weights (R87, R88, R97) -/

theorem sampleInt_bounds (x : Sample) : -32768 ≤ sampleInt x ∧ sampleInt x ≤ 32767 := by
  have h1 := BitVec.le_toInt x
  have h2 := BitVec.toInt_lt (x := x)
  unfold sampleInt
  omega

/-- A point between two samples is no farther out than they are (R87, R97). -/
theorem between_bounds {a b lo hi : Int} {frac : Nat} (ha : lo ≤ a) (hb : lo ≤ b) (ha' : a ≤ hi) (hb' : b ≤ hi)
    (hf : frac < 65536) :
    lo ≤ a + ((b - a) * (frac : Int) + 32768) / 65536 ∧ a + ((b - a) * (frac : Int) + 32768) / 65536 ≤ hi := by
  have hf0 : (0 : Int) ≤ frac := Int.natCast_nonneg frac
  have hf1 : (frac : Int) ≤ 65535 := by omega
  rcases le_total a b with h | h
  · have hlow : 0 ≤ (b - a) * (frac : Int) := mul_nonneg (by omega) hf0
    have hhigh : (b - a) * (frac : Int) ≤ (b - a) * 65535 := mul_le_mul_of_nonneg_left hf1 (by omega)
    omega
  · have hlow : (b - a) * 65535 ≤ (b - a) * (frac : Int) := mul_le_mul_of_nonpos_left hf1 (by omega)
    have hhigh : (b - a) * (frac : Int) ≤ 0 := mul_nonpos_of_nonpos_of_nonneg (by omega) hf0
    omega

theorem interpolate_bounds (ring : List Sample) (p s k : Nat) :
    -32768 ≤ interpolate ring p s k ∧ interpolate ring p s k ≤ 32767 := by
  obtain ⟨ha, ha'⟩ := sampleInt_bounds (ring.getD ((p + k * s) / Config.unit) 0)
  obtain ⟨hb, hb'⟩ := sampleInt_bounds (ring.getD ((p + k * s) / Config.unit + 1) 0)
  exact between_bounds ha hb ha' hb' (Nat.mod_lt _ (by decide))

/-- The k-th value of a list of 80 at its weight (R88). -/
theorem applyWeights_getD (w : Nat → Nat) {y : List Int} {k : Nat} (hy : y.length = 80) (hk : k < 80) :
    (applyWeights w y).length = 80 ∧ (applyWeights w y).getD k 0 = scale (y.getD k 0) (w k) := by
  have hky : k < y.length := hy ▸ hk
  refine ⟨by simp [applyWeights, hy], ?_⟩
  simp [applyWeights, List.getD_eq_getElem?_getD, hky]

theorem Lane.outputs_getD (l : Lane) {k : Nat} (hk : k < 80) :
    l.outputs.length = 80 ∧ l.outputs.getD k 0 = interpolate l.ring l.position l.step k := by
  refine ⟨by simp [outputs], ?_⟩
  simp [outputs, List.getD_eq_getElem?_getD, hk]

/-- The outputs of a pull, weighted, and within the sample range (R88, R97). -/
theorem Lane.weighted_getD (l : Lane) {k : Nat} (hk : k < 80) :
    let y := interpolate l.ring l.position l.step k
    let z := if l.rampIn then scale y (rampInWeight k) else y
    (l.weighted l.outputs).length = 80 ∧
      (l.weighted l.outputs).getD k 0 = (if l.state = .draining then scale z (fadeOutWeight k) else z) ∧
      -32768 ≤ (l.weighted l.outputs).getD k 0 ∧ (l.weighted l.outputs).getD k 0 ≤ 32767 := by
  intro y z
  obtain ⟨hlen, hget⟩ := l.outputs_getD hk
  have hy := interpolate_bounds l.ring l.position l.step k
  have hrise : rampInWeight k ≤ 32768 := by
    unfold rampInWeight
    omega
  have hfall : fadeOutWeight k ≤ 32768 := by
    unfold fadeOutWeight
    omega
  have hz : -32768 ≤ z ∧ z ≤ 32767 := by
    simp only [z]
    split
    · exact scale_bounds _ _ hy.1 hy.2 hrise
    · exact hy
  have hin : (if l.rampIn then applyWeights rampInWeight l.outputs else l.outputs).length = 80 ∧
      (if l.rampIn then applyWeights rampInWeight l.outputs else l.outputs).getD k 0 = z := by
    simp only [z]
    split
    · obtain ⟨hl, hg⟩ := applyWeights_getD rampInWeight hlen hk
      exact ⟨hl, hg.trans (congrArg (scale · _) hget)⟩
    · exact ⟨hlen, hget⟩
  obtain ⟨hinlen, hinget⟩ := hin
  unfold Lane.weighted
  dsimp only
  split
  · obtain ⟨hl, hg⟩ := applyWeights_getD fadeOutWeight hinlen hk
    rw [hg, hinget]
    exact ⟨hl, rfl, scale_bounds _ _ hz.1 hz.2 hfall⟩
  · rw [hinget]
    exact ⟨hinlen, rfl, hz⟩

/-! ## Depth and run (R55, R90) -/

/-- A moved block passes from the contiguous run to the ring (R51, R55). -/
theorem Feed.depth_takeBlock {f : Feed} {e : Entry} {q : List Entry} (hq : f.queue = e :: q)
    (hdue : f.lane.expected = some e.seq) (hp : f.lane.position < 65536) :
    ({ f with queue := q, lane := f.lane.takeBlock e } : Feed).depth = f.depth := by
  have hpos : f.lane.position / Config.unit = 0 := Nat.div_eq_of_lt hp
  have hrun : f.run = ({ f with queue := q, lane := f.lane.takeBlock e } : Feed).run + 1 := by
    simp only [run, hdue, hq, Lane.takeBlock_expected, Option.map_some, runFrom, if_true]
  simp only [depth, Lane.takeBlock_ring, (f.lane.takeBlock_same e).position, hpos, hrun]
  omega

/-- Intake's movement leaves the depth (R55, R90). -/
theorem Feed.move_depth (f : Feed) (hp : f.lane.position < 65536) : f.move.depth = f.depth := by
  obtain ⟨lane, queue, discards⟩ := f
  induction queue generalizing lane with
  | nil => rfl
  | cons e q ih =>
    unfold Feed.move moveDue
    split
    · next hd =>
      rw [Bool.and_eq_true, Lane.isDue, beq_iff_eq] at hd
      have hpos : (lane.takeBlock e).position < 65536 := by rw [(lane.takeBlock_same e).position]; exact hp
      exact (ih (lane.takeBlock e) hpos).trans (depth_takeBlock (f := ⟨lane, e :: q, discards⟩) rfl hd.1 hp)
    · rfl

/-- The contiguous run is as long as the sequences stand without a gap (R55). -/
theorem runFrom_spec (x : Byte) (q : List Entry) :
    (∀ i, i < runFrom x q → (q[i]?).map (·.seq) = some (x + BitVec.ofNat 8 i)) ∧
      (q[runFrom x q]?).map (·.seq) ≠ some (x + BitVec.ofNat 8 (runFrom x q)) := by
  induction q generalizing x with
  | nil => exact ⟨fun i hi => absurd hi (Nat.not_lt_zero i), by simp⟩
  | cons e q ih =>
    have hsucc : ∀ i, x + 1 + BitVec.ofNat 8 i = x + BitVec.ofNat 8 (i + 1) := fun i => by
      rw [BitVec.add_assoc, BitVec.add_comm 1, BitVec.ofNat_add]
      rfl
    unfold runFrom
    split
    · next heq =>
      obtain ⟨hrun, hend⟩ := ih (x + 1)
      refine ⟨fun i hi => ?_, ?_⟩
      · match i with
        | 0 => simp [heq]
        | i + 1 =>
          rw [List.getElem?_cons_succ, hrun i (Nat.lt_of_succ_lt_succ hi), hsucc]
      · rw [List.getElem?_cons_succ, ← hsucc]
        exact hend
    · next hne => exact ⟨fun i hi => absurd hi (Nat.not_lt_zero i), by simpa using hne⟩

/-! ## The pull -/

/-- Settles O58: the stages of a pull, the tracking, and the run. -/
theorem pullFollowsItsStages : Obligations.PullFollowsItsStages := by
  unfold Obligations.PullFollowsItsStages
  refine ⟨?_, ?_, ?_⟩
  · intro f hr hc l n blocks conceal ring passed r
    have hlane := Feed.concealTo_lane hr hc n
    obtain ⟨-, hpos, hlo, hhi, -⟩ := hr
    obtain ⟨hn80, hn82⟩ := need_bounds l.position l.step hpos hlo hhi
    have hring : (f.concealTo n).lane.ring = ring := by
      rw [hlane]
      simp only [concealBlock_toList]
      rfl
    have hlen : n ≤ ring.length := hring ▸ f.concealTo_ring n (hn82.trans (by omega))
    have hstep : l.step ≤ 65600 := hhi
    have hpassed : passed ≤ n := by
      simp only [passed, n]
      omega
    have hsame : (f.concealTo n).lane.position = l.position ∧ (f.concealTo n).lane.step = l.step ∧
        (f.concealTo n).lane.rampIn = l.rampIn ∧ (f.concealTo n).lane.state = l.state := by
      rw [hlane]
      exact ⟨rfl, rfl, rfl, rfl⟩
    obtain ⟨hposition, hstepped, hramp, hstate⟩ := hsame
    have hconcealed : (f.concealTo n).lane =
        { l with
          ring := ring, expected := l.expected.map (· + BitVec.ofNat 8 blocks)
          concealCount := min (l.concealCount + blocks) 2, conceals := min (l.conceals + blocks) 65535 } := by
      rw [← hring, hlane]
      rfl
    have hadvance : r.1.lane = { (f.concealTo n).lane.advance with rampIn := false } := rfl
    refine ⟨hn80, hn82, hlen, hpassed.trans hlen, ?_, ?_, ?_, fun k => ?_⟩
    · rw [hadvance, hconcealed]
      rfl
    · intro late kept
      have hlate : late = dropDue := rfl
      have hkept : (r.1.queue, r.1.discards) = kept := by
        have hqueue : (r.1.queue, r.1.discards) = ((f.concealTo n).queue, (f.concealTo n).discards) := rfl
        have heq : f.concealTo n = if blocks = 0 then f else if blocks = 1 then f.conceal else f.conceal.conceal :=
          f.concealTo_eq n
        rw [hqueue, heq]
        simp only [kept, hlate]
        split_ifs
        · rfl
        · exact f.conceal_kept
        · rw [Feed.conceal_kept, Feed.conceal_kept, Feed.conceal_lane]
      exact ⟨congrArg Prod.fst hkept, congrArg Prod.snd hkept⟩
    · exact ((f.concealTo n).lane.weighted_getD (k := 0) (by omega)).1
    · intro at_ a b y rise z
      obtain ⟨-, hget, hlow, hhigh⟩ := (f.concealTo n).lane.weighted_getD k.isLt
      have hk : k.val * l.step ≤ 79 * l.step := Nat.mul_le_mul_right _ (by omega)
      have hat : at_ + 1 < n := by
        simp only [at_, n]
        omega
      rw [hring, hposition, hstepped, hramp, hstate] at hget
      exact ⟨hat, hlow, hhigh, hget⟩
  · intro f hp
    have hzero : f.lane.position / Config.unit = 0 := Nat.div_eq_of_lt hp
    refine ⟨by rw [Feed.depth, hzero, Nat.sub_zero], f.move_depth hp, fun target => ⟨?_, rfl⟩⟩
    rw [Feed.track, stepFor, clampInt_eq (by omega)]
    rfl
  · intro f x hx
    have hrun : f.run = runFrom x f.queue := by rw [Feed.run, hx]
    rw [hrun]
    obtain ⟨hspec, hend⟩ := runFrom_spec x f.queue
    exact ⟨runFrom_le x f.queue, hspec, hend⟩

end Sys2Proof.Machine
end

