-- ==== Sys2Proof/Proofs/LaneRequests.lean ====
section
/-! PROOFS. Lane requests, evictions and releases, and the notices that bring them (R60 to R70, R73). -/

namespace Sys2Proof.Machine

variable {s : State}

/-! ## The searches of a lane request (R63, R65) -/

theorem find?_lanes {p : LaneIx → Bool} {k : LaneIx} :
    Config.lanes.find? p = some k ↔ p k = true ∧ ∀ j, j < k → ¬ p j = true := by
  simp only [find?_eq_some_iff_lowest (l := Config.lanes) (by decide) (by decide), Bool.not_eq_true]

theorem find?_lanes_eq_none {p : LaneIx → Bool} : Config.lanes.find? p = none ↔ ∀ k, ¬ p k = true := by
  simp only [List.find?_eq_none, mem_lanes, true_implies]

theorem LaneUnit.vacantLane_eq_some {u : LaneUnit} {k : LaneIx} :
    u.vacantLane = some k ↔ (u.lanes[k].state = .vacant ∧ u.lanes[k].reservedFor = none) ∧
      ∀ j, j < k → ¬ (u.lanes[j].state = .vacant ∧ u.lanes[j].reservedFor = none) := by
  simp only [vacantLane, find?_lanes, Bool.and_eq_true, beq_iff_eq]

theorem LaneUnit.vacantLane_eq_none {u : LaneUnit} :
    u.vacantLane = none ↔ ∀ k : LaneIx, ¬ (u.lanes[k].state = .vacant ∧ u.lanes[k].reservedFor = none) := by
  simp only [vacantLane, find?_lanes_eq_none, Bool.and_eq_true, beq_iff_eq]

theorem LaneUnit.ownDrain_eq_some {u : LaneUnit} {x : ListenerIx} {k : LaneIx} :
    u.ownDrain x = some k ↔
      (u.lanes[k].state = .draining ∧ u.lanes[k].listener = some x ∧ u.lanes[k].reservedFor = none) ∧
      ∀ j, j < k → ¬ (u.lanes[j].state = .draining ∧ u.lanes[j].listener = some x ∧ u.lanes[j].reservedFor = none) := by
  simp only [ownDrain, find?_lanes, Bool.and_eq_true, beq_iff_eq, and_assoc]

theorem LaneUnit.ownDrain_eq_none {u : LaneUnit} {x : ListenerIx} :
    u.ownDrain x = none ↔ ∀ k : LaneIx,
      ¬ (u.lanes[k].state = .draining ∧ u.lanes[k].listener = some x ∧ u.lanes[k].reservedFor = none) := by
  simp only [ownDrain, find?_lanes_eq_none, Bool.and_eq_true, beq_iff_eq, and_assoc]

/-- The lane in PRIMING or MIXING of a listener, where no listener has two (R63). -/
theorem LaneUnit.laneOf_eq_some {u : LaneUnit} {x : ListenerIx} {k : LaneIx} (hk : u.lanes[k].carries = true)
    (hx : u.lanes[k].listener = some x)
    (h : ∀ j : LaneIx, j ≠ k → u.lanes[j].carries = true → u.lanes[j].listener ≠ some x) : u.laneOf x = some k := by
  simp only [laneOf, find?_lanes, Bool.and_eq_true, beq_iff_eq]
  exact ⟨⟨hk, hx⟩, fun j hj hc => h j hj.ne hc.1 hc.2⟩

theorem LaneUnit.laneOf_eq_none {u : LaneUnit} {x : ListenerIx} :
    u.laneOf x = none ↔ ∀ k : LaneIx, u.lanes[k].carries = true → u.lanes[k].listener ≠ some x := by
  simp only [laneOf, find?_lanes_eq_none, Bool.and_eq_true, beq_iff_eq, not_and, ne_eq]

theorem LaneUnit.laneOf_some {u : LaneUnit} {x : ListenerIx} {k : LaneIx} (h : u.laneOf x = some k) :
    u.lanes[k].carries = true ∧ u.lanes[k].listener = some x := by
  simp only [laneOf, find?_lanes, Bool.and_eq_true, beq_iff_eq] at h
  exact h.1

/-- A candidate for eviction (R65). -/
theorem State.evictable_iff {p : Nat} {k : LaneIx} :
    s.evictable p k = true ↔
      s.laneUnit.lanes[k].carries = true ∧ s.laneUnit.lanes[k].reservedFor = none ∧
        ∃ v : ListenerIx, s.laneUnit.lanes[k].listener = some v ∧ s.priorityOf v < p := by
  unfold State.evictable
  dsimp only
  cases s.laneUnit.lanes[k].listener <;> simp [and_assoc]

/-- The scan from the eviction pointer upward, 3 round to 1 (R65). -/
theorem State.victim_eq_some {p : Nat} {k : LaneIx} (hk : s.evictable p k = true)
    (h : k = s.laneUnit.evictPtr ∨
      k = s.laneUnit.evictPtr + 1 ∧ ¬ s.evictable p s.laneUnit.evictPtr = true ∨
      k = s.laneUnit.evictPtr + 2 ∧ ¬ s.evictable p s.laneUnit.evictPtr = true ∧
        ¬ s.evictable p (s.laneUnit.evictPtr + 1) = true) : s.victim p = some k := by
  unfold State.victim
  rcases h with rfl | ⟨rfl, h0⟩ | ⟨rfl, h0, h1⟩
  · rw [List.find?_cons_of_pos hk]
  · rw [List.find?_cons_of_neg h0, List.find?_cons_of_pos hk]
  · rw [List.find?_cons_of_neg h0, List.find?_cons_of_neg h1, List.find?_cons_of_pos hk]

theorem State.victim_eq_none {p : Nat} (h : ∀ k, ¬ s.evictable p k = true) : s.victim p = none := by
  unfold State.victim
  exact List.find?_eq_none.2 fun k _ => h k

theorem State.victim_some {p : Nat} {k : LaneIx} (h : s.victim p = some k) : s.evictable p k = true :=
  List.find?_some h

/-! ## The stages of a request (R63) -/

/-- Some lane carries the listener's bud already: stage 1 of R63. -/
def State.laneHit (s : State) (x : ListenerIx) (b : BudIx) : Prop :=
  ∃ k : LaneIx, s.laneUnit.lanes[k].carries = true ∧ s.laneUnit.lanes[k].listener = some x ∧
    s.laneUnit.lanes[k].bud = some b

section
variable {x : ListenerIx} {b : BudIx}

theorem State.laneHit_iff :
    (Config.lanes.any fun k => s.laneUnit.lanes[k].carries && s.laneUnit.lanes[k].listener == some x &&
      s.laneUnit.lanes[k].bud == some b) = true ↔ s.laneHit x b := by
  simp [State.laneHit, mem_lanes, and_assoc]

theorem State.requestLane_of_hit (h : s.laneHit x b) : s.requestLane x b = s :=
  if_pos (State.laneHit_iff.2 h)

variable (h : ¬ s.laneHit x b)

include h

theorem State.requestLane_of_vacant {k : LaneIx} (hk : s.laneUnit.vacantLane = some k) :
    s.requestLane x b = s.bindLane k b x := by
  refine (if_neg (mt State.laneHit_iff.1 h)).trans ?_
  simp only [hk]

variable (hv : s.laneUnit.vacantLane = none)

include hv

theorem State.requestLane_of_own {k : LaneIx} (hk : s.laneUnit.ownDrain x = some k) :
    s.requestLane x b = s.reserve k (some x) := by
  refine (if_neg (mt State.laneHit_iff.1 h)).trans ?_
  simp only [hv, hk]

variable (ho : s.laneUnit.ownDrain x = none)

include ho

theorem State.requestLane_of_victim {k : LaneIx} (hk : s.victim (s.priorityOf x) = some k) :
    s.requestLane x b = s.evictLane k x b := by
  refine (if_neg (mt State.laneHit_iff.1 h)).trans ?_
  simp only [hv, ho, hk]

theorem State.requestLane_of_none (hk : s.victim (s.priorityOf x) = none) :
    s.requestLane x b = (s.placeWaiting x b).postDenied x .noLane := by
  refine (if_neg (mt State.laneHit_iff.1 h)).trans ?_
  simp only [hv, ho, hk]

end

/-! ## Releases (R70, R73) -/

theorem setLane_getElem (s : State) (k j : LaneIx) (l : Lane) :
    (s.setLane k l).laneUnit.lanes[j] = if k = j then l else s.laneUnit.lanes[j] := getElem_set_fin ..

theorem State.unbindBud_of_bound {k : LaneIx} {c : BudIx} (hc : s.laneUnit.lanes[k].carries = true)
    (hb : s.laneUnit.lanes[k].bud = some c) : s.unbindBud k = s.convertQueue c := by
  simp only [State.unbindBud, hb, hc, if_true]

/-- In IN CALL a MIXING lane that is released drains (R70). -/
theorem State.releaseLane_of_mixing {k : LaneIx} (keep : Bool) (hcall : s.callCtl.state = .inCall)
    (hk : s.laneUnit.lanes[k].state = .mixing) :
    s.releaseLane k keep = (s.unbindBud k).setLane k { s.laneUnit.lanes[k] with state := .draining, bud := none } := by
  have hkept : (s.unbindBud k).callCtl = s.callCtl := (s.unbindBud_only k).only.callCtl
  simp only [State.releaseLane, hk, hkept, hcall, if_true, State.unbindBud_laneUnit]

/-- A PRIMING lane without a reservation is VACANT at once, and is granted unless it is left for this act (R70, R73). -/
theorem State.releaseLane_of_priming {k : LaneIx} (keep : Bool) (hk : s.laneUnit.lanes[k].state = .priming)
    (hr : s.laneUnit.lanes[k].reservedFor = none) :
    s.releaseLane k keep =
      if keep then (s.unbindBud k).setLane k s.laneUnit.lanes[k].cleared
      else ((s.unbindBud k).setLane k s.laneUnit.lanes[k].cleared).grantHead k := by
  have hlanes := s.unbindBud_laneUnit k
  simp only [State.releaseLane, hk, State.vacateLane, hlanes, hr, Option.bind_none]
  cases ((s.unbindBud k).setLane k s.laneUnit.lanes[k].cleared).callCtl.state <;> rfl

theorem State.carries_of_mixing {l : Lane} (h : l.state = .mixing) : l.carries = true := by
  rw [Lane.carries_iff]
  exact .inr h

theorem State.carries_of_priming {l : Lane} (h : l.state = .priming) : l.carries = true := by
  rw [Lane.carries_iff]
  exact .inl h

theorem State.grantHead_eq (hcall : s.callCtl.state = .inCall) (k : LaneIx) :
    s.grantHead k = match s.laneUnit.waitList with | [] => s | e :: _ => s.bindLane k e.bud e.listener :=
  if_pos hcall

/-! ## Waiting and its report (R67, R68) -/

theorem State.placeWaiting_laneUnit (s : State) (x : ListenerIx) (b : BudIx) :
    (s.placeWaiting x b).laneUnit = { s.laneUnit with waitList := (s.placeWaiting x b).laneUnit.waitList } := by
  unfold State.placeWaiting
  dsimp only
  split <;> rfl

theorem State.postDenied_laneUnit (s : State) (x : ListenerIx) (cause : DeniedCause) :
    (s.postDenied x cause).laneUnit =
      { s.laneUnit with
        waitList := s.laneUnit.waitList.map fun e => if e.listener = x then { e with denied := true } else e } :=
  State.post_laneUnit _ _

/-- LANE DENIED is posted, and the listener's entry is reported (R67). -/
theorem State.postDenied_eq (s : State) (y : ListenerIx) (cause : DeniedCause) :
    s.postDenied y cause =
      (s.setWait (s.laneUnit.waitList.map fun e => { e with denied := e.denied || decide (e.listener = y) })).post
        (.event (.laneDenied y s.laneUnit.speaking[y] s.roster.listeners[y].priority cause)) := by
  have hmark : (fun e : WaitEntry => if e.listener = y then { e with denied := true } else e) =
      fun e : WaitEntry => { e with denied := e.denied || decide (e.listener = y) } := funext fun e => by
    by_cases h : e.listener = y <;> simp [h]
  unfold State.postDenied
  rw [hmark]
  rfl

/-! ## Evictions (R65) -/

theorem State.placeVictim_of_some {v : ListenerIx} {w : BudIx} (h : s.laneUnit.speaking[v] = some w) :
    s.placeVictim (some v) = (s.placeWaiting v w).postDenied v .preempted := by
  simp only [State.placeVictim, h]

theorem State.placeVictim_lanes (s : State) (v : Option ListenerIx) : (s.placeVictim v).laneUnit.lanes = s.laneUnit.lanes := by
  unfold State.placeVictim
  split
  · rfl
  · split
    · rw [State.postDenied_laneUnit, State.placeWaiting_laneUnit]
    · rfl

/-- The state in which the victim's lane is released: the pointer already names the lane after (R65). -/
def State.pointPast (s : State) (k : LaneIx) : State := { s with laneUnit := { s.laneUnit with evictPtr := k + 1 } }

theorem State.evictLane_eq (s : State) (k : LaneIx) (x : ListenerIx) (b : BudIx) :
    s.evictLane k x b =
      let t := ((s.pointPast k).releaseLane k true).placeVictim s.laneUnit.lanes[k].listener
      if t.laneUnit.lanes[k].state = .draining then t.reserve k (some x) else t.bindLane k b x := rfl

/-- Settles O54: the first stage that applies, the eviction by the victim's state, and LANE DENIED. -/
theorem requestTakesItsStages : Obligations.RequestTakesItsStages := by
  unfold Obligations.RequestTakesItsStages
  intro s x b hcall u hit vacant own candidate reserved noOne
  have hnoVacant : (∀ k, ¬ vacant k) → u.vacantLane = none := LaneUnit.vacantLane_eq_none.2
  have hnoOwn : (∀ k, ¬ own k) → u.ownDrain x = none := LaneUnit.ownDrain_eq_none.2
  have hcandidate : ∀ k, s.evictable (s.priorityOf x) k = true ↔ candidate k := fun k => State.evictable_iff
  refine ⟨State.requestLane_of_hit, fun hmiss => ⟨fun k hk hlow => ?_, fun k hv hk hlow => ?_, fun hno hnone => ?_, ?_⟩,
    fun v y cause => v.postDenied_eq y cause⟩
  · exact State.requestLane_of_vacant hmiss (LaneUnit.vacantLane_eq_some.2 ⟨hk, hlow⟩)
  · exact State.requestLane_of_own hmiss (hnoVacant hv) (LaneUnit.ownDrain_eq_some.2 ⟨hk, hlow⟩)
  · exact State.requestLane_of_none hmiss (hnoVacant hno.1) (hnoOwn hno.2)
      (State.victim_eq_none fun k => mt (hcandidate k).1 (hnone k))
  · intro k hno hk hscan v w c hv hw hc t moved left
    have hvictim : s.victim (s.priorityOf x) = some k := by
      refine State.victim_eq_some ((hcandidate k).2 hk) ?_
      simp only [hcandidate]
      exact hscan
    obtain ⟨hcarries, hfree, -⟩ := hk
    have ht : t = s.evictLane k x b :=
      State.requestLane_of_victim hmiss (hnoVacant hno.1) (hnoOwn hno.2) hvictim
    have hunbind : (s.pointPast k).unbindBud k = moved := State.unbindBud_of_bound (s := s.pointPast k) hcarries hc
    have hplace : ∀ lane : Lane, (moved.setLane k lane).placeVictim (some v) = left lane := fun lane =>
      State.placeVictim_of_some (s := moved.setLane k lane) hw
    have hlane : ∀ lane : Lane, (left lane).laneUnit.lanes[k] = lane := fun lane => by
      have hlanes := (moved.setLane k lane).placeVictim_lanes (some v)
      rw [hplace] at hlanes
      rw [hlanes, setLane_getElem, if_pos rfl]
    have hpriming : u.lanes[k].state = .priming →
        t = (left { slips := u.lanes[k].slips, conceals := u.lanes[k].conceals }).bindLane k b x := fun hstate => by
      have hrelease := State.releaseLane_of_priming (s := s.pointPast k) true hstate hfree
      rw [if_pos rfl, hunbind] at hrelease
      rw [ht, State.evictLane_eq, hrelease, hv]
      have hnot : ¬ (left (s.pointPast k).laneUnit.lanes[k].cleared).laneUnit.lanes[k].state = .draining := by
        rw [hlane]
        exact nofun
      rw [hplace]
      exact if_neg hnot
    have hmixing : u.lanes[k].state = .mixing →
        t = (left { u.lanes[k] with state := .draining, bud := none }).setLane k
          { u.lanes[k] with state := .draining, bud := none, reservedFor := some x } := fun hstate => by
      have hrelease := State.releaseLane_of_mixing (s := s.pointPast k) true hcall hstate
      rw [hunbind] at hrelease
      rw [ht, State.evictLane_eq, hrelease, hv, hplace]
      have hdrain : (left { u.lanes[k] with state := .draining, bud := none }).laneUnit.lanes[k].state = .draining := by
        rw [hlane]
      refine (if_pos hdrain).trans ?_
      rw [State.reserve]
      exact congrArg (fun l : Lane => (left { u.lanes[k] with state := .draining, bud := none }).setLane k
        { l with reservedFor := some x }) (hlane _)
    refine ⟨?_, hmixing, hpriming⟩
    have hptr : ∀ lane : Lane, (left lane).laneUnit.evictPtr = k + 1 := fun lane => by
      simp only [left, State.postDenied_laneUnit]
      rw [State.placeWaiting_laneUnit]
      rfl
    rcases (Lane.carries_iff _).1 hcarries with hstate | hstate
    · rw [hpriming hstate, (State.bindLane_only _ k b x).evictPtr, hptr]
    · rw [hmixing hstate]
      exact hptr _

end Sys2Proof.Machine
end

