-- ==== Sys2Proof/Proofs/Notices.lean ====
section
/-! PROOFS. How the speaking bud is chosen (R60), and what a notice does with a change of it (R61, R62, R70, R73). -/

namespace Sys2Proof.Machine

variable {s : State}

/-! ## The speaking bud (R60) -/

theorem Bud.speaks_iff (b : Bud) : b.speaks = true ↔ b.talk = .talking ∧ (b.link = .live ∨ b.link = .fading) := by
  simp [Bud.speaks]

section
variable {r : Roster} {x : ListenerIx}

theorem Roster.speakingBud_of_barred (h : r.listeners[x].inUse = false ∨ r.listeners[x].mute = true) :
    r.speakingBud x = none := by
  have hbarred : (!r.listeners[x].inUse || r.listeners[x].mute) = true := by
    rcases h with h | h <;> rw [h]
    · rfl
    · exact Bool.or_true _
  simp only [Roster.speakingBud, hbarred, if_true]

variable (hu : r.listeners[x].inUse = true) (hm : r.listeners[x].mute = false)

include hu hm

/-- The primary goes first where it is a member (R60). -/
theorem Roster.speakingBud_of_primary {p : BudIx} (hp : r.listeners[x].primary = some p) (hin : p ∈ r.listeners[x].members) :
    r.speakingBud x =
      if r.buds[p].speaks then some p else (r.listeners[x].members.filter (· != p)).find? fun b => r.buds[b].speaks := by
  have hopen : (!r.listeners[x].inUse || r.listeners[x].mute) = false := by rw [hu, hm]; rfl
  have hcontains : r.listeners[x].members.contains p = true := List.contains_iff_mem.2 hin
  simp only [Roster.speakingBud, hopen, hp, hcontains, Bool.false_eq_true, if_false, if_true]

/-- With no primary, or a stale one, the first member in join order that speaks (R60). -/
theorem Roster.speakingBud_of_stale (h : ∀ p : BudIx, r.listeners[x].primary = some p → p ∉ r.listeners[x].members) :
    r.speakingBud x = r.listeners[x].members.find? fun b => r.buds[b].speaks := by
  have hopen : (!r.listeners[x].inUse || r.listeners[x].mute) = false := by rw [hu, hm]; rfl
  cases hp : r.listeners[x].primary with
  | none => simp only [Roster.speakingBud, hopen, hp, Bool.false_eq_true, if_false]
  | some p =>
    have hcontains : ¬ r.listeners[x].members.contains p = true := mt List.contains_iff_mem.1 (h p hp)
    simp only [Roster.speakingBud, hopen, hp, if_neg hcontains, Bool.false_eq_true, if_false]

/-- A member that does not speak leaves its place to the other (R60). -/
theorem Roster.speakingBud_of_other {p o : BudIx} (hp : r.listeners[x].primary = some p) (hsilent : ¬ r.buds[p].speaks = true)
    (hmembers : r.listeners[x].members = [p, o] ∨ r.listeners[x].members = [o, p]) (hne : o ≠ p) :
    r.speakingBud x = if r.buds[o].speaks then some o else none := by
  have hin : p ∈ r.listeners[x].members := by rcases hmembers with h | h <;> rw [h] <;> simp
  have hother : r.listeners[x].members.filter (· != p) = [o] := by
    rcases hmembers with h | h <;> rw [h] <;> simp [hne]
  rw [Roster.speakingBud_of_primary hu hm hp hin, if_neg hsilent, hother, List.find?_cons]
  cases r.buds[o].speaks <;> rfl

end

/-! ## Reservations given up (R61, R65) -/

/-- A lane without a listener's reservation. -/
def Lane.without (x : ListenerIx) (l : Lane) : Lane := if l.reservedFor = some x then { l with reservedFor := none } else l

theorem Lane.without_of_ne {x : ListenerIx} {l : Lane} (h : l.reservedFor ≠ some x) : l.without x = l := if_neg h

theorem Lane.without_state (x : ListenerIx) (l : Lane) : (l.without x).state = l.state := by
  unfold Lane.without
  split <;> rfl

theorem Lane.without_bud (x : ListenerIx) (l : Lane) : (l.without x).bud = l.bud := by
  unfold Lane.without
  split <;> rfl

theorem Lane.without_listener (x : ListenerIx) (l : Lane) : (l.without x).listener = l.listener := by
  unfold Lane.without
  split <;> rfl

theorem Lane.without_carries (x : ListenerIx) (l : Lane) : (l.without x).carries = l.carries := by
  unfold Lane.carries
  rw [Lane.without_state]

theorem Lane.without_reservedFor (x : ListenerIx) (l : Lane) : (l.without x).reservedFor ≠ some x := by
  unfold Lane.without
  split
  · exact nofun
  · assumption

theorem getElem_map_lanes (v : Vector Lane 3) (g : Lane → Lane) (k : LaneIx) : (v.map g)[k] = g v[k] :=
  Vector.getElem_map ..

/-- A change made to every lane in turn. -/
theorem State.foldl_setLane (g : Lane → Lane) (s : State) :
    Config.lanes.foldl (fun s k => s.setLane k (g s.laneUnit.lanes[k])) s =
      { s with laneUnit := { s.laneUnit with lanes := s.laneUnit.lanes.map g } } := by
  have hlanes : ((s.laneUnit.lanes.set 0 (g s.laneUnit.lanes[0])).set 1 (g s.laneUnit.lanes[1])).set 2
      (g s.laneUnit.lanes[2]) = s.laneUnit.lanes.map g := by
    ext i hi
    rw [Vector.getElem_map]
    interval_cases i <;> simp
  rw [← hlanes]
  simp [Config.lanes, State.setLane]

/-- A listener's reservations are cancelled, and nothing else changes (R65). -/
theorem State.cancelReservation_eq (s : State) (x : ListenerIx) :
    s.cancelReservation x =
      { s with laneUnit := { s.laneUnit with lanes := s.laneUnit.lanes.map (Lane.without x) } } := by
  have hstep : (fun (s : State) (k : LaneIx) => if s.laneUnit.lanes[k].reservedFor = some x then s.reserve k none else s) =
      fun s k => s.setLane k (s.laneUnit.lanes[k].without x) := funext fun s => funext fun k => by
    unfold Lane.without
    split
    · rfl
    · have hself : s.laneUnit.lanes.set k s.laneUnit.lanes[k] = s.laneUnit.lanes := Vector.set_getElem_self k.isLt
      rw [State.setLane, hself]
  rw [State.cancelReservation, hstep, State.foldl_setLane]

theorem State.cancelReservation_of_none {x : ListenerIx} (h : ∀ j : LaneIx, s.laneUnit.lanes[j].reservedFor ≠ some x) :
    s.cancelReservation x = s := by
  have hlanes : s.laneUnit.lanes.map (Lane.without x) = s.laneUnit.lanes := by
    ext i hi
    rw [Vector.getElem_map]
    exact Lane.without_of_ne (h ⟨i, hi⟩)
  rw [State.cancelReservation_eq, hlanes]

/-! ## A listener that asks for nothing -/

/-- A listener has no wait entry and no reservation. -/
def State.Unasked (s : State) (x : ListenerIx) : Prop :=
  (∀ e ∈ s.laneUnit.waitList, e.listener ≠ x) ∧ ∀ j : LaneIx, s.laneUnit.lanes[j].reservedFor ≠ some x

section
variable {x : ListenerIx}

theorem State.Unasked.setLane {k : LaneIx} {l : Lane} (h : s.Unasked x) (hl : l.reservedFor ≠ some x) :
    (s.setLane k l).Unasked x := by
  refine ⟨h.1, fun j => ?_⟩
  rw [setLane_getElem]
  split
  · exact hl
  · exact h.2 j

/-- A lane just bound has no reservation (R64). -/
theorem State.primedFeed_reservedFor (s : State) (k : LaneIx) (b : BudIx) (y : ListenerIx) :
    (s.primedFeed k b y).prepare.lane.reservedFor = none := (Feed.prepare_same _).reservedFor

theorem State.Unasked.bindLane (k : LaneIx) (b : BudIx) (y : ListenerIx) (h : s.Unasked x) : (s.bindLane k b y).Unasked x := by
  refine ⟨fun e he => ?_, fun j => ?_⟩
  · obtain ⟨-, a, ha, hl, -⟩ := mem_removeWait he
    exact hl ▸ h.1 a ha
  · rw [s.bindLane_lane]
    split
    · rw [s.primedFeed_reservedFor]
      exact nofun
    · exact h.2 j

theorem State.Unasked.grantHead (k : LaneIx) (h : s.Unasked x) : (s.grantHead k).Unasked x := by
  unfold State.grantHead
  split
  · split
    · exact h
    · exact h.bindLane _ _ _
  · exact h

theorem State.Unasked.vacateLane (k : LaneIx) (keep : Bool) (h : s.Unasked x) : (s.vacateLane k keep).Unasked x := by
  have hclear : (s.setLane k s.laneUnit.lanes[k].cleared).Unasked x := h.setLane nofun
  unfold State.vacateLane
  dsimp only
  split
  · exact hclear.bindLane _ _ _
  · split
    · exact hclear
    · exact hclear.grantHead k

theorem State.Unasked.unbindBud (k : LaneIx) (h : s.Unasked x) : (s.unbindBud k).Unasked x := by
  unfold State.Unasked
  rw [State.unbindBud_laneUnit]
  exact h

theorem State.Unasked.releaseLane (k : LaneIx) (keep : Bool) (h : s.Unasked x) : (s.releaseLane k keep).Unasked x := by
  have hunbound := h.unbindBud k
  unfold State.releaseLane
  split
  · exact hunbound.vacateLane k keep
  · dsimp only
    split
    · exact hunbound.setLane (hunbound.2 k)
    · exact hunbound.vacateLane k keep
  · exact h
  · exact h

/-- A listener that falls silent asks for nothing (R61). -/
theorem State.fallSilent_unasked (s : State) (x : ListenerIx) : (s.fallSilent x).Unasked x := by
  have hquiet : ((s.cancelWait x).cancelReservation x).Unasked x := by
    rw [State.cancelReservation_eq]
    refine ⟨fun e he => (mem_removeWait he).1, fun j => ?_⟩
    dsimp only
    rw [getElem_map_lanes]
    exact Lane.without_reservedFor x _
  unfold State.fallSilent
  dsimp only
  split
  · exact hquiet.releaseLane _ _
  · exact hquiet

end

/-! ## Lanes that an operation leaves -/

section
variable {j k : LaneIx} (hne : k ≠ j)

include hne

theorem State.bindLane_other (b : BudIx) (x : ListenerIx) : (s.bindLane k b x).laneUnit.lanes[j] = s.laneUnit.lanes[j] := by
  rw [s.bindLane_lane, if_neg hne]

theorem State.grantHead_other : (s.grantHead k).laneUnit.lanes[j] = s.laneUnit.lanes[j] := by
  unfold State.grantHead
  split
  · split
    · rfl
    · exact State.bindLane_other hne _ _
  · rfl

theorem State.setLane_other (l : Lane) : (s.setLane k l).laneUnit.lanes[j] = s.laneUnit.lanes[j] := by
  rw [setLane_getElem, if_neg hne]

theorem State.vacateLane_other (keep : Bool) : (s.vacateLane k keep).laneUnit.lanes[j] = s.laneUnit.lanes[j] := by
  have hclear : (s.setLane k s.laneUnit.lanes[k].cleared).laneUnit.lanes[j] = s.laneUnit.lanes[j] := State.setLane_other hne _
  unfold State.vacateLane
  dsimp only
  split
  · exact (State.bindLane_other hne _ _).trans hclear
  · split
    · exact hclear
    · exact (State.grantHead_other hne).trans hclear

theorem State.releaseLane_other (keep : Bool) : (s.releaseLane k keep).laneUnit.lanes[j] = s.laneUnit.lanes[j] := by
  have hunbound : (s.unbindBud k).laneUnit.lanes[j] = s.laneUnit.lanes[j] := by rw [State.unbindBud_laneUnit]
  unfold State.releaseLane
  split
  · exact (State.vacateLane_other hne keep).trans hunbound
  · dsimp only
    split
    · exact (State.setLane_other hne _).trans hunbound
    · exact (State.vacateLane_other hne keep).trans hunbound
  · rfl
  · rfl

theorem State.evictLane_other (x : ListenerIx) (b : BudIx) : (s.evictLane k x b).laneUnit.lanes[j] = s.laneUnit.lanes[j] := by
  have hplaced : (((s.pointPast k).releaseLane k true).placeVictim s.laneUnit.lanes[k].listener).laneUnit.lanes[j] =
      s.laneUnit.lanes[j] := by
    rw [State.placeVictim_lanes]
    exact State.releaseLane_other hne true
  rw [State.evictLane_eq]
  dsimp only
  split
  · exact (State.setLane_other hne _).trans hplaced
  · exact (State.bindLane_other hne b x).trans hplaced

end

/-- A request leaves a draining lane draining; at most it reserves it (R63). -/
theorem State.requestLane_draining {k : LaneIx} (x : ListenerIx) (b : BudIx) (h : s.laneUnit.lanes[k].state = .draining) :
    (s.requestLane x b).laneUnit.lanes[k].state = .draining := by
  by_cases hhit : s.laneHit x b
  · rw [State.requestLane_of_hit hhit, h]
  cases hv : s.laneUnit.vacantLane with
  | some j =>
    have hne : j ≠ k := by
      rintro rfl
      rw [(LaneUnit.vacantLane_some hv).1] at h
      exact absurd h nofun
    rw [State.requestLane_of_vacant hhit hv, State.bindLane_other hne, h]
  | none =>
    cases ho : s.laneUnit.ownDrain x with
    | some j =>
      rw [State.requestLane_of_own hhit hv ho, State.reserve, setLane_getElem]
      split
      · next heq => rw [heq]; exact h
      · exact h
    | none =>
      cases hvictim : s.victim (s.priorityOf x) with
      | some j =>
        have hne : j ≠ k := by
          rintro rfl
          have hcarries := (Lane.carries_iff _).1 (State.evictable_iff.1 (State.victim_some hvictim)).1
          rw [h] at hcarries
          exact absurd hcarries (by decide)
        rw [State.requestLane_of_victim hhit hv ho hvictim, State.evictLane_other hne, h]
      | none =>
        rw [State.requestLane_of_none hhit hv ho hvictim, State.postDenied_laneUnit, State.placeWaiting_laneUnit]
        exact h

/-! ## Notices (R61, R62) -/

theorem State.notice_of_same {x : ListenerIx} (h : s.laneUnit.speaking[x] = s.roster.speakingBud x) : s.notice x = s :=
  if_pos h

theorem State.notice_of_change {x : ListenerIx} (h : s.laneUnit.speaking[x] ≠ s.roster.speakingBud x) :
    s.notice x =
      (s.recordSpeaking x (s.roster.speakingBud x)).actOnSpeaking x s.laneUnit.speaking[x] (s.roster.speakingBud x) :=
  if_neg h

theorem State.recordSpeaking_same {x : ListenerIx} {b : Option BudIx} (h : s.laneUnit.speaking[x] = b) :
    s.recordSpeaking x b = s := by
  have hself : s.laneUnit.speaking.set x s.laneUnit.speaking[x] = s.laneUnit.speaking := Vector.set_getElem_self x.isLt
  rw [State.recordSpeaking, ← h, hself]

/-- In NO CALL a change is recorded alone (R61). -/
theorem State.notice_noCall (x : ListenerIx) (h : s.callCtl.state = .noCall) :
    s.notice x = s.recordSpeaking x (s.roster.speakingBud x) := by
  by_cases hold : s.laneUnit.speaking[x] = s.roster.speakingBud x
  · rw [State.notice_of_same hold, State.recordSpeaking_same hold]
  · rw [State.notice_of_change hold]
    have hcall : (s.recordSpeaking x (s.roster.speakingBud x)).callCtl.state = .noCall := h
    simp only [State.actOnSpeaking, hcall]

section
variable {x : ListenerIx} {old new : Option BudIx}

theorem State.actOnSpeaking_silent (hcall : s.callCtl.state = .inCall) : s.actOnSpeaking x old none = s.fallSilent x := by
  simp only [State.actOnSpeaking, hcall]

theorem State.actOnSpeaking_begins {b : BudIx} (hcall : s.callCtl.state = .inCall) :
    s.actOnSpeaking x none (some b) = s.requestLane x b := by
  simp only [State.actOnSpeaking, hcall]

theorem State.actOnSpeaking_changes {b c : BudIx} (hcall : s.callCtl.state = .inCall) :
    s.actOnSpeaking x (some b) (some c) = s.changeSpeaker x c := by
  simp only [State.actOnSpeaking, hcall]

end

theorem State.fallSilent_of_laneless {x : ListenerIx}
    (h : ∀ k : LaneIx, s.laneUnit.lanes[k].carries = true → s.laneUnit.lanes[k].listener ≠ some x) :
    s.fallSilent x = (s.cancelWait x).cancelReservation x := by
  have hnone : ((s.cancelWait x).cancelReservation x).laneUnit.laneOf x = none := by
    rw [LaneUnit.laneOf_eq_none, State.cancelReservation_eq]
    intro k
    dsimp only
    rw [getElem_map_lanes, Lane.without_carries, Lane.without_listener]
    exact h k
  rw [State.fallSilent, hnone]

/-- The listener of one lane alone: what `LanesExclusive` says of it (R63). -/
theorem State.lanes_of_other {x : ListenerIx} {k : LaneIx} (he : s.LanesExclusive) (hk : s.laneUnit.lanes[k].carries = true)
    (hx : s.laneUnit.lanes[k].listener = some x) (j : LaneIx) (hj : j ≠ k) (hc : s.laneUnit.lanes[j].carries = true) :
    s.laneUnit.lanes[j].listener ≠ some x :=
  hx ▸ (he.1 j k hj hc hk).1

theorem State.fallSilent_of_lane {x : ListenerIx} {k : LaneIx} (he : s.LanesExclusive)
    (hk : s.laneUnit.lanes[k].carries = true) (hx : s.laneUnit.lanes[k].listener = some x) :
    s.fallSilent x = ((s.cancelWait x).cancelReservation x).releaseLane k false := by
  have hlane : ((s.cancelWait x).cancelReservation x).laneUnit.laneOf x = some k := by
    rw [State.cancelReservation_eq]
    refine LaneUnit.laneOf_eq_some ?_ ?_ fun j hj => ?_ <;>
      simp only [getElem_map_lanes, Lane.without_carries, Lane.without_listener]
    · exact hk
    · exact hx
    · exact State.lanes_of_other he hk hx j hj
  rw [State.fallSilent, hlane]

theorem State.changeSpeaker_of_laneless {x : ListenerIx} (c : BudIx)
    (h : ∀ k : LaneIx, s.laneUnit.lanes[k].carries = true → s.laneUnit.lanes[k].listener ≠ some x) :
    s.changeSpeaker x c = s.renameWait x c := by
  rw [State.changeSpeaker, LaneUnit.laneOf_eq_none.2 h]

theorem State.changeSpeaker_of_lane {x : ListenerIx} {k : LaneIx} (c : BudIx) (he : s.LanesExclusive)
    (hk : s.laneUnit.lanes[k].carries = true) (hx : s.laneUnit.lanes[k].listener = some x) :
    s.changeSpeaker x c =
      if ((s.releaseLane k true).requestLane x c).laneUnit.lanes[k].state = .vacant then
        ((s.releaseLane k true).requestLane x c).grantHead k
      else (s.releaseLane k true).requestLane x c := by
  rw [State.changeSpeaker, LaneUnit.laneOf_eq_some hk hx (State.lanes_of_other he hk hx)]

/-- What a lane VACANT in this act is granted (R68, R73). -/
def State.grantedTo (s : State) (k : LaneIx) : State :=
  match s.laneUnit.waitList with
  | [] => s
  | e :: _ => s.bindLane k e.bud e.listener

theorem State.grantHead_grantedTo (hcall : s.callCtl.state = .inCall) (k : LaneIx) : s.grantHead k = s.grantedTo k :=
  if_pos hcall

section
variable {x : ListenerIx} {k : LaneIx} (hcall : s.callCtl.state = .inCall) (he : s.LanesExclusive)
  (hx : s.laneUnit.lanes[k].listener = some x)

include hcall he hx

/-- A listener that falls silent leaves its MIXING lane draining, its bud's queue converted (R61, R70). -/
theorem State.fallSilent_of_mixing (hk : s.laneUnit.lanes[k].state = .mixing) :
    let fell := (s.cancelWait x).cancelReservation x
    s.fallSilent x =
      (match s.laneUnit.lanes[k].bud with | some w => fell.convertQueue w | none => fell).setLane k
        { s.laneUnit.lanes[k].without x with state := .draining, bud := none } := by
  intro fell
  have hlane : fell.laneUnit.lanes[k] = s.laneUnit.lanes[k].without x := by
    simp only [fell, State.cancelReservation_eq, getElem_map_lanes]
    rfl
  have hmixing : fell.laneUnit.lanes[k].state = .mixing := by rw [hlane, Lane.without_state, hk]
  have hfell : fell.callCtl.state = .inCall := by
    rw [((s.cancelWait x).cancelReservation_only x).only.callCtl]
    exact hcall
  rw [State.fallSilent_of_lane he (State.carries_of_mixing hk) hx, State.releaseLane_of_mixing false hfell hmixing, hlane]
  refine congrArg (State.setLane · k _) ?_
  unfold State.unbindBud
  rw [hlane, Lane.without_bud, Lane.without_carries, State.carries_of_mixing hk]
  cases s.laneUnit.lanes[k].bud <;> rfl

theorem State.fallSilent_of_priming {w : BudIx} (hk : s.laneUnit.lanes[k].state = .priming)
    (hw : s.laneUnit.lanes[k].bud = some w) (hnone : ∀ j : LaneIx, s.laneUnit.lanes[j].reservedFor ≠ some x)
    (hfree : s.laneUnit.lanes[k].reservedFor = none) :
    s.fallSilent x = (((s.cancelWait x).convertQueue w).setLane k s.laneUnit.lanes[k].cleared).grantedTo k := by
  have hquiet : (s.cancelWait x).cancelReservation x = s.cancelWait x := State.cancelReservation_of_none hnone
  have hcarries := State.carries_of_priming hk
  rw [State.fallSilent_of_lane he hcarries hx, hquiet,
    State.releaseLane_of_priming (s := s.cancelWait x) false hk hfree, State.unbindBud_of_bound (s := s.cancelWait x) hcarries hw]
  refine (if_neg Bool.false_ne_true).trans (State.grantHead_grantedTo ?_ k)
  exact hcall

theorem State.changeSpeaker_of_mixing {w : BudIx} (c : BudIx) (hk : s.laneUnit.lanes[k].state = .mixing)
    (hw : s.laneUnit.lanes[k].bud = some w) :
    s.changeSpeaker x c =
      ((s.convertQueue w).setLane k { s.laneUnit.lanes[k] with state := .draining, bud := none }).requestLane x c := by
  have hcarries := State.carries_of_mixing hk
  have hrelease := State.releaseLane_of_mixing true hcall hk
  rw [State.unbindBud_of_bound hcarries hw] at hrelease
  have hdraining : (s.releaseLane k true).laneUnit.lanes[k].state = .draining := by
    rw [hrelease, setLane_getElem, if_pos rfl]
  have hnot : ¬ ((s.releaseLane k true).requestLane x c).laneUnit.lanes[k].state = .vacant := by
    rw [State.requestLane_draining x c hdraining]
    exact nofun
  rw [State.changeSpeaker_of_lane c he hcarries hx, if_neg hnot, hrelease]

theorem State.changeSpeaker_of_priming {w : BudIx} (c : BudIx) (hk : s.laneUnit.lanes[k].state = .priming)
    (hw : s.laneUnit.lanes[k].bud = some w) (hfree : s.laneUnit.lanes[k].reservedFor = none) :
    let asked := ((s.convertQueue w).setLane k s.laneUnit.lanes[k].cleared).requestLane x c
    s.changeSpeaker x c = if asked.laneUnit.lanes[k].state = .vacant then asked.grantedTo k else asked := by
  intro asked
  have hcarries := State.carries_of_priming hk
  have hrelease := State.releaseLane_of_priming true hk hfree
  rw [State.unbindBud_of_bound hcarries hw, if_pos rfl] at hrelease
  have hasked : asked.callCtl.state = .inCall := by
    rw [(State.requestLane_only _ x c).only.callCtl]
    exact hcall
  rw [State.changeSpeaker_of_lane c he hcarries hx, hrelease, ← State.grantHead_grantedTo hasked]

end

/-- Settles O53: the choice of the speaking bud, and a notice by the call state and the change it finds. -/
theorem speakingBudIsChosenAndActedOn : Obligations.SpeakingBudIsChosenAndActedOn := by
  unfold Obligations.SpeakingBudIsChosenAndActedOn
  refine ⟨?_, ?_, fun s b => rfl⟩
  · intro r x l speaks
    have hspeaks : ∀ b, speaks b ↔ r.buds[b].speaks = true := fun b => (Bud.speaks_iff _).symm
    simp only [hspeaks]
    refine ⟨Roster.speakingBud_of_barred, fun hu hm => ⟨fun p hp hin => ⟨fun hs => ?_, fun o hs hmem hne => ⟨fun ho => ?_,
      fun ho => ?_⟩, fun hs hmem => ?_⟩, fun hstale => ⟨fun before b after hmem hb hs => ?_, fun hnone => ?_⟩⟩⟩
    · rw [Roster.speakingBud_of_primary hu hm hp hin, if_pos hs]
    · rw [Roster.speakingBud_of_other hu hm hp hs hmem hne, if_pos ho]
    · rw [Roster.speakingBud_of_other hu hm hp hs hmem hne, if_neg ho]
    · have hother : l.members.filter (· != p) = [] := by rw [hmem]; simp
      rw [Roster.speakingBud_of_primary hu hm hp hin, if_neg hs]
      exact congrArg (List.find? _) hother
    · have hbefore : before.find? (fun b => r.buds[b].speaks) = none := List.find?_eq_none.2 hb
      rw [Roster.speakingBud_of_stale hu hm hstale]
      refine (congrArg (List.find? _) hmem).trans ?_
      rw [List.find?_append, hbefore]
      exact List.find?_cons_of_pos (p := fun b : BudIx => r.buds[b].speaks) hs
    · rw [Roster.speakingBud_of_stale hu hm hstale]
      exact List.find?_eq_none.2 hnone
  · intro s x old new noted t
    have hsame : new = old → t = s := fun h => State.notice_of_same h.symm
    have hchange : new ≠ old → t = noted.actOnSpeaking x old new := fun h => State.notice_of_change h.symm
    refine ⟨hsame, s.notice_only x, s.notice_speaking x, s.notice_noCall x, fun cause hcall => ⟨fun hn hne => ?_,
      fun b ho hn => ?_, fun b c hbc ho hn => ?_⟩, fun hcall => ⟨fun b ho hn => ?_, fun hn hne => ?_, fun b c hbc ho hn => ?_⟩, ?_⟩
    · have hnoted : noted.callCtl.state = .holding cause := hcall
      rw [hchange hne, hn]
      simp only [State.actOnSpeaking, hnoted]
    · have hnoted : noted.callCtl.state = .holding cause := hcall
      rw [hchange (by rw [ho, hn]; exact nofun), ho, hn]
      simp only [State.actOnSpeaking, hnoted]
    · have hnoted : noted.callCtl.state = .holding cause := hcall
      rw [hchange (by rw [ho, hn]; exact fun h => hbc (Option.some.inj h).symm), ho, hn]
      simp only [State.actOnSpeaking, hnoted]
    · rw [hchange (by rw [ho, hn]; exact nofun), ho, hn]
      exact State.actOnSpeaking_begins (s := noted) hcall
    · have hfell : t = noted.fallSilent x := by
        rw [hchange hne, hn]
        exact State.actOnSpeaking_silent (s := noted) hcall
      have hunasked := noted.fallSilent_unasked x
      rw [hfell]
      refine ⟨hunasked.1, hunasked.2, ?_⟩
      intro free quiet fell
      have hfree : quiet.cancelReservation x = fell := State.cancelReservation_eq quiet x
      refine ⟨fun h => ?_, fun k he hk hx => ?_⟩
      · exact (State.fallSilent_of_laneless (s := noted) h).trans hfree
      · have hmixing := State.fallSilent_of_mixing (s := noted) hcall he hx hk
        dsimp only at hmixing
        rw [hfree] at hmixing
        exact hmixing
    · have hchanged : t = noted.changeSpeaker x c := by
        rw [hchange (by rw [ho, hn]; exact fun h => hbc (Option.some.inj h).symm), ho, hn]
        exact State.actOnSpeaking_changes (s := noted) hcall
      rw [hchanged]
      exact ⟨State.changeSpeaker_of_laneless (s := noted) c,
        fun k w he hk hx hw => State.changeSpeaker_of_mixing (s := noted) hcall he hx c hk hw⟩
    · intro k w hcall he hk hx hw hnone hfree empty granted
      refine ⟨fun hn hne => ?_, fun b c hbc ho hn => ?_⟩
      · rw [hchange hne, hn, State.actOnSpeaking_silent (s := noted) hcall]
        exact State.fallSilent_of_priming (s := noted) hcall he hx hk hw hnone hfree
      · rw [hchange (by rw [ho, hn]; exact fun h => hbc (Option.some.inj h).symm), ho, hn,
          State.actOnSpeaking_changes (s := noted) hcall]
        exact State.changeSpeaker_of_priming (s := noted) hcall he hx c hk hw hfree

end Sys2Proof.Machine
end

