-- ==== Sys2Proof/Proofs/LaneCadence.lean ====
section
/-! PROOFS. The shares of the lanes in a cadence, and the lane events sent alone (R65, R68, R71 to R73, R94). -/

namespace Sys2Proof.Machine

variable {s : State}

/-! ## What a pull leaves of a lane (R83) -/

theorem Feed.concealTo_fields (f : Feed) (n : Nat) :
    (f.concealTo n).lane.state = f.lane.state ∧ (f.concealTo n).lane.bud = f.lane.bud ∧
      (f.concealTo n).lane.listener = f.lane.listener ∧ (f.concealTo n).lane.reservedFor = f.lane.reservedFor := by
  unfold Feed.concealTo
  dsimp only
  split_ifs <;> simp only [Feed.conceal_lane, and_self]

theorem Feed.pull_fields (f : Feed) :
    f.pull.1.lane.state = f.lane.state ∧ f.pull.1.lane.bud = f.lane.bud ∧ f.pull.1.lane.listener = f.lane.listener ∧
      f.pull.1.lane.reservedFor = f.lane.reservedFor :=
  f.concealTo_fields (need f.lane.position f.lane.step)

theorem Feed.pullMixing_fields (f : Feed) (target : Nat) :
    (f.pullMixing target).1.lane.state = f.lane.state ∧ (f.pullMixing target).1.lane.bud = f.lane.bud ∧
      (f.pullMixing target).1.lane.listener = f.lane.listener ∧
      (f.pullMixing target).1.lane.reservedFor = f.lane.reservedFor := by
  obtain ⟨hs, hb, hl, hr⟩ := f.pull_fields
  have hmove := f.pull.1.move_same
  exact ⟨hmove.state.trans hs, hmove.bud.trans hb, hmove.listener.trans hl, hmove.reservedFor.trans hr⟩

/-! ## What is handed to the Mix Engine (R72) -/

/-- The handover with one lane's 80 samples more, for the lane's listener. -/
def Handover.plus (h : Handover) (x : Option ListenerIx) (y : List Int) : Handover :=
  { h with contributions := h.contributions ++ match x with | some x => [{ listener := x, samples := y }] | none => [] }

theorem State.contribute_eq (s : State) (k : LaneIx) (y : List Int) :
    s.contribute k y =
      { s with
        laneUnit := { s.laneUnit with handover := s.laneUnit.handover.plus s.laneUnit.lanes[k].listener y } } := by
  unfold State.contribute Handover.plus
  cases s.laneUnit.lanes[k].listener with
  | some x => rfl
  | none => simp only [List.append_nil]

/-- A lane's feed after a pull that keeps its listener, with its output handed over. -/
def State.pulled (s : State) (k : LaneIx) (b : BudIx) (r : Feed × List Int) : State :=
  { s with
    laneUnit :=
      { s.laneUnit with
        lanes := s.laneUnit.lanes.set k r.1.lane
        handover := s.laneUnit.handover.plus s.laneUnit.lanes[k].listener r.2 }
    intake := { queues := s.intake.queues.set b r.1.queue, discards := s.intake.discards.set b r.1.discards } }

theorem State.pullWith_eq (s : State) (k : LaneIx) (b : BudIx) {pull : Feed → Feed × List Int}
    (h : (pull (s.feed k b)).1.lane.listener = s.laneUnit.lanes[k].listener) :
    s.pullWith k b pull = s.pulled k b (pull (s.feed k b)) := by
  have hlane : (s.setFeed k b (pull (s.feed k b)).1).laneUnit.lanes[k].listener = s.laneUnit.lanes[k].listener := by
    rw [← h]
    exact congrArg Lane.listener ((getElem_set_fin ..).trans (if_pos rfl))
  rw [State.pullWith, State.contribute_eq, hlane]
  rfl

/-! ## The share of a lane by its state (R71, R72, R94) -/

theorem State.pullLane_of_bud {k : LaneIx} {b : BudIx} (h : s.laneUnit.lanes[k].bud = some b) :
    s.pullLane k = s.pulled k b ((s.feed k b).pullMixing s.directives.settings.targetDepth) := by
  rw [State.pullLane, h]
  exact s.pullWith_eq k b (Feed.pullMixing_fields _ _).2.2.1

theorem State.promotable_of_bud {k : LaneIx} {b : BudIx} (h : s.laneUnit.lanes[k].bud = some b) :
    s.promotable k = true ↔ s.directives.settings.targetDepth ≤ (s.feed k b).depth := by
  rw [State.promotable, h, decide_eq_true_eq]

/-- A PRIMING lane deep enough is promoted and pulls, any other waits (R71, R95). -/
theorem State.examineLane_of_bud {k : LaneIx} {b : BudIx} (h : s.laneUnit.lanes[k].bud = some b) :
    s.examineLane k =
      if (s.feed k b).depth < s.directives.settings.targetDepth then s
      else s.pulled k b ((s.feed k b).promote.pullMixing s.directives.settings.targetDepth) := by
  have hpull := s.pullWith_eq k b (pull := fun f => f.promote.pullMixing s.directives.settings.targetDepth)
    (Feed.pullMixing_fields (s.feed k b).promote _).2.2.1
  rw [State.examineLane, h]
  simp only [State.promotable_of_bud h, ← not_le, ite_not]
  exact if_congr Iff.rfl hpull rfl

theorem State.pullLane_of_none {k : LaneIx} (h : s.laneUnit.lanes[k].bud = none) : s.pullLane k = s := by
  rw [State.pullLane, h]

theorem State.examineLane_of_none {k : LaneIx} (h : s.laneUnit.lanes[k].bud = none) : s.examineLane k = s := by
  rw [State.examineLane, h]

/-- The last pull of a lane, against no queue (R94). -/
def Lane.lastPull (l : Lane) : Feed × List Int := (Feed.mk l [] {}).pull

/-- A drained lane, VACANT, with its last output handed over (R72, R94). -/
def State.drained (s : State) (k : LaneIx) : State :=
  { s with
    laneUnit :=
      { s.laneUnit with
        lanes := s.laneUnit.lanes.set k s.laneUnit.lanes[k].lastPull.1.lane.cleared
        handover := s.laneUnit.handover.plus s.laneUnit.lanes[k].listener s.laneUnit.lanes[k].lastPull.2 } }

/-- What follows a lane's last pull: its reservation completes, or else it goes to the wait list's head (R65, R68, R73). -/
theorem State.drainLane_eq (hcall : s.callCtl.state = .inCall) (k : LaneIx) :
    s.drainLane k =
      match s.laneUnit.lanes[k].reservedFor.bind fun y => s.laneUnit.speaking[y].map fun b => (y, b) with
      | some (y, b) => (s.drained k).bindLane k b y
      | none => (s.drained k).grantedTo k := by
  obtain ⟨-, -, hlistener, hreserved⟩ := (Feed.mk s.laneUnit.lanes[k] [] {}).pull_fields
  have hset : (s.setLane k s.laneUnit.lanes[k].lastPull.1.lane).laneUnit.lanes[k] = s.laneUnit.lanes[k].lastPull.1.lane := by
    rw [setLane_getElem, if_pos rfl]
  have hpulled : (s.setLane k s.laneUnit.lanes[k].lastPull.1.lane).contribute k s.laneUnit.lanes[k].lastPull.2 =
      { s with
        laneUnit :=
          { s.laneUnit with
            lanes := s.laneUnit.lanes.set k s.laneUnit.lanes[k].lastPull.1.lane
            handover := s.laneUnit.handover.plus s.laneUnit.lanes[k].listener s.laneUnit.lanes[k].lastPull.2 } } := by
    rw [State.contribute_eq, hset]
    exact congrArg (fun x => ({ s with laneUnit := { s.laneUnit with
      lanes := s.laneUnit.lanes.set k s.laneUnit.lanes[k].lastPull.1.lane
      handover := s.laneUnit.handover.plus x s.laneUnit.lanes[k].lastPull.2 } } : State)) hlistener
  have hlane : ((s.setLane k s.laneUnit.lanes[k].lastPull.1.lane).contribute k s.laneUnit.lanes[k].lastPull.2).laneUnit.lanes[k] =
      s.laneUnit.lanes[k].lastPull.1.lane := by
    rw [hpulled]
    exact hset
  have hcleared : ((s.setLane k s.laneUnit.lanes[k].lastPull.1.lane).contribute k s.laneUnit.lanes[k].lastPull.2).setLane k
      s.laneUnit.lanes[k].lastPull.1.lane.cleared = s.drained k := by
    rw [hpulled, State.drained, State.setLane]
    dsimp only
    rw [Vector.set_set]
  have hkept : (s.drained k).laneUnit.speaking = s.laneUnit.speaking := rfl
  have hcalled : (s.drained k).callCtl.state = .inCall := hcall
  have hdrain : s.drainLane k =
      ((s.setLane k s.laneUnit.lanes[k].lastPull.1.lane).contribute k s.laneUnit.lanes[k].lastPull.2).vacateLane k false := rfl
  rw [hdrain, State.vacateLane, hlane, hcleared, hkept, hcalled]
  have hres : s.laneUnit.lanes[k].lastPull.1.lane.reservedFor = s.laneUnit.lanes[k].reservedFor := hreserved
  rw [hres]
  cases s.laneUnit.lanes[k].reservedFor.bind fun y => s.laneUnit.speaking[y].map fun b => (y, b) with
  | some p => rfl
  | none => exact (if_neg Bool.false_ne_true).trans (State.grantHead_grantedTo hcalled k)

theorem LaneUnit.mixingCount_eq (u : LaneUnit) :
    u.mixingCount = ([0, 1, 2] : List LaneIx).countP fun j => u.lanes[j].state = .mixing := rfl

/-! ## The Lane Unit at a cadence (R72) -/

/-- A lane's share leaves the call state. -/
theorem State.laneAtCadence_call (s : State) (k : LaneIx) (before : LaneState) :
    (s.laneAtCadence k before).callCtl.state = s.callCtl.state :=
  (s.laneAtCadence_reaches (may := fun _ => False) k before).field_eq (fun s => s.callCtl.state)
    fun _ _ h => h.call_eq id id

theorem State.lanesTake_of_call (before : Vector LaneState 3) (order : List LaneIx) (h : s.callCtl.state = .inCall) :
    s.lanesTake before order = (order.foldl (fun s k => s.laneAtCadence k before[k]) s.clearHandover).countMixing :=
  if_pos (c := s.clearHandover.callCtl.state = .inCall) h

theorem State.lanesTake_of_none (before : Vector LaneState 3) (order : List LaneIx) (h : s.callCtl.state ≠ .inCall) :
    s.lanesTake before order = s.clearHandover :=
  if_neg (c := s.clearHandover.callCtl.state = .inCall) h

/-- A lane's share leaves the settings. -/
theorem State.laneAtCadence_settings (s : State) (k : LaneIx) (before : LaneState) :
    (s.laneAtCadence k before).directives.settings = s.directives.settings :=
  (s.laneAtCadence_reaches (may := fun _ => False) k before).field_eq (fun s => s.directives.settings)
    fun _ _ h => by
      have htables := h.tables_eq id id
      simp only [State.writtenTables, Prod.mk.injEq] at htables
      tauto

/-- Folds whose steps agree while a law holds that they keep agree. -/
theorem foldl_congr_of_law {α β : Type} {f g : α → β → α} {law : α → Prop}
    (h : ∀ a b, law a → f a b = g a b ∧ law (f a b)) (l : List β) (a : α) (ha : law a) : l.foldl f a = l.foldl g a := by
  induction l generalizing a with
  | nil => rfl
  | cons b l ih =>
    obtain ⟨heq, hlaw⟩ := h a b ha
    rw [List.foldl_cons, List.foldl_cons, ← heq]
    exact ih _ hlaw

/-! ## The events sent alone (log entry 6) -/

theorem exec_promotion (s : State) (k : LaneIx) :
    exec (.promotion k) s =
      .next (if s.callCtl.state = .inCall ∧ s.laneUnit.lanes[k].state = .priming ∧ s.promotable k then
        (s.examineLane k).countMixing else s) := rfl

theorem exec_drainLastPull (s : State) (k : LaneIx) :
    exec (.drainLastPull k) s =
      .next (if s.callCtl.state = .inCall ∧ s.laneUnit.lanes[k].state = .draining then s.drainShare k else s) := rfl

theorem exec_reservationComplete (s : State) (k : LaneIx) :
    exec (.reservationComplete k) s =
      .next (if s.callCtl.state = .inCall ∧ s.laneUnit.lanes[k].state = .draining ∧
        s.laneUnit.lanes[k].reservedFor.isSome then s.drainShare k else s) := rfl

theorem exec_waitListGrant (s : State) (k : LaneIx) :
    exec (.waitListGrant k) s =
      .next (if s.callCtl.state = .inCall ∧ s.laneUnit.lanes[k].reservedFor = none ∧ s.laneUnit.waitList ≠ [] then
        match s.laneUnit.lanes[k].state with
        | .draining => s.drainShare k
        | .vacant => s.grantHead k
        | .priming | .mixing => s
      else s) := rfl

section
variable {k : LaneIx}

theorem exec_promotion_of_other (h : s.callCtl.state ≠ .inCall ∨ s.laneUnit.lanes[k].state ≠ .priming) :
    exec (.promotion k) s = .next s := by
  rw [exec_promotion, if_neg]
  rintro ⟨hcall, hstate, -⟩
  exact h.elim (· hcall) (· hstate)

theorem exec_drains_of_other (h : s.callCtl.state ≠ .inCall ∨ s.laneUnit.lanes[k].state ≠ .draining) :
    exec (.drainLastPull k) s = .next s ∧ exec (.reservationComplete k) s = .next s := by
  rw [exec_drainLastPull, exec_reservationComplete, if_neg, if_neg]
  · exact ⟨rfl, rfl⟩
  · rintro ⟨hcall, hstate, -⟩
    exact h.elim (· hcall) (· hstate)
  · rintro ⟨hcall, hstate⟩
    exact h.elim (· hcall) (· hstate)

theorem exec_waitListGrant_of_other
    (h : ¬ (s.callCtl.state = .inCall ∧ s.laneUnit.lanes[k].reservedFor = none ∧ s.laneUnit.waitList ≠ [])) :
    exec (.waitListGrant k) s = .next s :=
  congrArg Host.Outcome.next (if_neg h)

theorem exec_waitListGrant_of_carries (h : s.laneUnit.lanes[k].carries = true) : exec (.waitListGrant k) s = .next s := by
  rw [exec_waitListGrant]
  refine congrArg Host.Outcome.next ?_
  split
  · rcases (Lane.carries_iff _).1 h with h | h <;> rw [h]
  · rfl

variable (hcall : s.callCtl.state = .inCall)

include hcall

theorem exec_waitListGrant_of_vacant {e : WaitEntry} {rest : List WaitEntry} (hstate : s.laneUnit.lanes[k].state = .vacant)
    (hfree : s.laneUnit.lanes[k].reservedFor = none) (hw : s.laneUnit.waitList = e :: rest) :
    exec (.waitListGrant k) s = .next (s.bindLane k e.bud e.listener) := by
  have hwaits : s.laneUnit.waitList ≠ [] := by rw [hw]; exact nofun
  rw [exec_waitListGrant, if_pos ⟨hcall, hfree, hwaits⟩, hstate, State.grantHead_eq hcall, hw]

theorem exec_promotion_of_priming {b : BudIx} (hstate : s.laneUnit.lanes[k].state = .priming)
    (hb : s.laneUnit.lanes[k].bud = some b) :
    exec (.promotion k) s =
      .next (if (s.feed k b).depth < s.directives.settings.targetDepth then s
        else (s.pulled k b ((s.feed k b).promote.pullMixing s.directives.settings.targetDepth)).countMixing) := by
  rw [exec_promotion]
  refine congrArg Host.Outcome.next ?_
  simp only [hcall, hstate, true_and, State.promotable_of_bud hb, ← not_lt]
  split_ifs with h
  · rfl
  · rw [State.examineLane_of_bud hb, if_neg h]

variable (hstate : s.laneUnit.lanes[k].state = .draining)

include hstate

theorem exec_drainLastPull_of_draining : exec (.drainLastPull k) s = .next (s.drainShare k) :=
  congrArg Host.Outcome.next (if_pos ⟨hcall, hstate⟩)

theorem exec_reservationComplete_of_draining :
    exec (.reservationComplete k) s = .next (if s.laneUnit.lanes[k].reservedFor.isSome then s.drainShare k else s) := by
  rw [exec_reservationComplete]
  simp only [hcall, hstate, true_and]

theorem exec_waitListGrant_of_draining (hfree : s.laneUnit.lanes[k].reservedFor = none) (hw : s.laneUnit.waitList ≠ []) :
    exec (.waitListGrant k) s = .next (s.drainShare k) := by
  rw [exec_waitListGrant, if_pos ⟨hcall, hfree, hw⟩, hstate]

end

/-- Settles O57: the events sent alone, and the shares of a cadence one after another. -/
theorem laneEventsAdvanceTheLanes : Obligations.LaneEventsAdvanceTheLanes := by
  unfold Obligations.LaneEventsAdvanceTheLanes
  intro s k u l target drain
  refine ⟨?_, exec_promotion_of_other, ?_, exec_drains_of_other,
    fun e rest hcall hstate hfree hw => exec_waitListGrant_of_vacant hcall hstate hfree hw, ?_, fun t => rfl, ?_⟩
  · intro b x hcall hstate hb hx f r
    have hpromote := exec_promotion_of_priming hcall hstate hb
    refine ⟨fun h => hpromote.trans (congrArg Host.Outcome.next (if_pos h)), fun h => ?_⟩
    have hdeep : ¬ (s.feed k b).depth < s.directives.settings.targetDepth := not_lt.2 h
    rw [hpromote, if_neg hdeep]
    have hplus : u.handover.plus s.laneUnit.lanes[k].listener r.2 =
        { u.handover with contributions := u.handover.contributions ++ [{ listener := x, samples := r.2 }] } := by
      rw [show s.laneUnit.lanes[k].listener = some x from hx]
      rfl
    refine congrArg (fun h => Host.Outcome.next (State.countMixing h)) ?_
    rw [← hplus]
    rfl
  · intro x hcall hstate hx left
    have hleft : s.drained k = left := by
      have hlistener : s.laneUnit.lanes[k].listener = some x := hx
      rw [State.drained, hlistener]
      rfl
    have hdrain := State.drainLane_eq hcall k
    rw [hleft] at hdrain
    refine ⟨fun y b hres hspeaks => ?_, fun hfree => ?_⟩
    · have hbind : (s.laneUnit.lanes[k].reservedFor.bind fun y => s.laneUnit.speaking[y].map fun b => (y, b)) = some (y, b) := by
        rw [show s.laneUnit.lanes[k].reservedFor = some y from hres, Option.bind_some, show s.laneUnit.speaking[y] = some b from hspeaks]
        rfl
      rw [hbind] at hdrain
      have hshare : s.drainShare k = (left.bindLane k b y).countMixing := congrArg State.countMixing hdrain
      refine ⟨?_, ?_, exec_waitListGrant_of_other fun h => ?_⟩
      · rw [exec_drainLastPull_of_draining hcall hstate, hshare]
      · rw [exec_reservationComplete_of_draining hcall hstate, if_pos (Option.isSome_of_eq_some hres), hshare]
      · exact absurd (hres.symm.trans h.2.1) nofun
    · have hbind : (s.laneUnit.lanes[k].reservedFor.bind fun y => s.laneUnit.speaking[y].map fun b => (y, b)) = none := by
        rw [show s.laneUnit.lanes[k].reservedFor = none from hfree]
        rfl
      rw [hbind] at hdrain
      have hshare : s.drainShare k = (left.grantedTo k).countMixing := congrArg State.countMixing hdrain
      refine ⟨?_, fun hw => ⟨?_, exec_waitListGrant_of_other fun h => h.2.2 hw⟩, fun e rest hw => ?_⟩
      · rw [exec_reservationComplete_of_draining hcall hstate, if_neg]
        rw [show s.laneUnit.lanes[k].reservedFor = none from hfree]
        exact Bool.false_ne_true
      · have hgrant : left.grantedTo k = left := by
          rw [State.grantedTo, show left.laneUnit.waitList = [] from hw]
        rw [exec_drainLastPull_of_draining hcall hstate, hshare, hgrant]
      · have hgrant : left.grantedTo k = left.bindLane k e.bud e.listener := by
          rw [State.grantedTo, show left.laneUnit.waitList = e :: rest from hw]
        have hwaits : s.laneUnit.waitList ≠ [] := by rw [show s.laneUnit.waitList = e :: rest from hw]; exact nofun
        rw [exec_drainLastPull_of_draining hcall hstate, exec_waitListGrant_of_draining hcall hstate hfree hwaits, hshare, hgrant]
        exact ⟨rfl, rfl⟩
  · rintro (hcall | hcarries)
    · exact exec_waitListGrant_of_other fun h => hcall h.1
    · exact exec_waitListGrant_of_carries hcarries
  · intro before order handed pulled share begun
    refine ⟨State.lanesTake_of_none before order, fun hcall => ?_⟩
    rw [State.lanesTake_of_call before order hcall]
    refine congrArg State.countMixing (foldl_congr_of_law
      (law := fun t => t.callCtl.state = .inCall ∧ t.directives.settings.targetDepth = target) (fun t j ht => ?_) order _
      ⟨hcall, rfl⟩)
    obtain ⟨ht, htarget⟩ := ht
    refine ⟨?_, (t.laneAtCadence_call j _).trans ht, by rw [t.laneAtCadence_settings, htarget]⟩
    simp only [share, ← htarget]
    generalize before[j] = state
    cases state with
    | vacant => cases t.laneUnit.lanes[j].bud <;> rfl
    | mixing =>
      cases hb : t.laneUnit.lanes[j].bud with
      | none => exact State.pullLane_of_none hb
      | some b => exact State.pullLane_of_bud hb
    | priming =>
      cases hb : t.laneUnit.lanes[j].bud with
      | none => exact State.examineLane_of_none hb
      | some b =>
        refine (State.examineLane_of_bud hb).trans ?_
        dsimp only
        rw [← hb]
        rfl
    | draining =>
      refine (State.drainLane_eq ht j).trans ?_
      cases t.laneUnit.lanes[j].bud <;> rfl

end Sys2Proof.Machine
end

