-- ==== Sys2Proof/Proofs/CallChanges.lean ====
section
/-! PROOFS. What a change of call state does to the lanes, the wait list and the queues (R67, R77 to R79). -/

namespace Sys2Proof.Machine

variable {s : State}

/-! ## Emptying the lanes (R77, R78) -/

theorem keepLast_keepLast (n : Nat) (q : List Entry) : keepLast n (keepLast n q) = keepLast n q :=
  keepLast_of_le (keepLast_length n q)

/-- The queue of a bud that a lane stops carrying is converted, and no other (R53). -/
theorem State.unbindBud_queue (s : State) (k : LaneIx) (b : BudIx) :
    (s.unbindBud k).intake.queues[b] =
      if s.laneUnit.lanes[k].carries = true ∧ s.laneUnit.lanes[k].bud = some b then keepLast 2 s.intake.queues[b]
      else s.intake.queues[b] := by
  unfold State.unbindBud
  cases hb : s.laneUnit.lanes[k].bud with
  | none => rw [if_neg fun h => nomatch h.2]
  | some c =>
    dsimp only
    by_cases hc : s.laneUnit.lanes[k].carries = true
    · rw [if_pos hc]
      refine (getElem_set_fin ..).trans ?_
      by_cases hcb : c = b
      · subst hcb
        rw [if_pos rfl, if_pos ⟨hc, rfl⟩]
        rfl
      · rw [if_neg hcb, if_neg fun h => hcb (Option.some.inj h.2)]
    · rw [if_neg hc, if_neg fun h => hc h.1]

theorem State.unbindBud_discards (s : State) (k : LaneIx) : (s.unbindBud k).intake.discards = s.intake.discards := by
  unfold State.unbindBud
  split
  · split <;> rfl
  · rfl

/-- One lane becomes VACANT without a last pull (R77, R78). -/
def State.emptyLane (s : State) (k : LaneIx) : State := (s.unbindBud k).setLane k s.laneUnit.lanes[k].cleared

theorem State.emptyLanes_eq (s : State) : s.emptyLanes = Config.lanes.foldl State.emptyLane s := by
  have hstep : (fun (s : State) (k : LaneIx) => (s.unbindBud k).setLane k s.laneUnit.lanes[k].cleared) = State.emptyLane := rfl
  rw [← hstep]
  simp only [State.emptyLanes, Config.lanes]

/-- What emptying some lanes, each once, leaves. -/
theorem State.emptyLane_foldl (s : State) (l : List LaneIx) (hl : l.Nodup) :
    (∀ j : LaneIx, (l.foldl State.emptyLane s).laneUnit.lanes[j] =
        if j ∈ l then s.laneUnit.lanes[j].cleared else s.laneUnit.lanes[j]) ∧
      (∀ b : BudIx, (l.foldl State.emptyLane s).intake.queues[b] =
        if ∃ j ∈ l, s.laneUnit.lanes[j].carries = true ∧ s.laneUnit.lanes[j].bud = some b then
          keepLast 2 s.intake.queues[b] else s.intake.queues[b]) ∧
      (l.foldl State.emptyLane s).intake.discards = s.intake.discards ∧
      (l.foldl State.emptyLane s).laneUnit.waitList = s.laneUnit.waitList := by
  induction l using List.reverseRecOn with
  | nil => simp
  | append_singleton l k ih =>
    obtain ⟨hl, -, hcross⟩ := List.nodup_append.1 hl
    have hk : k ∉ l := fun h => hcross k h k List.mem_cons_self rfl
    obtain ⟨hlanes, hqueues, hdiscards, hwait⟩ := ih hl
    generalize ht : l.foldl State.emptyLane s = t at hlanes hqueues hdiscards hwait
    have hstep : (l ++ [k]).foldl State.emptyLane s = t.emptyLane k := by rw [List.foldl_append, ht]; rfl
    have htk : t.laneUnit.lanes[k] = s.laneUnit.lanes[k] := by rw [hlanes, if_neg hk]
    rw [hstep]
    refine ⟨fun j => ?_, fun b => ?_, (State.unbindBud_discards t k).trans hdiscards,
      (congrArg LaneUnit.waitList (t.unbindBud_laneUnit k)).trans hwait⟩
    · rw [State.emptyLane, setLane_getElem, State.unbindBud_laneUnit, htk, hlanes]
      by_cases hkj : k = j
      · subst hkj
        rw [if_pos rfl, if_pos (by simp)]
      · have hmem : j ∈ l ++ [k] ↔ j ∈ l := by simp [Ne.symm hkj]
        rw [if_neg hkj]
        simp only [hmem]
    · have hsplit : (∃ j ∈ l ++ [k], s.laneUnit.lanes[j].carries = true ∧ s.laneUnit.lanes[j].bud = some b) ↔
          (∃ j ∈ l, s.laneUnit.lanes[j].carries = true ∧ s.laneUnit.lanes[j].bud = some b) ∨
            (s.laneUnit.lanes[k].carries = true ∧ s.laneUnit.lanes[k].bud = some b) := by
        simp only [List.mem_append, List.mem_singleton, or_and_right, exists_or, exists_eq_left]
      refine (t.unbindBud_queue k b).trans ?_
      rw [htk, hqueues]
      by_cases hnew : s.laneUnit.lanes[k].carries = true ∧ s.laneUnit.lanes[k].bud = some b
      · rw [if_pos hnew, if_pos (hsplit.2 (.inr hnew))]
        split
        · exact keepLast_keepLast _ _
        · rfl
      · rw [if_neg hnew]
        simp only [hsplit, hnew, or_false]

theorem LaneUnit.boundLane_eq_none {u : LaneUnit} {b : BudIx} :
    u.boundLane b = none ↔ ∀ k : LaneIx, ¬ (u.lanes[k].carries = true ∧ u.lanes[k].bud = some b) := by
  simp only [boundLane, find?_lanes_eq_none, Bool.and_eq_true, beq_iff_eq]

/-- What emptying every lane leaves (R53, R77, R78). -/
theorem State.emptyLanes_spec (s : State) :
    (∀ k : LaneIx, s.emptyLanes.laneUnit.lanes[k] = s.laneUnit.lanes[k].cleared) ∧
      (∀ b : BudIx, s.emptyLanes.intake.queues[b] =
        if s.laneUnit.boundLane b = none then s.intake.queues[b] else keepLast 2 s.intake.queues[b]) ∧
      s.emptyLanes.intake.discards = s.intake.discards ∧ s.emptyLanes.laneUnit.waitList = s.laneUnit.waitList := by
  obtain ⟨hlanes, hqueues, hdiscards, hwait⟩ := s.emptyLane_foldl Config.lanes (by decide)
  rw [State.emptyLanes_eq]
  refine ⟨fun k => ?_, fun b => ?_, hdiscards, hwait⟩
  · rw [hlanes, if_pos (mem_lanes k)]
  · have hbound : s.laneUnit.boundLane b = none ↔
        ¬ ∃ j ∈ Config.lanes, s.laneUnit.lanes[j].carries = true ∧ s.laneUnit.lanes[j].bud = some b := by
      simp only [LaneUnit.boundLane_eq_none, mem_lanes, true_and, not_exists]
    rw [hqueues]
    simp only [hbound, ite_not]

/-! ## Placing several listeners (R77, R79) -/

/-- The placement of a list of listeners with their buds, one after another. -/
def State.placeAll (s : State) (claims : List (ListenerIx × BudIx)) : State :=
  claims.foldl (fun s c => s.placeWaiting c.1 c.2) s

theorem State.placeAll_only (s : State) (claims : List (ListenerIx × BudIx)) : s.OnlyBindings (s.placeAll claims) :=
  State.OnlyBindings.foldl (fun (s : State) (c : ListenerIx × BudIx) => s.placeWaiting c.1 c.2)
    (fun s c => s.placeWaiting_only c.1 c.2) claims s

theorem State.placeAll_laneUnit (s : State) (claims : List (ListenerIx × BudIx)) :
    (s.placeAll claims).laneUnit = { s.laneUnit with waitList := (s.placeAll claims).laneUnit.waitList } ∧
      (s.placeAll claims).intake = s.intake := by
  induction claims using List.reverseRecOn with
  | nil => exact ⟨rfl, rfl⟩
  | append_singleton claims c ih =>
    have hstep : s.placeAll (claims ++ [c]) = (s.placeAll claims).placeWaiting c.1 c.2 := List.foldl_append ..
    have hintake : ((s.placeAll claims).placeWaiting c.1 c.2).intake = (s.placeAll claims).intake := by
      unfold State.placeWaiting
      dsimp only
      split <;> rfl
    rw [hstep, State.placeWaiting_laneUnit, hintake, ih.1]
    exact ⟨rfl, ih.2⟩

/-- A wait entry's listener and bud. -/
def WaitEntry.claim (e : WaitEntry) : ListenerIx × BudIx := (e.listener, e.bud)

/-- Listeners without entries, placed one after another, join the list with rising request orders, not reported (R68). -/
theorem State.placeAll_spec (s : State) (claims : List (ListenerIx × BudIx))
    (h : WaitOrderly s.priorityOf s.laneUnit.waitList) (hn : (claims.map Prod.fst).Nodup)
    (hnew : ∀ c ∈ claims, waits c.1 s.laneUnit.waitList = false) :
    WaitOrderly s.priorityOf (s.placeAll claims).laneUnit.waitList ∧
      ∃ placed : List WaitEntry, (s.placeAll claims).laneUnit.waitList.Perm (s.laneUnit.waitList ++ placed) ∧
        placed.map WaitEntry.claim = claims ∧ (placed.Pairwise fun a b => a.order < b.order) ∧
        ∀ e ∈ placed, e.denied = false ∧ s.laneUnit.waitList.length < e.order := by
  induction claims using List.reverseRecOn with
  | nil => exact ⟨h, [], by simp [State.placeAll], rfl, List.Pairwise.nil, nofun⟩
  | append_singleton claims c ih =>
    rw [List.map_append, List.nodup_append] at hn
    obtain ⟨hn, -, hcross⟩ := hn
    obtain ⟨horder, placed, hperm, hclaims, hsorted, hplaced⟩ := ih hn fun d hd => hnew d (List.mem_append_left _ hd)
    have hstep : s.placeAll (claims ++ [c]) = (s.placeAll claims).placeWaiting c.1 c.2 := List.foldl_append ..
    have hprio : (s.placeAll claims).priorityOf = s.priorityOf := by
      unfold State.priorityOf
      rw [(s.placeAll_only claims).only.roster]
    have hfree : waits c.1 (s.placeAll claims).laneUnit.waitList = false := by
      rw [waits_eq_false]
      intro e he hc
      rcases List.mem_append.1 (hperm.mem_iff.1 he) with he | he
      · exact waits_eq_false.1 (hnew c (by simp)) e he hc
      · have hmem : e.claim.1 ∈ claims.map Prod.fst := by
          rw [← hclaims, List.map_map]
          exact List.mem_map_of_mem (f := Prod.fst ∘ WaitEntry.claim) he
        exact hcross _ hmem _ (List.mem_singleton_self _) hc
    have hplace := State.placeWaiting_of_new c.2 hfree (hprio ▸ horder)
    rw [hprio] at hplace
    rw [hstep, hplace]
    refine ⟨horder.insert (waits_eq_false.1 hfree) rfl,
      placed ++ [⟨c.1, c.2, (s.placeAll claims).laneUnit.waitList.length + 1, false⟩], ?_, ?_, ?_, ?_⟩
    · refine (insertWait_perm _ _ _).trans ?_
      rw [← List.append_assoc]
      exact (hperm.cons _).trans (List.perm_append_singleton _ _).symm
    · rw [List.map_append, hclaims]
      rfl
    · refine List.pairwise_append.2 ⟨hsorted, List.pairwise_singleton _ _, fun a ha b hb => ?_⟩
      obtain rfl := List.mem_singleton.1 hb
      have hin := (horder.range a (hperm.mem_iff.2 (List.mem_append_right _ ha))).2
      dsimp only
      omega
    · refine List.forall_mem_append.2 ⟨hplaced, fun e he => ?_⟩
      obtain rfl := List.mem_singleton.1 he
      have hlen := hperm.length_eq
      rw [List.length_append] at hlen
      exact ⟨rfl, by dsimp only; omega⟩

/-! ## Grants at entry to IN CALL (R79) -/

theorem State.grantOne_of_vacant {k : LaneIx} {e : WaitEntry} {rest : List WaitEntry} (hcall : s.callCtl.state = .inCall)
    (hk : s.laneUnit.vacantLane = some k) (hw : s.laneUnit.waitList = e :: rest) :
    s.grantOne = s.bindLane k e.bud e.listener := by
  rw [State.grantOne, hk]
  dsimp only
  rw [State.grantHead_eq hcall, hw]

theorem State.grantOne_of_barred (h : s.callCtl.state ≠ .inCall ∨ s.laneUnit.vacantLane = none ∨ s.laneUnit.waitList = []) :
    s.grantOne = s := by
  unfold State.grantOne
  split
  · next k hk =>
    unfold State.grantHead
    split
    · next hcall =>
      rcases h with h | h | h
      · exact absurd hcall h
      · exact absurd (hk.symm.trans h) nofun
      · rw [h]
    · rfl
  · rfl

/-- A lane just bound is PRIMING, and names its bud and its listener (R64). -/
theorem State.bindLane_bound (s : State) (k : LaneIx) (b : BudIx) (x : ListenerIx) :
    (s.bindLane k b x).laneUnit.lanes[k].state = .priming ∧ (s.bindLane k b x).laneUnit.lanes[k].bud = some b ∧
      (s.bindLane k b x).laneUnit.lanes[k].listener = some x ∧ (s.bindLane k b x).laneUnit.lanes[k].reservedFor = none := by
  have hsame := Feed.prepare_same (s.primedFeed k b x)
  rw [s.bindLane_lane, if_pos rfl]
  exact ⟨hsame.state, hsame.bud, hsame.listener, hsame.reservedFor⟩

theorem State.bindLane_waitList (s : State) (k : LaneIx) (b : BudIx) (x : ListenerIx) :
    (s.bindLane k b x).laneUnit.waitList = removeWait x s.laneUnit.waitList := rfl

/-- The head's removal leaves the others in their places (R68). -/
theorem removeWait_head {e : WaitEntry} {rest : List WaitEntry} (hn : ((e :: rest).map (·.listener)).Nodup) :
    (removeWait e.listener (e :: rest)).map WaitEntry.claim = rest.map WaitEntry.claim := by
  have hremove := removeWait_of_entry (before := []) (after := rest) (gone := e) (x := e.listener) rfl hn
  rw [List.nil_append] at hremove
  rw [hremove, List.nil_append, List.map_map]
  exact List.map_congr_left fun a _ => Prod.ext (lowered_listener _ _) (lowered_bud _ _)

/-- After `i` grants the first `i` listeners of the list hold lanes 1 to `i`, and the rest wait (R79). -/
structure State.Granted (heads : List (ListenerIx × BudIx)) (i : Nat) (s : State) : Prop where
  call : s.callCtl.state = .inCall
  bound : ∀ k : LaneIx, k.val < i → ∀ p, heads[k.val]? = some p →
    s.laneUnit.lanes[k].state = .priming ∧ s.laneUnit.lanes[k].listener = some p.1 ∧ s.laneUnit.lanes[k].bud = some p.2
  vacant : ∀ k : LaneIx, (i ≤ k.val ∨ heads[k.val]? = none) →
    s.laneUnit.lanes[k].state = .vacant ∧ s.laneUnit.lanes[k].reservedFor = none
  waiting : s.laneUnit.waitList.map WaitEntry.claim = heads.drop i
  distinct : (s.laneUnit.waitList.map (·.listener)).Nodup

theorem State.Granted.next {heads : List (ListenerIx × BudIx)} {k : LaneIx} (h : s.Granted heads k.val) :
    s.grantOne.Granted heads (k.val + 1) := by
  cases hw : s.laneUnit.waitList with
  | nil =>
    have hnone : heads[k.val]? = none := by
      have hdrop := h.waiting
      rw [hw] at hdrop
      exact List.getElem?_eq_none (List.drop_eq_nil_iff.1 hdrop.symm)
    have hlen := List.getElem?_eq_none_iff.1 hnone
    rw [State.grantOne_of_barred (.inr (.inr hw))]
    refine ⟨h.call, fun j hj p hp => ?_, fun j hj => h.vacant j ?_, ?_, h.distinct⟩
    · rcases Nat.lt_succ_iff_lt_or_eq.1 hj with hlt | heq
      · exact h.bound j hlt p hp
      · rw [heq, hnone] at hp
        exact absurd hp nofun
    · exact hj.imp (fun hlt => (Nat.le_succ _).trans hlt) id
    · rw [hw, List.drop_eq_nil_of_le (by omega)]
      rfl
  | cons e rest =>
    have hdrop := h.waiting
    rw [hw, List.map_cons] at hdrop
    have hhead : heads[k.val]? = some e.claim := by
      have := congrArg (·[0]?) hdrop
      simpa using this.symm
    have hlen : k.val < heads.length := (List.getElem?_eq_some_iff.1 hhead).1
    have hbound : ∀ j : LaneIx, j < k → s.laneUnit.lanes[j].state = .priming := fun j hj =>
      (h.bound j hj _ (List.getElem?_eq_getElem (lt_trans (Fin.lt_def.1 hj) hlen : j.val < heads.length))).1
    have hlane : s.laneUnit.vacantLane = some k := LaneUnit.vacantLane_eq_some.2
      ⟨h.vacant k (.inl le_rfl), fun j hj hv => absurd ((hbound j hj).symm.trans hv.1) nofun⟩
    obtain ⟨hstate, hbud, hlistener, -⟩ := s.bindLane_bound k e.bud e.listener
    rw [State.grantOne_of_vacant h.call hlane hw]
    refine ⟨(congrArg CallCtl.state (State.bindLane_only s k e.bud e.listener).only.callCtl).trans h.call, fun j hj p hp => ?_,
      fun j hj => ?_, ?_, ?_⟩
    · rcases Nat.lt_succ_iff_lt_or_eq.1 hj with hlt | heq
      · have hne : k ≠ j := fun e => by subst e; omega
        rw [State.bindLane_other hne]
        exact h.bound j hlt p hp
      · obtain rfl : j = k := Fin.ext heq
        obtain rfl : e.claim = p := Option.some.inj (hhead.symm.trans hp)
        exact ⟨hstate, hlistener, hbud⟩
    · have hne : k ≠ j := by
        rintro rfl
        rcases hj with hj | hj
        · omega
        · exact absurd (hhead.symm.trans hj) nofun
      rw [State.bindLane_other hne]
      exact h.vacant j (hj.imp (fun hlt => (Nat.le_succ _).trans hlt) id)
    · rw [State.bindLane_waitList, hw, removeWait_head (hw ▸ h.distinct), ← List.drop_drop, ← hdrop]
      rfl
    · have hd := h.distinct
      rw [hw] at hd
      have hmap := congrArg (List.map Prod.fst) (removeWait_head hd)
      rw [List.map_map, List.map_map] at hmap
      rw [State.bindLane_waitList, hw]
      exact hmap ▸ (List.nodup_cons.1 hd).2

/-! ## LANE DENIED at entry (R67, R79) -/

/-- Posting a report and replacing the wait list do not meet. -/
theorem State.setWait_post (s : State) (w : List WaitEntry) (r : Report) : (s.setWait w).post r = (s.post r).setWait w := by
  unfold State.post State.chooseVoice State.setWait
  dsimp only
  split
  · cases s.voicePort.slot with
    | some f => rfl
    | none => cases (s.directives.enqueue r).reports <;> rfl
  · rfl

/-- The LANE DENIED (NO LANE) report for a wait entry (R67). -/
def State.denial (s : State) (e : WaitEntry) : Report :=
  .event (.laneDenied e.listener s.laneUnit.speaking[e.listener] s.roster.listeners[e.listener].priority .noLane)

theorem State.postDenied_foldl (s : State) (l : List WaitEntry) :
    l.foldl (fun s e => s.postDenied e.listener .noLane) s =
      (l.map s.denial).foldl State.post
        (s.setWait (s.laneUnit.waitList.map fun e => { e with denied := e.denied || decide (e.listener ∈ l.map (·.listener)) })) := by
  induction l generalizing s with
  | nil =>
    have hself : (fun e : WaitEntry => { e with denied := e.denied || decide (e.listener ∈ ([] : List WaitEntry).map (·.listener)) }) =
        id := funext fun e => by simp
    rw [hself, List.map_id]
    rfl
  | cons a l ih =>
    have hdenial : (s.postDenied a.listener .noLane).denial = s.denial := funext fun e => by
      unfold State.denial
      rw [State.postDenied_laneUnit, (s.postDenied_only a.listener .noLane).only.roster]
    rw [List.foldl_cons, ih, hdenial, State.postDenied_laneUnit, State.postDenied_eq]
    refine Eq.trans ?_ (List.foldl_cons (f := State.post) (l := l.map s.denial)).symm
    rw [← State.setWait_post]
    refine congrArg (fun w => (l.map s.denial).foldl State.post ((s.setWait w).post _)) ?_
    rw [List.map_map]
    refine List.map_congr_left fun e _ => ?_
    by_cases h : e.listener = a.listener <;> simp [h]

/-- Every entry is reported once, in list order (R67, R79). -/
theorem State.denyWaiting_eq (s : State) :
    s.denyWaiting =
      ((s.laneUnit.waitList.filter fun e => e.denied = false).map s.denial).foldl State.post
        (s.setWait (s.laneUnit.waitList.map fun e => { e with denied := true })) := by
  have hfilter : (s.laneUnit.waitList.filter fun e => !e.denied) = s.laneUnit.waitList.filter fun e => e.denied = false :=
    List.filter_congr fun e _ => by cases e.denied <;> rfl
  rw [State.denyWaiting, hfilter, State.postDenied_foldl]
  refine congrArg (fun w => List.foldl State.post (s.setWait w) _) (List.map_congr_left fun e he => ?_)
  cases hd : e.denied with
  | true => rfl
  | false =>
    have hin : e.listener ∈ (s.laneUnit.waitList.filter fun e => e.denied = false).map (·.listener) :=
      List.mem_map_of_mem (List.mem_filter.2 ⟨he, by simpa using hd⟩)
    simp only [hin, decide_true, Bool.or_true]

theorem State.foldl_post_laneUnit (s : State) (l : List Report) : (l.foldl State.post s).laneUnit = s.laneUnit := by
  induction l generalizing s with
  | nil => rfl
  | cons r l ih => exact (ih _).trans (State.post_laneUnit _ _)

theorem State.denyWaiting_laneUnit (s : State) :
    s.denyWaiting.laneUnit =
      { s.laneUnit with waitList := s.laneUnit.waitList.map fun e => { e with denied := true } } := by
  rw [State.denyWaiting_eq, State.foldl_post_laneUnit]
  rfl

end Sys2Proof.Machine
end

