-- ==== Sys2Proof/Proofs/CallLanes.lean ====
section
/-! PROOFS. The lanes and the wait list at the call-control directives (R67, R77 to R79). -/

namespace Sys2Proof.Machine

variable {s : State}

/-! ## Who holds or has reserved a lane -/

/-- The listener that a lane serves: its own while it carries a talker, the reserving one while it drains (R63, R65). -/
def Lane.served (l : Lane) : Option ListenerIx := if l.carries then l.listener else l.reservedFor

theorem Lane.FieldsSound.served_eq {l : Lane} (h : l.FieldsSound) {x : ListenerIx} :
    l.served = some x ↔ l.carries = true ∧ l.listener = some x ∨ l.reservedFor = some x := by
  obtain ⟨-, -, -, hreserved, -⟩ := h
  unfold Lane.served
  by_cases hc : l.carries = true
  · have hnot : l.reservedFor ≠ some x := fun hr => by
      have hdrain := hreserved (by rw [hr]; rfl)
      rw [Lane.carries, hdrain] at hc
      exact absurd hc nofun
    simp only [hc, if_true, true_and, hnot, or_false]
  · rw [if_neg hc]
    exact ⟨Or.inr, fun h => h.resolve_left fun hcarry => hc hcarry.1⟩

theorem LaneUnit.served_iff {u : LaneUnit} (h : ∀ k : LaneIx, u.lanes[k].FieldsSound) {x : ListenerIx} :
    u.served x = true ↔ ∃ k : LaneIx, u.lanes[k].served = some x := by
  have heach : ∀ k : LaneIx, ((u.lanes[k].carries && u.lanes[k].listener == some x) || u.lanes[k].reservedFor == some x) = true ↔
      u.lanes[k].served = some x := fun k => by
    simp only [Bool.or_eq_true, Bool.and_eq_true, beq_iff_eq, (h k).served_eq]
  simp only [LaneUnit.served, List.any_eq_true, mem_lanes, true_and, heach]

/-- At most one lane serves a listener (R63, R65). -/
theorem State.LanesSound.served_inj (h : s.LanesSound) {j k : LaneIx} {x : ListenerIx}
    (hj : s.laneUnit.lanes[j].served = some x) (hk : s.laneUnit.lanes[k].served = some x) : j = k := by
  obtain ⟨hcarry, hreserve, -⟩ := h.exclusive
  by_contra hne
  rcases ((h.fields j).served_eq).1 hj with ⟨cj, lj⟩ | rj <;> rcases ((h.fields k).served_eq).1 hk with ⟨ck, lk⟩ | rk
  · exact (hcarry j k hne cj ck).1 (lj.trans lk.symm)
  · exact (h.reservations k x rk).2 j cj lj
  · exact (h.reservations j x rj).2 k ck lk
  · exact hreserve j k hne (by rw [rj]; rfl) (rj.trans rk.symm)

theorem LaneUnit.claim_eq_some {u : LaneUnit} {k : LaneIx} {x : ListenerIx} {b : BudIx} :
    u.claim k = some (x, b) ↔ u.lanes[k].served = some x ∧ u.speaking[x] = some b := by
  have hclaim : u.claim k = u.lanes[k].served.bind fun x => u.speaking[x].map fun b => (x, b) := rfl
  rw [hclaim, Option.bind_eq_some_iff]
  constructor
  · rintro ⟨y, hy, hclaimed⟩
    obtain ⟨c, hc, hpair⟩ := Option.map_eq_some_iff.1 hclaimed
    obtain ⟨rfl, rfl⟩ := Prod.mk.inj hpair
    exact ⟨hy, hc⟩
  · rintro ⟨hx, hb⟩
    exact ⟨x, hx, by rw [hb]; rfl⟩

/-- A served listener has a speaking bud (R61, R63, R65). -/
theorem State.LanesSound.speaking_of_served (h : s.LanesSound) {k : LaneIx} {x : ListenerIx}
    (hx : s.laneUnit.lanes[k].served = some x) : s.laneUnit.speaking[x].isSome = true := by
  rcases ((h.fields k).served_eq).1 hx with ⟨hc, hl⟩ | hr
  · rw [h.carry k hc x hl]
    exact (h.fields k).2.1.trans hc
  · exact (h.reservations k x hr).1

theorem State.WaitListSound.orderly (h : s.WaitListSound) : WaitOrderly s.priorityOf s.laneUnit.waitList := by
  obtain ⟨hlisteners, -, horders, hrange, hsorted, -, -⟩ := h
  exact ⟨hlisteners, horders, hrange, hsorted⟩

theorem WaitOrderly.pairwise {p : ListenerIx → Nat} {w : List WaitEntry} (h : WaitOrderly p w) :
    w.Pairwise fun a b => p b.listener < p a.listener ∨ p b.listener = p a.listener ∧ a.order < b.order :=
  h.sorted.imp fun hab => (waitBefore_iff.1 hab).imp id fun ⟨he, ho⟩ => ⟨he.symm, ho⟩

/-- Two members of a list of placed entries whose claims stand in the order `R` have rising request orders where `R`
does not hold the other way. -/
theorem order_of_placed {R : ListenerIx → ListenerIx → Prop} {placed : List WaitEntry}
    (ho : placed.Pairwise fun a b => a.order < b.order) (hr : placed.Pairwise fun a b => R a.listener b.listener)
    {a b : WaitEntry} (ha : a ∈ placed) (hb : b ∈ placed) (hne : a ≠ b) (hnot : ¬ R b.listener a.listener) :
    a.order < b.order := by
  obtain ⟨i, hi, rfl⟩ := List.mem_iff_getElem.1 ha
  obtain ⟨j, hj, rfl⟩ := List.mem_iff_getElem.1 hb
  rcases lt_trichotomy i j with h | rfl | h
  · exact List.pairwise_iff_getElem.1 ho i j hi hj h
  · exact absurd rfl hne
  · exact absurd (List.pairwise_iff_getElem.1 hr j i hj hi h) hnot

theorem pairwise_listener_of_claims {R : ListenerIx → ListenerIx → Prop} {placed : List WaitEntry}
    (h : (placed.map WaitEntry.claim).Pairwise fun p q => R p.1 q.1) : placed.Pairwise fun a b => R a.listener b.listener :=
  List.pairwise_map (R := fun p q : ListenerIx × BudIx => R p.1 q.1) |>.1 h

/-! ## The state in which a call-control directive acts -/

/-- The state at a change of call state before the Lane Unit is told: the call's registers and the used mask. -/
def State.called (s : State) (c : CallCtl) : State :=
  { s with callCtl := c, directives := { s.directives with mask := none } }

theorem exec_endCall_of_call (seq : Byte) (ht : s.VoiceTakes) (hc : s.callCtl.state ≠ .noCall) :
    ∃ (c : CallCtl) (e r : Report), exec (.endCall seq []) s = .next ((((s.called c).post e).lanesEnd).post r) := by
  rw [exec_endCall seq ht, State.endCallDirective, State.consumeMask_callCtl]
  cases h : s.callCtl.state with
  | noCall => exact absurd h hc
  | inCall => exact ⟨_, _, _, rfl⟩
  | holding m => exact ⟨_, _, _, rfl⟩

theorem exec_hold_of_inCall (seq : Byte) (ht : s.VoiceTakes) (hc : s.callCtl.state = .inCall) :
    ∃ (c : CallCtl) (e r : Report), exec (.hold seq []) s = .next ((((s.called c).post e).lanesHold).post r) := by
  rw [exec_hold seq ht, State.holdDirective, State.consumeMask_callCtl, hc]
  exact ⟨_, _, _, rfl⟩

theorem exec_beginCall_of_noCall (seq : Byte) (ht : s.VoiceTakes) (hc : s.callCtl.state = .noCall) :
    ∃ (c : CallCtl) (e r : Report), c.state = .inCall ∧
      exec (.beginCall seq []) s = .next ((((s.called c).post e).lanesEnter true).post r) := by
  have hbegin : s.consumeMask.beginCallDirective =
      (((s.called { s.callCtl with state := .inCall, fills := 0, fillTotal := 0, timer := some .ms7_5 }).post
        (.event (.callState .inCall s.callCtl.state .beginCall))).lanesEnter true, .done) := by
    rw [State.beginCallDirective, State.consumeMask_callCtl]
    simp only [hc]
    rfl
  rw [exec_beginCall seq ht, hbegin]
  dsimp only
  refine ⟨_, _, _, ?_, rfl⟩
  rfl

theorem exec_resume_of_held (seq : Byte) (ht : s.VoiceTakes) (hc : s.callCtl.state = .holding .directed) :
    ∃ (c : CallCtl) (e r : Report), c.state = .inCall ∧
      exec (.resume seq []) s = .next ((((s.called c).post e).lanesEnter false).post r) := by
  have hresume : s.consumeMask.resumeDirective =
      (((s.called { s.callCtl with state := .inCall, fills := 0, timer := some .ms7_5 }).post
        (.event (.callState .inCall s.callCtl.state .resume))).lanesEnter false, .done) := by
    rw [State.resumeDirective, State.consumeMask_callCtl, hc]
    exact congrArg (fun u : State => (u.lanesEnter false, Reply.done)) (show _ = (State.post _ _) by rw [← hc]; rfl)
  rw [exec_resume seq ht, hresume]
  dsimp only
  refine ⟨_, _, _, ?_, rfl⟩
  rfl

theorem State.called_keeps {t : State} {c : CallCtl} {e r : Report}
    {op : State → State} (h : ∀ u : State, u.OnlyBindings (op u)) (ht : t = (op ((s.called c).post e)).post r) :
    t.laneUnit.speaking = s.laneUnit.speaking ∧ t.laneUnit.evictPtr = s.laneUnit.evictPtr ∧
      ({ s with callCtl := t.callCtl, directives := { s.directives with mask := none } } : State).OnlyLanesAndReports t := by
  have hkeep : (s.called c).OnlyBindings t :=
    ht ▸ (((s.called c).post_only e).bindings.trans (h _)).trans ((op ((s.called c).post e)).post_only r).bindings
  refine ⟨hkeep.speaking, hkeep.evictPtr, ?_⟩
  have hcall : t.callCtl = c := hkeep.only.callCtl
  rw [hcall]
  exact hkeep.only

theorem State.called_post_laneUnit (s : State) (c : CallCtl) (e : Report) : ((s.called c).post e).laneUnit = s.laneUnit :=
  ((s.called c).post_only e).laneUnit

theorem State.called_post_intake (s : State) (c : CallCtl) (e : Report) : ((s.called c).post e).intake = s.intake :=
  ((s.called c).post_only e).intake

theorem State.called_post_priorityOf (s : State) (c : CallCtl) (e : Report) : ((s.called c).post e).priorityOf = s.priorityOf := by
  unfold State.priorityOf
  rw [((s.called c).post_only e).roster]
  rfl

theorem State.called_post_call (s : State) (c : CallCtl) (e : Report) : ((s.called c).post e).callCtl = c :=
  ((s.called c).post_only e).callCtl

/-! ## HOLD (R77) -/

/-- The claims that HOLD places: each served listener once, none of which waits. -/
theorem State.LanesSound.claims_spec (h : s.LanesSound) :
    ((Config.lanes.filterMap s.laneUnit.claim).map Prod.fst).Nodup ∧
      (∀ c ∈ Config.lanes.filterMap s.laneUnit.claim, waits c.1 s.laneUnit.waitList = false) ∧
      (Config.lanes.filterMap s.laneUnit.claim).Pairwise (fun p q => ∀ j k : LaneIx,
        s.laneUnit.lanes[j].served = some p.1 → s.laneUnit.lanes[k].served = some q.1 → j < k) := by
  have hlanes : Config.lanes.Pairwise (· < ·) := by decide
  have hrising : (Config.lanes.filterMap s.laneUnit.claim).Pairwise (fun p q => ∀ j k : LaneIx,
      s.laneUnit.lanes[j].served = some p.1 → s.laneUnit.lanes[k].served = some q.1 → j < k) := by
    refine List.pairwise_filterMap.2 (hlanes.imp fun {a b} hab p hp q hq j k hj hk => ?_)
    rw [h.served_inj hj (LaneUnit.claim_eq_some.1 hp).1, h.served_inj hk (LaneUnit.claim_eq_some.1 hq).1]
    exact hab
  refine ⟨List.pairwise_map.2 ?_, fun c hc => ?_, hrising⟩
  · refine List.pairwise_filterMap.2 (hlanes.imp fun {a b} hab p hp q hq heq => hab.ne ?_)
    exact h.served_inj (LaneUnit.claim_eq_some.1 hp).1 (heq ▸ (LaneUnit.claim_eq_some.1 hq).1)
  · obtain ⟨k, -, hk⟩ := List.mem_filterMap.1 hc
    obtain ⟨-, hwait, -⟩ := h.waitList
    rw [waits_eq_false]
    intro e he hx
    have hserved := (LaneUnit.served_iff h.fields).2 ⟨k, (LaneUnit.claim_eq_some.1 hk).1⟩
    rw [← hx, (hwait e he).2] at hserved
    exact absurd hserved nofun

/-- The wait list that HOLD leaves (R77). -/
theorem State.LanesSound.held_waitList (h : s.LanesSound) (hc : s.callCtl.state = .inCall) {u : State}
    (hu : u.laneUnit = s.laneUnit) (hp : u.priorityOf = s.priorityOf) :
    (∀ x : ListenerIx, ∀ b : BudIx, s.laneUnit.speaking[x] = some b ↔
        ∃ e ∈ u.lanesHold.laneUnit.waitList, e.listener = x ∧ e.bud = b) ∧
      (∀ e ∈ u.lanesHold.laneUnit.waitList, e ∈ s.laneUnit.waitList ∨ e.denied = false ∧ s.laneUnit.waitList.length < e.order) ∧
      (∀ e ∈ s.laneUnit.waitList, e ∈ u.lanesHold.laneUnit.waitList) ∧
      (∀ j k : LaneIx, j < k → ∀ d ∈ u.lanesHold.laneUnit.waitList, ∀ e ∈ u.lanesHold.laneUnit.waitList,
        s.laneUnit.lanes[j].served = some d.listener → s.laneUnit.lanes[k].served = some e.listener → d.order < e.order) ∧
      u.lanesHold.laneUnit.waitList.Pairwise fun a b => s.priorityOf b.listener < s.priorityOf a.listener ∨
        s.priorityOf b.listener = s.priorityOf a.listener ∧ a.order < b.order := by
  obtain ⟨hnodup, hnew, hrising⟩ := h.claims_spec
  obtain ⟨-, hwait, -, -, -, -, hall⟩ := h.waitList
  have hold : u.lanesHold = u.emptyLanes.placeAll (Config.lanes.filterMap s.laneUnit.claim) := by
    rw [← hu]
    rfl
  have hw : u.emptyLanes.laneUnit.waitList = s.laneUnit.waitList :=
    u.emptyLanes_spec.2.2.2.trans (congrArg LaneUnit.waitList hu)
  have hprio : u.emptyLanes.priorityOf = s.priorityOf := by
    rw [← hp]
    unfold State.priorityOf
    rw [u.emptyLanes_only.only.roster]
  obtain ⟨horder, placed, hperm, hclaims, hsorted, hplaced⟩ := u.emptyLanes.placeAll_spec
    (Config.lanes.filterMap s.laneUnit.claim) (by rw [hprio, hw]; exact h.waitList.orderly) hnodup (by rw [hw]; exact hnew)
  rw [← hold, hw] at hperm
  rw [← hold, hprio] at horder
  rw [hw] at hplaced
  have hmem : ∀ e, e ∈ u.lanesHold.laneUnit.waitList ↔ e ∈ s.laneUnit.waitList ∨ e ∈ placed := fun e =>
    hperm.mem_iff.trans List.mem_append
  have hplacedClaim : ∀ {e}, e ∈ placed → ∃ k : LaneIx, s.laneUnit.lanes[k].served = some e.listener ∧
      s.laneUnit.speaking[e.listener] = some e.bud := fun {e} he => by
    have hin : e.claim ∈ Config.lanes.filterMap s.laneUnit.claim := hclaims ▸ List.mem_map_of_mem he
    obtain ⟨k, -, hk⟩ := List.mem_filterMap.1 hin
    exact ⟨k, LaneUnit.claim_eq_some.1 hk⟩
  have hnotOld : ∀ {e} {k : LaneIx}, e ∈ u.lanesHold.laneUnit.waitList → s.laneUnit.lanes[k].served = some e.listener →
      e ∈ placed := fun {e k} he hk => ((hmem e).1 he).resolve_left fun hin => by
    have hserved := (LaneUnit.served_iff h.fields).2 ⟨k, hk⟩
    rw [(hwait e hin).2] at hserved
    exact absurd hserved nofun
  refine ⟨fun x b => ⟨fun hx => ?_, ?_⟩, fun e he => ((hmem e).1 he).imp id (hplaced e), fun e he => (hmem e).2 (.inl he),
    fun j k hjk d hd e he hdj hek => ?_, horder.pairwise⟩
  · rcases hall (by rw [hc]; exact nofun) x (by rw [hx]; rfl) with hserved | hwaits
    · obtain ⟨k, hk⟩ := (LaneUnit.served_iff h.fields).1 hserved
      have hin : (x, b) ∈ placed.map WaitEntry.claim :=
        hclaims ▸ List.mem_filterMap.2 ⟨k, mem_lanes k, LaneUnit.claim_eq_some.2 ⟨hk, hx⟩⟩
      obtain ⟨e, he, hpair⟩ := List.mem_map.1 hin
      obtain ⟨hxe, hbe⟩ := Prod.mk.inj hpair
      exact ⟨e, (hmem e).2 (.inr he), hxe, hbe⟩
    · obtain ⟨e, he, rfl⟩ := waits_eq_true.1 hwaits
      exact ⟨e, (hmem e).2 (.inl he), rfl, Option.some.inj ((hwait e he).1.symm.trans hx)⟩
  · rintro ⟨e, he, rfl, rfl⟩
    rcases (hmem e).1 he with hin | hin
    · exact (hwait e hin).1
    · exact (hplacedClaim hin).choose_spec.2
  · refine order_of_placed (R := fun x y => ∀ j k : LaneIx, s.laneUnit.lanes[j].served = some x →
      s.laneUnit.lanes[k].served = some y → j < k) hsorted (pairwise_listener_of_claims (R := fun x y => ∀ j k : LaneIx,
      s.laneUnit.lanes[j].served = some x → s.laneUnit.lanes[k].served = some y → j < k) (hclaims ▸ hrising))
      (hnotOld hd hdj) (hnotOld he hek) ?_ fun hback => ?_
    · rintro rfl
      exact hjk.ne (h.served_inj hdj hek)
    · exact lt_asymm hjk (hback k j hek hdj)

theorem State.lanesHold_spec (s : State) :
    (∀ k : LaneIx, s.lanesHold.laneUnit.lanes[k] = s.laneUnit.lanes[k].cleared) ∧
      (∀ b : BudIx, s.lanesHold.intake.queues[b] =
        if s.laneUnit.boundLane b = none then s.intake.queues[b] else keepLast 2 s.intake.queues[b]) ∧
      s.lanesHold.intake.discards = s.intake.discards := by
  have hold : s.lanesHold = s.emptyLanes.placeAll (Config.lanes.filterMap s.laneUnit.claim) := rfl
  obtain ⟨hlanes, hqueues, hdiscards, -⟩ := s.emptyLanes_spec
  obtain ⟨hunit, hintake⟩ := s.emptyLanes.placeAll_laneUnit (Config.lanes.filterMap s.laneUnit.claim)
  rw [hold, hintake, hunit]
  exact ⟨hlanes, hqueues, hdiscards⟩

/-! ## BEGIN CALL and RESUME (R79) -/

/-- Before the grants at entry to IN CALL nothing is granted. -/
theorem State.LanesSound.granted_zero (h : s.LanesSound) (hn : s.callCtl.state ≠ .inCall) {u : State}
    (hcall : u.callCtl.state = .inCall) (hlanes : u.laneUnit.lanes = s.laneUnit.lanes)
    (hdistinct : (u.laneUnit.waitList.map (·.listener)).Nodup) :
    u.Granted (u.laneUnit.waitList.map WaitEntry.claim) 0 := by
  have hvacant : ∀ k : LaneIx, s.laneUnit.lanes[k].state = .vacant := h.exclusive.2.2 hn
  refine ⟨hcall, fun k hk => absurd hk (Nat.not_lt_zero _), fun k _ => ?_, rfl, hdistinct⟩
  rw [hlanes]
  refine ⟨hvacant k, ?_⟩
  obtain ⟨hcleared, -⟩ := h.fields k
  rw [hcleared (hvacant k)]
  rfl

theorem State.LanesSound.unserved (h : s.LanesSound) (hn : s.callCtl.state ≠ .inCall) (x : ListenerIx) :
    s.laneUnit.served x = false := by
  refine Bool.eq_false_iff.2 fun hs => ?_
  obtain ⟨k, hk⟩ := (LaneUnit.served_iff h.fields).1 hs
  obtain ⟨hcleared, -⟩ := h.fields k
  rw [hcleared (h.exclusive.2.2 hn k)] at hk
  exact absurd hk nofun

/-- What the grants and the reports of an entry to IN CALL leave of the heads of the list (R79). -/
theorem State.Granted.entered {heads : List (ListenerIx × BudIx)} (h : s.Granted heads 0) :
    (∀ k : LaneIx,
        (∀ x b, heads[k.val]? = some (x, b) →
          s.grantOne.grantOne.grantOne.denyWaiting.laneUnit.lanes[k].state = .priming ∧
          s.grantOne.grantOne.grantOne.denyWaiting.laneUnit.lanes[k].listener = some x ∧
          s.grantOne.grantOne.grantOne.denyWaiting.laneUnit.lanes[k].bud = some b) ∧
        (heads[k.val]? = none → s.grantOne.grantOne.grantOne.denyWaiting.laneUnit.lanes[k].state = .vacant)) ∧
      s.grantOne.grantOne.grantOne.denyWaiting.laneUnit.waitList.map WaitEntry.claim = heads.drop 3 ∧
      ∀ e ∈ s.grantOne.grantOne.grantOne.denyWaiting.laneUnit.waitList, e.denied = true := by
  have hthree : s.grantOne.grantOne.grantOne.Granted heads 3 :=
    State.Granted.next (k := 2) (State.Granted.next (k := 1) (State.Granted.next (k := 0) h))
  generalize s.grantOne.grantOne.grantOne = t at hthree
  rw [State.denyWaiting_laneUnit]
  refine ⟨fun k => ⟨fun x b hk => hthree.bound k k.isLt (x, b) hk, fun hk => (hthree.vacant k (.inr hk)).1⟩, ?_, fun e he => ?_⟩
  · rw [← hthree.waiting, List.map_map]
    rfl
  · obtain ⟨a, -, rfl⟩ := List.mem_map.1 he
    rfl

/-- The listeners with a speaking bud, in number order. -/
def LaneUnit.speakers (u : LaneUnit) : List (ListenerIx × BudIx) :=
  Config.listeners.filterMap fun x => u.speaking[x].map fun b => (x, b)

theorem LaneUnit.mem_speakers {u : LaneUnit} {x : ListenerIx} {b : BudIx} : (x, b) ∈ u.speakers ↔ u.speaking[x] = some b := by
  refine List.mem_filterMap.trans ⟨?_, fun hb => ⟨x, mem_listeners x, by rw [hb]; rfl⟩⟩
  rintro ⟨y, -, hy⟩
  obtain ⟨c, hc, hpair⟩ := Option.map_eq_some_iff.1 hy
  obtain ⟨rfl, rfl⟩ := Prod.mk.inj hpair
  exact hc

theorem LaneUnit.speakers_rising (u : LaneUnit) : u.speakers.Pairwise fun p q => p.1 < q.1 := by
  have hrising : Config.listeners.Pairwise (· < ·) := by decide
  refine List.pairwise_filterMap.2 (hrising.imp fun {x y} hxy p hp q hq => ?_)
  obtain ⟨b, -, rfl⟩ := Option.map_eq_some_iff.1 hp
  obtain ⟨c, -, rfl⟩ := Option.map_eq_some_iff.1 hq
  exact hxy

/-- The placing of each listener with a speaking bud, in listener order, is the placing of the speakers. -/
theorem State.foldl_place_eq (s : State) (l : List ListenerIx) :
    l.foldl (fun v x => match v.laneUnit.speaking[x] with | some b => v.placeWaiting x b | none => v) s =
      s.placeAll (l.filterMap fun x => s.laneUnit.speaking[x].map fun b => (x, b)) := by
  induction l generalizing s with
  | nil => rfl
  | cons x l ih =>
    rw [List.foldl_cons]
    cases hx : s.laneUnit.speaking[x] with
    | none =>
      rw [List.filterMap_cons_none (by rw [hx]; rfl)]
      exact ih s
    | some b =>
      rw [List.filterMap_cons_some (by rw [hx]; rfl)]
      refine (ih (s.placeWaiting x b)).trans ?_
      rw [(s.placeWaiting_only x b).speaking]
      rfl

theorem State.lanesEnter_fresh (s : State) :
    s.lanesEnter true = (s.placeAll s.laneUnit.speakers).grantOne.grantOne.grantOne.denyWaiting :=
  congrArg (fun v : State => v.grantOne.grantOne.grantOne.denyWaiting) (s.foldl_place_eq Config.listeners)

theorem State.lanesEnter_resumed (s : State) : s.lanesEnter false = s.grantOne.grantOne.grantOne.denyWaiting := rfl

/-- The wait list that a fresh entry to IN CALL grants from (R79). -/
theorem State.placeSpeakers_spec (hw : s.laneUnit.waitList = []) :
    ((s.placeAll s.laneUnit.speakers).laneUnit.waitList.map (·.listener)).Nodup ∧
      (∀ x b, (x, b) ∈ (s.placeAll s.laneUnit.speakers).laneUnit.waitList.map WaitEntry.claim ↔ s.laneUnit.speaking[x] = some b) ∧
      ((s.placeAll s.laneUnit.speakers).laneUnit.waitList.map WaitEntry.claim).Pairwise fun p q =>
        s.priorityOf q.1 < s.priorityOf p.1 ∨ s.priorityOf q.1 = s.priorityOf p.1 ∧ p.1 < q.1 := by
  have hrising := s.laneUnit.speakers_rising
  obtain ⟨horder, placed, hperm, hclaims, hsorted, -⟩ := s.placeAll_spec s.laneUnit.speakers (by rw [hw]; exact .nil)
    (List.pairwise_map.2 (hrising.imp fun h => h.ne)) (by rw [hw]; exact fun _ _ => rfl)
  rw [hw, List.nil_append] at hperm
  refine ⟨horder.listeners, fun x b => ?_, List.pairwise_map.2 ?_⟩
  · rw [(hperm.map WaitEntry.claim).mem_iff, hclaims]
    exact LaneUnit.mem_speakers
  · refine horder.pairwise.imp_of_mem fun {a b} ha hb hab => hab.imp id fun ⟨hprio, hlt⟩ => ⟨hprio, ?_⟩
    have hlisteners := pairwise_listener_of_claims (R := fun x y => x < y) (hclaims ▸ hrising)
    by_contra hnot
    exact absurd hlt (Nat.lt_asymm (order_of_placed hsorted hlisteners (hperm.mem_iff.1 hb) (hperm.mem_iff.1 ha)
      (fun hba => absurd hlt (hba ▸ Nat.lt_irrefl _)) hnot))

theorem State.grantOne_eq_bind {k : LaneIx} {e : WaitEntry} {rest : List WaitEntry} (hcall : s.callCtl.state = .inCall)
    (hk : s.laneUnit.lanes[k].state = .vacant ∧ s.laneUnit.lanes[k].reservedFor = none)
    (hfirst : ∀ j : LaneIx, j < k → ¬ (s.laneUnit.lanes[j].state = .vacant ∧ s.laneUnit.lanes[j].reservedFor = none))
    (hw : s.laneUnit.waitList = e :: rest) : s.grantOne = s.bindLane k e.bud e.listener :=
  State.grantOne_of_vacant hcall (LaneUnit.vacantLane_eq_some.2 ⟨hk, hfirst⟩) hw

/-- Settles O50: END CALL and HOLD empty every lane, HOLD placing the served listeners; BEGIN CALL and RESUME grant the
lanes to the list's heads, one at a time. -/
theorem lanesFollowTheCall : Obligations.LanesFollowTheCall := by
  unfold Obligations.LanesFollowTheCall
  intro s seq ht
  refine ⟨fun hc => ?_, fun hc => ?_, fun hc hs => ?_, fun hc hs => ?_, fun _ _ => rfl, fun v => ⟨fun k e rest hcall hk hj hw =>
    State.grantOne_eq_bind hcall hk hj hw, fun h => State.grantOne_of_barred (h.imp id (.imp LaneUnit.vacantLane_eq_none.2 id))⟩,
    State.denyWaiting_eq⟩
  · obtain ⟨c, e, r, hexec⟩ := exec_endCall_of_call seq ht hc
    obtain ⟨hlanes, hqueues, hdiscards, -⟩ := ((s.called c).post e).emptyLanes_spec
    rw [State.called_post_intake] at hqueues hdiscards
    rw [State.called_post_laneUnit] at hlanes hqueues
    refine ⟨_, hexec, ?_, ?_, State.called_keeps State.lanesEnd_only rfl⟩
    · dsimp only
      rw [State.post_laneUnit, (State.post_only _ r).intake]
      exact ⟨hlanes, hqueues, hdiscards⟩
    · rw [State.post_laneUnit]
      rfl
  · obtain ⟨c, e, r, hexec⟩ := exec_hold_of_inCall seq ht hc
    obtain ⟨hlanes, hqueues, hdiscards⟩ := ((s.called c).post e).lanesHold_spec
    rw [State.called_post_intake] at hqueues hdiscards
    rw [State.called_post_laneUnit] at hlanes hqueues
    refine ⟨_, hexec, ?_, State.called_keeps State.lanesHold_only rfl, fun hs => ?_⟩
    · dsimp only
      rw [State.post_laneUnit, (State.post_only _ r).intake]
      exact ⟨hlanes, hqueues, hdiscards⟩
    · rw [State.post_laneUnit]
      simp only [← (hs.fields _).served_eq]
      exact hs.held_waitList hc (s.called_post_laneUnit c e) (s.called_post_priorityOf c e)
  · obtain ⟨c, e, r, hin, hexec⟩ := exec_beginCall_of_noCall seq ht hc
    obtain ⟨-, -, -, -, -, hempty, -⟩ := hs.waitList
    have hu := s.called_post_laneUnit c e
    obtain ⟨hdistinct, hheads, hsorted⟩ := State.placeSpeakers_spec (s := (s.called c).post e) (by rw [hu]; exact hempty hc)
    have hkept := State.called_keeps (s := s) (c := c) (e := e) (r := r) (fun u => u.lanesEnter_only true) rfl
    rw [State.called_post_priorityOf] at hsorted
    rw [State.lanesEnter_fresh] at hexec hkept
    generalize hp : ((s.called c).post e).placeAll ((s.called c).post e).laneUnit.speakers = p at hdistinct hheads hsorted hexec hkept
    have hzero : p.Granted (p.laneUnit.waitList.map WaitEntry.claim) 0 := by
      subst hp
      refine hs.granted_zero (by rw [hc]; exact nofun) ?_ ?_ hdistinct
      · rw [(State.placeAll_only _ _).only.callCtl, State.called_post_call]
        exact hin
      · rw [(State.placeAll_laneUnit _ _).1, hu]
    obtain ⟨hlanes, hwait, hdenied⟩ := hzero.entered
    refine ⟨_, p.laneUnit.waitList.map WaitEntry.claim, hexec, ⟨fun x b => ?_, ?_⟩, hsorted⟩
    · rw [hheads, hu]
    · refine ⟨?_, ?_, ?_, hkept⟩ <;> rw [State.post_laneUnit]
      exacts [hlanes, hwait, hdenied]
  · obtain ⟨c, e, r, hin, hexec⟩ := exec_resume_of_held seq ht hc
    have hn : s.callCtl.state ≠ .inCall := by rw [hc]; exact nofun
    obtain ⟨hdistinct, hwait, -, -, -, -, hall⟩ := hs.waitList
    have hu := s.called_post_laneUnit c e
    have hkept := State.called_keeps (s := s) (c := c) (e := e) (r := r) (fun u => u.lanesEnter_only false) rfl
    rw [State.lanesEnter_resumed] at hexec hkept
    have hzero := hs.granted_zero (u := (s.called c).post e) hn (by rw [State.called_post_call]; exact hin) (by rw [hu])
      (by rw [hu]; exact hdistinct)
    rw [hu] at hzero
    obtain ⟨hlanes, hleft, hdenied⟩ := hzero.entered
    refine ⟨_, hexec, fun x b => ?_, ?_⟩
    · refine List.mem_map.trans ⟨?_, fun hx => ?_⟩
      · rintro ⟨a, ha, hpair⟩
        obtain ⟨rfl, rfl⟩ := Prod.mk.inj hpair
        exact (hwait a ha).1
      · rcases hall (by rw [hc]; exact nofun) x (by rw [hx]; rfl) with hserved | hwaits
        · rw [hs.unserved hn] at hserved
          exact absurd hserved nofun
        · obtain ⟨a, ha, rfl⟩ := waits_eq_true.1 hwaits
          exact ⟨a, ha, Prod.ext rfl (Option.some.inj ((hwait a ha).1.symm.trans hx))⟩
    · refine ⟨?_, ?_, ?_, hkept⟩ <;> rw [State.post_laneUnit]
      exacts [hlanes, hleft, hdenied]

end Sys2Proof.Machine
end

