-- ==== Sys2Proof/Proofs/FeedLaws.lean ====
section
/-! PROOFS. The laws of a lane that carries a talker together with its bud's queue (R46, R50, R51, R58, R82, R83), kept by
each operation of Intake and the Aligner. -/

namespace Sys2Proof.Machine

/-! ## Distance order (R46) -/

theorem distance_self (x : Byte) : distance x x = 0 := by rw [distance, BitVec.sub_self]; rfl

theorem pairwise_of_length_le_one {α : Type} {r : α → α → Prop} {q : List α} (h : q.length ≤ 1) : q.Pairwise r := by
  match q with
  | [] => exact List.Pairwise.nil
  | [_] => exact List.pairwise_singleton _ _
  | _ :: _ :: _ => simp at h

variable {l m : Lane} {q : List Entry} {x : Byte}

theorem Lane.inOrder_iff (hx : l.expected = some x) :
    l.InOrder q ↔ (q.Pairwise fun a b => distance a.seq x < distance b.seq x) ∧ ∀ e ∈ q, distance e.seq x < 128 := by
  simp [Lane.InOrder, hx]

theorem Lane.inOrder_nil (l : Lane) : l.InOrder [] := ⟨fun _ => rfl, fun _ _ => List.Pairwise.nil, fun _ _ => nofun⟩

theorem Lane.InOrder.of_expected (h : l.InOrder q) (he : m.expected = l.expected) : m.InOrder q := by
  unfold Lane.InOrder
  rw [he]
  exact h

theorem Lane.InOrder.suffix (h : l.InOrder q) {r : List Entry} (hr : r <:+ q) : l.InOrder r := by
  obtain ⟨hnone, hpair, hnear⟩ := h
  refine ⟨fun hx => ?_, fun x hx => (hpair x hx).sublist hr.sublist, fun x hx e he => hnear x hx e (hr.subset he)⟩
  rw [hnone hx] at hr
  exact List.suffix_nil.1 hr

theorem Lane.InOrder.nodup (h : l.InOrder q) : (q.map (·.seq)).Nodup := by
  obtain ⟨hnone, hpair, -⟩ := h
  cases hx : l.expected with
  | none => rw [hnone hx]; exact List.nodup_nil
  | some x => exact List.pairwise_map.2 ((hpair x hx).imp fun {a b} hlt he => by
      rw [he] at hlt
      exact lt_irrefl _ hlt)

/-- Behind a due head nothing is due (R46). -/
theorem Lane.InOrder.tail_ne {e : Entry} (h : l.InOrder (e :: q)) (he : l.expected = some e.seq) : ∀ a ∈ q, a.seq ≠ e.seq := by
  obtain ⟨hpair, -⟩ := (Lane.inOrder_iff he).1 h
  intro a ha hs
  have hlt := (List.pairwise_cons.1 hpair).1 a ha
  rw [hs] at hlt
  exact lt_irrefl _ hlt

/-- Where the head is not due nothing is due (R46). -/
theorem Lane.InOrder.head_ne {e : Entry} (h : l.InOrder (e :: q)) (hx : l.expected = some x) (he : e.seq ≠ x) :
    ∀ a ∈ e :: q, a.seq ≠ x := by
  obtain ⟨hpair, -⟩ := (Lane.inOrder_iff hx).1 h
  refine List.forall_mem_cons.2 ⟨he, fun a ha hs => ?_⟩
  have hlt := (List.pairwise_cons.1 hpair).1 a ha
  have hzero : distance a.seq x = 0 := by simp [distance, hs]
  omega

/-- A queue that holds nothing due is in order against the next sequence (R46). -/
theorem Lane.InOrder.advance (h : l.InOrder q) (hx : l.expected = some x) (hn : ∀ a ∈ q, a.seq ≠ x)
    (hm : m.expected = some (x + 1)) : m.InOrder q := by
  obtain ⟨hpair, hnear⟩ := (Lane.inOrder_iff hx).1 h
  refine (Lane.inOrder_iff hm).2 ⟨pairwise_distance_succ hpair hn, fun e he => ?_⟩
  have hstep := distance_succ (hn e he)
  have hlt := hnear e he
  omega

theorem Lane.isDue_iff {e : Entry} : l.isDue e = true ↔ l.expected = some e.seq := by rw [Lane.isDue, beq_iff_eq]

theorem moveDue_inOrder (h : l.InOrder q) : (moveDue q l).2.InOrder (moveDue q l).1 := by
  induction q generalizing l with
  | nil => exact h
  | cons e q ih =>
    unfold moveDue
    split
    · next hd =>
      rw [Bool.and_eq_true, Lane.isDue_iff] at hd
      exact ih ((h.suffix (List.suffix_cons e q)).advance hd.1 (h.tail_ne hd.1) (by rw [Lane.takeBlock_expected, hd.1]; rfl))
    · exact h

theorem moveDue_expected_isSome (q : List Entry) (l : Lane) : (moveDue q l).2.expected.isSome = l.expected.isSome := by
  induction q generalizing l with
  | nil => rfl
  | cons e q ih =>
    unfold moveDue
    split
    · rw [ih, Lane.takeBlock_expected, Option.isSome_map]
    · rfl

/-! ## A lane that carries a talker, with its queue -/

/-- A lane in PRIMING or MIXING and the queue of its bud are sound but for a due head that may wait (R46, R58, R82, R83). -/
structure Feed.Unmoved (f : Feed) : Prop where
  range : f.lane.InRange
  carries : f.lane.carries = true
  fields : f.lane.FieldsSound
  length : f.queue.length ≤ 8
  order : f.lane.InOrder f.queue

/-- A lane in PRIMING or MIXING and the queue of its bud are sound (R46, R51, R58, R82, R83). -/
structure Feed.Sound (f : Feed) : Prop extends f.Unmoved where
  moved : f.lane.MovedAll f.queue

theorem Lane.carries_of_same (h : l.SameBinding m) : m.carries = l.carries := by rw [Lane.carries, Lane.carries, h.state]

/-- What a carrying lane holds (R50, R58, R83). -/
theorem Lane.fieldsSound_of_carries (hc : l.carries = true) :
    l.FieldsSound ↔ l.bud.isSome = true ∧ l.listener.isSome = true ∧ l.reservedFor = none ∧ (l.expected = none → l.ring = []) ∧
      (l.state = .mixing → l.expected.isSome = true) ∧
      (l.state = .priming → l.position = 0 ∧ l.step = 65536 ∧ l.filter = 0 ∧ l.concealCount = 0) ∧ l.rampIn = false := by
  unfold Lane.FieldsSound
  have hpriming : (LaneState.priming != .vacant) = true := rfl
  have hmixing : (LaneState.mixing != .vacant) = true := rfl
  rw [hc]
  rcases l.carries_iff.1 hc with hs | hs <;> simp [hs, hpriming, hmixing]

/-- A carrying lane whose expected sequence is set keeps its laws (R50, R58). -/
theorem Lane.FieldsSound.expecting (h : l.FieldsSound) (hc : l.carries = true) (y : Byte) (slips : Nat) :
    ({ l with expected := some y, slips := slips } : Lane).FieldsSound := by
  have hc' : ({ l with expected := some y, slips := slips } : Lane).carries = true := hc
  obtain ⟨hbud, hlistener, hreserved, -, -, hpriming, hramp⟩ := (Lane.fieldsSound_of_carries hc).1 h
  exact (Lane.fieldsSound_of_carries hc').2 ⟨hbud, hlistener, hreserved, nofun, fun _ => rfl, hpriming, hramp⟩

/-- Intake's movement makes a lane and its queue sound (R51). -/
theorem Feed.Unmoved.move {f : Feed} (h : f.Unmoved) : f.move.Sound := by
  obtain ⟨hrange, hcarries, hfields, hlength, horder⟩ := h
  have same := f.move_same
  have hcarries' : f.move.lane.carries = true := (Lane.carries_of_same same).trans hcarries
  obtain ⟨hbud, hlistener, hreserved, hring, hmixing, hpriming, hramp⟩ := (Lane.fieldsSound_of_carries hcarries).1 hfields
  have hexpected : f.move.lane.expected.isSome = f.lane.expected.isSome := moveDue_expected_isSome _ _
  refine ⟨⟨moveDue_inRange _ hrange, hcarries', (Lane.fieldsSound_of_carries hcarries').2 ⟨same.bud ▸ hbud, same.listener ▸ hlistener,
    same.reservedFor ▸ hreserved, fun hnone => ?_, fun hs => hexpected.trans (hmixing (same.state ▸ hs)), fun hs => ?_,
    same.rampIn ▸ hramp⟩, f.move_suffix.length_le.trans hlength, moveDue_inOrder horder⟩, fun e he hd => ?_⟩
  · have hno : f.lane.expected = none := by
      rw [hnone] at hexpected
      exact Option.not_isSome_iff_eq_none.1 (by rw [← hexpected]; exact nofun)
    have hstay : f.move.lane = f.lane := by
      unfold Feed.move
      rw [horder.1 hno]
      rfl
    rw [hstay]
    exact hring hno
  · obtain ⟨hpos, hstep, hfilter, hcount⟩ := hpriming (same.state ▸ hs)
    refine ⟨same.position ▸ hpos, same.step ▸ hstep, same.filter ▸ hfilter, ?_⟩
    rcases moveDue_concealCount f.queue f.lane with hzero | hsame
    · exact hzero
    · exact hsame.trans hcount
  · obtain ⟨rest, hrest⟩ := List.head?_eq_some_iff.1 he
    exact moveDue_movedAll f.queue f.lane e rest hrest hd

/-! ## Arrivals (R48 to R50) -/

theorem Feed.Unmoved.makeRoom {f : Feed} (h : f.Unmoved) (hx : f.lane.expected = some x) : f.makeRoom.Unmoved := by
  cases hq : f.queue with
  | nil =>
    have hstay : f.makeRoom = f := by simp only [Feed.makeRoom, hq]
    rw [hstay]
    exact h
  | cons head rest =>
    obtain ⟨hrange, hcarries, hfields, hlength, horder⟩ := h
    rw [hq] at hlength horder
    have hrest : rest.length ≤ 8 := (Nat.le_succ _).trans hlength
    rw [Feed.makeRoom_of_cons hx hq]
    split
    · next heq =>
      subst heq
      exact ⟨hrange, hcarries, hfields.expecting hcarries _ _, hrest,
        (horder.suffix (List.suffix_cons head rest)).advance hx (horder.tail_ne hx) rfl⟩
    · exact ⟨hrange, hcarries, hfields, hrest, horder.suffix (List.suffix_cons head rest)⟩

/-- An arrival that is placed at its distance leaves the queue in order (R48). -/
theorem Lane.InOrder.insert {e : Entry} (h : l.InOrder q) (hx : l.expected = some x) (hn : ∀ a ∈ q, a.seq ≠ e.seq)
    (hd : distance e.seq x < 128) : l.InOrder (insertByDistance x e q) := by
  obtain ⟨hpair, hnear⟩ := (Lane.inOrder_iff hx).1 h
  obtain ⟨near, far, rfl, hins, hlow, hhigh⟩ := insertByDistance_split hpair hn
  obtain ⟨hp, hf, hcross⟩ := List.pairwise_append.1 hpair
  rw [hins, Lane.inOrder_iff hx]
  refine ⟨List.pairwise_append.2 ⟨hp, List.pairwise_cons.2 ⟨hhigh, hf⟩, fun a ha b hb => ?_⟩, fun a ha => ?_⟩
  · rcases List.mem_cons.1 hb with rfl | hb
    · exact hlow a ha
    · exact hcross a ha b hb
  · rcases List.mem_append.1 ha with ha | ha
    · exact hnear a (List.mem_append_left _ ha)
    · rcases List.mem_cons.1 ha with rfl | ha
      · exact hd
      · exact hnear a (List.mem_append_right _ ha)

theorem Feed.Unmoved.place {f : Feed} {e : Entry} (h : f.Unmoved) (hx : f.lane.expected = some x)
    (hn : ∀ a ∈ f.queue, a.seq ≠ e.seq) (hd : distance e.seq x < 128) (hroom : f.queue.length < 8) : (f.place e).Sound := by
  have hplace : f.place e = ({ f with queue := insertByDistance x e f.queue } : Feed).move := by
    unfold Feed.place
    rw [hx]
  rw [hplace]
  refine Feed.Unmoved.move ⟨h.range, h.carries, h.fields, ?_, h.order.insert hx hn hd⟩
  rw [insertByDistance_length]
  exact hroom

/-- After room has been made, an arrival that is not late and not queued is neither against the new expected sequence:
beyond the due head it stands no nearer than the next (R48, R49). -/
theorem Feed.makeRoom_expected {f : Feed} {e : Entry} (hx : f.lane.expected = some x) (hd : distance e.seq x < 128)
    (hn : ∀ a ∈ f.queue, a.seq ≠ e.seq) :
    ∃ y, f.makeRoom.lane.expected = some y ∧ distance e.seq y < 128 ∧ ∀ a ∈ f.makeRoom.queue, a.seq ≠ e.seq := by
  cases hq : f.queue with
  | nil =>
    have hstay : f.makeRoom = f := by simp only [Feed.makeRoom, hq]
    rw [hstay]
    exact ⟨x, hx, hd, hn⟩
  | cons head rest =>
    rw [hq] at hn
    obtain ⟨hhead, hrest⟩ := List.forall_mem_cons.1 hn
    rw [Feed.makeRoom_of_cons hx hq]
    split
    · next heq =>
      have hstep := distance_succ (a := e.seq) (x := x) fun hs => hhead (heq.trans hs.symm)
      exact ⟨x + 1, rfl, by omega, hrest⟩
    · exact ⟨x, hx, hd, hrest⟩

/-- An arrival leaves a bound queue sound (R48 to R50). -/
theorem Feed.Sound.arrive {f : Feed} (h : f.Sound) (e : Entry) : (f.arrive e).Sound := by
  obtain ⟨hun, hmoved⟩ := h
  cases hx : f.lane.expected with
  | none =>
    have harrive : f.arrive e = ({ f with lane := { f.lane with expected := some e.seq }, queue := [e] } : Feed).move := by
      unfold Feed.arrive
      rw [hx]
    rw [harrive]
    refine Feed.Unmoved.move ⟨hun.range, hun.carries, hun.fields.expecting hun.carries _ _, by simp,
      (Lane.inOrder_iff (x := e.seq) rfl).2 ⟨List.pairwise_singleton _ _, ?_⟩⟩
    exact List.forall_mem_singleton.2 (by rw [distance_self]; decide)
  | some x =>
    by_cases hlate : 128 ≤ distance e.seq x
    · rw [Feed.arrive_of_late hx hlate]
      exact ⟨⟨hun.range, hun.carries, hun.fields, hun.length, hun.order⟩, hmoved⟩
    · have hd := Nat.lt_of_not_le hlate
      by_cases hdup : ∃ a ∈ f.queue, a.seq = e.seq
      · rw [Feed.arrive_of_duplicate hx hd hdup]
        exact ⟨⟨hun.range, hun.carries, hun.fields, hun.length, hun.order⟩, hmoved⟩
      · have hn : ∀ a ∈ f.queue, a.seq ≠ e.seq := fun a ha hs => hdup ⟨a, ha, hs⟩
        rw [Feed.arrive_of_new hx hd hn]
        split
        · obtain ⟨y, hy, hd', hn'⟩ := Feed.makeRoom_expected hx hd hn
          refine (hun.makeRoom hx).place hy hn' hd' ?_
          have hlen := hun.length
          rw [Feed.makeRoom_length]
          omega
        · next hroom => exact hun.place hx hn hd (Nat.lt_of_not_le hroom)

/-! ## Binding (R52, R64) -/

/-- Intake's preparation makes an emptied lane sound with an unbound bud's queue (R52, R64). -/
theorem State.primedFeed_sound (s : State) (k : LaneIx) (b : BudIx) (x : ListenerIx) (hlen : s.intake.queues[b].length ≤ 2)
    (hn : (s.intake.queues[b].map (·.seq)).Nodup) : (s.primedFeed k b x).prepare.Sound := by
  have hrange : ((s.primedFeed k b x).lane).InRange := by simp [State.primedFeed, Lane.primed, Lane.InRange]
  have hprimed : ∀ e : Option Byte, ({ (s.primedFeed k b x).lane with expected := e } : Lane).FieldsSound := fun e =>
    (Lane.fieldsSound_of_carries rfl).2 ⟨rfl, rfl, rfl, fun _ => rfl, nofun, fun _ => ⟨rfl, rfl, rfl, rfl⟩, rfl⟩
  cases hq : s.intake.queues[b] with
  | nil =>
    rw [Feed.prepare_of_empty hq]
    have hqueue : (s.primedFeed k b x).queue = [] := hq
    refine ⟨⟨hrange, rfl, hprimed none, ?_, ?_⟩, ?_⟩ <;> rw [hqueue]
    · exact Nat.zero_le _
    · exact Lane.inOrder_nil _
    · exact nofun
  | cons older newer =>
    rw [hq] at hlen hn
    have hkeep : keepLast Config.unboundQueueLimit (s.primedFeed k b x).queue = older :: newer :=
      (congrArg (keepLast _) hq).trans (keepLast_of_le hlen)
    have hprepare : (s.primedFeed k b x).prepare =
        ({ queue := older :: newer.filter fun e => distance e.seq older.seq < 128,
           discards := (newer.filter fun e => !decide (distance e.seq older.seq < 128)).foldl (fun d _ => d.addLate)
             (s.primedFeed k b x).discards,
           lane := { (s.primedFeed k b x).lane with expected := some older.seq } } : Feed).move := by
      simp only [Feed.prepare, hkeep]
    rw [hprepare]
    have hnewer : (newer.filter fun e => distance e.seq older.seq < 128).length ≤ 1 :=
      (List.length_filter_le _ _).trans (Nat.le_of_succ_le_succ hlen)
    refine Feed.Unmoved.move ⟨hrange, rfl, hprimed _, ?_, (Lane.inOrder_iff (x := older.seq) rfl).2 ⟨?_, ?_⟩⟩
    · exact (Nat.succ_le_succ hnewer).trans (by decide)
    · refine List.pairwise_cons.2 ⟨fun a ha => ?_, ?_⟩
      · have hmem := (List.mem_filter.1 ha).1
        have hne : a.seq ≠ older.seq := fun hs =>
          (List.nodup_cons.1 hn).1 (List.mem_map.2 ⟨a, hmem, hs⟩)
        have hself := distance_self older.seq
        have hpos := distance_succ hne
        omega
      · exact pairwise_of_length_le_one hnewer
    · refine List.forall_mem_cons.2 ⟨by rw [distance_self]; decide, fun a ha => ?_⟩
      simpa using (List.mem_filter.1 ha).2

/-! ## Pulls (R83 to R92) -/

/-- A lane being pulled and its queue, while the pull may leave a ramp-in pending (R71, R83). -/
structure Feed.Pulled (f : Feed) : Prop where
  range : f.lane.InRange
  mixing : f.lane.state = .mixing
  bud : f.lane.bud.isSome = true
  listener : f.lane.listener.isSome = true
  reserved : f.lane.reservedFor = none
  expected : f.lane.expected.isSome = true
  length : f.queue.length ≤ 8
  order : f.lane.InOrder f.queue

theorem Feed.Pulled.conceal {f : Feed} (h : f.Pulled) (hring : f.lane.ring.length ≤ 240) : f.conceal.Pulled := by
  obtain ⟨hrange, hmixing, hbud, hlistener, hreserved, hexpected, hlength, horder⟩ := h
  obtain ⟨-, hpos, hlo, hhi, hf0, hf1, hcount⟩ := hrange
  obtain ⟨x, hx⟩ := Option.isSome_iff_exists.1 hexpected
  have hnext : f.conceal.lane.expected = some (x + 1) := by rw [Feed.conceal_lane, hx]; rfl
  have hqueue : f.conceal.queue <:+ f.queue ∧ f.conceal.lane.InOrder f.conceal.queue := by
    cases hq : f.queue with
    | nil =>
      have hempty : f.conceal.queue = [] := by simp only [Feed.conceal, hq]
      rw [hempty]
      exact ⟨List.suffix_refl _, Lane.inOrder_nil _⟩
    | cons head rest =>
      rw [hq] at horder
      by_cases hd : f.lane.isDue head = true
      · have hdrop : f.conceal.queue = rest := by simp only [Feed.conceal, hq, hd, if_true]
        have hhead : x = head.seq := Option.some.inj (hx.symm.trans (Lane.isDue_iff.1 hd))
        rw [hdrop]
        exact ⟨List.suffix_cons _ _, (horder.suffix (List.suffix_cons _ _)).advance hx
          (hhead ▸ horder.tail_ne (Lane.isDue_iff.1 hd)) hnext⟩
      · have hkeep : f.conceal.queue = head :: rest := by
          unfold Feed.conceal
          simp only [hq]
          rw [if_neg hd]
        rw [hkeep]
        exact ⟨List.suffix_refl _, horder.advance hx (horder.head_ne hx fun hs => hd (Lane.isDue_iff.2 (hs ▸ hx))) hnext⟩
  have hlane := f.conceal_lane
  refine ⟨?_, by rw [hlane]; exact hmixing, by rw [hlane]; exact hbud, by rw [hlane]; exact hlistener, by rw [hlane]; exact hreserved,
    by rw [hnext]; rfl, hqueue.1.length_le.trans hlength, hqueue.2⟩
  have hlen := f.conceal_ring
  rw [hlane] at hlen ⊢
  exact ⟨by dsimp only at hlen ⊢; omega, hpos, hlo, hhi, hf0, hf1, Nat.min_le_right _ _⟩

theorem Feed.Pulled.concealTo {f : Feed} (h : f.Pulled) {n : Nat} (hn : n ≤ 82) : (f.concealTo n).Pulled := by
  unfold Feed.concealTo
  split
  · exact h
  · dsimp only
    have hone := h.conceal (by omega)
    split
    · exact hone
    · exact hone.conceal (by omega)

/-- Stages 1 to 5 leave a lane and its queue sound, but for a due head that may wait (R83 to R89). -/
theorem Feed.Pulled.pull {f : Feed} (h : f.Pulled) : f.pull.1.Unmoved := by
  obtain ⟨-, hpos, hlo, hhi, -⟩ := h.range
  have hc := h.concealTo (need_bounds _ _ hpos hlo hhi).2
  have hcarries : f.pull.1.lane.carries = true := (Lane.carries_iff _).2 (.inr hc.mixing)
  obtain ⟨hring, -, hlo', hhi', hf0, hf1, hcount⟩ := hc.range
  refine ⟨⟨?_, Nat.mod_lt _ (by decide), hlo', hhi', hf0, hf1, hcount⟩, hcarries, (Lane.fieldsSound_of_carries hcarries).2
    ⟨hc.bud, hc.listener, hc.reserved, fun hnone => ?_, fun _ => hc.expected, fun hs => ?_, rfl⟩, hc.length,
    hc.order.of_expected rfl⟩
  · simp only [Feed.pull, Lane.advance, List.length_drop]
    exact (Nat.sub_le _ _).trans hring
  · have hsome := hc.expected
    have hnone' : (f.concealTo (need f.lane.position f.lane.step)).lane.expected = none := hnone
    rw [hnone'] at hsome
    exact absurd hsome nofun
  · exact absurd (hc.mixing.symm.trans hs) nofun

theorem Feed.depth_le_of_range {f : Feed} (hr : f.lane.InRange) (hl : f.queue.length ≤ 8) : f.depth ≤ 960 := by
  have hring := hr.1
  have hrun := f.run_le.trans hl
  have hleft := Nat.sub_le f.lane.ring.length (f.lane.position / Config.unit)
  unfold Feed.depth
  omega

/-- A MIXING lane's pull leaves it and its queue sound (R83). -/
theorem Feed.Pulled.pullMixing {f : Feed} (h : f.Pulled) (target : Nat) : (f.pullMixing target).1.Sound := by
  have hmixing : f.pull.1.move.lane.state = .mixing := by
    obtain ⟨-, hpos, hlo, hhi, -⟩ := h.range
    exact (Feed.move_same _).state.trans (h.concealTo (need_bounds _ _ hpos hlo hhi).2).mixing
  have hs : f.pull.1.move.Sound := h.pull.move
  have htrack : (f.pullMixing target).1 = f.pull.1.move.track target := rfl
  rw [htrack]
  generalize f.pull.1.move = g at hmixing hs
  obtain ⟨hun, hmoved⟩ := hs
  have hcarries : (g.track target).lane.carries = true := (Lane.carries_iff _).2 (.inr hmixing)
  obtain ⟨hring, hpos, -, -, hf0, hf1, hcount⟩ := hun.range
  obtain ⟨hbud, hlistener, hreserved, hempty, hsome, -, hramp⟩ := (Lane.fieldsSound_of_carries hun.carries).1 hun.fields
  have hfilter := filterUpdate_bounds g.lane.filter g.depth hf0 hf1 (Feed.depth_le_of_range hun.range hun.length)
  have hstep := stepFor_bounds (filterUpdate g.lane.filter g.depth) target
  exact ⟨⟨⟨hring, hpos, hstep.1, hstep.2, hfilter.1, hfilter.2, hcount⟩, hcarries, (Lane.fieldsSound_of_carries hcarries).2
    ⟨hbud, hlistener, hreserved, hempty, hsome, fun h => absurd (hmixing.symm.trans h) nofun, hramp⟩, hun.length,
    hun.order.of_expected rfl⟩, hmoved⟩

theorem Feed.Sound.pulled {f : Feed} (h : f.Sound) (hm : f.lane.state = .mixing) : f.Pulled := by
  obtain ⟨hbud, hlistener, hreserved, -, hsome, -, -⟩ := (Lane.fieldsSound_of_carries h.carries).1 h.fields
  exact ⟨h.range, hm, hbud, hlistener, hreserved, hsome hm, h.length, h.order⟩

/-- A promoted lane is ready to be pulled: a depth above 0 needs an expected sequence (R71, R83). -/
theorem Feed.Sound.promote {f : Feed} (h : f.Sound) (hd : 0 < f.depth) : f.promote.Pulled := by
  obtain ⟨hbud, hlistener, hreserved, hempty, -, -, -⟩ := (Lane.fieldsSound_of_carries h.carries).1 h.fields
  obtain ⟨hring, -, -, -, -, -, hcount⟩ := h.range
  have hdepth := Feed.depth_le_of_range h.range h.length
  refine ⟨⟨hring, Nat.zero_lt_succ _, by simp [Feed.promote], by simp [Feed.promote], ?_, ?_, hcount⟩, rfl, hbud, hlistener, hreserved, ?_,
    h.length, h.order.of_expected rfl⟩
  · simp only [Feed.promote]; omega
  · simp only [Feed.promote]; omega
  · cases hx : f.lane.expected with
    | some x =>
      have hpx : f.promote.lane.expected = some x := hx
      rw [hpx]
      rfl
    | none =>
      have hzero : f.depth = 0 := by simp [Feed.depth, Feed.run, hx, hempty hx]
      omega

end Sys2Proof.Machine
end

