-- ==== Sys2Proof/Proofs/LaneLaws.lean ====
section
/-! PROOFS. The laws of the lanes, the wait list and the receive queues against any reckoning of who speaks, with the
listeners that may for a moment go without lane and entry; what binding, reserving, vacating and waiting make of them. -/

namespace Sys2Proof.Machine

/-- The laws of the lanes, the wait list and the queues (R46, R50, R58, R63, R65, R68, R75, R82), for a call state `c` and a
reckoning `σ` of the speaking buds. A listener in `E` may speak without a lane, a reservation or an entry; a bud in `D` has
an empty queue. -/
structure State.Laws (c : CallState) (σ : ListenerIx → Option BudIx) (E : ListenerIx → Prop) (D : BudIx → Prop) (s : State) :
    Prop where
  range : ∀ k : LaneIx, s.laneUnit.lanes[k].InRange
  fields : ∀ k : LaneIx, s.laneUnit.lanes[k].FieldsSound
  one : ∀ (j k : LaneIx) (x : ListenerIx), s.laneUnit.lanes[j].served = some x → s.laneUnit.lanes[k].served = some x → j = k
  speaks : ∀ (k : LaneIx) (x : ListenerIx), s.laneUnit.lanes[k].served = some x → (σ x).isSome = true
  carry : ∀ (k : LaneIx) (x : ListenerIx), s.laneUnit.lanes[k].carries = true → s.laneUnit.lanes[k].listener = some x →
    s.laneUnit.lanes[k].bud = σ x
  inj : ∀ (x y : ListenerIx) (b : BudIx), σ x = some b → σ y = some b → x = y
  idle : c ≠ .inCall → ∀ k : LaneIx, s.laneUnit.lanes[k].state = .vacant
  order : WaitOrderly s.priorityOf s.laneUnit.waitList
  waiting : ∀ e ∈ s.laneUnit.waitList, σ e.listener = some e.bud ∧ ∀ k : LaneIx, s.laneUnit.lanes[k].served ≠ some e.listener
  empty : c = .noCall → s.laneUnit.waitList = []
  complete : c ≠ .noCall → ∀ x : ListenerIx, ¬ E x → (σ x).isSome = true →
    (∃ k : LaneIx, s.laneUnit.lanes[k].served = some x) ∨ ∃ e ∈ s.laneUnit.waitList, e.listener = x
  nodup : ∀ b : BudIx, (s.intake.queues[b].map (·.seq)).Nodup
  unbound : ∀ b : BudIx, (∀ k : LaneIx, s.laneUnit.lanes[k].carries = true → s.laneUnit.lanes[k].bud ≠ some b) →
    s.intake.queues[b].length ≤ 2
  bound : ∀ (k : LaneIx) (b : BudIx), s.laneUnit.lanes[k].carries = true → s.laneUnit.lanes[k].bud = some b →
    s.intake.queues[b].length ≤ 8 ∧ s.laneUnit.lanes[k].InOrder s.intake.queues[b] ∧
      s.laneUnit.lanes[k].MovedAll s.intake.queues[b]
  dumb : ∀ b : BudIx, D b → s.intake.queues[b] = []

variable {c : CallState} {σ : ListenerIx → Option BudIx} {E E' : ListenerIx → Prop} {D : BudIx → Prop} {s t : State}
  {k : LaneIx} {x : ListenerIx} {b : BudIx}

/-! ## What the laws say of a lane -/

theorem Lane.served_of_carries {l : Lane} (h : l.carries = true) : l.served = l.listener := if_pos h

theorem Lane.served_of_idle {l : Lane} (h : l.carries = false) : l.served = l.reservedFor :=
  if_neg (Bool.eq_false_iff.1 h)

theorem Lane.carries_of_state {l : Lane} (h : l.state = .draining ∨ l.state = .vacant) : l.carries = false := by
  rcases h with h | h <;> rw [Lane.carries, h] <;> rfl

/-- A VACANT lane serves nobody (R58). -/
theorem Lane.FieldsSound.served_of_vacant {l : Lane} (h : l.FieldsSound) (hv : l.state = .vacant) : l.served = none := by
  obtain ⟨hcleared, -⟩ := h
  rw [hcleared hv]
  rfl

theorem Lane.FieldsSound.reservedFor_of_vacant {l : Lane} (h : l.FieldsSound) (hv : l.state = .vacant) : l.reservedFor = none := by
  obtain ⟨hcleared, -⟩ := h
  rw [hcleared hv]
  rfl

theorem State.Laws.feed (h : s.Laws c σ E D) (hc : s.laneUnit.lanes[k].carries = true) (hb : s.laneUnit.lanes[k].bud = some b) :
    (s.feed k b).Sound := by
  obtain ⟨hlen, horder, hmoved⟩ := h.bound k b hc hb
  exact ⟨⟨h.range k, hc, h.fields k, hlen, horder⟩, hmoved⟩

/-- A carrying lane has a listener, which it serves, and the listener's speaking bud (R61, R63). -/
theorem State.Laws.carrying (h : s.Laws c σ E D) (hc : s.laneUnit.lanes[k].carries = true) :
    ∃ (x : ListenerIx) (b : BudIx), s.laneUnit.lanes[k].listener = some x ∧ s.laneUnit.lanes[k].served = some x ∧
      s.laneUnit.lanes[k].bud = some b ∧ σ x = some b ∧ s.laneUnit.lanes[k].reservedFor = none := by
  obtain ⟨hbud, hlistener, hreserved, -⟩ := (Lane.fieldsSound_of_carries hc).1 (h.fields k)
  obtain ⟨x, hx⟩ := Option.isSome_iff_exists.1 hlistener
  obtain ⟨b, hb⟩ := Option.isSome_iff_exists.1 hbud
  exact ⟨x, b, hx, (Lane.served_of_carries hc).trans hx, hb, (h.carry k x hc hx).symm.trans hb, hreserved⟩

/-- No two lanes carry one bud (R63). -/
theorem State.Laws.bud_inj (h : s.Laws c σ E D) {j : LaneIx} (hj : s.laneUnit.lanes[j].carries = true)
    (hk : s.laneUnit.lanes[k].carries = true) (hb : s.laneUnit.lanes[j].bud = some b) (hb' : s.laneUnit.lanes[k].bud = some b) :
    j = k := by
  obtain ⟨x, bx, -, hx, hbx, hσx, -⟩ := h.carrying hj
  obtain ⟨y, bY, -, hy, hby, hσy, -⟩ := h.carrying hk
  obtain rfl := Option.some.inj (hbx.symm.trans hb)
  obtain rfl := Option.some.inj (hby.symm.trans hb')
  obtain rfl := h.inj x y _ hσx hσy
  exact h.one j k x hx hy

/-- The speaking bud of a listener that no lane serves is not bound (R63). -/
theorem State.Laws.unbound_of_unserved (h : s.Laws c σ E D) (hx : ∀ k : LaneIx, s.laneUnit.lanes[k].served ≠ some x)
    (hb : σ x = some b) (k : LaneIx) (hc : s.laneUnit.lanes[k].carries = true) : s.laneUnit.lanes[k].bud ≠ some b := fun hk => by
  obtain ⟨y, b', -, hy, hby, hσy, -⟩ := h.carrying hc
  obtain rfl := Option.some.inj (hby.symm.trans hk)
  exact hx k (h.inj x y _ hb hσy ▸ hy)

/-! ## Changes that the laws do not see -/

theorem State.Laws.congr (h : s.Laws c σ E D) (hlanes : t.laneUnit.lanes = s.laneUnit.lanes)
    (hwait : t.laneUnit.waitList = s.laneUnit.waitList) (hqueues : t.intake.queues = s.intake.queues)
    (hp : t.priorityOf = s.priorityOf) : t.Laws c σ E D := by
  obtain ⟨range, fields, one, speaks, carry, inj, idle, order, waiting, empty, complete, nodup, unbound, bound, dumb⟩ := h
  constructor
  case inj => exact inj
  all_goals simp only [hlanes, hwait, hqueues, hp]
  all_goals assumption

/-- More listeners may go without, and fewer queues need be empty. -/
theorem State.Laws.mono (h : s.Laws c σ E D) (hE : ∀ x, E x → E' x) : s.Laws c σ E' D :=
  { h with complete := fun hc x hx => h.complete hc x fun he => hx (hE x he) }

/-- A listener that does not speak, that a lane serves, or that waits, needs no exemption. -/
theorem State.Laws.settle (h : s.Laws c σ E D) (hE : ∀ x, E x → E' x ∨ σ x = none ∨
    (∃ k : LaneIx, s.laneUnit.lanes[k].served = some x) ∨ ∃ e ∈ s.laneUnit.waitList, e.listener = x) : s.Laws c σ E' D :=
  { h with
    complete := fun hc x hx hs => by
      by_cases he : E x
      · rcases hE x he with h' | hnone | hserved
        · exact absurd h' hx
        · rw [hnone] at hs
          exact absurd hs nofun
        · exact hserved
      · exact h.complete hc x he hs }

/-- Another reckoning of a listener that no lane serves and that does not wait. -/
theorem State.Laws.resay {τ : ListenerIx → Option BudIx} (h : s.Laws c σ E D) (hx : E x)
    (hserved : ∀ k : LaneIx, s.laneUnit.lanes[k].served ≠ some x) (hwait : ∀ e ∈ s.laneUnit.waitList, e.listener ≠ x)
    (hsame : ∀ y, y ≠ x → τ y = σ y) (hinj : ∀ (x y : ListenerIx) (b : BudIx), τ x = some b → τ y = some b → x = y) :
    s.Laws c τ E D where
  range := h.range
  fields := h.fields
  one := h.one
  speaks := fun k y hy => by
    rw [hsame y fun e => hserved k (e ▸ hy)]
    exact h.speaks k y hy
  carry := fun k y hc hy => by
    rw [hsame y fun e => hserved k (e ▸ (Lane.served_of_carries hc).trans hy)]
    exact h.carry k y hc hy
  inj := hinj
  idle := h.idle
  order := h.order
  waiting := fun e he => by
    rw [hsame _ (hwait e he)]
    exact h.waiting e he
  empty := h.empty
  complete := fun hc y hy hs => by
    have hne : y ≠ x := fun e => hy (e ▸ hx)
    rw [hsame y hne] at hs
    exact h.complete hc y hy hs
  nodup := h.nodup
  unbound := h.unbound
  bound := h.bound
  dumb := h.dumb

/-! ## A change of one lane -/

/-- What a change of one lane, with its effect on the wait list and the queues, must bring to keep the laws. -/
structure State.Relaned (c : CallState) (σ : ListenerIx → Option BudIx) (E E' : ListenerIx → Prop) (k : LaneIx) (s t : State) :
    Prop where
  other : ∀ j : LaneIx, j ≠ k → t.laneUnit.lanes[j] = s.laneUnit.lanes[j]
  range : t.laneUnit.lanes[k].InRange
  fields : t.laneUnit.lanes[k].FieldsSound
  speaks : ∀ x : ListenerIx, t.laneUnit.lanes[k].served = some x → (σ x).isSome = true ∧
    (∀ j : LaneIx, j ≠ k → s.laneUnit.lanes[j].served ≠ some x) ∧ ∀ e ∈ t.laneUnit.waitList, e.listener ≠ x
  carry : ∀ x : ListenerIx, t.laneUnit.lanes[k].carries = true → t.laneUnit.lanes[k].listener = some x →
    t.laneUnit.lanes[k].bud = σ x
  idle : c ≠ .inCall → t.laneUnit.lanes[k].state = .vacant
  order : WaitOrderly t.priorityOf t.laneUnit.waitList
  fewer : ∀ e ∈ t.laneUnit.waitList, ∃ a ∈ s.laneUnit.waitList, a.listener = e.listener ∧ a.bud = e.bud
  complete : ∀ x : ListenerIx, ¬ E' x → t.laneUnit.lanes[k].served = some x ∨
    ¬ E x ∧ s.laneUnit.lanes[k].served ≠ some x ∧
      ((∃ e ∈ s.laneUnit.waitList, e.listener = x) → ∃ e ∈ t.laneUnit.waitList, e.listener = x)
  nodup : ∀ b : BudIx, (t.intake.queues[b].map (·.seq)).Nodup
  others : ∀ (j : LaneIx) (b : BudIx), j ≠ k → s.laneUnit.lanes[j].carries = true → s.laneUnit.lanes[j].bud = some b →
    t.intake.queues[b] = s.intake.queues[b]
  unbound : ∀ b : BudIx, (∀ j : LaneIx, j ≠ k → s.laneUnit.lanes[j].carries = true → s.laneUnit.lanes[j].bud ≠ some b) →
    (t.laneUnit.lanes[k].carries = true → t.laneUnit.lanes[k].bud ≠ some b) → t.intake.queues[b].length ≤ 2
  bound : ∀ b : BudIx, t.laneUnit.lanes[k].carries = true → t.laneUnit.lanes[k].bud = some b →
    t.intake.queues[b].length ≤ 8 ∧ t.laneUnit.lanes[k].InOrder t.intake.queues[b] ∧
      t.laneUnit.lanes[k].MovedAll t.intake.queues[b]
  dumb : ∀ b : BudIx, s.intake.queues[b] = [] → t.intake.queues[b] = []

theorem State.Laws.relane (h : s.Laws c σ E D) (r : State.Relaned c σ E E' k s t) : t.Laws c σ E' D where
  range := fun j => by
    by_cases hj : j = k
    · exact hj ▸ r.range
    · rw [r.other j hj]
      exact h.range j
  fields := fun j => by
    by_cases hj : j = k
    · exact hj ▸ r.fields
    · rw [r.other j hj]
      exact h.fields j
  one := fun i j x hi hj => by
    by_cases hik : i = k <;> by_cases hjk : j = k
    · rw [hik, hjk]
    · subst hik
      rw [r.other j hjk] at hj
      exact absurd hj ((r.speaks x hi).2.1 j hjk)
    · subst hjk
      rw [r.other i hik] at hi
      exact absurd hi ((r.speaks x hj).2.1 i hik)
    · rw [r.other i hik] at hi
      rw [r.other j hjk] at hj
      exact h.one i j x hi hj
  speaks := fun j x hj => by
    by_cases hjk : j = k
    · exact (r.speaks x (hjk ▸ hj)).1
    · rw [r.other j hjk] at hj
      exact h.speaks j x hj
  carry := fun j x => by
    by_cases hjk : j = k
    · subst hjk
      exact r.carry x
    · rw [r.other j hjk]
      exact h.carry j x
  inj := h.inj
  idle := fun hc j => by
    by_cases hjk : j = k
    · exact hjk ▸ r.idle hc
    · rw [r.other j hjk]
      exact h.idle hc j
  order := r.order
  waiting := fun e he => by
    obtain ⟨a, ha, hl, hb⟩ := r.fewer e he
    obtain ⟨hσ, hun⟩ := h.waiting a ha
    rw [hl] at hσ hun
    refine ⟨hb ▸ hσ, fun j hj => ?_⟩
    by_cases hjk : j = k
    · exact (r.speaks _ (hjk ▸ hj)).2.2 e he rfl
    · rw [r.other j hjk] at hj
      exact hun j hj
  empty := fun hc => List.eq_nil_iff_forall_not_mem.2 fun e he => by
    obtain ⟨a, ha, -⟩ := r.fewer e he
    rw [h.empty hc] at ha
    exact absurd ha nofun
  complete := fun hc x hx hs => by
    rcases r.complete x hx with hnew | ⟨he, hk, hw⟩
    · exact .inl ⟨k, hnew⟩
    · refine (h.complete hc x he hs).imp (fun ⟨j, hj⟩ => ⟨j, ?_⟩) hw
      rw [r.other j fun hjk => hk (hjk ▸ hj)]
      exact hj
  nodup := r.nodup
  unbound := fun b hb => r.unbound b (fun j hj => r.other j hj ▸ hb j) (hb k)
  bound := fun j b => by
    by_cases hjk : j = k
    · subst hjk
      exact r.bound b
    · rw [r.other j hjk]
      intro hc hb
      rw [r.others j b hjk hc hb]
      exact h.bound j b hc hb
  dumb := fun b hb => r.dumb b (h.dumb b hb)

/-! ### Vacating and draining (R70, R73, R77, R78) -/

theorem suffix_keepLast (n : Nat) (q : List Entry) : keepLast n q <:+ q := List.drop_suffix _ _

/-- A lane that stops carrying, or goes on not carrying, and serves nobody: its listener may go without, and the queue it
carried is converted. -/
theorem State.Laws.unlane (h : s.Laws c σ E D) {l : Lane}
    (hl : l.InRange) (hf : l.FieldsSound) (hc : l.carries = false) (hr : l.reservedFor = none)
    (hidle : c ≠ .inCall → l.state = .vacant) :
    ((s.unbindBud k).setLane k l).Laws c σ (fun x => E x ∨ s.laneUnit.lanes[k].served = some x) D := by
  have hk : ((s.unbindBud k).setLane k l).laneUnit.lanes[k] = l := by rw [setLane_getElem, if_pos rfl]
  have hother : ∀ j : LaneIx, j ≠ k → ((s.unbindBud k).setLane k l).laneUnit.lanes[j] = s.laneUnit.lanes[j] := fun j hj => by
    rw [setLane_getElem, if_neg (Ne.symm hj), State.unbindBud_laneUnit]
  have hwait : ((s.unbindBud k).setLane k l).laneUnit.waitList = s.laneUnit.waitList :=
    show (s.unbindBud k).laneUnit.waitList = s.laneUnit.waitList by rw [State.unbindBud_laneUnit]
  have hqueue : ∀ b : BudIx, ((s.unbindBud k).setLane k l).intake.queues[b] =
      if s.laneUnit.lanes[k].carries = true ∧ s.laneUnit.lanes[k].bud = some b then keepLast 2 s.intake.queues[b]
      else s.intake.queues[b] := s.unbindBud_queue k
  have hsuffix : ∀ b : BudIx, ((s.unbindBud k).setLane k l).intake.queues[b] <:+ s.intake.queues[b] := fun b => by
    rw [hqueue]
    split
    · exact suffix_keepLast _ _
    · exact List.suffix_refl _
  have hprio : ((s.unbindBud k).setLane k l).priorityOf = s.priorityOf := by
    unfold State.priorityOf
    rw [show ((s.unbindBud k).setLane k l).roster = s.roster from (s.unbindBud_only k).only.roster]
  have hserved : l.served = none := (Lane.served_of_idle hc).trans hr
  refine h.relane
    { other := hother
      range := by rw [hk]; exact hl
      fields := by rw [hk]; exact hf
      speaks := fun x hx => ?_
      carry := fun x hx => ?_
      idle := fun hc => by rw [hk]; exact hidle hc
      order := by rw [hprio, hwait]; exact h.order
      fewer := fun e he => ⟨e, hwait ▸ he, rfl, rfl⟩
      complete := fun x hx => ?_
      nodup := fun b => (h.nodup b).sublist ((hsuffix b).sublist.map _)
      others := fun j b hj hc hb => ?_
      unbound := fun b hb _ => ?_
      bound := fun b hb => ?_
      dumb := fun b hb => ?_ }
  · rw [hk, hserved] at hx
    exact absurd hx nofun
  · rw [hk, hc] at hx
    exact absurd hx nofun
  · exact .inr ⟨fun he => hx (.inl he), fun hs => hx (.inr hs), by rw [hwait]; exact id⟩
  · rw [hqueue, if_neg]
    rintro ⟨hck, hbk⟩
    exact hj (h.bud_inj hc hck hb hbk)
  · rw [hqueue]
    split
    · exact keepLast_length _ _
    · next hno =>
      refine h.unbound b fun j hc hbj => ?_
      by_cases hj : j = k
      · subst hj
        exact hno ⟨hc, hbj⟩
      · exact hb j hj hc hbj
  · rw [hk, hc] at hb
    exact absurd hb nofun
  · have hs := hsuffix b
    rw [hb] at hs
    exact List.suffix_nil.1 hs

theorem Lane.cleared_fieldsSound (l : Lane) : l.cleared.FieldsSound := by
  refine ⟨fun _ => rfl, rfl, rfl, nofun, fun _ => rfl, ?_, nofun, rfl⟩
  rintro (h | h) <;> exact absurd h nofun

/-- A lane becomes VACANT (R73, R77, R78). -/
theorem State.Laws.emptyLane (h : s.Laws c σ E D) (k : LaneIx) :
    (s.emptyLane k).Laws c σ (fun x => E x ∨ s.laneUnit.lanes[k].served = some x) D :=
  h.unlane (Lane.cleared_inRange _) (Lane.cleared_fieldsSound _) rfl rfl fun _ => rfl

/-- A MIXING lane is released and drains (R70). -/
theorem State.Laws.drain (h : s.Laws .inCall σ E D) (hk : s.laneUnit.lanes[k].state = .mixing) :
    ((s.unbindBud k).setLane k { s.laneUnit.lanes[k] with state := .draining, bud := none }).Laws .inCall σ
      (fun x => E x ∨ s.laneUnit.lanes[k].served = some x) D := by
  obtain ⟨-, hlistener, hreserved, hring, hsome, -, hramp⟩ :=
    (Lane.fieldsSound_of_carries (State.carries_of_mixing hk)).1 (h.fields k)
  refine h.unlane (h.range k) ⟨nofun, rfl, hlistener, fun hr => ?_, hring, fun _ => hsome hk, nofun, hramp⟩ rfl hreserved
    fun hc => absurd rfl hc
  exact absurd (hreserved ▸ hr) nofun

/-! ### Binding (R64) -/

theorem Feed.prepare_suffix (f : Feed) : f.prepare.queue.Sublist f.queue := by
  unfold Feed.prepare
  split
  · exact List.nil_sublist _
  · next older newer hkeep =>
    have hsub : (older :: newer).Sublist f.queue := hkeep ▸ (suffix_keepLast _ _).sublist
    exact ((moveDue_suffix _ _).sublist.trans (List.filter_sublist.cons_cons older)).trans hsub

theorem State.bindLane_priorityOf (s : State) (k : LaneIx) (b : BudIx) (x : ListenerIx) :
    (s.bindLane k b x).priorityOf = s.priorityOf := rfl

/-- A VACANT lane is bound for a listener that speaks and that no lane serves (R64). -/
theorem State.Laws.bindLane (h : s.Laws .inCall σ E D) (hk : s.laneUnit.lanes[k].state = .vacant) (hb : σ x = some b)
    (hx : ∀ j : LaneIx, s.laneUnit.lanes[j].served ≠ some x) :
    (s.bindLane k b x).Laws .inCall σ (fun y => E y ∧ y ≠ x) D := by
  obtain ⟨hstate, hbud, hlistener, hreserved⟩ := s.bindLane_bound k b x
  have hfree := h.unbound_of_unserved hx hb
  have hsound := s.primedFeed_sound k b x (h.unbound b hfree) (h.nodup b)
  have hlane : (s.bindLane k b x).laneUnit.lanes[k] = (s.primedFeed k b x).prepare.lane := by
    rw [s.bindLane_lane, if_pos rfl]
  have hqueue : (s.bindLane k b x).intake.queues[b] = (s.primedFeed k b x).prepare.queue := by
    rw [(s.bindLane_queue k b x b).1, if_pos rfl]
  have hqueues : ∀ d : BudIx, d ≠ b → (s.bindLane k b x).intake.queues[d] = s.intake.queues[d] := fun d hd => by
    rw [(s.bindLane_queue k b x d).1, if_neg (Ne.symm hd)]
  have hsub : ∀ d : BudIx, ((s.bindLane k b x).intake.queues[d]).Sublist s.intake.queues[d] := fun d => by
    by_cases hd : d = b
    · subst hd
      rw [hqueue]
      exact Feed.prepare_suffix _
    · rw [hqueues d hd]
  have hcarries := State.carries_of_priming hstate
  have hserved : (s.bindLane k b x).laneUnit.lanes[k].served = some x := (Lane.served_of_carries hcarries).trans hlistener
  refine h.relane
    { other := fun j hj => State.bindLane_other (Ne.symm hj) b x
      range := hlane ▸ hsound.range
      fields := hlane ▸ hsound.fields
      speaks := fun y hy => ?_
      carry := fun y _ hy => ?_
      idle := fun hc => absurd rfl hc
      order := h.order.remove x
      fewer := fun e he => ?_
      complete := fun y hy => ?_
      nodup := fun d => (h.nodup d).sublist ((hsub d).map _)
      others := fun j d hj hc hd => hqueues d fun e => ?_
      unbound := fun d hd hkd => ?_
      bound := fun d _ hd => ?_
      dumb := fun d hd => ?_ }
  · obtain rfl := Option.some.inj (hserved.symm.trans hy)
    exact ⟨by rw [hb]; rfl, fun j _ => hx j, fun e he => (mem_removeWait he).1⟩
  · obtain rfl := Option.some.inj (hlistener.symm.trans hy)
    exact hbud.trans hb.symm
  · obtain ⟨-, a, ha, hl, hbud, -⟩ := mem_removeWait he
    exact ⟨a, ha, hl, hbud⟩
  · by_cases hyx : y = x
    · exact .inl (hyx ▸ hserved)
    · refine .inr ⟨fun he => hy ⟨he, hyx⟩, ?_, fun hw => waits_eq_true.1 ?_⟩
      · rw [(h.fields k).served_of_vacant hk]
        exact nofun
      · exact (waits_removeWait hyx).trans (waits_eq_true.2 hw)
  · subst e
    exact hfree j hc hd
  · have hdb : d ≠ b := fun e => hkd hcarries (e ▸ hbud)
    rw [hqueues d hdb]
    refine h.unbound d fun j hc => ?_
    by_cases hj : j = k
    · subst hj
      rw [Lane.carries_of_state (.inr hk)] at hc
      exact absurd hc nofun
    · exact hd j hj hc
  · obtain rfl := Option.some.inj (hbud.symm.trans hd)
    rw [hqueue, hlane]
    exact ⟨hsound.length, hsound.order, hsound.moved⟩
  · have hs := hsub d
    rw [hd] at hs
    exact List.sublist_nil.1 hs

/-- A VACANT lane is granted to the wait list's head (R68, R75). -/
theorem State.Laws.grantHead (h : s.Laws .inCall σ E D) (hk : s.laneUnit.lanes[k].state = .vacant) :
    (s.grantHead k).Laws .inCall σ E D := by
  unfold State.grantHead
  split
  · split
    · exact h
    · next e rest hw =>
      obtain ⟨hb, hx⟩ := h.waiting e (hw ▸ List.mem_cons_self)
      exact (h.bindLane hk hb hx).mono fun y hy => hy.1
  · exact h

/-! ### Reservations (R63, R65) -/

theorem Lane.served_reserved {l : Lane} (hd : l.state = .draining) : l.served = l.reservedFor :=
  Lane.served_of_idle (Lane.carries_of_state (.inl hd))

/-- A DRAINING lane without a reservation is reserved for a listener that speaks and that no lane serves (R63, R65). -/
theorem State.Laws.reserve (h : s.Laws c σ E D) (hk : s.laneUnit.lanes[k].state = .draining)
    (hr : s.laneUnit.lanes[k].reservedFor = none) (hb : (σ x).isSome = true)
    (hx : ∀ j : LaneIx, s.laneUnit.lanes[j].served ≠ some x) (hw : ∀ e ∈ s.laneUnit.waitList, e.listener ≠ x) :
    (s.reserve k (some x)).Laws c σ (fun y => E y ∧ y ≠ x) D := by
  have hlane : (s.reserve k (some x)).laneUnit.lanes[k] = { s.laneUnit.lanes[k] with reservedFor := some x } := by
    rw [State.reserve, setLane_getElem, if_pos rfl]
  have hcarries : ({ s.laneUnit.lanes[k] with reservedFor := some x } : Lane).carries = false :=
    Lane.carries_of_state (.inl hk)
  have hserved : ({ s.laneUnit.lanes[k] with reservedFor := some x } : Lane).served = some x := Lane.served_of_idle hcarries
  obtain ⟨-, hbud, hlistener, -, hring, hsome, -, hramp⟩ := h.fields k
  refine h.relane
    { other := fun j hj => State.setLane_other (Ne.symm hj) _
      range := hlane ▸ h.range k
      fields := hlane ▸ ?_
      speaks := fun y hy => ?_
      carry := fun y hc => ?_
      idle := fun hc => absurd ((h.idle hc k).symm.trans hk) nofun
      order := h.order
      fewer := fun e he => ⟨e, he, rfl, rfl⟩
      complete := fun y hy => ?_
      nodup := h.nodup
      others := fun _ _ _ _ _ => rfl
      unbound := fun d hd _ => h.unbound d fun j hc => ?_
      bound := fun d hc => ?_
      dumb := fun _ hd => hd }
  · exact ⟨fun hv => absurd (hk.symm.trans hv) nofun, hbud, hlistener, fun _ => hk, hring, hsome,
      fun hp => absurd (hk.symm.trans hp) nofun, hramp⟩
  · rw [hlane, hserved] at hy
    obtain rfl := Option.some.inj hy
    exact ⟨hb, fun j _ => hx j, hw⟩
  · rw [hlane, hcarries] at hc
    exact absurd hc nofun
  · by_cases hyx : y = x
    · exact .inl (by rw [hlane, hserved, hyx])
    · exact .inr ⟨fun he => hy ⟨he, hyx⟩, by rw [Lane.served_reserved hk, hr]; exact nofun, id⟩
  · by_cases hj : j = k
    · subst hj
      rw [Lane.carries_of_state (.inl hk)] at hc
      exact absurd hc nofun
    · exact hd j hj hc
  · rw [hlane, hcarries] at hc
    exact absurd hc nofun

theorem Lane.without_served (l : Lane) (x : ListenerIx) {y : ListenerIx} :
    (l.without x).served = some y ↔ l.served = some y ∧ (l.carries = true ∨ y ≠ x) := by
  unfold Lane.served
  rw [Lane.without_carries, Lane.without_listener]
  cases l.carries with
  | true => simp
  | false =>
    simp only [Bool.false_eq_true, if_false, false_or]
    unfold Lane.without
    split
    · next hr =>
      rw [hr]
      refine ⟨nofun, fun ⟨hy, hne⟩ => absurd (Option.some.inj hy).symm hne⟩
    · next hr => exact ⟨fun hy => ⟨hy, fun e => hr (e ▸ hy)⟩, fun hy => hy.1⟩

theorem Lane.without_fieldsSound {l : Lane} (x : ListenerIx) (h : l.FieldsSound) : (l.without x).FieldsSound := by
  unfold Lane.without
  split
  · next hr =>
    obtain ⟨-, hbud, hlistener, hreserved, hring, hsome, -, hramp⟩ := h
    have hd := hreserved (by rw [hr]; rfl)
    exact ⟨fun hv => absurd (hd.symm.trans hv) nofun, hbud, hlistener, nofun, hring, hsome,
      fun hp => absurd (hd.symm.trans hp) nofun, hramp⟩
  · exact h

theorem Lane.without_inRange {l : Lane} (x : ListenerIx) (h : l.InRange) : (l.without x).InRange := by
  unfold Lane.without
  split <;> exact h

/-- A carrying lane has no reservation to cancel (R58). -/
theorem Lane.without_of_carries {l : Lane} (x : ListenerIx) (h : l.FieldsSound) (hc : l.carries = true) : l.without x = l := by
  obtain ⟨-, -, hreserved, -⟩ := (Lane.fieldsSound_of_carries hc).1 h
  exact Lane.without_of_ne (by rw [hreserved]; exact nofun)

/-- A listener's reservations are cancelled (R65). -/
theorem State.Laws.cancelReservation (h : s.Laws c σ E D) (x : ListenerIx) :
    (s.cancelReservation x).Laws c σ (fun y => E y ∨ y = x) D := by
  rw [State.cancelReservation_eq]
  have hlane : ∀ k : LaneIx, (s.laneUnit.lanes.map (Lane.without x))[k] = s.laneUnit.lanes[k].without x := getElem_map_lanes _ _
  constructor
  case range => exact fun k => by rw [hlane]; exact Lane.without_inRange x (h.range k)
  case fields => exact fun k => by rw [hlane]; exact Lane.without_fieldsSound x (h.fields k)
  case one =>
    intro j k y hj hk
    rw [hlane] at hj hk
    exact h.one j k y ((Lane.without_served _ x).1 hj).1 ((Lane.without_served _ x).1 hk).1
  case speaks =>
    intro k y hk
    rw [hlane] at hk
    exact h.speaks k y ((Lane.without_served _ x).1 hk).1
  case carry =>
    intro k y
    rw [hlane, Lane.without_carries, Lane.without_listener, Lane.without_bud]
    exact h.carry k y
  case inj => exact h.inj
  case idle =>
    intro hc k
    rw [hlane, Lane.without_state]
    exact h.idle hc k
  case order => exact h.order
  case waiting =>
    intro e he
    refine ⟨(h.waiting e he).1, fun k hk => ?_⟩
    rw [hlane] at hk
    exact (h.waiting e he).2 k ((Lane.without_served _ x).1 hk).1
  case empty => exact h.empty
  case complete =>
    intro hc y hy hs
    refine (h.complete hc y (fun he => hy (.inl he)) hs).imp (fun ⟨k, hk⟩ => ⟨k, ?_⟩) id
    rw [hlane]
    exact (Lane.without_served _ x).2 ⟨hk, .inr fun e => hy (.inr e)⟩
  case nodup => exact h.nodup
  case unbound =>
    intro b hb
    refine h.unbound b fun k hk => ?_
    have hbk := hb k
    rw [hlane, Lane.without_carries, Lane.without_bud] at hbk
    exact hbk hk
  case bound =>
    intro k b
    rw [hlane, Lane.without_carries, Lane.without_bud]
    intro hc hb
    rw [Lane.without_of_carries x (h.fields k) hc]
    exact h.bound k b hc hb
  case dumb => exact h.dumb

/-! ### A feed (R51) -/

/-- A carrying lane and its queue change together, the binding kept (R48 to R51, R83). -/
theorem State.Laws.setFeed (h : s.Laws c σ E D) (hc : s.laneUnit.lanes[k].carries = true) (hb : s.laneUnit.lanes[k].bud = some b)
    {f : Feed} (hf : f.Sound) (hfb : f.lane.bud = some b) (hfl : f.lane.listener = s.laneUnit.lanes[k].listener)
    (hd : ¬ D b) : (s.setFeed k b f).Laws c σ E D := by
  have hlane : (s.setFeed k b f).laneUnit.lanes[k] = f.lane := (getElem_set_fin ..).trans (if_pos rfl)
  have hother : ∀ j : LaneIx, j ≠ k → (s.setFeed k b f).laneUnit.lanes[j] = s.laneUnit.lanes[j] := fun j hj =>
    (getElem_set_fin ..).trans (if_neg (Ne.symm hj))
  have hqueue : (s.setFeed k b f).intake.queues[b] = f.queue := (getElem_set_fin ..).trans (if_pos rfl)
  have hqueues : ∀ d : BudIx, d ≠ b → (s.setFeed k b f).intake.queues[d] = s.intake.queues[d] := fun d hd =>
    (getElem_set_fin ..).trans (if_neg (Ne.symm hd))
  obtain ⟨x, b', hx, hserved, hb', hσ, -⟩ := h.carrying hc
  obtain rfl := Option.some.inj (hb.symm.trans hb')
  have hfserved : f.lane.served = some x := (Lane.served_of_carries hf.carries).trans (hfl.trans hx)
  have hall : ∀ j : LaneIx, (s.setFeed k b f).laneUnit.lanes[j].served = s.laneUnit.lanes[j].served := fun j => by
    by_cases hj : j = k
    · subst hj
      rw [hlane, hfserved, hserved]
    · rw [hother j hj]
  constructor
  case range =>
    intro j
    by_cases hj : j = k
    · subst hj; rw [hlane]; exact hf.range
    · rw [hother j hj]; exact h.range j
  case fields =>
    intro j
    by_cases hj : j = k
    · subst hj; rw [hlane]; exact hf.fields
    · rw [hother j hj]; exact h.fields j
  case one =>
    intro i j y
    rw [hall, hall]
    exact h.one i j y
  case speaks =>
    intro j y
    rw [hall]
    exact h.speaks j y
  case carry =>
    intro j y
    by_cases hj : j = k
    · subst hj
      rw [hlane, hfl, hfb]
      intro _ hy
      exact hb ▸ h.carry j y hc hy
    · rw [hother j hj]; exact h.carry j y
  case inj => exact h.inj
  case idle =>
    intro hcall
    have hv := h.idle hcall k
    rw [Lane.carries_of_state (.inr hv)] at hc
    exact absurd hc nofun
  case order => exact h.order
  case waiting =>
    intro e he
    refine ⟨(h.waiting e he).1, fun j => ?_⟩
    rw [hall]
    exact (h.waiting e he).2 j
  case empty => exact h.empty
  case complete =>
    intro hcall y hy hs
    refine (h.complete hcall y hy hs).imp (fun ⟨j, hj⟩ => ⟨j, ?_⟩) id
    rw [hall]
    exact hj
  case nodup =>
    intro d
    by_cases hdb : d = b
    · subst hdb; rw [hqueue]; exact hf.order.nodup
    · rw [hqueues d hdb]; exact h.nodup d
  case unbound =>
    intro d hno
    have hdb : d ≠ b := fun e => hno k (hlane ▸ hf.carries) (by rw [hlane, e]; exact hfb)
    rw [hqueues d hdb]
    refine h.unbound d fun j hcj hbj => ?_
    by_cases hj : j = k
    · subst hj
      exact hdb (Option.some.inj (hbj.symm.trans hb))
    · exact hno j (hother j hj ▸ hcj) (hother j hj ▸ hbj)
  case bound =>
    intro j d
    by_cases hj : j = k
    · subst hj
      rw [hlane, hfb]
      intro _ hd
      obtain rfl := Option.some.inj hd
      rw [hqueue]
      exact ⟨hf.length, hf.order, hf.moved⟩
    · rw [hother j hj]
      intro hcj hbj
      have hdb : d ≠ b := fun e => hj (h.bud_inj hcj hc (e ▸ hbj) hb)
      rw [hqueues d hdb]
      exact h.bound j d hcj hbj
  case dumb =>
    intro d hDd
    have hdb : d ≠ b := fun e => hd (e ▸ hDd)
    rw [hqueues d hdb]
    exact h.dumb d hDd

/-! ## The wait list (R61, R67, R68) -/

/-- A change of the wait list alone. -/
theorem State.Laws.setWait (h : s.Laws c σ E D) {w : List WaitEntry} (horder : WaitOrderly s.priorityOf w)
    (hwaiting : ∀ e ∈ w, σ e.listener = some e.bud ∧ ∀ k : LaneIx, s.laneUnit.lanes[k].served ≠ some e.listener)
    (hempty : c = .noCall → w = [])
    (hcomplete : ∀ x, ¬ E' x → (∃ e ∈ w, e.listener = x) ∨
      ¬ E x ∧ ((∃ e ∈ s.laneUnit.waitList, e.listener = x) → ∃ e ∈ w, e.listener = x)) :
    (s.setWait w).Laws c σ E' D :=
  { h with
    order := horder
    waiting := hwaiting
    empty := hempty
    complete := fun hc x hx hs => by
      rcases hcomplete x hx with hnew | ⟨he, hkeep⟩
      · exact .inr hnew
      · exact (h.complete hc x he hs).imp id hkeep }

/-- A listener's entry is removed (R61, R68). -/
theorem State.Laws.cancelWait (h : s.Laws c σ E D) (x : ListenerIx) : (s.cancelWait x).Laws c σ (fun y => E y ∨ y = x) D := by
  refine h.setWait (h.order.remove x) (fun e he => ?_) (fun hc => ?_) fun y hy => ?_
  · obtain ⟨-, a, ha, hl, hb, -⟩ := mem_removeWait he
    have hw := h.waiting a ha
    rw [hl, hb] at hw
    exact hw
  · rw [h.empty hc]
    rfl
  · refine .inr ⟨fun he => hy (.inl he), fun hw => ?_⟩
    exact waits_eq_true.1 ((waits_removeWait fun e => hy (.inr e)).trans (waits_eq_true.2 hw))

theorem State.cancelWait_gone (s : State) (x : ListenerIx) : ∀ e ∈ (s.cancelWait x).laneUnit.waitList, e.listener ≠ x :=
  fun _ he => (mem_removeWait he).1

/-- A listener that speaks and that no lane serves is placed, and so has an entry (R68). -/
theorem State.Laws.placeWaiting (h : s.Laws c σ E D) (hc : c ≠ .noCall) (hb : σ x = some b)
    (hx : ∀ k : LaneIx, s.laneUnit.lanes[k].served ≠ some x) :
    (s.placeWaiting x b).Laws c σ (fun y => E y ∧ y ≠ x) D := by
  cases hw : waits x s.laneUnit.waitList with
  | true =>
    rw [State.placeWaiting_of_waits b hw]
    refine h.settle fun y hy => ?_
    by_cases hyx : y = x
    · exact .inr (.inr (.inr (hyx ▸ waits_eq_true.1 hw)))
    · exact .inl ⟨hy, hyx⟩
  | false =>
    rw [State.placeWaiting_of_new b hw h.order]
    have hmem : ∀ e, e ∈ insertWait s.priorityOf ⟨x, b, s.laneUnit.waitList.length + 1, false⟩ s.laneUnit.waitList ↔
        e = ⟨x, b, s.laneUnit.waitList.length + 1, false⟩ ∨ e ∈ s.laneUnit.waitList := fun e =>
      (insertWait_perm _ _ _).mem_iff.trans List.mem_cons
    refine h.setWait (h.order.insert (waits_eq_false.1 hw) rfl) (fun e he => ?_) (fun hn => absurd hn hc) fun y hy => ?_
    · rcases (hmem e).1 he with rfl | he
      · exact ⟨hb, hx⟩
      · exact h.waiting e he
    · by_cases hyx : y = x
      · exact .inl ⟨_, (hmem _).2 (.inl rfl), hyx.symm⟩
      · exact .inr ⟨fun he => hy ⟨he, hyx⟩, fun ⟨e, he, hl⟩ => ⟨e, (hmem e).2 (.inr he), hl⟩⟩

/-- A change of the entries that leaves listeners, buds and request orders. -/
theorem State.Laws.markWait (h : s.Laws c σ E D) (f : WaitEntry → WaitEntry) (hl : ∀ e, (f e).listener = e.listener)
    (hb : ∀ e, (f e).bud = e.bud) (ho : ∀ e, (f e).order = e.order) : (s.setWait (s.laneUnit.waitList.map f)).Laws c σ E D := by
  refine h.setWait (h.order.map f hl ho) (fun e he => ?_) (fun hc => by rw [h.empty hc]; rfl) fun y hy => .inr ⟨hy, ?_⟩
  · obtain ⟨a, ha, rfl⟩ := List.mem_map.1 he
    rw [hl, hb]
    exact h.waiting a ha
  · rintro ⟨e, he, rfl⟩
    exact ⟨f e, List.mem_map_of_mem he, hl e⟩

theorem State.post_priorityOf (s : State) (r : Report) : (s.post r).priorityOf = s.priorityOf := by
  unfold State.priorityOf
  rw [(s.post_only r).roster]

theorem State.Laws.post (h : s.Laws c σ E D) (r : Report) : (s.post r).Laws c σ E D :=
  h.congr (by rw [State.post_laneUnit]) (by rw [State.post_laneUnit]) (by rw [(s.post_only r).intake]) (s.post_priorityOf r)

theorem State.Laws.postDenied (h : s.Laws c σ E D) (x : ListenerIx) (cause : DeniedCause) : (s.postDenied x cause).Laws c σ E D := by
  refine State.Laws.post (h.markWait _ (fun e => ?_) (fun e => ?_) fun e => ?_) _ <;> split <;> rfl

/-- A waiting listener's entry names its new speaking bud (R61). -/
theorem State.Laws.renameWait {τ : ListenerIx → Option BudIx} (h : s.Laws c σ E D)
    (hcarries : ∀ k : LaneIx, s.laneUnit.lanes[k].carries = true → s.laneUnit.lanes[k].listener ≠ some x)
    (hx : τ x = some b) (hold : (σ x).isSome = true) (hsame : ∀ y, y ≠ x → τ y = σ y)
    (hinj : ∀ (x y : ListenerIx) (b : BudIx), τ x = some b → τ y = some b → x = y) :
    (s.renameWait x b).Laws c τ E D := by
  have hname : ∀ e : WaitEntry, (if e.listener = x then { e with bud := b } else e).listener = e.listener ∧
      (if e.listener = x then { e with bud := b } else e).order = e.order ∧
      (if e.listener = x then { e with bud := b } else e).bud = if e.listener = x then b else e.bud := fun e => by
    split <;> exact ⟨rfl, rfl, rfl⟩
  exact
    { h with
      speaks := fun k y hy => by
        by_cases hyx : y = x
        · rw [hyx, hx]; rfl
        · rw [hsame y hyx]; exact h.speaks k y hy
      carry := fun k y hc hy => by
        rw [hsame y fun e => hcarries k hc (e ▸ hy)]
        exact h.carry k y hc hy
      inj := hinj
      order := h.order.map _ (fun e => (hname e).1) fun e => (hname e).2.1
      waiting := fun e he => by
        obtain ⟨a, ha, rfl⟩ := List.mem_map.1 he
        obtain ⟨hσ, hun⟩ := h.waiting a ha
        rw [(hname a).1, (hname a).2.2]
        refine ⟨?_, hun⟩
        split
        · next hax => rw [hax]; exact hx
        · next hax => rw [hsame _ hax]; exact hσ
      empty := fun hc => by
        rw [State.renameWait, State.setWait_laneUnit]
        exact congrArg (List.map _) (h.empty hc)
      complete := fun hc y hy hs => by
        have hs' : (σ y).isSome = true := by
          by_cases hyx : y = x
          · rw [hyx]; exact hold
          · rw [← hsame y hyx]; exact hs
        refine (h.complete hc y hy hs').imp id ?_
        rintro ⟨e, he, rfl⟩
        exact ⟨_, List.mem_map_of_mem he, (hname e).1⟩ }

end Sys2Proof.Machine
end

