-- ==== Sys2Proof/Proofs/NoticeLaws.lean ====
section
/-! PROOFS. The laws of the lanes through releases, requests, evictions and notices (R60 to R65, R70, R73). -/

namespace Sys2Proof.Machine

variable {σ τ : ListenerIx → Option BudIx} {E E' : ListenerIx → Prop} {D : BudIx → Prop} {s : State}
  {k : LaneIx} {x : ListenerIx} {b : BudIx}

/-! ## Releases (R70) -/

theorem State.releaseLane_priming_true (hk : s.laneUnit.lanes[k].state = .priming) (hr : s.laneUnit.lanes[k].reservedFor = none) :
    s.releaseLane k true = s.emptyLane k :=
  (State.releaseLane_of_priming true hk hr).trans (if_pos rfl)

/-- A PRIMING lane that is not left for a binding of the same act goes to the wait list's head (R73). -/
theorem State.releaseLane_priming_false (hk : s.laneUnit.lanes[k].state = .priming) (hr : s.laneUnit.lanes[k].reservedFor = none) :
    s.releaseLane k false = (s.releaseLane k true).grantHead k := by
  rw [State.releaseLane_priming_true hk hr]
  exact (State.releaseLane_of_priming false hk hr).trans (if_neg Bool.false_ne_true)

section
variable (h : s.Laws .inCall σ E D) (hcall : s.callCtl.state = .inCall) (hc : s.laneUnit.lanes[k].carries = true)
include h hcall hc

theorem State.Laws.releaseLane :
    (s.releaseLane k true).Laws .inCall σ (fun y => E y ∨ s.laneUnit.lanes[k].served = some y) D := by
  obtain ⟨-, -, -, -, -, -, hr⟩ := h.carrying hc
  rcases (Lane.carries_iff _).1 hc with hk | hk
  · rw [State.releaseLane_priming_true hk hr]
    exact h.emptyLane k
  · rw [State.releaseLane_of_mixing true hcall hk]
    exact h.drain hk

/-- A lane released for a binding of the same act is DRAINING or VACANT, and serves nobody (R70, R73). -/
theorem State.Laws.releaseLane_lane :
    ((s.releaseLane k true).laneUnit.lanes[k].state = .draining ∨ (s.releaseLane k true).laneUnit.lanes[k].state = .vacant) ∧
      (s.releaseLane k true).laneUnit.lanes[k].reservedFor = none ∧ (s.releaseLane k true).laneUnit.lanes[k].served = none ∧
      (s.releaseLane k true).laneUnit.waitList = s.laneUnit.waitList := by
  obtain ⟨-, -, -, -, -, -, hr⟩ := h.carrying hc
  have hwait : ∀ l, ((s.unbindBud k).setLane k l).laneUnit.waitList = s.laneUnit.waitList := fun l =>
    show (s.unbindBud k).laneUnit.waitList = s.laneUnit.waitList by rw [State.unbindBud_laneUnit]
  rcases (Lane.carries_iff _).1 hc with hk | hk
  · rw [State.releaseLane_priming_true hk hr, State.emptyLane, setLane_getElem, if_pos rfl]
    exact ⟨.inr rfl, rfl, rfl, hwait _⟩
  · rw [State.releaseLane_of_mixing true hcall hk, setLane_getElem, if_pos rfl]
    exact ⟨.inl rfl, hr, hr, hwait _⟩

/-- After a lane is released its listener, and every listener that no lane served, is served by no lane. -/
theorem State.Laws.releaseLane_unserved (hx : ∀ j : LaneIx, j ≠ k → s.laneUnit.lanes[j].served ≠ some x) (j : LaneIx) :
    (s.releaseLane k true).laneUnit.lanes[j].served ≠ some x := by
  obtain ⟨-, -, hserved, -⟩ := h.releaseLane_lane hcall hc
  by_cases hj : j = k
  · subst hj
    rw [hserved]
    exact nofun
  · rw [State.releaseLane_other (Ne.symm hj) true]
    exact hx j hj

end

/-! ## Requests and evictions (R63, R65) -/

theorem State.placeWaiting_listeners (s : State) (x : ListenerIx) (b : BudIx) :
    ∀ e ∈ (s.placeWaiting x b).laneUnit.waitList, e.listener = x ∨ ∃ a ∈ s.laneUnit.waitList, a.listener = e.listener := by
  intro e he
  unfold State.placeWaiting at he
  dsimp only at he
  split at he
  · exact .inr ⟨e, he, rfl⟩
  · rcases List.mem_cons.1 ((insertWait_perm _ _ _).mem_iff.1 he) with rfl | he
    · exact .inl rfl
    · exact .inr ⟨e, he, rfl⟩

theorem State.postDenied_listeners (s : State) (x : ListenerIx) (cause : DeniedCause) :
    ∀ e ∈ (s.postDenied x cause).laneUnit.waitList, ∃ a ∈ s.laneUnit.waitList, a.listener = e.listener := by
  intro e he
  rw [State.postDenied_laneUnit] at he
  obtain ⟨a, ha, rfl⟩ := List.mem_map.1 he
  refine ⟨a, ha, ?_⟩
  split <;> rfl

section
variable (h : s.Laws .inCall σ E D) (hcall : s.callCtl.state = .inCall) (hσ : ∀ y : ListenerIx, s.laneUnit.speaking[y] = σ y)
  (hb : σ x = some b) (hx : ∀ j : LaneIx, s.laneUnit.lanes[j].served ≠ some x)
include h hcall hσ hb hx

/-- An eviction serves its requester, and its victim waits (R65). -/
theorem State.Laws.evictLane (hw : ∀ e ∈ s.laneUnit.waitList, e.listener ≠ x) (hc : s.laneUnit.lanes[k].carries = true) :
    (s.evictLane k x b).Laws .inCall σ (fun y => E y ∧ y ≠ x) D := by
  obtain ⟨v, w, hlistener, hserved, -, hv, -⟩ := h.carrying hc
  have hvx : v ≠ x := fun e => hx k (e ▸ hserved)
  have hpoint : (s.pointPast k).Laws .inCall σ E D := h.congr rfl rfl rfl rfl
  have hrelease := hpoint.releaseLane hcall hc
  obtain ⟨hstate, hfree, -, hwait⟩ := hpoint.releaseLane_lane hcall hc
  have hothers : ∀ j : LaneIx, j ≠ k → s.laneUnit.lanes[j].served ≠ some v := fun j hj hs => hj (h.one j k v hs hserved)
  have hspeaking : ((s.pointPast k).releaseLane k true).laneUnit.speaking[v] = some w := by
    rw [((s.pointPast k).releaseLane_only k true).speaking]
    exact (hσ v).trans hv
  have hplaced := (hrelease.placeWaiting (c := .inCall) nofun hv (hpoint.releaseLane_unserved hcall hc hothers)).postDenied v .preempted
  rw [← State.placeVictim_of_some hspeaking] at hplaced
  rw [State.evictLane_eq, hlistener]
  dsimp only
  have hlanes := State.placeVictim_lanes ((s.pointPast k).releaseLane k true) (some v)
  have hentries : ∀ e ∈ (((s.pointPast k).releaseLane k true).placeVictim (some v)).laneUnit.waitList, e.listener ≠ x := by
    rw [State.placeVictim_of_some hspeaking]
    intro e he hex
    obtain ⟨a, ha, hae⟩ := State.postDenied_listeners _ _ _ e he
    rcases State.placeWaiting_listeners _ _ _ a ha with hav | ⟨d, hd, hda⟩
    · exact hvx (hav.symm.trans (hae.trans hex))
    · exact hw d (hwait ▸ hd) (hda.trans (hae.trans hex))
  have hunserved : ∀ j : LaneIx, (((s.pointPast k).releaseLane k true).placeVictim (some v)).laneUnit.lanes[j].served ≠ some x := fun j => by
    rw [hlanes]
    exact hpoint.releaseLane_unserved hcall hc (fun i _ => hx i) j
  have hlaws : (((s.pointPast k).releaseLane k true).placeVictim (some v)).Laws .inCall σ E D :=
    hplaced.mono fun y ⟨hy, hyv⟩ => hy.resolve_right fun hs => hyv (Option.some.inj (hs.symm.trans hserved))
  rw [← hlanes] at hstate hfree
  split
  · next hd => exact hlaws.reserve hd hfree (by rw [hb]; rfl) hunserved hentries
  · next hd => exact hlaws.bindLane (hstate.resolve_left hd) hb hunserved

/-- A request serves its listener, or leaves it waiting (R63). -/
theorem State.Laws.requestLane (hw : ∀ e ∈ s.laneUnit.waitList, e.listener ≠ x) :
    (s.requestLane x b).Laws .inCall σ (fun y => E y ∧ y ≠ x) D := by
  have hhit : ¬ s.laneHit x b := fun ⟨j, hj, hl, _⟩ => hx j ((Lane.served_of_carries hj).trans hl)
  cases hv : s.laneUnit.vacantLane with
  | some j =>
    rw [State.requestLane_of_vacant hhit hv]
    exact h.bindLane (LaneUnit.vacantLane_eq_some.1 hv).1.1 hb hx
  | none =>
    cases ho : s.laneUnit.ownDrain x with
    | some j =>
      obtain ⟨⟨hd, -, hr⟩, -⟩ := LaneUnit.ownDrain_eq_some.1 ho
      rw [State.requestLane_of_own hhit hv ho]
      exact h.reserve hd hr (by rw [hb]; rfl) hx hw
    | none =>
      cases hp : s.victim (s.priorityOf x) with
      | some j =>
        rw [State.requestLane_of_victim hhit hv ho hp]
        exact h.evictLane hcall hσ hb hx hw (State.evictable_iff.1 (State.victim_some hp)).1
      | none =>
        rw [State.requestLane_of_none hhit hv ho hp]
        exact (h.placeWaiting nofun hb hx).postDenied x .noLane

end

/-! ## What a change of speaking bud does (R61, R62, R73) -/

section
variable (hsame : ∀ y, y ≠ x → τ y = σ y)
  (hinj : ∀ (x y : ListenerIx) (b : BudIx), τ x = some b → τ y = some b → x = y)
include hsame hinj

/-- A listener that falls silent in IN CALL holds nothing (R61, R65, R70). -/
theorem State.Laws.fallSilent (h : s.Laws .inCall σ (fun _ => False) D) (hcall : s.callCtl.state = .inCall) (hnone : τ x = none) :
    (s.fallSilent x).Laws .inCall τ (fun _ => False) D := by
  have hquiet : ((s.cancelWait x).cancelReservation x).Laws .inCall σ (fun y => y = x) D :=
    ((h.cancelWait x).cancelReservation x).mono fun y hy => by simpa using hy
  have hgone : ∀ e ∈ ((s.cancelWait x).cancelReservation x).laneUnit.waitList, e.listener ≠ x := by
    rw [State.cancelReservation_eq]
    exact s.cancelWait_gone x
  have hunreserved : ∀ j : LaneIx, ((s.cancelWait x).cancelReservation x).laneUnit.lanes[j].reservedFor ≠ some x := by
    rw [State.cancelReservation_eq]
    intro j
    dsimp only
    rw [getElem_map_lanes]
    exact Lane.without_reservedFor x _
  have hcall' : ((s.cancelWait x).cancelReservation x).callCtl.state = .inCall := by
    rw [State.cancelReservation_eq]
    exact hcall
  have hsettle : ∀ t : State, t.Laws .inCall τ (fun y => y = x) D → t.Laws .inCall τ (fun _ => False) D := fun t ht =>
    ht.settle fun y hy => .inr (.inl (hy ▸ hnone))
  unfold State.fallSilent
  dsimp only
  generalize (s.cancelWait x).cancelReservation x = t at hquiet hgone hunreserved hcall'
  cases hl : t.laneUnit.laneOf x with
  | none =>
    have hunserved : ∀ j : LaneIx, t.laneUnit.lanes[j].served ≠ some x := fun j hj => by
      rcases ((hquiet.fields j).served_eq).1 hj with ⟨hc, hlx⟩ | hr
      · exact LaneUnit.laneOf_eq_none.1 hl j hc hlx
      · exact hunreserved j hr
    exact hsettle _ (hquiet.resay rfl hunserved hgone hsame hinj)
  | some k =>
    obtain ⟨hc, hlx⟩ := LaneUnit.laneOf_some hl
    obtain ⟨-, -, -, -, -, -, hr⟩ := hquiet.carrying hc
    have hserved := (Lane.served_of_carries hc).trans hlx
    obtain ⟨hstate, -, -, hwait⟩ := hquiet.releaseLane_lane hcall' hc
    have hunserved := hquiet.releaseLane_unserved hcall' hc (x := x) fun j hj hs => hj (hquiet.one j k x hs hserved)
    have hreleased : (t.releaseLane k true).Laws .inCall σ (fun y => y = x) D := (hquiet.releaseLane hcall' hc).mono fun y hy =>
      hy.elim id fun hs => Option.some.inj (hs.symm.trans hserved)
    have hdone := hsettle _ (hreleased.resay rfl hunserved (hwait ▸ hgone) hsame hinj)
    dsimp only
    rcases (Lane.carries_iff _).1 hc with hk | hk
    · rw [State.releaseLane_priming_false hk hr]
      refine hdone.grantHead ?_
      rw [State.releaseLane_priming_true hk hr, State.emptyLane, setLane_getElem, if_pos rfl]
      rfl
    · have hkeep : t.releaseLane k false = t.releaseLane k true :=
        (State.releaseLane_of_mixing false hcall' hk).trans (State.releaseLane_of_mixing true hcall' hk).symm
      rw [hkeep]
      exact hdone

/-- A listener whose speaking bud changes to another in IN CALL stays served, or waits (R61, R73). -/
theorem State.Laws.changeSpeaker (h : s.Laws .inCall σ (fun _ => False) D) (hcall : s.callCtl.state = .inCall)
    (hτ : ∀ y : ListenerIx, s.laneUnit.speaking[y] = τ y) (hold : (σ x).isSome = true) (hb : τ x = some b) :
    (s.changeSpeaker x b).Laws .inCall τ (fun _ => False) D := by
  cases hl : s.laneUnit.laneOf x with
  | none =>
    have hcarries := LaneUnit.laneOf_eq_none.1 hl
    rw [State.changeSpeaker_of_laneless b hcarries]
    exact h.renameWait hcarries hb hold hsame hinj
  | some k =>
    obtain ⟨hc, hlx⟩ := LaneUnit.laneOf_some hl
    have hserved := (Lane.served_of_carries hc).trans hlx
    obtain ⟨hstate, -, -, hwait⟩ := h.releaseLane_lane hcall hc
    have hunserved := h.releaseLane_unserved hcall hc (x := x) fun j hj hs => hj (h.one j k x hs hserved)
    have hnotWaiting : ∀ e ∈ (s.releaseLane k true).laneUnit.waitList, e.listener ≠ x := by
      rw [hwait]
      intro e he hex
      exact (h.waiting e he).2 k (hex ▸ hserved)
    have hreleased : (s.releaseLane k true).Laws .inCall σ (fun y => y = x) D := (h.releaseLane hcall hc).mono fun y hy =>
      hy.elim False.elim fun hs => Option.some.inj (hs.symm.trans hserved)
    have honly := s.releaseLane_only k true
    have hasked : ((s.releaseLane k true).requestLane x b).Laws .inCall τ (fun _ => False) D :=
      ((hreleased.resay rfl hunserved hnotWaiting hsame hinj).requestLane
        ((congrArg CallCtl.state honly.only.callCtl).trans hcall) (fun y => by rw [honly.speaking]; exact hτ y) hb hunserved
        hnotWaiting).mono fun y hy => hy.2 hy.1
    unfold State.changeSpeaker
    rw [hl]
    dsimp only
    split
    · next hv => exact hasked.grantHead hv
    · exact hasked

end

/-! ## Notices (R11, R61) -/

/-- The laws hold for the recorded speaking buds, and every listener that speaks is served or waits. -/
def State.Lawful (D : BudIx → Prop) (s : State) : Prop :=
  s.Laws s.callCtl.state (fun x => s.laneUnit.speaking[x]) (fun _ => False) D

/-- The Lane Unit's act on a change of a listener's speaking bud, in every call state (R61, R62). -/
theorem State.Laws.actOnSpeaking (h : s.Laws s.callCtl.state σ (fun _ => False) D) (hτ : ∀ y : ListenerIx, s.laneUnit.speaking[y] = τ y)
    (hsame : ∀ y, y ≠ x → τ y = σ y) (hinj : ∀ (x y : ListenerIx) (b : BudIx), τ x = some b → τ y = some b → x = y) :
    (s.actOnSpeaking x (σ x) (τ x)).Laws s.callCtl.state τ (fun _ => False) D := by
  have hmono : s.Laws s.callCtl.state σ (fun y => y = x) D := h.mono fun _ => False.elim
  have hsilent : ∀ t : State, ∀ c, τ x = none → t.Laws c τ (fun y => y = x) D → t.Laws c τ (fun _ => False) D :=
    fun t c hnone ht => ht.settle fun y hy => .inr (.inl (hy ▸ hnone))
  have hvacant : s.callCtl.state ≠ .inCall → ∀ j : LaneIx, s.laneUnit.lanes[j].served ≠ some x := fun hc j => by
    rw [(h.fields j).served_of_vacant (h.idle hc j)]
    exact nofun
  have hmute : σ x = none → (∀ j : LaneIx, s.laneUnit.lanes[j].served ≠ some x) ∧ ∀ e ∈ s.laneUnit.waitList, e.listener ≠ x :=
    fun hnone => ⟨fun j hj => by
      have hs := h.speaks j x hj
      rw [hnone] at hs
      exact absurd hs nofun, fun e he hex => by
      have hs := (h.waiting e he).1
      rw [hex, hnone] at hs
      exact absurd hs nofun⟩
  unfold State.actOnSpeaking
  cases hc : s.callCtl.state with
  | noCall =>
    rw [hc] at hmono hvacant h
    have hsaid := hmono.resay (τ := τ) rfl (hvacant nofun) (by rw [h.empty rfl]; exact nofun) hsame hinj
    exact { hsaid with complete := fun hn => absurd rfl hn }
  | holding m =>
    rw [hc] at hmono hvacant h
    have hfree := hvacant nofun
    cases hnew : τ x with
    | none =>
      exact hsilent _ _ hnew (((h.cancelWait x).mono fun y hy => hy.elim False.elim id).resay (τ := τ) rfl hfree
        (s.cancelWait_gone x) hsame hinj)
    | some b =>
      cases hold : σ x with
      | none =>
        obtain ⟨-, hnot⟩ := hmute hold
        exact ((hmono.resay (τ := τ) rfl hfree hnot hsame hinj).placeWaiting nofun hnew hfree).mono fun y hy => hy.2 hy.1
      | some a =>
        refine h.renameWait (fun j hj => ?_) hnew (by rw [hold]; rfl) hsame hinj
        rw [Lane.carries_of_state (.inr (h.idle nofun j))] at hj
        exact absurd hj nofun
  | inCall =>
    rw [hc] at hmono h
    cases hnew : τ x with
    | none => exact h.fallSilent hsame hinj hc hnew
    | some b =>
      cases hold : σ x with
      | none =>
        obtain ⟨hfree, hnot⟩ := hmute hold
        exact ((hmono.resay (τ := τ) rfl hfree hnot hsame hinj).requestLane hc hτ hnew hfree hnot).mono fun y hy => hy.2 hy.1
      | some a => exact h.changeSpeaker hsame hinj hc hτ (by rw [hold]; rfl) hnew

/-- A notice keeps the laws, unless it would give a listener another listener's speaking bud (R61). -/
theorem State.Lawful.notice (h : s.Lawful D) (x : ListenerIx)
    (hnew : ∀ (y : ListenerIx) (b : BudIx), y ≠ x → s.roster.speakingBud x = some b → s.laneUnit.speaking[y] ≠ some b) :
    (s.notice x).Lawful D := by
  by_cases hsame : s.laneUnit.speaking[x] = s.roster.speakingBud x
  · rw [State.notice_of_same hsame]
    exact h
  · have hspeaking := s.notice_speaking x
    have hcall : (s.notice x).callCtl.state = s.callCtl.state := congrArg CallCtl.state (s.notice_only x).callCtl
    unfold State.Lawful
    rw [hcall, hspeaking, State.notice_of_change hsame]
    have hτ : ∀ y : ListenerIx, (s.laneUnit.speaking.set x (s.roster.speakingBud x))[y] =
        if x = y then s.roster.speakingBud x else s.laneUnit.speaking[y] := fun y => getElem_set_fin ..
    have hact := State.Laws.actOnSpeaking (s := s.recordSpeaking x (s.roster.speakingBud x)) (x := x)
      (τ := fun y => (s.laneUnit.speaking.set x (s.roster.speakingBud x))[y])
      (h.congr rfl rfl rfl rfl) (fun _ => rfl) (fun y hy => by rw [hτ, if_neg (Ne.symm hy)]) fun y z b hy hz => by
        rw [hτ] at hy hz
        split at hy <;> split at hz
        · next hxy hxz => exact hxy.symm.trans hxz
        · next hxy hxz => exact absurd hz (hnew z b (Ne.symm hxz) hy)
        · next hxy hxz => exact absurd hy (hnew y b (Ne.symm hxy) hz)
        · exact h.inj y z b hy hz
    have hnow : (s.laneUnit.speaking.set x (s.roster.speakingBud x))[x] = s.roster.speakingBud x := by rw [hτ, if_pos rfl]
    rw [hnow] at hact
    exact hact

end Sys2Proof.Machine
end

