-- ==== Sys2Proof/Proofs/CadenceLaws.lean ====
section
/-! PROOFS. The laws of the lanes against those of the statement, at a cadence, and at a change of call state (R72 to R79). -/

namespace Sys2Proof.Machine

variable {c c' : CallState} {σ : ListenerIx → Option BudIx} {E E' : ListenerIx → Prop} {D : BudIx → Prop} {s t : State}
  {k : LaneIx} {x : ListenerIx} {b : BudIx}

/-! ## The laws of the statement -/

/-- A speaking bud is a member that speaks (R60). -/
theorem Roster.speakingBud_spec {r : Roster} (h : r.speakingBud x = some b) :
    b ∈ r.listeners[x].members ∧ r.buds[b].speaks = true ∧ r.listeners[x].inUse = true ∧ r.listeners[x].mute = false := by
  by_cases hbarred : r.listeners[x].inUse = false ∨ r.listeners[x].mute = true
  · rw [Roster.speakingBud_of_barred hbarred] at h
    exact absurd h nofun
  · obtain ⟨hu, hm⟩ := not_or.1 hbarred
    rw [Bool.not_eq_false] at hu
    rw [Bool.not_eq_true] at hm
    suffices hspeaks : b ∈ r.listeners[x].members ∧ r.buds[b].speaks = true from ⟨hspeaks.1, hspeaks.2, hu, hm⟩
    by_cases hp : ∃ p, r.listeners[x].primary = some p ∧ p ∈ r.listeners[x].members
    · obtain ⟨p, hp, hin⟩ := hp
      rw [Roster.speakingBud_of_primary hu hm hp hin] at h
      split at h
      · next hs => exact Option.some.inj h ▸ ⟨hin, hs⟩
      · exact ⟨(List.mem_filter.1 (List.mem_of_find?_eq_some h)).1, List.find?_some (p := fun b : BudIx => r.buds[b].speaks) h⟩
    · rw [Roster.speakingBud_of_stale hu hm fun p hq hin => hp ⟨p, hq, hin⟩] at h
      exact ⟨List.mem_of_find?_eq_some h, List.find?_some (p := fun b : BudIx => r.buds[b].speaks) h⟩

theorem Bud.supervised_of_speaks {r : Bud} (h : r.speaks = true) : r.link.supervised = true := by
  rcases ((Bud.speaks_iff r).1 h).2 with hl | hl <;> rw [hl] <;> rfl

/-- The buds whose queues are empty: those that are FREE, OFFERED or PARKED (R53). -/
def State.Dumb (s : State) (b : BudIx) : Prop := s.roster.buds[b].link.supervised = false

/-- The speaking buds that the tables give are distinct (R14, R60). -/
theorem State.PartySound.speakingBud_inj (h : s.PartySound) {x y : ListenerIx} (hx : s.roster.speakingBud x = some b)
    (hy : s.roster.speakingBud y = some b) : x = y := by
  have hbx := (h.membership.1 b x).1 (Roster.speakingBud_spec hx).1
  have hby := (h.membership.1 b y).1 (Roster.speakingBud_spec hy).1
  exact Option.some.inj (hbx.symm.trans hby)

theorem State.LanesSound.lawful (h : s.LanesSound) : s.Lawful s.Dumb := by
  obtain ⟨hlisteners, hwait, horders, hrange, hsorted, hempty, hall⟩ := h.waitList
  obtain ⟨hnodup, hunbound, hbound, hdumb⟩ := h.queues
  have hcarried : ∀ (k : LaneIx) (b : BudIx), s.laneUnit.lanes[k].carries = true → s.laneUnit.lanes[k].bud = some b →
      s.laneUnit.boundLane b = some k := fun k b hc hb =>
    LaneUnit.boundLane_eq_some.2 ⟨⟨hc, hb⟩, fun j hj ⟨hcj, hbj⟩ => (h.exclusive.1 j k hj.ne hcj hc).2 (hbj.trans hb.symm)⟩
  exact
    { range := h.ranges
      fields := h.fields
      one := fun _ _ _ => h.served_inj
      speaks := fun _ _ => h.speaking_of_served
      carry := fun k x hc hx => (h.carry k hc x hx).symm
      inj := fun x y b hx hy => h.party.speakingBud_inj (h.speaking x ▸ hx) (h.speaking y ▸ hy)
      idle := h.exclusive.2.2
      order := ⟨hlisteners, horders, hrange, hsorted⟩
      waiting := fun e he => ⟨(hwait e he).1, fun k hk => by
        have hserved := (LaneUnit.served_iff h.fields).2 ⟨k, hk⟩
        rw [(hwait e he).2] at hserved
        exact absurd hserved nofun⟩
      empty := hempty
      complete := fun hc x _ hs => (hall hc x hs).imp (LaneUnit.served_iff h.fields).1 waits_eq_true.1
      nodup := hnodup
      unbound := fun b hb => hunbound b (LaneUnit.boundLane_eq_none.2 fun k hk => hb k hk.1 hk.2)
      bound := fun k b hc hb => hbound b k (hcarried k b hc hb)
      dumb := hdumb }

theorem State.Lawful.lanesSound (h : s.Lawful s.Dumb) (hparty : s.PartySound) (hspeaking : s.SpeakingCurrent) : s.LanesSound where
  party := hparty
  speaking := hspeaking
  ranges := h.range
  fields := h.fields
  exclusive := by
    refine ⟨fun j k hne hj hk => ?_, fun j k hne hj hsame => ?_, h.idle⟩
    · refine ⟨fun hl => hne ?_, fun hb => hne ?_⟩
      · obtain ⟨x, -, hx, hserved, -⟩ := h.carrying hj
        exact h.one j k x hserved ((Lane.served_of_carries hk).trans (hl ▸ hx))
      · obtain ⟨-, b, -, -, hbj, -⟩ := h.carrying hj
        exact h.bud_inj hj hk hbj (hb ▸ hbj)
    · obtain ⟨x, hx⟩ := Option.isSome_iff_exists.1 hj
      exact hne (h.one j k x (((h.fields j).served_eq).2 (.inr hx)) (((h.fields k).served_eq).2 (.inr (hsame ▸ hx))))
  reservations := by
    intro k x hx
    have hserved := ((h.fields k).served_eq).2 (.inr hx)
    refine ⟨h.speaks k x hserved, fun j hj hl => ?_⟩
    obtain rfl := h.one j k x ((Lane.served_of_carries hj).trans hl) hserved
    obtain ⟨-, -, hnone, -⟩ := (Lane.fieldsSound_of_carries hj).1 (h.fields j)
    exact absurd (hnone.symm.trans hx) nofun
  carry := fun k hc x hx => (h.carry k x hc hx).symm
  waitList := by
    refine ⟨h.order.listeners, fun e he => ⟨(h.waiting e he).1, Bool.eq_false_iff.2 fun hs => ?_⟩, h.order.orders, h.order.range,
      h.order.sorted, h.empty, fun hc x hs =>
        (h.complete hc x id hs).imp (LaneUnit.served_iff h.fields).2 waits_eq_true.2⟩
    obtain ⟨k, hk⟩ := (LaneUnit.served_iff h.fields).1 hs
    exact (h.waiting e he).2 k hk
  queues := by
    refine ⟨h.nodup, fun b hb => h.unbound b fun k hc hk => LaneUnit.boundLane_eq_none.1 hb k ⟨hc, hk⟩, fun b k hk => ?_, h.dumb⟩
    obtain ⟨⟨hc, hb⟩, -⟩ := LaneUnit.boundLane_eq_some.1 hk
    exact h.bound k b hc hb

/-- A change that the lane laws do not see. -/
theorem State.Lawful.congr (h : s.Lawful D) (hlanes : t.laneUnit.lanes = s.laneUnit.lanes)
    (hwait : t.laneUnit.waitList = s.laneUnit.waitList) (hspeaking : t.laneUnit.speaking = s.laneUnit.speaking)
    (hqueues : t.intake.queues = s.intake.queues) (hp : t.priorityOf = s.priorityOf)
    (hcall : t.callCtl.state = s.callCtl.state) : t.Lawful D := by
  unfold State.Lawful
  rw [hspeaking, hcall]
  exact State.Laws.congr h hlanes hwait hqueues hp

/-- A change that leaves the Roster, the context, the call state, the settings and the recorded speaking buds. -/
structure State.SameParty (s t : State) : Prop where
  roster : t.roster = s.roster
  context : t.pairing.context = s.pairing.context
  call : t.callCtl.state = s.callCtl.state
  settings : t.directives.settings = s.directives.settings
  speaking : t.laneUnit.speaking = s.laneUnit.speaking

theorem State.SameParty.refl (s : State) : s.SameParty s := ⟨rfl, rfl, rfl, rfl, rfl⟩

theorem State.SameParty.trans {u : State} (h : s.SameParty t) (k : t.SameParty u) : s.SameParty u :=
  ⟨k.1.trans h.1, k.2.trans h.2, k.3.trans h.3, k.4.trans h.4, k.5.trans h.5⟩

theorem State.OnlyBindings.sameParty (h : s.OnlyBindings t) : s.SameParty t :=
  ⟨h.only.roster, congrArg Pairing.context h.only.pairing, congrArg CallCtl.state h.only.callCtl, h.only.tables.settings, h.speaking⟩

/-! ## Lanes at a cadence (R71, R72, R94) -/

/-- What a cadence's shares suppose: a speaking bud's queue may fill, and the target depth is not 0. -/
structure State.Tracks (D : BudIx → Prop) (s : State) : Prop where
  speaking : ∀ (x : ListenerIx) (b : BudIx), s.laneUnit.speaking[x] = some b → ¬ D b
  target : 0 < s.directives.settings.targetDepth

theorem State.Lawful.inCall (h : s.Lawful D) (hk : s.laneUnit.lanes[k].state ≠ .vacant) : s.callCtl.state = .inCall :=
  by_contra fun hc => hk (h.idle hc k)

theorem State.Lawful.pulled (h : s.Lawful D) (ht : s.Tracks D) (hc : s.laneUnit.lanes[k].carries = true)
    (hb : s.laneUnit.lanes[k].bud = some b) {r : Feed × List Int} (hr : r.1.Sound) (hbud : r.1.lane.bud = some b)
    (hlistener : r.1.lane.listener = s.laneUnit.lanes[k].listener) : (s.pulled k b r).Lawful D := by
  obtain ⟨x, b', -, -, hb', hσ, -⟩ := h.carrying hc
  obtain rfl := Option.some.inj (hb.symm.trans hb')
  have hfed : (s.setFeed k b r.1).Lawful D := State.Laws.setFeed h hc hb hr hbud hlistener (ht.speaking x b hσ)
  exact hfed.congr rfl rfl rfl rfl rfl rfl

theorem State.Lawful.pullLane (h : s.Lawful D) (ht : s.Tracks D) (hk : s.laneUnit.lanes[k].state = .mixing) : (s.pullLane k).Lawful D := by
  have hc := State.carries_of_mixing hk
  obtain ⟨-, b, -, -, hb, -⟩ := h.carrying hc
  obtain ⟨-, hbud, hlistener, -⟩ := Feed.pullMixing_fields (s.feed k b) s.directives.settings.targetDepth
  rw [State.pullLane_of_bud hb]
  exact h.pulled ht hc hb (((State.Laws.feed h hc hb).pulled hk).pullMixing _) (hbud.trans hb) hlistener

theorem State.Lawful.examineLane (h : s.Lawful D) (ht : s.Tracks D) (hk : s.laneUnit.lanes[k].state = .priming) :
    (s.examineLane k).Lawful D := by
  have hc := State.carries_of_priming hk
  obtain ⟨-, b, -, -, hb, -⟩ := h.carrying hc
  rw [State.examineLane_of_bud hb]
  split
  · exact h
  · next hdeep =>
    obtain ⟨-, hbud, hlistener, -⟩ := Feed.pullMixing_fields (s.feed k b).promote s.directives.settings.targetDepth
    have hdepth : 0 < (s.feed k b).depth := ht.target.trans_le (not_lt.1 hdeep)
    exact h.pulled ht hc hb (((State.Laws.feed h hc hb).promote hdepth).pullMixing _) (hbud.trans hb) hlistener

theorem State.unbindBud_of_none (h : s.laneUnit.lanes[k].bud = none) : s.unbindBud k = s := by
  simp only [State.unbindBud, h]

/-- A DRAINING lane's last pull (R94), and what it is granted to (R65, R73). -/
theorem State.Lawful.drainLane (h : s.Lawful D) (hk : s.laneUnit.lanes[k].state = .draining) : (s.drainLane k).Lawful D := by
  have hcall := h.inCall (k := k) (by rw [hk]; exact nofun)
  have hlaws : s.Laws .inCall (fun x => s.laneUnit.speaking[x]) (fun _ => False) D := hcall ▸ h
  have hbud : s.laneUnit.lanes[k].bud = none := by
    obtain ⟨-, hbud, -⟩ := h.fields k
    rw [Lane.carries_of_state (.inl hk)] at hbud
    exact Option.not_isSome_iff_eq_none.1 (Bool.eq_false_iff.1 hbud)
  have hserved : s.laneUnit.lanes[k].served = s.laneUnit.lanes[k].reservedFor := Lane.served_reserved hk
  have hunlaned := hlaws.unlane (k := k) (Lane.cleared_inRange s.laneUnit.lanes[k].lastPull.1.lane) (Lane.cleared_fieldsSound _) rfl rfl
    fun _ => rfl
  rw [State.unbindBud_of_none hbud, hserved] at hunlaned
  have hdrained : (s.drained k).Laws .inCall (fun x => s.laneUnit.speaking[x])
      (fun y => False ∨ s.laneUnit.lanes[k].reservedFor = some y) D := hunlaned.congr rfl rfl rfl rfl
  have hlane : ∀ j : LaneIx, (s.drained k).laneUnit.lanes[j] =
      if k = j then s.laneUnit.lanes[k].lastPull.1.lane.cleared else s.laneUnit.lanes[j] := fun j => getElem_set_fin ..
  have hvacant : (s.drained k).laneUnit.lanes[k].state = .vacant := by rw [hlane, if_pos rfl]; rfl
  have hcalled : ∀ t : State, (s.drained k).OnlyBindings t →
      t.Laws .inCall (fun x => s.laneUnit.speaking[x]) (fun _ => False) D → t.Lawful D := fun t ho hl => by
    unfold State.Lawful
    rw [ho.speaking, ho.only.callCtl]
    exact hcall ▸ hl
  rw [State.drainLane_eq hcall k]
  cases hr : s.laneUnit.lanes[k].reservedFor with
  | none =>
    rw [hr] at hdrained
    have hdone : (s.drained k).Laws .inCall (fun x => s.laneUnit.speaking[x]) (fun _ => False) D :=
      hdrained.mono fun y hy => hy.elim id nofun
    rw [Option.bind_none]
    dsimp only
    rw [← State.grantHead_grantedTo (s := s.drained k) hcall]
    exact hcalled _ (State.grantHead_only _ k) (hdone.grantHead hvacant)
  | some y =>
    obtain ⟨b, hb⟩ := Option.isSome_iff_exists.1 (h.speaks k y (hserved.trans hr))
    rw [hr] at hdrained
    rw [Option.bind_some, hb, Option.map_some]
    refine hcalled _ (State.bindLane_only _ k b y) ((hdrained.bindLane hvacant hb fun j hj => ?_).mono fun z hz =>
      hz.2 (hz.1.elim False.elim fun e => (Option.some.inj e).symm))
    rw [hlane] at hj
    split at hj
    · exact absurd hj nofun
    · next hkj => exact hkj (h.one k j y (hserved.trans hr) hj)

/-- A lane's share at a cadence, by the state that it has (R72). -/
theorem State.Lawful.laneAtCadence (h : s.Lawful D) (ht : s.Tracks D) (k : LaneIx) :
    (s.laneAtCadence k s.laneUnit.lanes[k].state).Lawful D := by
  cases hk : s.laneUnit.lanes[k].state with
  | vacant => exact h
  | priming => exact h.examineLane ht hk
  | mixing => exact h.pullLane ht hk
  | draining => exact h.drainLane hk

theorem State.drainLane_other {j : LaneIx} (hne : k ≠ j) : (s.drainLane k).laneUnit.lanes[j] = s.laneUnit.lanes[j] := by
  have hcontribute : ∀ (u : State) (y : List Int), (u.contribute k y).laneUnit.lanes[j] = u.laneUnit.lanes[j] := fun u y => by
    rw [State.contribute_eq]
  unfold State.drainLane
  exact (State.vacateLane_other hne false).trans ((hcontribute _ _).trans (State.setLane_other hne _))

theorem State.pullWith_other {j : LaneIx} (hne : k ≠ j) (b : BudIx) (pull : Feed → Feed × List Int) :
    (s.pullWith k b pull).laneUnit.lanes[j] = s.laneUnit.lanes[j] := by
  unfold State.pullWith
  dsimp only
  rw [State.contribute_eq]
  exact State.setLane_other hne _

/-- A lane's share leaves the other lanes (R72). -/
theorem State.laneAtCadence_other {j : LaneIx} (hne : k ≠ j) (before : LaneState) :
    (s.laneAtCadence k before).laneUnit.lanes[j] = s.laneUnit.lanes[j] := by
  cases before with
  | vacant => rfl
  | mixing =>
    change (s.pullLane k).laneUnit.lanes[j] = _
    unfold State.pullLane
    split
    · exact State.pullWith_other hne _ _
    · rfl
  | priming =>
    change (s.examineLane k).laneUnit.lanes[j] = _
    unfold State.examineLane
    split
    · split
      · exact State.pullWith_other hne _ _
      · rfl
    · rfl
  | draining => exact State.drainLane_other hne

theorem State.pullWith_sameParty (s : State) (k : LaneIx) (b : BudIx) (pull : Feed → Feed × List Int) :
    s.SameParty (s.pullWith k b pull) := by
  unfold State.pullWith
  dsimp only
  rw [State.contribute_eq]
  exact ⟨rfl, rfl, rfl, rfl, rfl⟩

/-- A lane's share leaves the Roster, the context, the call state and the recorded speaking buds (R72). -/
theorem State.laneAtCadence_sameParty (s : State) (k : LaneIx) (before : LaneState) : s.SameParty (s.laneAtCadence k before) := by
  cases before with
  | vacant => exact .refl s
  | mixing =>
    change s.SameParty (s.pullLane k)
    unfold State.pullLane
    split
    · exact s.pullWith_sameParty k _ _
    · exact .refl s
  | priming =>
    change s.SameParty (s.examineLane k)
    unfold State.examineLane
    split
    · split
      · exact s.pullWith_sameParty k _ _
      · exact .refl s
    · exact .refl s
  | draining =>
    change s.SameParty (s.drainLane k)
    unfold State.drainLane
    refine State.SameParty.trans ?_ (State.vacateLane_only _ k false).sameParty
    rw [State.contribute_eq]
    exact ⟨rfl, rfl, rfl, rfl, rfl⟩

theorem State.lanesTake_sameParty (s : State) (before : Vector LaneState 3) (order : List LaneIx) :
    s.SameParty (s.lanesTake before order) := by
  have hshares : ∀ (l : List LaneIx) (u : State), u.SameParty (l.foldl (fun s k => s.laneAtCadence k before[k]) u) := by
    intro l
    induction l with
    | nil => exact State.SameParty.refl
    | cons k l ih => exact fun u => (u.laneAtCadence_sameParty k before[k]).trans (ih _)
  have hclear : s.SameParty s.clearHandover := ⟨rfl, rfl, rfl, rfl, rfl⟩
  by_cases hcall : s.callCtl.state = .inCall
  · rw [State.lanesTake_of_call before order hcall]
    exact (hclear.trans (hshares order _)).trans ⟨rfl, rfl, rfl, rfl, rfl⟩
  · rw [State.lanesTake_of_none before order hcall]
    exact hclear

theorem State.Tracks.of_same (h : s.Tracks D) (hs : s.SameParty t) : t.Tracks D :=
  ⟨by rw [hs.speaking]; exact h.speaking, by rw [hs.settings]; exact h.target⟩

/-- The Lane Unit's taking of a cadence, each lane visited once by the state it has (R72). -/
theorem State.Lawful.lanesTake (h : s.Lawful D) (ht : s.Tracks D) {before : Vector LaneState 3} {order : List LaneIx} (ho : order.Nodup)
    (hbefore : (∀ k : LaneIx, before[k] = .vacant) ∨ ∀ k : LaneIx, before[k] = s.laneUnit.lanes[k].state) :
    (s.lanesTake before order).Lawful D := by
  have hclear : s.clearHandover.Lawful D := h.congr rfl rfl rfl rfl rfl rfl
  have htracks : s.clearHandover.Tracks D := ⟨ht.speaking, ht.target⟩
  have hshares : ∀ (l : List LaneIx) (u : State), l.Nodup → u.Lawful D → u.Tracks D →
      ((∀ k : LaneIx, before[k] = .vacant) ∨ ∀ k ∈ l, before[k] = u.laneUnit.lanes[k].state) →
      (l.foldl (fun s k => s.laneAtCadence k before[k]) u).Lawful D := by
    intro l
    induction l with
    | nil => exact fun u _ hu _ _ => hu
    | cons k l ih =>
      intro u hl hu hut hb
      obtain ⟨hk, hl⟩ := List.nodup_cons.1 hl
      refine ih _ hl ?_ (hut.of_same (u.laneAtCadence_sameParty k _)) (hb.imp id fun hb j hj => ?_)
      · dsimp only
        rcases hb with hv | hb
        · rw [hv]
          exact hu
        · rw [hb k List.mem_cons_self]
          exact hu.laneAtCadence hut k
      · dsimp only
        rw [State.laneAtCadence_other (k := k) (j := j) (fun e => hk (e ▸ hj))]
        exact hb j (List.mem_cons_of_mem _ hj)
  by_cases hcall : s.callCtl.state = .inCall
  · rw [State.lanesTake_of_call before order hcall]
    exact (hshares order _ ho hclear htracks (hbefore.imp id fun hb k _ => hb k)).congr rfl rfl rfl rfl rfl rfl
  · rw [State.lanesTake_of_none before order hcall]
    exact hclear

/-! ## Changes of call state (R75 to R79) -/

/-- The laws in another call state. -/
theorem State.Laws.recall (h : s.Laws c σ E D) (hidle : c' ≠ .inCall → ∀ k : LaneIx, s.laneUnit.lanes[k].state = .vacant)
    (hempty : c' = .noCall → s.laneUnit.waitList = [])
    (hcomplete : c = .noCall → c' ≠ .noCall → ∀ x, E x) : s.Laws c' σ E D :=
  { h with
    idle := hidle
    empty := hempty
    complete := fun hc' x hx hs => by
      by_cases hc : c = .noCall
      · exact absurd (hcomplete hc hc' x) hx
      · exact h.complete hc x hx hs }

theorem State.Laws.emptyLane_foldl (h : s.Laws c σ E D) (l : List LaneIx) :
    (l.foldl State.emptyLane s).Laws c σ (fun y => E y ∨ ∃ k ∈ l, s.laneUnit.lanes[k].served = some y) D := by
  induction l generalizing s E with
  | nil => exact h.mono fun y hy => .inl hy
  | cons k l ih =>
    refine (ih (h.emptyLane k)).mono ?_
    rintro y ((hy | hk) | ⟨j, hj, hs⟩)
    · exact .inl hy
    · exact .inr ⟨k, List.mem_cons_self, hk⟩
    · by_cases hjk : j = k
      · subst hjk
        rw [State.emptyLane, setLane_getElem, if_pos rfl] at hs
        exact absurd hs nofun
      · rw [State.emptyLane, setLane_getElem, if_neg (Ne.symm hjk), State.unbindBud_laneUnit] at hs
        exact .inr ⟨j, List.mem_cons_of_mem _ hj, hs⟩

theorem State.Laws.emptyLanes (h : s.Laws c σ E D) :
    s.emptyLanes.Laws c σ (fun y => E y ∨ ∃ k : LaneIx, s.laneUnit.lanes[k].served = some y) D := by
  rw [State.emptyLanes_eq]
  exact (h.emptyLane_foldl Config.lanes).mono fun y hy => hy.imp id fun ⟨k, _, hk⟩ => ⟨k, hk⟩

theorem State.emptyLanes_vacant (s : State) (k : LaneIx) : s.emptyLanes.laneUnit.lanes[k].state = .vacant := by
  rw [s.emptyLanes_spec.1 k]
  rfl

theorem State.Laws.unserved_of_vacant (h : s.Laws c σ E D) (hv : ∀ k : LaneIx, s.laneUnit.lanes[k].state = .vacant) (k : LaneIx) :
    s.laneUnit.lanes[k].served ≠ some x := by
  rw [(h.fields k).served_of_vacant (hv k)]
  exact nofun

/-- Listeners that speak and that no lane serves are placed, one after another (R68). -/
theorem State.Laws.placeAll (h : s.Laws c σ E D) (hc : c ≠ .noCall) (claims : List (ListenerIx × BudIx))
    (hclaims : ∀ p ∈ claims, σ p.1 = some p.2 ∧ ∀ k : LaneIx, s.laneUnit.lanes[k].served ≠ some p.1) :
    (s.placeAll claims).Laws c σ (fun y => E y ∧ ∀ p ∈ claims, y ≠ p.1) D := by
  induction claims generalizing s E with
  | nil => exact h.mono fun y hy => ⟨hy, nofun⟩
  | cons p claims ih =>
    obtain ⟨hp, hclaims⟩ := List.forall_mem_cons.1 hclaims
    refine (ih (h.placeWaiting hc hp.1 hp.2) fun q hq => ⟨(hclaims q hq).1, ?_⟩).mono fun y ⟨⟨hy, hne⟩, hall⟩ =>
      ⟨hy, List.forall_mem_cons.2 ⟨hne, hall⟩⟩
    rw [State.placeWaiting_laneUnit]
    exact (hclaims q hq).2

theorem State.Laws.grantOne (h : s.Laws .inCall σ E D) : s.grantOne.Laws .inCall σ E D := by
  unfold State.grantOne
  split
  · next k hk => exact h.grantHead (LaneUnit.vacantLane_some hk).1
  · exact h

theorem State.Laws.denyWaiting (h : s.Laws c σ E D) : s.denyWaiting.Laws c σ E D := by
  have hfold : ∀ (l : List WaitEntry) (u : State), u.Laws c σ E D →
      (l.foldl (fun s e => s.postDenied e.listener .noLane) u).Laws c σ E D := by
    intro l
    induction l with
    | nil => exact fun u hu => hu
    | cons e l ih => exact fun u hu => ih _ (hu.postDenied e.listener .noLane)
  exact hfold _ s h

/-- The laws as they stand when the call state has changed and the Lane Unit has not yet been told (R126). -/
def State.LawfulFrom (c : CallState) (D : BudIx → Prop) (s : State) : Prop :=
  s.Laws c (fun x => s.laneUnit.speaking[x]) (fun _ => False) D

theorem State.LawfulFrom.of_bindings (h : t.Laws s.callCtl.state (fun x => s.laneUnit.speaking[x]) (fun _ => False) D)
    (ho : s.OnlyBindings t) : t.Lawful D := by
  unfold State.Lawful
  rw [ho.speaking, ho.only.callCtl]
  exact h

/-- END CALL (R78). -/
theorem State.LawfulFrom.lanesEnd (h : s.LawfulFrom c D) (hc : s.callCtl.state = .noCall) : s.lanesEnd.Lawful D := by
  have hempty := State.Laws.emptyLanes h
  have hended : s.lanesEnd.Laws .noCall (fun x => s.laneUnit.speaking[x]) (fun _ => False) D :=
    { hempty with
      idle := fun _ => s.emptyLanes_vacant
      order := .nil
      waiting := nofun
      empty := fun _ => rfl
      complete := fun hn => absurd rfl hn }
  exact State.LawfulFrom.of_bindings (hc ▸ hended) s.lanesEnd_only

/-- HOLD, and the automatic hold (R77). -/
theorem State.LawfulFrom.lanesHold (h : s.LawfulFrom c D) {m : HoldCause} (hc : s.callCtl.state = .holding m) (hcall : c ≠ .noCall) :
    s.lanesHold.Lawful D := by
  have hempty := State.Laws.emptyLanes h
  have hrecalled := hempty.recall (c' := .holding m) (fun _ => s.emptyLanes_vacant) nofun fun hn => absurd hn hcall
  have hheld : s.lanesHold = s.emptyLanes.placeAll (Config.lanes.filterMap s.laneUnit.claim) := rfl
  have hplaced := hrecalled.placeAll nofun (Config.lanes.filterMap s.laneUnit.claim) fun p hp => by
    obtain ⟨k, -, hk⟩ := List.mem_filterMap.1 hp
    exact ⟨(LaneUnit.claim_eq_some.1 hk).2, hempty.unserved_of_vacant s.emptyLanes_vacant⟩
  rw [← hheld] at hplaced
  refine State.LawfulFrom.of_bindings (hc ▸ hplaced.mono ?_) s.lanesHold_only
  rintro y ⟨hy | ⟨k, hk⟩, hne⟩
  · exact hy
  · obtain ⟨b, hb⟩ := Option.isSome_iff_exists.1 (State.Laws.speaks h k y hk)
    exact hne (y, b) (List.mem_filterMap.2 ⟨k, mem_lanes k, LaneUnit.claim_eq_some.2 ⟨hk, hb⟩⟩) rfl

/-- RESUME and VOICE RETURNED (R79). -/
theorem State.LawfulFrom.lanesResume (h : s.LawfulFrom c D) (hc : s.callCtl.state = .inCall) (hcall : c ≠ .noCall) :
    (s.lanesEnter false).Lawful D := by
  have hrecalled := State.Laws.recall (c' := .inCall) h (fun hn => absurd rfl hn) nofun fun hn => absurd hn hcall
  have hentered := (hrecalled.grantOne.grantOne.grantOne).denyWaiting
  rw [← State.lanesEnter_resumed] at hentered
  exact State.LawfulFrom.of_bindings (hc ▸ hentered) (s.lanesEnter_only false)

/-- BEGIN CALL (R79). -/
theorem State.LawfulFrom.lanesBegin (h : s.LawfulFrom .noCall D) (hc : s.callCtl.state = .inCall) : (s.lanesEnter true).Lawful D := by
  have hvacant : ∀ k : LaneIx, s.laneUnit.lanes[k].state = .vacant := State.Laws.idle h nofun
  have hrecalled := State.Laws.recall (c' := .inCall) (State.Laws.mono h (E' := fun _ => True) fun _ _ => trivial)
    (fun hn => absurd rfl hn) nofun fun _ _ _ => trivial
  have hplaced := hrecalled.placeAll nofun s.laneUnit.speakers fun p hp =>
    ⟨LaneUnit.mem_speakers.1 hp, State.Laws.unserved_of_vacant h hvacant⟩
  have hsettled : (s.placeAll s.laneUnit.speakers).Laws .inCall (fun x => s.laneUnit.speaking[x]) (fun _ => False) D :=
    hplaced.settle fun y hy => by
      cases hs : s.laneUnit.speaking[y] with
      | none => exact .inr (.inl rfl)
      | some b => exact absurd rfl (hy.2 (y, b) (LaneUnit.mem_speakers.2 hs))
  have hentered := hsettled.grantOne.grantOne.grantOne.denyWaiting
  rw [← State.lanesEnter_fresh] at hentered
  exact State.LawfulFrom.of_bindings (hc ▸ hentered) (s.lanesEnter_only true)

end Sys2Proof.Machine
end

