-- ==== Sys2Proof/Proofs/PartyLaws.lean ====
section
/-! PROOFS. The laws of the party and of the recorded speaking buds while listeners await their emptying or their notice:
what a change of a record, a freeing and its notices make of them (R1, R2, R12, R14, R17, R18, R24, R60, R61). -/

namespace Sys2Proof.Machine

variable {s t : State} {L T : ListenerIx → Prop} {D : BudIx → Prop} {home : BudIx → Option ListenerIx} {x : ListenerIx} {b : BudIx}

/-! ## The laws with listeners pending -/

/-- The law of use, where a listener in `L` may still be in use without a member (R12, R18). -/
structure Roster.UseBut (L : ListenerIx → Prop) (r : Roster) : Prop where
  used : ∀ x : ListenerIx, r.listeners[x].members ≠ [] → r.listeners[x].inUse = true
  alone : ∀ x : ListenerIx, r.listeners[x].inUse = true → r.listeners[x].members = [] → L x
  tags : ∀ x : ListenerIx, ∀ b ∈ r.listeners[x].members, r.buds[b].setTag = r.listeners[x].setTag
  untagged : ∀ x : ListenerIx, r.listeners[x].inUse = false → r.listeners[x].setTag = 0

/-- The party is sound but for listeners in `L`, which may still be in use without a member (R17, R18). -/
structure State.PartyBut (L : ListenerIx → Prop) (s : State) : Prop where
  settings : s.directives.settings.InRange
  buds : s.roster.BudsSound
  membership : s.roster.MembershipLaw
  compatible : s.roster.MembersCompatible
  use : s.roster.UseBut L
  tags : s.roster.TagsSound
  context : s.ContextSound

theorem State.PartySound.but (h : s.PartySound) : s.PartyBut L := by
  obtain ⟨hused, htags, huntagged⟩ := h.use
  exact ⟨h.settings, h.buds, h.membership, h.compatible,
    ⟨fun x => (hused x).2, fun x hu hm => absurd hm ((hused x).1 hu), htags, huntagged⟩, h.tags, h.context⟩

theorem State.PartyBut.sound (h : s.PartyBut L) (hL : ∀ x, ¬ L x) : s.PartySound := by
  obtain ⟨hused, halone, htags, huntagged⟩ := h.use
  exact ⟨h.settings, h.buds, h.membership, h.compatible,
    ⟨fun x => ⟨fun hu hm => hL x (halone x hu hm), hused x⟩, htags, huntagged⟩, h.tags, h.context⟩

/-- The recorded speaking buds are those of the tables but for listeners in `T`, which await their notice (R61). -/
def State.CurrentBut (T : ListenerIx → Prop) (s : State) : Prop :=
  ∀ x : ListenerIx, ¬ T x → s.laneUnit.speaking[x] = s.roster.speakingBud x

/-- Every member and every recorded speaking bud belongs to the listener that `home` gives it. -/
structure State.Homed (home : BudIx → Option ListenerIx) (s : State) : Prop where
  members : ∀ x : ListenerIx, ∀ b ∈ s.roster.listeners[x].members, home b = some x
  speaking : ∀ (x : ListenerIx) (b : BudIx), s.laneUnit.speaking[x] = some b → home b = some x

theorem State.PartyBut.homed (h : s.PartyBut L) (hc : s.SpeakingCurrent) : s.Homed fun b => s.roster.buds[b].listener :=
  ⟨fun x b hb => (h.membership.1 b x).1 hb, fun x b hb => (h.membership.1 b x).1 (Roster.speakingBud_spec (hc x ▸ hb)).1⟩

/-! ## Changes that the laws do not see -/

theorem State.PartyBut.congr (h : s.PartyBut L) (hr : t.roster = s.roster) (hc : t.pairing.context = s.pairing.context)
    (hs : t.directives.settings = s.directives.settings) : t.PartyBut L := by
  obtain ⟨settings, buds, membership, compatible, use, tags, context⟩ := h
  constructor
  case context =>
    unfold State.ContextSound
    rw [hr, hc]
    exact context
  all_goals simp only [hr, hs]
  all_goals assumption

theorem State.CurrentBut.congr (h : s.CurrentBut T) (hr : t.roster = s.roster) (hs : t.laneUnit.speaking = s.laneUnit.speaking) :
    t.CurrentBut T := by
  unfold State.CurrentBut
  rw [hr, hs]
  exact h

theorem State.Homed.congr (h : s.Homed home) (hr : t.roster = s.roster) (hs : t.laneUnit.speaking = s.laneUnit.speaking) :
    t.Homed home := ⟨by rw [hr]; exact h.members, by rw [hs]; exact h.speaking⟩

theorem State.PartyBut.mono {M : ListenerIx → Prop} (h : s.PartyBut L) (hL : ∀ x, L x → M x) : s.PartyBut M :=
  { h with use := { h.use with alone := fun x hu hm => hL x (h.use.alone x hu hm) } }

theorem State.CurrentBut.mono {U : ListenerIx → Prop} (h : s.CurrentBut T) (hT : ∀ x, T x → U x) : s.CurrentBut U :=
  fun x hx => h x fun ht => hx (hT x ht)

/-- The speaking bud depends on the listener's record and on whether its members speak (R60). -/
theorem Roster.speakingBud_congr {r q : Roster} (hu : q.listeners[x].inUse = r.listeners[x].inUse)
    (hm : q.listeners[x].mute = r.listeners[x].mute) (hp : q.listeners[x].primary = r.listeners[x].primary)
    (hl : q.listeners[x].members = r.listeners[x].members)
    (hb : ∀ c ∈ r.listeners[x].members, q.buds[c].speaks = r.buds[c].speaks) : q.speakingBud x = r.speakingBud x := by
  have hfind : ∀ l : List BudIx, (∀ c ∈ l, c ∈ r.listeners[x].members) →
      l.find? (fun b => q.buds[b].speaks) = l.find? (fun b => r.buds[b].speaks) := fun l hsub =>
    List.find?_congr fun c hc => hb c (hsub c hc)
  by_cases hbarred : r.listeners[x].inUse = false ∨ r.listeners[x].mute = true
  · rw [Roster.speakingBud_of_barred hbarred, Roster.speakingBud_of_barred]
    rwa [hu, hm]
  obtain ⟨hin, hopen⟩ := not_or.1 hbarred
  rw [Bool.not_eq_false] at hin
  rw [Bool.not_eq_true] at hopen
  by_cases hprimary : ∃ p, r.listeners[x].primary = some p ∧ p ∈ r.listeners[x].members
  · obtain ⟨p, hprim, hmem⟩ := hprimary
    rw [Roster.speakingBud_of_primary hin hopen hprim hmem,
      Roster.speakingBud_of_primary (hu.trans hin) (hm.trans hopen) (hp.trans hprim) (hl ▸ hmem), hl,
      hfind _ fun c hc => (List.mem_filter.1 hc).1]
    exact if_congr (by rw [hb p hmem]) rfl rfl
  · have hstale : ∀ p, r.listeners[x].primary = some p → p ∉ r.listeners[x].members := fun p hprim hmem => hprimary ⟨p, hprim, hmem⟩
    rw [Roster.speakingBud_of_stale hin hopen hstale,
      Roster.speakingBud_of_stale (hu.trans hin) (hm.trans hopen) (by rw [hp, hl]; exact hstale), hl]
    exact hfind _ fun _ => id

/-! ## A bud record changed in place -/

/-- A record that keeps its place in the party: handle, set tag, role, listener, and whether it is FREE. -/
structure Bud.Kin (r q : Bud) : Prop where
  handle : q.handle = r.handle
  setTag : q.setTag = r.setTag
  role : q.role = r.role
  listener : q.listener = r.listener
  free : q.link = .free ↔ r.link = .free
  blank : r.link = .free → q = r

theorem Bud.Kin.refl (r : Bud) : r.Kin r := ⟨rfl, rfl, rfl, rfl, Iff.rfl, fun _ => rfl⟩

theorem Bud.Kin.trans {r q p : Bud} (h : r.Kin q) (k : q.Kin p) : r.Kin p :=
  ⟨k.1.trans h.1, k.2.trans h.2, k.3.trans h.3, k.4.trans h.4, k.5.trans h.5, fun hf => (k.6 (h.5.2 hf)).trans (h.6 hf)⟩

/-- Bud records that keep their places. -/
structure Roster.Kin (r q : Roster) : Prop where
  buds : ∀ b : BudIx, r.buds[b].Kin q.buds[b]
  members : ∀ x : ListenerIx, q.listeners[x].members = r.listeners[x].members
  inUse : ∀ x : ListenerIx, q.listeners[x].inUse = r.listeners[x].inUse
  setTag : ∀ x : ListenerIx, q.listeners[x].setTag = r.listeners[x].setTag

theorem State.PartyBut.kin (h : s.PartyBut L) (hk : s.roster.Kin t.roster) (hs : t.directives.settings.InRange)
    (hc : t.ContextSound) : t.PartyBut L where
  settings := hs
  buds := by
    obtain ⟨hblank, hhandle, hdistinct⟩ := h.buds
    refine ⟨fun b hb => ?_, fun b hb => ?_, fun b c hbc hb => ?_⟩
    · have hfree := (hk.buds b).free.1 hb
      exact ((hk.buds b).blank hfree).trans (hblank b hfree)
    · rw [(hk.buds b).handle]
      exact hhandle b fun hf => hb ((hk.buds b).free.2 hf)
    · rw [(hk.buds b).handle, (hk.buds c).handle]
      exact hdistinct b c hbc fun hf => hb ((hk.buds b).free.2 hf)
  membership := by
    refine ⟨fun b x => ?_, fun b => ?_⟩
    · rw [hk.members, (hk.buds b).listener]
      exact h.membership.1 b x
    · rw [(hk.buds b).free, (hk.buds b).listener]
      exact h.membership.2 b
  compatible := by
    refine ⟨fun x => ?_, fun x b hb c hc hbc => ?_⟩
    · rw [hk.members]
      exact h.compatible.1 x
    · rw [hk.members] at hb hc
      rw [(hk.buds b).role, (hk.buds c).role]
      exact h.compatible.2 x b hb c hc hbc
  use := by
    obtain ⟨hused, halone, htags, huntagged⟩ := h.use
    refine ⟨fun x => ?_, fun x => ?_, fun x b hb => ?_, fun x => ?_⟩
    · rw [hk.members, hk.inUse]
      exact hused x
    · rw [hk.members, hk.inUse]
      exact halone x
    · rw [hk.members] at hb
      rw [(hk.buds b).setTag, hk.setTag]
      exact htags x b hb
    · rw [hk.inUse, hk.setTag]
      exact huntagged x
  tags := by
    intro x y hxy hx hy
    rw [hk.inUse] at hx hy
    rw [hk.setTag, hk.setTag]
    exact h.tags x y hxy hx hy
  context := hc

theorem State.setBud_getElem (s : State) (b c : BudIx) (r : Bud) :
    (s.setBud b r).roster.buds[c] = if b = c then r else s.roster.buds[c] := getElem_set_fin ..

theorem State.setBud_kin {r : Bud} (hr : s.roster.buds[b].Kin r) : s.roster.Kin (s.setBud b r).roster := by
  refine ⟨fun c => ?_, fun _ => rfl, fun _ => rfl, fun _ => rfl⟩
  rw [State.setBud_getElem]
  split
  · next e => exact e ▸ hr
  · exact .refl _

/-- A record keeps its place, and is OFFERED after as before (R24). -/
theorem State.PartyBut.setBud (h : s.PartyBut L) {r : Bud} (hr : s.roster.buds[b].Kin r)
    (ho : r.link = .offered ↔ s.roster.buds[b].link = .offered) : (s.setBud b r).PartyBut L := by
  have hk := State.setBud_kin hr
  refine h.kin hk h.settings ⟨fun c => ?_, fun c hc => ?_⟩
  · rw [State.setBud_getElem]
    split
    · next e =>
      subst e
      exact ho.trans (h.context.1 b)
    · exact h.context.1 c
  · rw [(hk.buds _).handle, (hk.buds _).listener]
    exact h.context.2 c hc

theorem State.CurrentBut.setBud (h : s.CurrentBut T) (hp : s.PartyBut L) {r : Bud} :
    (s.setBud b r).CurrentBut fun y => T y ∨ s.roster.buds[b].listener = some y := by
  intro y hy
  rw [not_or] at hy
  refine (h y hy.1).trans (Roster.speakingBud_congr (r := s.roster) (q := (s.setBud b r).roster) rfl rfl rfl rfl fun c hc => ?_).symm
  rw [State.setBud_getElem, if_neg]
  rintro rfl
  exact hy.2 ((hp.membership.1 b y).1 hc)

theorem State.CurrentBut.setBud_same (h : s.CurrentBut T) {r : Bud} (hr : r.speaks = s.roster.buds[b].speaks) :
    (s.setBud b r).CurrentBut T := by
  intro y hy
  refine (h y hy).trans (Roster.speakingBud_congr (r := s.roster) (q := (s.setBud b r).roster) rfl rfl rfl rfl fun c _ => ?_).symm
  rw [State.setBud_getElem]
  split
  · next e => exact e ▸ hr
  · rfl

theorem State.Homed.setBud (h : s.Homed home) (r : Bud) : (s.setBud b r).Homed home := ⟨h.members, h.speaking⟩

/-! ## Notices -/

theorem State.PartyBut.notice (h : s.PartyBut L) (x : ListenerIx) : (s.notice x).PartyBut L := by
  have honly := s.notice_only x
  exact h.congr honly.roster (congrArg Pairing.context honly.pairing) honly.tables.settings

theorem State.CurrentBut.notice (h : s.CurrentBut T) (x : ListenerIx) : (s.notice x).CurrentBut fun y => T y ∧ y ≠ x := by
  intro y hy
  rw [s.notice_speaking, (s.notice_only x).roster]
  refine (getElem_set_fin ..).trans ?_
  split
  · next e => rw [e]
  · next e => exact h y fun ht => hy ⟨ht, Ne.symm e⟩

theorem State.Homed.notice (h : s.Homed home) (x : ListenerIx) : (s.notice x).Homed home := by
  refine ⟨?_, fun y b => ?_⟩
  · rw [(s.notice_only x).roster]
    exact h.members
  · have hread : (s.notice x).laneUnit.speaking[y] = if x = y then s.roster.speakingBud x else s.laneUnit.speaking[y] := by
      rw [s.notice_speaking]
      exact getElem_set_fin ..
    rw [hread]
    split
    · next e =>
      subst e
      exact fun hb => h.members x b (Roster.speakingBud_spec hb).1
    · exact h.speaking y b

theorem State.Lawful.notice_homed (h : s.Lawful D) (hh : s.Homed home) (x : ListenerIx) : (s.notice x).Lawful D := by
  refine h.notice x fun y b hy hb hs => hy ?_
  have hx := hh.members x b (Roster.speakingBud_spec hb).1
  exact Option.some.inj ((hh.speaking y b hs).symm.trans hx)

theorem State.PartyBut.post (h : s.PartyBut L) (r : Report) : (s.post r).PartyBut L := by
  have honly := s.post_only r
  exact h.congr honly.roster (congrArg Pairing.context honly.pairing) honly.tables.settings

theorem State.CurrentBut.post (h : s.CurrentBut T) (r : Report) : (s.post r).CurrentBut T :=
  h.congr (s.post_only r).roster (by rw [State.post_laneUnit])

theorem State.Homed.post (h : s.Homed home) (r : Report) : (s.post r).Homed home :=
  h.congr (s.post_only r).roster (by rw [State.post_laneUnit])

theorem State.Lawful.post (h : s.Lawful D) (r : Report) : (s.post r).Lawful D := by
  have honly := s.post_only r
  exact h.congr (by rw [State.post_laneUnit]) (by rw [State.post_laneUnit]) (by rw [State.post_laneUnit]) (by rw [honly.intake])
    (s.post_priorityOf r) (by rw [honly.callCtl])

/-! ## A bud unlinked (steps 1 to 5 of R17) -/

theorem State.unlinkBud_bud (s : State) (b c : BudIx) : (s.unlinkBud b).roster.buds[c] = if b = c then {} else s.roster.buds[c] := by
  rw [State.unlinkBud_eq]
  exact getElem_set_fin ..

section
variable (hx : s.roster.buds[b].listener = some x)
include hx

theorem State.unlinkBud_listener (y : ListenerIx) :
    (s.unlinkBud b).roster.listeners[y] = if x = y then s.roster.listeners[x].drop b else s.roster.listeners[y] := by
  rw [State.unlinkBud_eq]
  dsimp only
  simp only [hx]
  exact getElem_set_fin ..

theorem State.unlinkBud_members (y : ListenerIx) :
    (s.unlinkBud b).roster.listeners[y].members =
      if x = y then s.roster.listeners[y].members.erase b else s.roster.listeners[y].members := by
  rw [State.unlinkBud_listener hx]
  split
  · next e =>
    subst e
    rfl
  · rfl

theorem State.unlinkBud_use (y : ListenerIx) :
    (s.unlinkBud b).roster.listeners[y].inUse = s.roster.listeners[y].inUse ∧
      (s.unlinkBud b).roster.listeners[y].setTag = s.roster.listeners[y].setTag ∧
      (s.unlinkBud b).roster.listeners[y].priority = s.roster.listeners[y].priority := by
  rw [State.unlinkBud_listener hx]
  split
  · next e =>
    subst e
    exact ⟨rfl, rfl, rfl⟩
  · exact ⟨rfl, rfl, rfl⟩

variable (h : s.PartyBut L)
include h

/-- The members after an unlinking are those before but for the bud (R14, R17). -/
theorem State.PartyBut.mem_unlinkBud {y : ListenerIx} {c : BudIx} :
    c ∈ (s.unlinkBud b).roster.listeners[y].members ↔ c ≠ b ∧ c ∈ s.roster.listeners[y].members := by
  rw [State.unlinkBud_members hx]
  split
  · exact (h.compatible.1 y).1.mem_erase_iff
  · next hne =>
    refine ⟨fun hc => ⟨fun e => hne ?_, hc⟩, fun hc => hc.2⟩
    exact Option.some.inj (hx.symm.trans ((h.membership.1 b y).1 (e ▸ hc)))

theorem State.PartyBut.unlinkBud : (s.unlinkBud b).PartyBut fun y => L y ∨ y = x where
  settings := by
    rw [State.unlinkBud_eq]
    exact h.settings
  buds := by
    obtain ⟨hblank, hhandle, hdistinct⟩ := h.buds
    refine ⟨fun c hc => ?_, fun c hc => ?_, fun c d hcd hc => ?_⟩
    · rw [State.unlinkBud_bud] at hc ⊢
      split at hc
      · rw [if_pos ‹_›]
      · rw [if_neg ‹_›]
        exact hblank c hc
    · rw [State.unlinkBud_bud] at hc ⊢
      split at hc
      · exact absurd rfl hc
      · rw [if_neg ‹_›]
        exact hhandle c hc
    · rw [State.unlinkBud_bud] at hc
      rw [State.unlinkBud_bud, State.unlinkBud_bud]
      split at hc
      · exact absurd rfl hc
      · next hbc =>
        rw [if_neg hbc]
        split
        · intro hnone
          have hsome := hhandle c hc
          rw [hnone] at hsome
          exact absurd hsome nofun
        · exact hdistinct c d hcd hc
  membership := by
    refine ⟨fun c y => ?_, fun c => ?_⟩
    · rw [State.PartyBut.mem_unlinkBud hx h, State.unlinkBud_bud]
      split
      · next e => exact ⟨fun hc => absurd e.symm hc.1, nofun⟩
      · next e => exact (and_iff_right (Ne.symm e)).trans (h.membership.1 c y)
    · rw [State.unlinkBud_bud]
      split
      · exact ⟨fun _ => rfl, fun _ => rfl⟩
      · exact h.membership.2 c
  compatible := by
    refine ⟨fun y => ?_, fun y c hc d hd hcd => ?_⟩
    · rw [State.unlinkBud_members hx]
      obtain ⟨hnodup, hlen⟩ := h.compatible.1 y
      split
      · exact ⟨hnodup.erase b, List.erase_sublist.length_le.trans hlen⟩
      · exact ⟨hnodup, hlen⟩
    · obtain ⟨hcb, hc⟩ := (State.PartyBut.mem_unlinkBud hx h).1 hc
      obtain ⟨hdb, hd⟩ := (State.PartyBut.mem_unlinkBud hx h).1 hd
      rw [State.unlinkBud_bud, State.unlinkBud_bud, if_neg (Ne.symm hcb), if_neg (Ne.symm hdb)]
      exact h.compatible.2 y c hc d hd hcd
  use := by
    obtain ⟨hused, halone, htags, huntagged⟩ := h.use
    refine ⟨fun y hy => ?_, fun y hu hm => ?_, fun y c hc => ?_, fun y hu => ?_⟩
    · rw [(State.unlinkBud_use hx y).1]
      obtain ⟨c, hc⟩ := List.exists_mem_of_ne_nil _ hy
      exact hused y (List.ne_nil_of_mem ((State.PartyBut.mem_unlinkBud hx h).1 hc).2)
    · rw [(State.unlinkBud_use hx y).1] at hu
      rw [State.unlinkBud_members hx] at hm
      split at hm
      · next e => exact .inr e.symm
      · exact .inl (halone y hu hm)
    · obtain ⟨hcb, hc⟩ := (State.PartyBut.mem_unlinkBud hx h).1 hc
      rw [State.unlinkBud_bud, if_neg (Ne.symm hcb), (State.unlinkBud_use hx y).2.1]
      exact htags y c hc
    · rw [(State.unlinkBud_use hx y).1] at hu
      rw [(State.unlinkBud_use hx y).2.1]
      exact huntagged y hu
  tags := by
    intro y z hyz hy hz
    rw [(State.unlinkBud_use hx _).1] at hy hz
    rw [(State.unlinkBud_use hx _).2.1, (State.unlinkBud_use hx _).2.1]
    exact h.tags y z hyz hy hz
  context := by
    obtain ⟨hoffered, hbusy⟩ := h.context
    have hcontext : (s.unlinkBud b).pairing.context = if s.roster.buds[b].link = .offered then none else s.pairing.context := by
      rw [State.unlinkBud_eq]
    unfold State.ContextSound
    rw [hcontext]
    split
    · next ho =>
      refine ⟨fun c => ?_, nofun⟩
      rw [State.unlinkBud_bud]
      split
      · exact ⟨nofun, nofun⟩
      · next e => exact ⟨fun hc => absurd (Option.some.inj (((hoffered b).1 ho).symm.trans ((hoffered c).1 hc))) e, nofun⟩
    · next ho =>
      refine ⟨fun c => ?_, fun c hc => ?_⟩
      · rw [State.unlinkBud_bud]
        split
        · next e => exact ⟨nofun, fun hc => absurd ((hoffered b).2 (e ▸ hc)) ho⟩
        · exact hoffered c
      · have hne : b ≠ c.bud := fun e => ho ((hoffered b).2 (by rw [hc, Option.map_some, e]))
        rw [State.unlinkBud_bud, if_neg hne]
        exact hbusy c hc

theorem State.CurrentBut.unlinkBud (hc : s.CurrentBut T) : (s.unlinkBud b).CurrentBut fun y => T y ∨ y = x := by
  intro y hy
  rw [not_or] at hy
  have hlisteners : (s.unlinkBud b).roster.listeners[y] = s.roster.listeners[y] := by
    rw [State.unlinkBud_listener hx, if_neg (Ne.symm hy.2)]
  have hspeaking : (s.unlinkBud b).laneUnit = s.laneUnit := by rw [State.unlinkBud_eq]
  rw [hspeaking]
  refine (hc y hy.1).trans (Roster.speakingBud_congr ?_ ?_ ?_ ?_ fun c hc => ?_).symm
  · rw [hlisteners]
  · rw [hlisteners]
  · rw [hlisteners]
  · rw [hlisteners]
  · rw [State.unlinkBud_bud, if_neg]
    rintro rfl
    exact hy.2 (Option.some.inj (((h.membership.1 b y).1 hc).symm.trans hx))

theorem State.Homed.unlinkBud (hh : s.Homed home) : (s.unlinkBud b).Homed home := by
  refine ⟨fun y c hc => hh.members y c ((State.PartyBut.mem_unlinkBud hx h).1 hc).2, ?_⟩
  have hunit : (s.unlinkBud b).laneUnit = s.laneUnit := by rw [State.unlinkBud_eq]
  rw [hunit]
  exact hh.speaking

omit h

/-- A change that empties queues keeps the laws of the lanes (R53). -/
theorem State.Lawful.unlinkBud (hl : s.Lawful s.Dumb) : (s.unlinkBud b).Lawful (s.unlinkBud b).Dumb := by
  have hunit : (s.unlinkBud b).laneUnit = s.laneUnit := by rw [State.unlinkBud_eq]
  have hcall : (s.unlinkBud b).callCtl = s.callCtl := by rw [State.unlinkBud_eq]
  have hqueue : ∀ c : BudIx, (s.unlinkBud b).intake.queues[c] = if b = c then [] else s.intake.queues[c] := fun c => by
    rw [State.unlinkBud_eq]
    exact getElem_set_fin ..
  have hprio : (s.unlinkBud b).priorityOf = s.priorityOf := funext fun y =>
    congrArg Fin.val (State.unlinkBud_use hx y).2.2
  unfold State.Lawful at hl ⊢
  rw [hunit, hcall]
  obtain ⟨range, fields, one, speaks, carry, inj, idle, order, waiting, empty, complete, nodup, unbound, bound, dumb⟩ := hl
  constructor
  case inj => exact inj
  case order => rw [hunit, hprio]; exact order
  case nodup =>
    intro c
    rw [hqueue]
    split
    · exact List.nodup_nil
    · exact nodup c
  case unbound =>
    intro c hc
    rw [hunit] at hc
    rw [hqueue]
    split
    · exact Nat.zero_le _
    · exact unbound c hc
  case bound =>
    rw [hunit]
    intro k c hk hc
    rw [hqueue]
    split
    · exact ⟨Nat.zero_le _, Lane.inOrder_nil _, nofun⟩
    · exact bound k c hk hc
  case dumb =>
    intro c hc
    rw [hqueue]
    split
    · rfl
    · next e =>
      unfold State.Dumb at hc
      rw [State.unlinkBud_bud, if_neg e] at hc
      exact dumb c hc
  all_goals rw [hunit]; assumption

end

/-! ## A listener emptied (R18) -/

theorem State.emptyIfAlone_of_alone (hu : s.roster.listeners[x].inUse = true) (hm : s.roster.listeners[x].members = []) :
    s.emptyIfAlone x =
      s.setListener x (Listener.unused s.roster.defaults s.directives.settings.defaultPriority) := if_pos ⟨hu, hm⟩

theorem State.emptyIfAlone_of_other (h : ¬ (s.roster.listeners[x].inUse = true ∧ s.roster.listeners[x].members = [])) :
    s.emptyIfAlone x = s := if_neg h

theorem State.setListener_getElem (s : State) (x y : ListenerIx) (l : Listener) :
    (s.setListener x l).roster.listeners[y] = if x = y then l else s.roster.listeners[y] := getElem_set_fin ..

theorem State.PartyBut.emptyIfAlone (h : s.PartyBut L) (x : ListenerIx) : (s.emptyIfAlone x).PartyBut fun y => L y ∧ y ≠ x := by
  by_cases halone : s.roster.listeners[x].inUse = true ∧ s.roster.listeners[x].members = []
  · obtain ⟨hu, hm⟩ := halone
    rw [State.emptyIfAlone_of_alone hu hm]
    have hmembers : ∀ y : ListenerIx, (s.setListener x (Listener.unused s.roster.defaults
        s.directives.settings.defaultPriority)).roster.listeners[y].members = s.roster.listeners[y].members := fun y => by
      rw [State.setListener_getElem]
      split
      · next e => exact e ▸ hm.symm
      · rfl
    obtain ⟨hused, hal, htags, huntagged⟩ := h.use
    refine ⟨h.settings, h.buds, ⟨fun b y => ?_, h.membership.2⟩, ⟨fun y => ?_, fun y b hb c hc => ?_⟩,
      ⟨fun y hy => ?_, fun y hu' hm' => ?_, fun y b hb => ?_, fun y hu' => ?_⟩, fun y z hyz hy hz => ?_, h.context⟩
    · rw [hmembers]
      exact h.membership.1 b y
    · rw [hmembers]
      exact h.compatible.1 y
    · rw [hmembers] at hb hc
      exact h.compatible.2 y b hb c hc
    · rw [hmembers] at hy
      have hne : x ≠ y := fun e => hy (e ▸ hm)
      rw [State.setListener_getElem, if_neg hne]
      exact hused y hy
    · rw [State.setListener_getElem] at hu'
      split at hu'
      · exact absurd hu' nofun
      · next hne =>
        rw [hmembers] at hm'
        exact ⟨hal y hu' hm', Ne.symm hne⟩
    · rw [hmembers] at hb
      have hne : x ≠ y := fun e => List.ne_nil_of_mem hb (e ▸ hm)
      rw [State.setListener_getElem, if_neg hne]
      exact htags y b hb
    · rw [State.setListener_getElem] at hu' ⊢
      split at hu'
      · rw [if_pos ‹_›]
        rfl
      · rw [if_neg ‹_›]
        exact huntagged y hu'
    · rw [State.setListener_getElem] at hy hz
      rw [State.setListener_getElem, State.setListener_getElem]
      split at hy
      · exact absurd hy nofun
      · split at hz
        · exact absurd hz nofun
        · rw [if_neg ‹_›, if_neg ‹_›]
          exact h.tags y z hyz hy hz
  · rw [State.emptyIfAlone_of_other halone]
    refine { h with use := { h.use with alone := fun y hu hm => ⟨h.use.alone y hu hm, fun e => halone ?_⟩ } }
    exact e ▸ ⟨hu, hm⟩

/-- A listener without members has no speaking bud (R60). -/
theorem Roster.speakingBud_of_alone {r : Roster} (hm : r.listeners[x].members = []) : r.speakingBud x = none := by
  cases hs : r.speakingBud x with
  | none => rfl
  | some b =>
    have hb := (Roster.speakingBud_spec hs).1
    rw [hm] at hb
    exact absurd hb nofun

theorem State.CurrentBut.emptyIfAlone (h : s.CurrentBut T) (x : ListenerIx) : (s.emptyIfAlone x).CurrentBut T := by
  by_cases halone : s.roster.listeners[x].inUse = true ∧ s.roster.listeners[x].members = []
  · obtain ⟨hu, hm⟩ := halone
    rw [State.emptyIfAlone_of_alone hu hm]
    intro y hy
    refine (h y hy).trans ?_
    by_cases hxy : x = y
    · subst hxy
      rw [Roster.speakingBud_of_alone hm, Roster.speakingBud_of_alone]
      rw [State.setListener_getElem, if_pos rfl]
      rfl
    · have hlistener : ∀ l : Listener, (s.setListener x l).roster.listeners[y] = s.roster.listeners[y] := fun l => by
        rw [State.setListener_getElem, if_neg hxy]
      refine (Roster.speakingBud_congr (r := s.roster) (q := (s.setListener x _).roster) ?_ ?_ ?_ ?_ fun _ _ => rfl).symm <;>
        rw [hlistener]
  · rw [State.emptyIfAlone_of_other halone]
    exact h

theorem State.Homed.emptyIfAlone (h : s.Homed home) (x : ListenerIx) : (s.emptyIfAlone x).Homed home := by
  by_cases halone : s.roster.listeners[x].inUse = true ∧ s.roster.listeners[x].members = []
  · obtain ⟨hu, hm⟩ := halone
    rw [State.emptyIfAlone_of_alone hu hm]
    refine ⟨fun y b hb => ?_, h.speaking⟩
    rw [State.setListener_getElem] at hb
    split at hb
    · exact absurd hb nofun
    · exact h.members y b hb
  · rw [State.emptyIfAlone_of_other halone]
    exact h

theorem WaitOrderly.congr {p q : ListenerIx → Nat} {w : List WaitEntry} (h : WaitOrderly p w)
    (hp : ∀ e ∈ w, q e.listener = p e.listener) : WaitOrderly q w :=
  { h with
    sorted := h.sorted.imp_of_mem fun {a b} ha hb hab => by
      rw [waitBefore_iff] at hab ⊢
      rw [hp a ha, hp b hb]
      exact hab }

/-- A listener that does not speak does not wait, so that its priority does not matter to the wait list (R62, R68). -/
theorem State.Lawful.setListener (h : s.Lawful D) {l : Listener}
    (hp : l.priority = s.roster.listeners[x].priority ∨ s.laneUnit.speaking[x] = none) : (s.setListener x l).Lawful D :=
  { h with
    order := h.order.congr fun e he => by
      unfold State.priorityOf
      rw [State.setListener_getElem]
      split
      · next hxe =>
        subst hxe
        rcases hp with hp | hnone
        · rw [hp]
        · have hw := (h.waiting e he).1
          rw [hnone] at hw
          exact absurd hw nofun
      · rfl }

theorem State.Lawful.emptyIfAlone (h : s.Lawful D) (hx : s.laneUnit.speaking[x] = s.roster.speakingBud x) :
    (s.emptyIfAlone x).Lawful D := by
  by_cases halone : s.roster.listeners[x].inUse = true ∧ s.roster.listeners[x].members = []
  · obtain ⟨hu, hm⟩ := halone
    rw [State.emptyIfAlone_of_alone hu hm]
    exact h.setListener (.inr (hx.trans (Roster.speakingBud_of_alone hm)))
  · rw [State.emptyIfAlone_of_other halone]
    exact h

end Sys2Proof.Machine
end

