-- ==== Sys2Proof/Proofs/Departures.lean ====
section
/-! PROOFS. What a freeing leaves of the party, the recorded speaking buds, the lanes and the bud's queue (R17 to R19). -/

namespace Sys2Proof.Machine

variable {s t : State} {L T : ListenerIx → Prop} {D : BudIx → Prop} {home : BudIx → Option ListenerIx} {x : ListenerIx} {b : BudIx}

/-! ## The last steps of a freeing (steps 6 to 8 of R17) -/

theorem State.finishDeparture_of_listener {d : Departure} (hd : d.listener = some x) :
    s.finishDeparture d = ((s.notice x).emptyIfAlone x).post (.event (.departed d)) := by
  rw [State.finishDeparture, hd]
  rfl

theorem State.notice_current (s : State) (x : ListenerIx) :
    (s.notice x).laneUnit.speaking[x] = (s.notice x).roster.speakingBud x := by
  rw [s.notice_speaking, (s.notice_only x).roster]
  exact (getElem_set_fin ..).trans (if_pos rfl)

section
variable {d : Departure} (hd : d.listener = some x)
include hd

theorem State.PartyBut.finishDeparture (h : s.PartyBut L) : (s.finishDeparture d).PartyBut fun y => L y ∧ y ≠ x := by
  rw [State.finishDeparture_of_listener hd]
  exact ((h.notice x).emptyIfAlone x).post _

theorem State.CurrentBut.finishDeparture (h : s.CurrentBut T) : (s.finishDeparture d).CurrentBut fun y => T y ∧ y ≠ x := by
  rw [State.finishDeparture_of_listener hd]
  exact ((h.notice x).emptyIfAlone x).post _

theorem State.Homed.finishDeparture (h : s.Homed home) : (s.finishDeparture d).Homed home := by
  rw [State.finishDeparture_of_listener hd]
  exact ((h.notice x).emptyIfAlone x).post _

theorem State.Lawful.finishDeparture (h : s.Lawful D) (hh : s.Homed home) : (s.finishDeparture d).Lawful D := by
  rw [State.finishDeparture_of_listener hd]
  exact ((h.notice_homed hh x).emptyIfAlone (s.notice_current x)).post _

end

theorem State.finishDeparture_dumb (s : State) (d : Departure) : (s.finishDeparture d).Dumb = s.Dumb := by
  unfold State.Dumb
  rw [(s.finishDeparture_keeps d).1]

/-! ## A freeing (R17) -/

/-- A bud that is not FREE names a listener (R14). -/
theorem State.PartyBut.listener_of_link (h : s.PartyBut L) (hb : s.roster.buds[b].link ≠ .free) :
    ∃ x, s.roster.buds[b].listener = some x :=
  Option.ne_none_iff_exists'.1 fun hn => hb ((h.membership.2 b).2 hn)

theorem State.PartySound.freeBud (h : s.PartySound) (hb : s.roster.buds[b].link ≠ .free) (cause : FreeCause) :
    (s.freeBud b cause).PartySound := by
  obtain ⟨x, hx⟩ := State.PartyBut.listener_of_link (L := fun _ => False) h.but hb
  refine ((State.PartyBut.unlinkBud hx h.but).finishDeparture (L := fun y => False ∨ y = x) (d := s.departure b cause) hx).sound ?_
  rintro y ⟨hy | hy, hne⟩
  · exact hy
  · exact hne hy

theorem State.CurrentBut.freeBud (h : s.CurrentBut fun _ => False) (hp : s.PartySound) (hb : s.roster.buds[b].link ≠ .free)
    (cause : FreeCause) : (s.freeBud b cause).CurrentBut fun _ => False := by
  obtain ⟨x, hx⟩ := State.PartyBut.listener_of_link (L := fun _ => False) hp.but hb
  refine ((State.CurrentBut.unlinkBud hx (L := fun _ => False) hp.but h).finishDeparture (d := s.departure b cause) hx).mono ?_
  rintro y ⟨hy | hy, hne⟩
  · exact hy
  · exact hne hy

theorem State.LanesSound.current (h : s.LanesSound) : s.CurrentBut fun _ => False := fun x _ => h.speaking x

theorem State.CurrentBut.all (h : s.CurrentBut T) (hT : ∀ x, ¬ T x) : s.SpeakingCurrent := fun x => h x (hT x)

theorem State.LanesSound.freeBud (h : s.LanesSound) (hb : s.roster.buds[b].link ≠ .free) (cause : FreeCause) :
    (s.freeBud b cause).LanesSound := by
  obtain ⟨x, hx⟩ := State.PartyBut.listener_of_link (L := fun _ => False) h.party.but hb
  have hhomed := State.PartyBut.homed (L := fun _ => False) h.party.but h.speaking
  refine State.Lawful.lanesSound ?_ (h.party.freeBud hb cause) ((h.current.freeBud h.party hb cause).all fun _ => id)
  have hdone := (State.Lawful.unlinkBud hx h.lawful).finishDeparture (d := s.departure b cause) hx
    (State.Homed.unlinkBud hx (L := fun _ => False) h.party.but hhomed)
  rw [← State.finishDeparture_dumb _ (s.departure b cause)] at hdone
  exact hdone

/-! ## An empty queue stays empty and its counters stand (R44, R52, R53) -/

/-- A bud's empty queue stays empty, and its discard counters stay. -/
def State.Hushes (b : BudIx) (s t : State) : Prop :=
  s.intake.queues[b] = [] → t.intake.queues[b] = [] ∧ t.intake.discards[b] = s.intake.discards[b]

theorem State.Hushes.of_intake (h : t.intake = s.intake) : s.Hushes b t := fun hq => by rw [h]; exact ⟨hq, rfl⟩

theorem State.Hushes.refl (s : State) : s.Hushes b s := .of_intake rfl

theorem State.Hushes.trans {u : State} (h : s.Hushes b t) (k : t.Hushes b u) : s.Hushes b u := fun hq => by
  obtain ⟨ht, hd⟩ := h hq
  obtain ⟨hu, he⟩ := k ht
  exact ⟨hu, he.trans hd⟩

theorem State.hushes_post (s : State) (r : Report) : s.Hushes b (s.post r) := .of_intake (s.post_only r).intake

theorem State.hushes_placeWaiting (s : State) (y : ListenerIx) (c : BudIx) : s.Hushes b (s.placeWaiting y c) := by
  refine .of_intake ?_
  unfold State.placeWaiting
  dsimp only
  split <;> rfl

theorem State.hushes_postDenied (s : State) (y : ListenerIx) (cause : DeniedCause) : s.Hushes b (s.postDenied y cause) :=
  .of_intake (State.post_only _ _).intake

theorem State.hushes_bindLane (s : State) (k : LaneIx) (c : BudIx) (y : ListenerIx) : s.Hushes b (s.bindLane k c y) := fun hq => by
  rw [(s.bindLane_queue k c y b).1, (s.bindLane_queue k c y b).2]
  split
  · next e =>
    subst e
    rw [Feed.prepare_of_empty hq]
    exact ⟨hq, rfl⟩
  · exact ⟨hq, rfl⟩

theorem State.hushes_grantHead (s : State) (k : LaneIx) : s.Hushes b (s.grantHead k) := by
  unfold State.grantHead
  split
  · split
    · exact .refl s
    · exact s.hushes_bindLane _ _ _
  · exact .refl s

theorem State.hushes_vacateLane (s : State) (k : LaneIx) (keep : Bool) : s.Hushes b (s.vacateLane k keep) := by
  have hclear : s.Hushes b (s.setLane k s.laneUnit.lanes[k].cleared) := .of_intake rfl
  unfold State.vacateLane
  dsimp only
  split
  · exact hclear.trans (State.hushes_bindLane _ _ _ _)
  · split
    · exact hclear
    · exact hclear.trans (State.hushes_grantHead _ _)

theorem State.hushes_unbindBud (s : State) (k : LaneIx) : s.Hushes b (s.unbindBud k) := fun hq => by
  rw [State.unbindBud_queue, State.unbindBud_discards]
  refine ⟨?_, rfl⟩
  split
  · rw [hq]
    rfl
  · exact hq

theorem State.hushes_releaseLane (s : State) (k : LaneIx) (keep : Bool) : s.Hushes b (s.releaseLane k keep) := by
  have hunbound := s.hushes_unbindBud (b := b) k
  unfold State.releaseLane
  split
  · exact hunbound.trans (State.hushes_vacateLane _ _ _)
  · dsimp only
    split
    · exact hunbound.trans (.of_intake rfl)
    · exact hunbound.trans (State.hushes_vacateLane _ _ _)
  · exact .refl s
  · exact .refl s

theorem State.hushes_placeVictim (s : State) (v : Option ListenerIx) : s.Hushes b (s.placeVictim v) := by
  unfold State.placeVictim
  split
  · exact .refl s
  · split
    · exact (s.hushes_placeWaiting _ _).trans (State.hushes_postDenied _ _ _)
    · exact .refl s

theorem State.hushes_evictLane (s : State) (k : LaneIx) (y : ListenerIx) (c : BudIx) : s.Hushes b (s.evictLane k y c) := by
  have hplaced : s.Hushes b (((s.pointPast k).releaseLane k true).placeVictim s.laneUnit.lanes[k].listener) :=
    State.Hushes.trans (t := s.pointPast k) (.of_intake rfl)
      ((State.hushes_releaseLane _ _ _).trans (State.hushes_placeVictim _ _))
  rw [State.evictLane_eq]
  dsimp only
  split
  · exact hplaced.trans (.of_intake rfl)
  · exact hplaced.trans (State.hushes_bindLane _ _ _ _)

theorem State.hushes_requestLane (s : State) (y : ListenerIx) (c : BudIx) : s.Hushes b (s.requestLane y c) := by
  unfold State.requestLane
  dsimp only
  split
  · exact .refl s
  · split
    · exact s.hushes_bindLane _ _ _
    · split
      · exact .of_intake rfl
      · split
        · exact s.hushes_evictLane _ _ _
        · exact (s.hushes_placeWaiting _ _).trans (State.hushes_postDenied _ _ _)

theorem State.hushes_fallSilent (s : State) (y : ListenerIx) : s.Hushes b (s.fallSilent y) := by
  have hquiet : s.Hushes b ((s.cancelWait y).cancelReservation y) := .of_intake (by rw [State.cancelReservation_eq]; rfl)
  unfold State.fallSilent
  dsimp only
  split
  · exact hquiet.trans (State.hushes_releaseLane _ _ _)
  · exact hquiet

theorem State.hushes_changeSpeaker (s : State) (y : ListenerIx) (c : BudIx) : s.Hushes b (s.changeSpeaker y c) := by
  unfold State.changeSpeaker
  split
  · next k _ =>
    have hasked : s.Hushes b ((s.releaseLane k true).requestLane y c) :=
      (s.hushes_releaseLane k true).trans (State.hushes_requestLane _ _ _)
    dsimp only
    split
    · exact hasked.trans (State.hushes_grantHead _ _)
    · exact hasked
  · exact .of_intake rfl

/-- A notice leaves an empty queue and its counters (R52, R53). -/
theorem State.hushes_notice (s : State) (y : ListenerIx) : s.Hushes b (s.notice y) := by
  have hrecord : s.Hushes b (s.recordSpeaking y (s.roster.speakingBud y)) := .of_intake rfl
  unfold State.notice
  dsimp only
  split
  · exact .refl s
  · refine hrecord.trans ?_
    unfold State.actOnSpeaking
    split
    · exact .refl _
    · exact .of_intake rfl
    · exact State.hushes_placeWaiting _ _ _
    · exact .of_intake rfl
    · exact State.hushes_fallSilent _ _
    · exact State.hushes_requestLane _ _ _
    · exact State.hushes_changeSpeaker _ _ _

/-! ## The statement -/

/-- The listener's record once a bud has left it, as a filter of its members (steps 2 and 3 of R17). -/
theorem Listener.drop_eq (l : Listener) (hn : l.members.Nodup) (b : BudIx) :
    l.drop b =
      { l with
        members := l.members.filter (· ≠ b)
        primary := if l.primary = some b then (l.members.filter (· ≠ b)).head? else l.primary } := by
  have hmembers : l.members.erase b = l.members.filter (· ≠ b) := by
    rw [hn.erase_eq_filter]
    exact List.filter_congr fun c _ => by by_cases h : c = b <;> simp [h]
  unfold Listener.drop
  dsimp only
  rw [hmembers]

/-- No lane names a bud that is not a member (R61, R63). -/
theorem State.Lawful.bud_ne (h : s.Lawful D) (hp : s.PartyBut L) (hc : s.SpeakingCurrent) (hb : s.roster.buds[b].listener = none)
    (k : LaneIx) : s.laneUnit.lanes[k].bud ≠ some b := fun hk => by
  obtain ⟨-, hcarries, -⟩ := h.fields k
  rw [hk] at hcarries
  obtain ⟨y, c, -, -, hc', hσ, -⟩ := h.carrying hcarries.symm
  obtain rfl := Option.some.inj (hc'.symm.trans hk)
  have hmember := (hp.membership.1 _ y).1 (Roster.speakingBud_spec (hc y ▸ hσ)).1
  rw [hb] at hmember
  exact absurd hmember nofun

/-- Settles O42: the unlinking written out, the notice, and the emptying of a listener left without members. -/
theorem freeingClearsTheBud : Obligations.FreeingClearsTheBud := by
  unfold Obligations.FreeingClearsTheBud
  intro s b cause x hparty hlink hx r l others left unused unlinked told u
  have hmember : b ∈ s.roster.listeners[x].members := (hparty.membership.1 b x).2 hx
  have hleft : s.roster.listeners[x].drop b = left := Listener.drop_eq _ (hparty.compatible.1 x).1 b
  have hunlinked : s.unlinkBud b = unlinked := by
    rw [State.unlinkBud_eq]
    simp only [hx]
    rw [hleft]
  have htold : told.roster = unlinked.roster := (unlinked.notice_only x).roster
  have honly := unlinked.notice_only x
  have huse : left.inUse = true := (hparty.use.1 x).2 (List.ne_nil_of_mem hmember)
  have hlistener : told.roster.listeners[x] = left := by
    rw [htold]
    exact (getElem_set_fin ..).trans (if_pos rfl)
  have hdefaults : told.roster.defaults = s.roster.defaults := by rw [htold]
  have hsettings : told.directives.settings = s.directives.settings := honly.tables.settings
  have hpriority : s.directives.settings.defaultPriority ≤ 3 := (hparty.settings 8).2
  have hunused : Listener.unused s.roster.defaults s.directives.settings.defaultPriority = unused := by
    rw [Listener.unused, clampPriority_eq, Nat.min_eq_left hpriority]
  have hempty : told.emptyIfAlone x = u := by
    by_cases hnone : others = []
    · rw [State.emptyIfAlone_of_alone (by rw [hlistener]; exact huse) (by rw [hlistener]; exact hnone), hdefaults, hsettings, hunused]
      have hu : u = { told with roster := { unlinked.roster with listeners := s.roster.listeners.set x unused } } :=
        congrArg (fun l => ({ told with roster := { unlinked.roster with listeners := s.roster.listeners.set x l } } : State))
          (if_pos hnone)
      rw [hu, State.setListener, htold]
      exact congrArg (fun v => ({ told with roster := { unlinked.roster with listeners := v } } : State)) (Vector.set_set left x.2)
    · rw [State.emptyIfAlone_of_other fun h => hnone ((congrArg Listener.members hlistener).symm.trans h.2)]
      have hu : u = { told with roster := unlinked.roster } :=
        congrArg (fun l => ({ told with roster := { unlinked.roster with listeners := s.roster.listeners.set x l } } : State))
          (if_neg hnone)
      rw [hu, ← htold]
  have hfree : s.freeBud b cause =
      u.post (.event (.departed { bud := b, listener := some x, addr := r.addr, bonded := r.bonded, cause := cause })) := by
    have hdeparture : s.departure b cause = { bud := b, listener := some x, addr := r.addr, bonded := r.bonded, cause := cause } := by
      rw [State.departure, hx]
    rw [State.freeBud, hunlinked, State.finishDeparture_of_listener (d := s.departure b cause) hx, hempty, hdeparture]
  have hqueue : unlinked.intake.queues[b] = [] := (getElem_set_fin ..).trans (if_pos rfl)
  obtain ⟨hhushed, hdiscards⟩ := unlinked.hushes_notice x hqueue
  have hspeaking : told.laneUnit.speaking[x] = unlinked.roster.speakingBud x := by
    rw [unlinked.notice_speaking]
    exact (getElem_set_fin ..).trans (if_pos rfl)
  have hroster : u.roster = (told.emptyIfAlone x).roster := by rw [hempty]
  have hcurrent : (told.emptyIfAlone x).laneUnit.speaking[x] = (told.emptyIfAlone x).roster.speakingBud x :=
    (State.CurrentBut.emptyIfAlone (T := fun y => y ≠ x) (fun y hy => by
      rw [not_ne_iff.1 hy]
      exact unlinked.notice_current x) x) x fun h => h rfl
  refine ⟨hfree, hhushed, hdiscards, by rw [hempty] at hcurrent; exact hcurrent, fun y hy => ?_, fun hs k => ?_, honly.slips, honly.pairing,
    honly.mix, honly.callCtl, honly.airPort, honly.store, honly.tables, honly.line, honly.pending⟩
  · have hother : told.laneUnit.speaking[y] = s.laneUnit.speaking[y] := by
      rw [unlinked.notice_speaking]
      exact (getElem_set_fin ..).trans (if_neg (Ne.symm hy))
    exact hother
  · have hfreed := hs.freeBud hlink cause
    have hbud : (s.freeBud b cause).roster.buds[b].listener = none := by
      rw [State.freeBud_buds]
      exact congrArg Bud.listener ((getElem_set_fin ..).trans (if_pos rfl))
    have hne := hfreed.lawful.bud_ne (L := fun _ => False) hfreed.party.but hfreed.speaking hbud k
    rw [hfree, State.post_laneUnit] at hne
    exact hne

end Sys2Proof.Machine
end

