-- ==== Sys2Proof/Proofs/SoundActs.lean ====
section
/-! PROOFS. Acts that keep the laws of the party, of the recorded speaking buds and of the lanes: an act under way, what each
change makes of it, and the acts of the ports, of a freeing and of the Lane Unit. -/

namespace Sys2Proof.Machine

variable {p : Prop} {s t u : State} {L T : ListenerIx → Prop} {D : BudIx → Prop} {x : ListenerIx} {b : BudIx}

/-! ## An act under way -/

/-- An act that began in a sound party `s` has come to `t`: listeners in `L` may be in use without a member, listeners in `T`
await their notice, and the lanes keep their laws if `p` holds. -/
structure State.Amid (p : Prop) (s : State) (L T : ListenerIx → Prop) (t : State) : Prop where
  party : t.PartyBut L
  current : s.SpeakingCurrent → t.CurrentBut T
  homed : s.SpeakingCurrent → ∃ home, t.Homed home
  lawful : p → s.LanesSound → t.Lawful t.Dumb

/-- No listener. -/
abbrev noListener : ListenerIx → Prop := fun _ => False

/-- A change that keeps the laws of the party, of the recorded speaking buds, and of the lanes if `p` holds. -/
def State.Keeps (p : Prop) (s t : State) : Prop := s.PartySound → s.Amid p noListener noListener t

theorem State.Keeps.refl (s : State) : s.Keeps p s := fun hs =>
  ⟨hs.but, fun h x _ => h x, fun h => ⟨_, (State.PartySound.but (L := noListener) hs).homed h⟩, fun _ h => h.lawful⟩

theorem State.Amid.sound (h : s.Amid p noListener T t) : t.PartySound := h.party.sound fun _ => id

theorem State.Amid.speaking (h : s.Amid p L noListener t) (hs : s.SpeakingCurrent) : t.SpeakingCurrent :=
  (h.current hs).all fun _ => id

theorem State.Amid.lanesSound (h : s.Amid p noListener noListener t) (hp : p) (hs : s.LanesSound) : t.LanesSound :=
  (h.lawful hp hs).lanesSound h.sound (h.speaking hs.speaking)

/-- An act that begins where an earlier one has ended. -/
theorem State.Amid.after (h : s.Amid p noListener noListener t) (k : t.Amid p L T u) : s.Amid p L T u :=
  ⟨k.party, fun hs => k.current (h.speaking hs), fun hs => k.homed (h.speaking hs), fun hp hs => k.lawful hp (h.lanesSound hp hs)⟩

theorem State.Amid.keeps (h : s.Amid p noListener noListener t) (k : t.Keeps p u) : s.Amid p noListener noListener u :=
  h.after (k h.sound)

theorem State.Keeps.trans (h : s.Keeps p t) (k : t.Keeps p u) : s.Keeps p u := fun hs => (h hs).keeps k

theorem State.Keeps.foldl {α : Type} {f : State → α → State} (l : List α) (h : ∀ a ∈ l, ∀ s : State, s.Keeps p (f s a)) (s : State) :
    s.Keeps p (l.foldl f s) := by
  induction l generalizing s with
  | nil => exact .refl s
  | cons a l ih => exact (h a List.mem_cons_self s).trans (ih (fun c hc => h c (List.mem_cons_of_mem _ hc)) _)

theorem State.Keeps.ite {q : Prop} [Decidable q] (ht : q → s.Keeps p t) (hu : ¬ q → s.Keeps p u) :
    s.Keeps p (if q then t else u) := by
  split
  · exact ht ‹_›
  · exact hu ‹_›

/-! ## What each change makes of an act under way -/

theorem State.Amid.mono {M U : ListenerIx → Prop} (h : s.Amid p L T t) (hL : ∀ y, L y → M y) (hT : ∀ y, T y → U y) :
    s.Amid p M U t :=
  { h with
    party := h.party.mono hL
    current := fun hs => (h.current hs).mono hT }

theorem State.SameParty.dumb (h : t.SameParty u) : u.Dumb = t.Dumb := by
  unfold State.Dumb
  rw [h.roster]

/-- A change that the party does not see. -/
theorem State.Amid.same (h : s.Amid p L T t) (hs : t.SameParty u) (hl : t.Lawful t.Dumb → u.Lawful t.Dumb) : s.Amid p L T u where
  party := h.party.congr hs.roster hs.context hs.settings
  current := fun k => (h.current k).congr hs.roster hs.speaking
  homed := fun k => (h.homed k).imp fun _ hh => hh.congr hs.roster hs.speaking
  lawful := fun hp k => hs.dumb ▸ hl (h.lawful hp k)

theorem State.priorityOf_congr (h : t.roster = s.roster) : t.priorityOf = s.priorityOf := by
  unfold State.priorityOf
  rw [h]

/-- A change that neither the party nor the lanes, the wait list and the queues see. -/
structure State.Unseen (s t : State) : Prop extends s.SameParty t where
  laneUnit : t.laneUnit = s.laneUnit
  queues : t.intake.queues = s.intake.queues

theorem State.Unseen.lawful (h : s.Unseen t) (hl : s.Lawful D) : t.Lawful D :=
  hl.congr (by rw [h.laneUnit]) (by rw [h.laneUnit]) h.speaking h.queues (State.priorityOf_congr h.roster) h.call

theorem State.Unseen.keeps (h : s.Unseen t) : s.Keeps p t := fun hs => (State.Keeps.refl s hs).same h.toSameParty h.lawful

theorem State.Amid.unseen (h : s.Amid p L T t) (hu : t.Unseen u) : s.Amid p L T u := h.same hu.toSameParty hu.lawful

theorem State.OnlyReports.unseen (h : s.OnlyReports t) : s.Unseen t :=
  ⟨⟨h.roster, congrArg Pairing.context h.pairing, congrArg CallCtl.state h.callCtl, h.tables.settings,
    congrArg LaneUnit.speaking h.laneUnit⟩, h.laneUnit, congrArg Intake.queues h.intake⟩

theorem State.Amid.post (h : s.Amid p L T t) (r : Report) : s.Amid p L T (t.post r) := h.unseen (t.post_only r).unseen

theorem State.notice_dumb (s : State) (y : ListenerIx) : (s.notice y).Dumb = s.Dumb := by
  unfold State.Dumb
  rw [(s.notice_only y).roster]

/-- A notice (R61, R62). -/
theorem State.Amid.notice (h : s.Amid p L T t) (x : ListenerIx) : s.Amid p L (fun y => T y ∧ y ≠ x) (t.notice x) where
  party := h.party.notice x
  current := fun k => (h.current k).notice x
  homed := fun k => (h.homed k).imp fun _ hh => hh.notice x
  lawful := fun hp k => by
    obtain ⟨_, hh⟩ := h.homed k.speaking
    rw [State.notice_dumb]
    exact (h.lawful hp k).notice_homed hh x

/-- A change of a record and of its queue (R53): the listener it names awaits its notice. -/
theorem State.Lawful.setBud (h : s.Lawful s.Dumb) {r : Bud} (hr : r.link.supervised = false → s.intake.queues[b] = []) :
    (s.setBud b r).Lawful (s.setBud b r).Dumb :=
  { h with
    dumb := fun c hc => by
      unfold State.Dumb at hc
      rw [State.setBud_getElem] at hc
      split at hc
      · next e => exact e ▸ hr hc
      · exact h.dumb c hc }

section
variable {r : Bud} (hkin : t.roster.buds[b].Kin r) (hoffered : r.link = .offered ↔ t.roster.buds[b].link = .offered)
  (hquiet : r.link.supervised = false → t.intake.queues[b] = [] ∨ t.roster.buds[b].link.supervised = false)
include hkin hoffered hquiet

theorem State.Amid.setBud (h : s.Amid p L T t) :
    s.Amid p L (fun y => T y ∨ t.roster.buds[b].listener = some y) (t.setBud b r) where
  party := h.party.setBud hkin hoffered
  current := fun k => (h.current k).setBud h.party
  homed := fun k => (h.homed k).imp fun _ hh => hh.setBud r
  lawful := fun hp k => (h.lawful hp k).setBud fun hr => (hquiet hr).elim id fun hd => (h.lawful hp k).dumb b hd

/-- A record that speaks as before needs no notice. -/
theorem State.Amid.setBud_same (h : s.Amid p L T t) (hspeaks : r.speaks = t.roster.buds[b].speaks) : s.Amid p L T (t.setBud b r) :=
  { h.setBud hkin hoffered hquiet with current := fun k => (h.current k).setBud_same hspeaks }

end

/-- A queue emptied (R53). -/
theorem State.Lawful.emptyQueue (h : s.Lawful D) (b : BudIx) : (s.emptyQueue b).Lawful D := by
  have hqueue : ∀ c : BudIx, (s.emptyQueue b).intake.queues[c] = if b = c then [] else s.intake.queues[c] := fun c => getElem_set_fin ..
  obtain ⟨range, fields, one, speaks, carry, inj, idle, order, waiting, empty, complete, nodup, unbound, bound, dumb⟩ := h
  refine ⟨range, fields, one, speaks, carry, inj, idle, order, waiting, empty, complete, fun c => ?_, fun c hc => ?_,
    fun k c hk hc => ?_, fun c hc => ?_⟩
  · rw [hqueue]
    split
    · exact List.nodup_nil
    · exact nodup c
  · rw [hqueue]
    split
    · exact Nat.zero_le _
    · exact unbound c hc
  · rw [hqueue]
    split
    · exact ⟨Nat.zero_le _, Lane.inOrder_nil _, nofun⟩
    · exact bound k c hk hc
  · rw [hqueue]
    split
    · rfl
    · exact dumb c hc

theorem State.Amid.emptyQueue (h : s.Amid p L T t) (b : BudIx) : s.Amid p L T (t.emptyQueue b) :=
  h.same ⟨rfl, rfl, rfl, rfl, rfl⟩ fun hl => hl.emptyQueue b

/-- Steps 1 to 5 of a freeing (R17). -/
theorem State.Amid.unlinkBud (h : s.Amid p L T t) (hx : t.roster.buds[b].listener = some x) :
    s.Amid p (fun y => L y ∨ y = x) (fun y => T y ∨ y = x) (t.unlinkBud b) where
  party := State.PartyBut.unlinkBud hx h.party
  current := fun k => State.CurrentBut.unlinkBud hx h.party (h.current k)
  homed := fun k => (h.homed k).imp fun _ hh => State.Homed.unlinkBud hx h.party hh
  lawful := fun hp k => State.Lawful.unlinkBud hx (h.lawful hp k)

/-- Steps 6 to 8 of a freeing (R17, R18). -/
theorem State.Amid.finishDeparture (h : s.Amid p L T t) {d : Departure} (hd : d.listener = some x) :
    s.Amid p (fun y => L y ∧ y ≠ x) (fun y => T y ∧ y ≠ x) (t.finishDeparture d) where
  party := h.party.finishDeparture hd
  current := fun k => (h.current k).finishDeparture hd
  homed := fun k => (h.homed k).imp fun _ hh => hh.finishDeparture hd
  lawful := fun hp k => by
    obtain ⟨_, hh⟩ := h.homed k.speaking
    rw [State.finishDeparture_dumb]
    exact (h.lawful hp k).finishDeparture hd hh

/-! ## A freeing, and what the ports do -/

theorem State.freeBud_sound (hb : s.PartySound → s.roster.buds[b].link ≠ .free) (cause : FreeCause) :
    s.Keeps p (s.freeBud b cause) := fun hs => by
  obtain ⟨x, hx⟩ := State.PartyBut.listener_of_link (L := noListener) hs.but (hb hs)
  refine (((State.Keeps.refl s hs).unlinkBud hx).finishDeparture (d := s.departure b cause) hx).mono ?_ ?_ <;>
    exact fun y hy => hy.2 (hy.1.resolve_left id)

theorem State.post_sound (s : State) (r : Report) : s.Keeps p (s.post r) := (s.post_only r).unseen.keeps

theorem State.notice_sound (s : State) (x : ListenerIx) : s.Keeps p (s.notice x) := fun hs =>
  ((State.Keeps.refl s hs).notice x).mono (fun _ => id) fun _ h => h.1

theorem State.sendAir_unseen (s : State) (f : AirFrame) : s.Unseen (s.sendAir f) := ⟨⟨rfl, rfl, rfl, rfl, rfl⟩, rfl, rfl⟩

theorem State.sendAir_sound (s : State) (f : AirFrame) : s.Keeps p (s.sendAir f) := (s.sendAir_unseen f).keeps

theorem State.chooseVoice_sound (s : State) : s.Keeps p s.chooseVoice := s.chooseVoice_only.unseen.keeps

theorem State.countStray_sound (s : State) : s.Keeps p s.countStray := State.Unseen.keeps ⟨⟨rfl, rfl, rfl, rfl, rfl⟩, rfl, rfl⟩

/-! ## The lanes: a change of them alone -/

/-- What a cadence supposes of the party: speaking buds have queues, and the target depth is not 0. -/
theorem State.LanesSound.tracks (h : s.LanesSound) : s.Tracks s.Dumb where
  speaking := fun x b hb hd => by
    have hs := Bud.supervised_of_speaks (Roster.speakingBud_spec (h.speaking x ▸ hb)).2.1
    rw [State.Dumb, hs] at hd
    exact absurd hd nofun
  target := by
    have h4 := (h.party.settings 4).1
    exact Nat.lt_of_lt_of_le (by decide : 0 < 80) h4

/-- A change that leaves the records, the context, the settings and the recorded speaking buds, and keeps the laws of the
lanes. -/
theorem State.Keeps.of_records (hr : t.roster = s.roster) (hc : t.pairing.context = s.pairing.context)
    (hset : t.directives.settings = s.directives.settings) (hspeaking : t.laneUnit.speaking = s.laneUnit.speaking)
    (hl : p → s.LanesSound → t.Lawful s.Dumb) : s.Keeps p t := fun hs => by
  obtain ⟨party, current, homed, -⟩ := State.Keeps.refl (p := False) s hs
  refine ⟨party.congr hr hc hset, fun k => (current k).congr hr hspeaking, fun k => (homed k).imp fun _ hh => hh.congr hr hspeaking,
    fun hp k => ?_⟩
  have hdumb : t.Dumb = s.Dumb := by
    unfold State.Dumb
    rw [hr]
  exact hdumb ▸ hl hp k

theorem State.Keeps.of_same (h : s.SameParty t) (hl : p → s.LanesSound → t.Lawful s.Dumb) : s.Keeps p t :=
  .of_records h.roster h.context h.settings h.speaking hl

/-- The condition of the lanes' laws may come from the laws themselves. -/
theorem State.Keeps.supply {q : Prop} (h : s.Keeps q t) (hq : p → s.LanesSound → q) : s.Keeps p t := fun hs =>
  { h hs with lawful := fun hp k => (h hs).lawful (hq hp k) k }

end Sys2Proof.Machine
end

