-- ==== Sys2Proof/Proofs/RosterActs.lean ====
section
/-! PROOFS. The Roster's acts keep the laws: arrivals, PARK, ADJUST, LEAVE, supervision, and the records that the Mix Engine
and BOND mark (R5 to R8, R21, R38 to R42, R110). -/

namespace Sys2Proof.Machine

variable {p : Prop} {s t u : State} {L T U : ListenerIx → Prop} {D : BudIx → Prop} {x : ListenerIx} {b : BudIx}

/-! ## Records that keep their places -/

/-- An arrival's record keeps its place, and is then in JOINING, LIVE or FADING (R5). -/
theorem Bud.arrive_kin {r : Bud} (hfree : r.link ≠ .free) (hoffered : r.link ≠ .offered) (body : Body) (set : Settings) :
    r.Kin (r.arrive body set) ∧ (r.arrive body set).link.supervised = true := by
  unfold Bud.arrive
  rw [Bud.hear_eq, Bud.qualify_eq, Bud.credit_eq]
  have hlink : ∀ l : LinkState, l.supervised = true → (l = .free ↔ r.link = .free) := fun l hl =>
    ⟨fun e => absurd hl (by rw [e]; exact nofun), fun e => absurd e hfree⟩
  have hqualified : ∀ (q : Prop) [Decidable q], (if q then LinkState.live else .joining).supervised = true := fun q _ => by
    split <;> rfl
  obtain ⟨link, _⟩ := r
  suffices hsup : LinkState.supervised _ = true from ⟨⟨rfl, rfl, rfl, rfl, hlink _ hsup, fun h => absurd h hfree⟩, hsup⟩
  dsimp only at hfree hoffered ⊢
  cases link with
  | free => exact absurd rfl hfree
  | offered => exact absurd rfl hoffered
  | joining | parked =>
    simp only [if_true, reduceCtorEq, if_false]
    exact hqualified _
  | live | fading => rfl

theorem Bud.passPeriod_kin (r : Bud) (hfree : r.link ≠ .free) :
    r.Kin r.passPeriod ∧ r.passPeriod.link = r.link ∧ r.passPeriod.talk = r.talk := by
  unfold Bud.passPeriod
  split
  · exact ⟨⟨rfl, rfl, rfl, rfl, Iff.rfl, fun h => absurd h hfree⟩, rfl, rfl⟩
  · exact ⟨⟨rfl, rfl, rfl, rfl, Iff.rfl, fun h => absurd h hfree⟩, rfl, rfl⟩

theorem Bud.speaks_congr {r q : Bud} (hl : q.link = r.link) (ht : q.talk = r.talk) : q.speaks = r.speaks := by
  unfold Bud.speaks
  rw [hl, ht]

theorem State.Amid.noticeFor (h : s.Amid p L T t) (y : Option ListenerIx) :
    s.Amid p L (fun z => T z ∧ y ≠ some z) (t.noticeFor y) := by
  cases y with
  | none => exact h.mono (fun _ => id) fun _ hz => ⟨hz, nofun⟩
  | some y => exact (h.notice y).mono (fun _ => id) fun _ hz => ⟨hz.1, fun e => hz.2 (Option.some.inj e).symm⟩

/-! ## Arrivals (R45) -/

theorem queueUnbound_sound {q : List Entry} (e : Entry) (d : Discards) (hn : (q.map (·.seq)).Nodup) (hl : q.length ≤ 2) :
    ((queueUnbound e q d).1.map (·.seq)).Nodup ∧ (queueUnbound e q d).1.length ≤ 2 := by
  by_cases hq : ∃ x ∈ q, x.seq = e.seq
  · rw [queueUnbound_of_queued d hq]
    exact ⟨hn, hl⟩
  · push Not at hq
    rw [queueUnbound_of_new d hq]
    refine ⟨List.Nodup.sublist (((suffix_keepLast 2 _).sublist).map _) ?_, keepLast_length _ _⟩
    rw [List.map_append, List.map_singleton, List.nodup_append_comm]
    refine List.nodup_cons.2 ⟨fun he => ?_, hn⟩
    obtain ⟨a, ha, hs⟩ := List.mem_map.1 he
    exact hq a ha hs

theorem Feed.makeRoom_binding (f : Feed) : f.makeRoom.lane.bud = f.lane.bud ∧ f.makeRoom.lane.listener = f.lane.listener := by
  unfold Feed.makeRoom
  split
  · exact ⟨rfl, rfl⟩
  · split <;> exact ⟨rfl, rfl⟩

theorem Feed.place_binding (f : Feed) (e : Entry) : (f.place e).lane.bud = f.lane.bud ∧ (f.place e).lane.listener = f.lane.listener := by
  unfold Feed.place
  split
  · next x _ =>
    have hmoved := Feed.move_same { f with queue := insertByDistance x e f.queue }
    exact ⟨hmoved.bud, hmoved.listener⟩
  · exact ⟨rfl, rfl⟩

/-- An arrival leaves a bound lane's bud and listener (R48 to R50). -/
theorem Feed.arrive_binding (f : Feed) (e : Entry) :
    (f.arrive e).lane.bud = f.lane.bud ∧ (f.arrive e).lane.listener = f.lane.listener := by
  unfold Feed.arrive
  split
  · have hmoved := Feed.move_same { f with lane := { f.lane with expected := some e.seq }, queue := [e] }
    exact ⟨hmoved.bud, hmoved.listener⟩
  · split
    · exact ⟨rfl, rfl⟩
    · split
      · exact ⟨rfl, rfl⟩
      · split
        · obtain ⟨hbud, hlistener⟩ := f.makeRoom.place_binding e
          obtain ⟨hbud', hlistener'⟩ := f.makeRoom_binding
          exact ⟨hbud.trans hbud', hlistener.trans hlistener'⟩
        · exact f.place_binding e

/-- Intake's step of an arrival keeps the laws of the lanes (R45). -/
theorem State.Lawful.intakeArrival (h : s.Lawful D) (hd : ¬ D b) (e : Entry) : (s.intakeArrival b e).Lawful D := by
  cases hk : s.laneUnit.boundLane b with
  | some k =>
    obtain ⟨⟨hc, hb⟩, -⟩ := LaneUnit.boundLane_eq_some.1 hk
    obtain ⟨hbud, hlistener⟩ := (s.feed k b).arrive_binding e
    rw [s.intakeArrival_of_bound e hk]
    exact State.Laws.setFeed h hc hb ((State.Laws.feed h hc hb).arrive e) (hbud.trans hb) hlistener hd
  | none =>
    have hunbound := LaneUnit.boundLane_eq_none.1 hk
    rw [s.intakeArrival_of_unbound e hk]
    obtain ⟨range, fields, one, speaks, carry, inj, idle, order, waiting, empty, complete, nodup, unbound, bound, dumb⟩ := h
    obtain ⟨hnodup, hlength⟩ := queueUnbound_sound e s.intake.discards[b] (nodup b) (unbound b fun k hc hb => hunbound k ⟨hc, hb⟩)
    have hqueue : ∀ c : BudIx, (s.intake.queues.set b (queueUnbound e s.intake.queues[b] s.intake.discards[b]).1)[c] =
        if b = c then (queueUnbound e s.intake.queues[b] s.intake.discards[b]).1 else s.intake.queues[c] := fun c => getElem_set_fin ..
    refine ⟨range, fields, one, speaks, carry, inj, idle, order, waiting, empty, complete, fun c => ?_, fun c hc => ?_,
      fun k c hc hb => ?_, fun c hc => ?_⟩
    · rw [hqueue]
      split
      · exact hnodup
      · exact nodup c
    · rw [hqueue]
      split
      · exact hlength
      · exact unbound c hc
    · rw [hqueue, if_neg fun hbc : b = c => hunbound k ⟨hc, hbc ▸ hb⟩]
      exact bound k c hc hb
    · rw [hqueue, if_neg fun hbc : b = c => hd (hbc ▸ hc)]
      exact dumb c hc

theorem State.intakeArrival_sameParty (s : State) (b : BudIx) (e : Entry) : s.SameParty (s.intakeArrival b e) := by
  cases hk : s.laneUnit.boundLane b with
  | none =>
    rw [s.intakeArrival_of_unbound e hk]
    exact ⟨rfl, rfl, rfl, rfl, rfl⟩
  | some k =>
    rw [s.intakeArrival_of_bound e hk]
    exact ⟨rfl, rfl, rfl, rfl, rfl⟩

/-- Intake does not read the records that the Roster keeps (R45). -/
theorem State.intakeArrival_setBud (s : State) (b : BudIx) (e : Entry) (r : Bud) :
    (s.intakeArrival b e).setBud b r = (s.setBud b r).intakeArrival b e := by
  cases hk : s.laneUnit.boundLane b with
  | none => rw [s.intakeArrival_of_unbound e hk, State.intakeArrival_of_unbound (s := s.setBud b r) e hk]; rfl
  | some k => rw [s.intakeArrival_of_bound e hk, State.intakeArrival_of_bound (s := s.setBud b r) e hk]; rfl

theorem State.arrival_sound (s : State) (h : Handle) (e : Entry) : s.Keeps p (s.arrival h e) := by
  cases hb : s.roster.budByHandle h with
  | none =>
    rw [State.arrival_of_stray e fun b hk => absurd (hb.symm.trans hk) nofun]
    exact s.countStray_sound
  | some b =>
    by_cases ho : s.roster.buds[b].link = .offered
    · rw [State.arrival_of_stray e fun c hc => Option.some.inj (hb.symm.trans hc) ▸ ho]
      exact s.countStray_sound
    · intro hs
      obtain ⟨hfree, -⟩ := Roster.budByHandle_some hb
      obtain ⟨hkin, hsup⟩ := Bud.arrive_kin hfree ho e.body s.directives.settings
      have hnot : ¬ (s.setBud b (s.roster.buds[b].arrive e.body s.directives.settings)).Dumb b := fun hd => by
        unfold State.Dumb at hd
        rw [State.setBud_getElem, if_pos rfl, hsup] at hd
        exact absurd hd nofun
      have hoffered : (s.roster.buds[b].arrive e.body s.directives.settings).link = .offered ↔ s.roster.buds[b].link = .offered :=
        ⟨fun h => absurd hsup (by rw [h]; exact nofun), fun h => absurd h ho⟩
      have hquiet : (s.roster.buds[b].arrive e.body s.directives.settings).link.supervised = false →
          s.intake.queues[b] = [] ∨ s.roster.buds[b].link.supervised = false := fun h => absurd (hsup.symm.trans h) nofun
      rw [State.arrival_of_known e hb ho, State.rosterArrival, State.intakeArrival_roster, State.intakeArrival_directives]
      rw [State.intakeArrival_setBud]
      split
      · next heq =>
        exact ((State.Keeps.refl s hs).setBud_same hkin hoffered hquiet (Bud.speaks_congr heq.1.symm heq.2.symm)).same
          (State.intakeArrival_sameParty _ b e) fun hl => hl.intakeArrival hnot e
      · refine ((((State.Keeps.refl s hs).setBud hkin hoffered hquiet).same (State.intakeArrival_sameParty _ b e)
          fun hl => hl.intakeArrival hnot e).noticeFor _).mono (fun _ => id) fun y hy => hy.2 ?_
        exact hkin.listener.trans (hy.1.resolve_left id)

/-! ## PARK (R39) -/

theorem State.parkBud_sound (hb : s.roster.buds[b].link.supervised = true) : s.Keeps p (s.parkBud b) := fun hs => by
  have hkin : s.roster.buds[b].Kin s.roster.buds[b].parkedNow :=
    ⟨rfl, rfl, rfl, rfl, ⟨nofun, fun h => absurd hb (by rw [h]; exact nofun)⟩, fun h => absurd hb (by rw [h]; exact nofun)⟩
  have hreorder : (s.setBud b s.roster.buds[b].parkedNow).emptyQueue b = (s.emptyQueue b).setBud b s.roster.buds[b].parkedNow := rfl
  rw [State.parkBud, hreorder]
  have hoffered : s.roster.buds[b].link ≠ .offered := fun h => absurd hb (by rw [h]; exact nofun)
  have hempty : s.Amid p noListener noListener (s.emptyQueue b) := (State.Keeps.refl s hs).emptyQueue b
  refine ((State.Amid.setBud (t := s.emptyQueue b) hkin ⟨nofun, fun h => absurd h hoffered⟩
    (fun _ => .inl ((getElem_set_fin ..).trans (if_pos rfl))) hempty).noticeFor _).mono (fun _ => id) fun y hy => ?_
  exact hy.2 (hy.1.resolve_left id)

theorem State.parkRequest_sound (s : State) (h : Handle) : s.Keeps p (s.parkRequest h) := by
  unfold State.parkRequest
  split
  · split
    · next hl => exact State.parkBud_sound (by rw [hl]; rfl)
    · next hl => exact State.parkBud_sound (by rw [hl]; rfl)
    · next hl => exact State.parkBud_sound (by rw [hl]; rfl)
    · exact .refl s
    · exact s.countStray_sound
    · exact s.countStray_sound
  · exact s.countStray_sound

/-! ## LEAVE, HANDLE DROPPED and EVICT (R38, R40, R41) -/

theorem State.leaveRequest_sound (s : State) (h : Handle) : s.Keeps p (s.leaveRequest h) := by
  unfold State.leaveRequest
  split
  · next hb => exact State.freeBud_sound (fun _ => (Roster.budByHandle_some hb).1) _
  · exact s.countStray_sound

theorem State.handleDroppedNotice_sound (s : State) (h : Handle) : s.Keeps p (s.handleDroppedNotice h) := by
  unfold State.handleDroppedNotice
  split
  · next hb => exact State.freeBud_sound (fun _ => (Roster.budByHandle_some hb).1) _
  · exact .refl s

theorem State.evictBud_sound (s : State) (hb : s.roster.buds[b].link ≠ .free) : s.Keeps p (s.evictBud b) := by
  unfold State.evictBud
  split
  · next h _ => exact (s.sendAir_sound (.dismiss h b)).trans (State.freeBud_sound (s := s.sendAir (.dismiss h b)) (fun _ => hb) .evict)
  · exact State.freeBud_sound (fun _ => hb) _

theorem State.evictDirective_sound (s : State) (n : Byte) : s.Keeps p (s.evictDirective n).1 := by
  unfold State.evictDirective
  split
  · exact .refl s
  · split
    · exact .refl s
    · next hb =>
      exact s.evictBud_sound hb

/-! ## ADJUST (R21) -/

/-- Listeners written in place: those whose mute or primary changes await their notice (R16). -/
theorem State.Amid.relisten (h : s.Amid p L T t) (hbuds : u.roster.buds = t.roster.buds)
    (hplace : ∀ y : ListenerIx, u.roster.listeners[y].members = t.roster.listeners[y].members ∧
      u.roster.listeners[y].inUse = t.roster.listeners[y].inUse ∧ u.roster.listeners[y].setTag = t.roster.listeners[y].setTag)
    (hcontext : u.pairing.context = t.pairing.context) (hset : u.directives.settings.InRange)
    (hspeaking : u.laneUnit.speaking = t.laneUnit.speaking)
    (hU : ∀ y : ListenerIx, ¬ U y → u.roster.listeners[y].mute = t.roster.listeners[y].mute ∧
      u.roster.listeners[y].primary = t.roster.listeners[y].primary)
    (hl : t.Lawful t.Dumb → u.Lawful t.Dumb) : s.Amid p L (fun y => T y ∨ U y) u where
  party := by
    refine h.party.kin ⟨fun b => ?_, fun y => (hplace y).1, fun y => (hplace y).2.1, fun y => (hplace y).2.2⟩ hset ?_
    · rw [hbuds]
      exact .refl _
    · unfold State.ContextSound
      rw [hbuds, hcontext]
      exact h.party.context
  current := fun k y hy => by
    obtain ⟨hT, hU'⟩ := not_or.1 hy
    rw [hspeaking]
    refine (h.current k y hT).trans (Roster.speakingBud_congr (r := t.roster) (q := u.roster) (hplace y).2.1 (hU y hU').1 (hU y hU').2
      (hplace y).1 fun c _ => ?_).symm
    rw [hbuds]
  homed := fun k => (h.homed k).imp fun _ hh =>
    ⟨fun y c hc => hh.members y c ((hplace y).1 ▸ hc), by rw [hspeaking]; exact hh.speaking⟩
  lawful := fun hp k => by
    have hdumb : u.Dumb = t.Dumb := by
      unfold State.Dumb
      rw [hbuds]
    rw [hdumb]
    exact hl (h.lawful hp k)

theorem State.adjustFrom_sound (s : State) (b : BudIx) (h : Handle) (seq : Byte) (f : AdjustFields) :
    s.Keeps p (s.adjustFrom b h seq f) := by
  unfold State.adjustFrom
  split
  · exact s.sendAir_sound _
  · next x _ =>
    dsimp only
    split
    · intro hs
      have hset := (State.Keeps.refl (p := p) s hs).relisten (u := s.setListener x (s.roster.listeners[x].adjust f))
        (U := fun y => x = y ∧ (s.roster.listeners[x].adjust f).mute ≠ s.roster.listeners[x].mute) rfl (fun y => by
          rw [State.setListener_getElem]
          split
          · next e => exact e ▸ ⟨rfl, rfl, rfl⟩
          · exact ⟨rfl, rfl, rfl⟩) rfl hs.settings rfl (fun y hy => by
          rw [State.setListener_getElem]
          split
          · next e =>
            subst e
            exact ⟨not_ne_iff.1 fun hne => hy ⟨rfl, hne⟩, rfl⟩
          · exact ⟨rfl, rfl⟩) fun hl => hl.setListener (.inl rfl)
      split
      · next heq =>
        exact (hset.mono (fun _ => id) fun y hy => absurd heq (hy.resolve_left id).2).keeps (State.sendAir_sound _ _)
      · exact ((hset.notice x).mono (fun _ => id) fun y hy => hy.2 (hy.1.resolve_left id).1.symm).keeps (State.sendAir_sound _ _)
    · exact s.sendAir_sound _

theorem State.adjustRequest_sound (s : State) (h : Handle) (seq : Byte) (f : AdjustFields) : s.Keeps p (s.adjustRequest h seq f) := by
  unfold State.adjustRequest
  split
  · exact s.adjustFrom_sound _ _ _ _
  · exact s.countStray_sound

/-! ## Supervision (R6) -/

/-- The listeners of buds lost and not yet wholly freed (R17). -/
def awaits (lost : List Departure) (x : ListenerIx) : Prop := ∃ d ∈ lost, d.listener = some x

/-- Supervision under way is an act under way, in which the lost buds' listeners await their emptying and their notice. -/
structure Supervision.Follows (p : Prop) (s : State) (a : Supervision) : Prop where
  listeners : ∀ d ∈ a.lost, ∃ x, d.listener = some x
  amid : s.Amid p (awaits a.lost) (awaits a.lost) a.state

theorem Supervision.Follows.visit {a : Supervision} (h : a.Follows p s) (b : BudIx) : (a.visit b).Follows p s := by
  unfold Supervision.visit
  dsimp only
  split
  · next hsup =>
    have hfree : a.state.roster.buds[b].link ≠ .free := fun e => absurd hsup (by rw [e]; exact nofun)
    obtain ⟨hkin, hlink, htalk⟩ := Bud.passPeriod_kin _ hfree
    have hpassed := h.amid.setBud_same hkin (by rw [hlink]) (fun hq => .inr (by rw [← hlink]; exact hq)) (Bud.speaks_congr hlink htalk)
    have hrecord : (a.state.setBud b a.state.roster.buds[b].passPeriod).roster.buds[b] = a.state.roster.buds[b].passPeriod := by
      rw [State.setBud_getElem, if_pos rfl]
    split
    · obtain ⟨x, hx⟩ := hpassed.party.listener_of_link (b := b) (by rw [hrecord, hlink]; exact hfree)
      have hdeparture : ((a.state.setBud b a.state.roster.buds[b].passPeriod).departure b .noArrivals).listener = some x := hx
      refine ⟨fun d hd => ?_, (hpassed.unlinkBud hx).mono ?_ ?_⟩
      · rcases List.mem_append.1 hd with hd | hd
        · exact h.listeners d hd
        · exact ⟨x, List.mem_singleton.1 hd ▸ hdeparture⟩
      all_goals
        rintro y (⟨d, hd, hy⟩ | rfl)
        · exact ⟨d, List.mem_append_left _ hd, hy⟩
        · exact ⟨_, List.mem_append_right _ (List.mem_singleton_self _), hdeparture⟩
    · split
      · next hfades =>
        have hlive : a.state.roster.buds[b].link = .live := by
          unfold Bud.fades at hfades
          rw [Bool.and_eq_true, hlink] at hfades
          exact eq_of_beq hfades.1
        rw [← hrecord] at hlink htalk
        have hnow := hlink.trans hlive
        refine ⟨h.listeners, hpassed.setBud_same (b := b) (r := { a.state.roster.buds[b].passPeriod with link := .fading }) ?_ ?_ nofun ?_⟩
        · rw [hrecord]
          rw [hrecord] at hnow
          exact ⟨rfl, rfl, rfl, rfl, ⟨nofun, fun e => absurd (hnow.symm.trans e) nofun⟩, fun e => absurd (hnow.symm.trans e) nofun⟩
        · exact ⟨nofun, fun e => absurd (hnow.symm.trans e) nofun⟩
        · unfold Bud.speaks
          rw [hnow, hrecord]
          rfl
      · exact ⟨h.listeners, hpassed⟩
  · exact h

theorem Supervision.Follows.visits {a : Supervision} (h : a.Follows p s) (order : List BudIx) :
    (order.foldl Supervision.visit a).Follows p s := by
  induction order generalizing a with
  | nil => exact h
  | cons b order ih => exact ih (h.visit b)

/-- The lost buds' freeings are ended one after another (R17). -/
theorem State.Amid.finishDepartures (lost : List Departure) (hx : ∀ d ∈ lost, ∃ x, d.listener = some x)
    (h : s.Amid p (awaits lost) (awaits lost) t) : s.Amid p noListener noListener (lost.foldl State.finishDeparture t) := by
  induction lost generalizing t with
  | nil => exact h.mono (fun _ ⟨_, hd, _⟩ => absurd hd List.not_mem_nil) fun _ ⟨_, hd, _⟩ => absurd hd List.not_mem_nil
  | cons d lost ih =>
    obtain ⟨⟨x, hd⟩, hx⟩ := List.forall_mem_cons.1 hx
    refine ih hx ((h.finishDeparture hd).mono ?_ ?_) <;>
    · rintro y ⟨⟨d', hd', hy⟩, hne⟩
      rcases List.mem_cons.1 hd' with rfl | hd'
      · exact absurd (Option.some.inj (hy.symm.trans hd)) hne
      · exact ⟨d', hd', hy⟩

/-- Supervision (R6). -/
theorem State.supervise_sound (s : State) (order : List BudIx) : s.Keeps p (s.supervise order) := fun hs => by
  have hbegun : Supervision.Follows p s { state := s, lost := [], faded := [] } :=
    ⟨nofun, (State.Keeps.refl s hs).mono (fun _ => False.elim) fun _ => False.elim⟩
  obtain ⟨hlisteners, hamid⟩ := hbegun.visits order
  refine (hamid.finishDepartures _ hlisteners).keeps (State.Keeps.foldl _ (fun y _ u => ?_) _)
  cases y with
  | none => exact .refl u
  | some y => exact u.notice_sound y

/-! ## Marks on a record (R42, R110) -/

/-- A record marked in fields that the laws do not read. -/
theorem State.setBud_sound {r : Bud} (hkin : s.roster.buds[b].Kin r) (hlink : r.link = s.roster.buds[b].link)
    (htalk : r.talk = s.roster.buds[b].talk) : s.Keeps p (s.setBud b r) := fun hs =>
  (State.Keeps.refl s hs).setBud_same hkin (by rw [hlink]) (fun h => .inr (hlink ▸ h)) (Bud.speaks_congr hlink htalk)

theorem State.sendDownlink_sound (s : State) (r : Recipient) (f : AirFrame) : s.Keeps p (s.sendDownlink r f) := by
  unfold State.sendDownlink
  dsimp only
  split
  · exact s.sendAir_sound f
  · next hfree =>
    exact (s.sendAir_sound f).trans (State.setBud_sound (s := s.sendAir f)
      ⟨rfl, rfl, rfl, rfl, Iff.rfl, fun h => absurd h hfree⟩ rfl rfl)

theorem State.bondDirective_sound (s : State) (n : Byte) : s.Keeps p (s.bondDirective n).1 := by
  have henter : ∀ (b : BudIx) (i : Fin 8), s.roster.buds[b].link ≠ .free → s.Keeps p (s.enterBond b i) := fun b i hfree =>
    (State.setBud_sound (b := b) (r := { s.roster.buds[b] with bonded := true })
      ⟨rfl, rfl, rfl, rfl, Iff.rfl, fun h => absurd h hfree⟩ rfl rfl).trans (State.Unseen.keeps ⟨⟨rfl, rfl, rfl, rfl, rfl⟩, rfl, rfl⟩)
  unfold State.bondDirective
  split
  · exact .refl s
  · split
    · exact .refl s
    · split
      · exact .refl s
      · next hfree =>
        split
        · exact .refl s
        · exact henter _ _ hfree

end Sys2Proof.Machine
end

