-- ==== Sys2Proof/Proofs/CadenceActs.lean ====
section
/-! PROOFS. The lanes' shares, the changes of call state, the taking of directives and the cadences keep the laws
(R51, R72, R77 to R79, R104, R117 to R125). -/

namespace Sys2Proof.Machine

variable {p : Prop} {s t u : State} {D : BudIx → Prop} {k : LaneIx} {b : BudIx}

/-! ## The lanes (R51, R71, R72) -/

theorem State.moveFor_sound (s : State) (b : BudIx) : s.Keeps p (s.moveFor b) := by
  unfold State.moveFor
  split
  · next k hk =>
    obtain ⟨⟨hc, hb⟩, -⟩ := LaneUnit.boundLane_eq_some.1 hk
    refine .of_same ⟨rfl, rfl, rfl, rfl, rfl⟩ fun _ h => ?_
    obtain ⟨x, b', -, -, hb', hσ, -⟩ := h.lawful.carrying hc
    obtain rfl := Option.some.inj (hb.symm.trans hb')
    obtain ⟨hunmoved, -⟩ := State.Laws.feed h.lawful hc hb
    have same := (s.feed k b).move_same
    exact State.Laws.setFeed h.lawful hc hb hunmoved.move (same.bud.trans hb) same.listener (h.tracks.speaking x b hσ)
  · exact .refl s

theorem State.countMixing_unseen (s : State) : s.SameParty s.countMixing ∧ ∀ D, s.Lawful D → s.countMixing.Lawful D :=
  ⟨⟨rfl, rfl, rfl, rfl, rfl⟩, fun _ h => h.congr rfl rfl rfl rfl rfl rfl⟩

/-- A lane's share and the count that follows it (R72). -/
theorem State.laneShare_sound (s : State) (k : LaneIx) : s.Keeps p (s.laneAtCadence k s.laneUnit.lanes[k].state).countMixing := by
  obtain ⟨hsame, hlawful⟩ := (s.laneAtCadence k s.laneUnit.lanes[k].state).countMixing_unseen
  exact .of_same ((s.laneAtCadence_sameParty k _).trans hsame) fun _ h => hlawful _ (h.lawful.laneAtCadence h.tracks k)

theorem State.examineShare_sound (hk : s.laneUnit.lanes[k].state = .priming) : s.Keeps p (s.examineLane k).countMixing := by
  have hshare := s.laneShare_sound (p := p) k
  rw [hk] at hshare
  exact hshare

theorem State.drainShare_sound (hk : s.laneUnit.lanes[k].state = .draining) : s.Keeps p (s.drainShare k) := by
  have hshare := s.laneShare_sound (p := p) k
  rw [hk] at hshare
  exact hshare

theorem State.grantHead_sound (hc : s.callCtl.state = .inCall) (hk : s.laneUnit.lanes[k].state = .vacant) :
    s.Keeps p (s.grantHead k) :=
  .of_same (s.grantHead_only k).sameParty fun _ h => by
    have hlaws : s.Laws .inCall (fun x => s.laneUnit.speaking[x]) (fun _ => False) s.Dumb := hc ▸ h.lawful
    exact State.LawfulFrom.of_bindings (hc ▸ hlaws.grantHead hk) (s.grantHead_only k)

/-- The Lane Unit's taking of a cadence, by the states that the lanes had (R72, R118). -/
theorem State.lanesTake_sound (s : State) {before : Vector LaneState 3} {order : List LaneIx} (ho : order.Nodup)
    (hbefore : p → (∀ k : LaneIx, before[k] = .vacant) ∨ ∀ k : LaneIx, before[k] = s.laneUnit.lanes[k].state) :
    s.Keeps p (s.lanesTake before order) :=
  .of_same (s.lanesTake_sameParty before order) fun hp h => h.lawful.lanesTake h.tracks ho (hbefore hp)

/-! ## Changes of call state (R77 to R79, R126) -/

theorem State.changeCall_state (s : State) (new : CallState) (cause : ChangeCause) : (s.changeCall new cause).callCtl.state = new :=
  congrArg CallCtl.state (State.postEvent_only _ _).callCtl

/-- The laws when the call state has changed and the Lane Unit has yet to act. -/
theorem State.changeCall_lawfulFrom (hu : u = { s with callCtl := u.callCtl }) (new : CallState) (cause : ChangeCause)
    (h : s.Lawful D) : (u.changeCall new cause).LawfulFrom s.callCtl.state D := by
  have ho : ({ s with callCtl := { u.callCtl with state := new } } : State).OnlyReports (u.changeCall new cause) := by
    rw [hu]
    exact State.postEvent_only _ _
  unfold State.LawfulFrom
  rw [ho.laneUnit]
  exact State.Laws.congr h (by rw [ho.laneUnit]) (by rw [ho.laneUnit]) (by rw [ho.intake]) (State.priorityOf_congr ho.roster)

/-- A change of call state, after the counts and the timer, and the Lane Unit's act on it. -/
theorem State.recall_sound (hu : u = { s with callCtl := u.callCtl }) {new : CallState} {cause : ChangeCause}
    (hb : (u.changeCall new cause).OnlyBindings t)
    (hl : ∀ D, (u.changeCall new cause).LawfulFrom s.callCtl.state D → (u.changeCall new cause).callCtl.state = new → t.Lawful D) :
    s.Keeps p t := by
  have ho : ({ s with callCtl := { u.callCtl with state := new } } : State).OnlyReports (u.changeCall new cause) := by
    rw [hu]
    exact State.postEvent_only _ _
  exact .of_records (hb.only.roster.trans ho.roster) (congrArg Pairing.context (hb.only.pairing.trans ho.pairing))
    (hb.sameParty.settings.trans ho.tables.settings) (hb.speaking.trans (congrArg LaneUnit.speaking ho.laneUnit))
    fun _ h => hl _ (State.changeCall_lawfulFrom hu new cause h.lawful) (State.changeCall_state _ _ _)

/-- A change of the Call Controller's counts and timer. -/
theorem State.callCounts_sound {c' : CallCtl} (hc : c'.state = s.callCtl.state) : s.Keeps p { s with callCtl := c' } :=
  .of_same ⟨rfl, rfl, hc, rfl, rfl⟩ fun _ h => h.lawful.congr rfl rfl rfl rfl rfl hc

theorem State.autoHold_sound (hc : s.callCtl.state ≠ .noCall) : s.Keeps p s.autoHold :=
  State.recall_sound (u := s.zeroFills) rfl (State.lanesHold_only _) fun _ h hnew => h.lanesHold hnew hc

/-- The Lane Unit's entry into IN CALL from NO CALL (R79). -/
theorem State.begin_sound (hc : s.callCtl.state = .noCall) (hu : u = { s with callCtl := u.callCtl }) (cause : ChangeCause) :
    s.Keeps p ((u.changeCall .inCall cause).lanesEnter true) := by
  refine State.recall_sound hu (State.lanesEnter_only _ true) fun D h hnew => ?_
  rw [hc] at h
  exact h.lanesBegin hnew

theorem State.beginCallDirective_sound (s : State) : s.Keeps p s.beginCallDirective.1 := by
  unfold State.beginCallDirective
  split
  · next hc =>
    dsimp only
    exact State.begin_sound (u := { s with callCtl := { s.callCtl with fills := 0, fillTotal := 0, timer := some .ms7_5 } }) hc rfl _
  · exact .refl s
  · exact .refl s

theorem State.endCall_sound (s : State) : s.Keeps p ((s.zeroFills.armTimer .ms5).changeCall .noCall .endCall).lanesEnd :=
  State.recall_sound (u := s.zeroFills.armTimer .ms5) rfl (State.lanesEnd_only _) fun _ h hnew => h.lanesEnd hnew

theorem State.endCallDirective_sound (s : State) : s.Keeps p s.endCallDirective.1 := by
  unfold State.endCallDirective
  split
  · exact s.endCall_sound
  · exact s.endCall_sound
  · exact .refl s

theorem State.holdDirective_sound (s : State) : s.Keeps p s.holdDirective.1 := by
  unfold State.holdDirective
  split
  · next hc =>
    exact State.recall_sound (u := s.zeroFills.armTimer .ms5) rfl (State.lanesHold_only _) fun _ h hnew =>
      h.lanesHold hnew (by rw [hc]; exact nofun)
  · next hc =>
    refine State.recall_sound (u := s) rfl (.refl _) fun D h hnew => ?_
    unfold State.Lawful
    rw [hnew]
    rw [hc] at h
    exact State.Laws.recall h (fun _ => State.Laws.idle h nofun) nofun nofun
  · exact .refl s
  · exact .refl s

/-- The Lane Unit's entry into IN CALL from HOLDING (R79). -/
theorem State.resume_sound (hc : s.callCtl.state ≠ .noCall) (hu : u = { s with callCtl := u.callCtl }) (cause : ChangeCause) :
    s.Keeps p ((u.changeCall .inCall cause).lanesEnter false) :=
  State.recall_sound hu (State.lanesEnter_only _ false) fun _ h hnew => h.lanesResume hnew hc

theorem State.resumeDirective_sound (s : State) : s.Keeps p s.resumeDirective.1 := by
  unfold State.resumeDirective
  split
  · next hc =>
    have hcalled : s.callCtl.state ≠ .noCall := by rw [hc]; exact nofun
    dsimp only
    exact State.resume_sound (u := s.zeroFills.armTimer .ms7_5) hcalled rfl .resume
  · exact .refl s
  · exact .refl s
  · exact .refl s

/-! ## Taking a frame and taking a directive (R130, R141, R146) -/

theorem State.endCut_sound (s : State) (link : Link) : s.Keeps p (s.endCut link) := by
  cases link <;> exact State.Unseen.keeps ⟨⟨rfl, rfl, rfl, rfl, rfl⟩, rfl, rfl⟩

theorem State.consumeMask_sound (s : State) : s.Keeps p s.consumeMask := State.Unseen.keeps ⟨⟨rfl, rfl, rfl, rfl, rfl⟩, rfl, rfl⟩

theorem State.atPort_sound (s : State) (link : Link) (take : State → State) (h : s.Keeps p (take s)) :
    s.Keeps p (s.atPort link take) := by
  unfold State.atPort
  exact .ite (fun _ => .ite (fun _ => s.endCut_sound link) fun _ => h) fun _ => .refl s

theorem State.takeDirective_sound (s : State) (code seq : Byte) (q : List Byte) (act : Option Word → State → State × Option Reply)
    (h : directiveLength code.toNat q.length = true → s.consumeMask.Keeps p (act s.directives.mask s.consumeMask).1) :
    s.Keeps p (s.takeDirective code seq q act) := by
  refine s.atPort_sound .voice _ (s.consumeMask_sound.trans ?_)
  split
  · next hfits =>
    unfold State.conclude
    split
    · exact (h hfits).trans (State.post_sound _ _)
    · exact h hfits
  · exact State.post_sound _ _

theorem State.takeCall_sound (s : State) (what : CallDirective) (seq : Byte) (q : List Byte) : s.Keeps p (s.takeCall what seq q) := by
  cases what with
  | beginCall => exact s.takeDirective_sound _ _ _ _ fun _ => State.beginCallDirective_sound _
  | endCall => exact s.takeDirective_sound _ _ _ _ fun _ => State.endCallDirective_sound _
  | hold => exact s.takeDirective_sound _ _ _ _ fun _ => State.holdDirective_sound _
  | resume => exact s.takeDirective_sound _ _ _ _ fun _ => State.resumeDirective_sound _

/-! ## The countdown (R36) -/

theorem State.countdown_sound (s : State) : s.Keeps p s.countdown := by
  unfold State.countdown
  split
  · exact .refl s
  · next c hc =>
    dsimp only
    have htick : (1 < c.countdown) → s.Keeps p
        { s with pairing := { s.pairing with context := some { c with countdown := c.countdown - 1 } } } := fun hlt hs => by
      obtain ⟨hoffered, hbusy⟩ := hs.context
      obtain ⟨hhandle, hlistener, -, hmost⟩ := hbusy c hc
      obtain ⟨settings, buds, membership, compatible, use, tags, -⟩ := (hs.but : s.PartyBut noListener)
      obtain ⟨-, current, homed, -⟩ := State.Keeps.refl (p := p) s hs
      refine ⟨⟨settings, buds, membership, compatible, use, tags, fun b => ?_, fun d hd => ?_⟩, current,
        fun k => (homed k).imp fun _ hh => hh.congr rfl rfl, fun _ k => k.lawful.congr rfl rfl rfl rfl rfl rfl⟩
      · exact (hoffered b).trans (by rw [hc]; exact Iff.rfl)
      · obtain rfl := Option.some.inj hd
        exact ⟨hhandle, hlistener, by dsimp only; omega, by dsimp only; omega⟩
    split
    · intro hs
      have ho : s.roster.buds[c.bud].link = .offered := (hs.context.1 c.bud).2 (by rw [hc]; rfl)
      have hfreed : ({ s with pairing := { s.pairing with context := some { c with countdown := c.countdown - 1 } } } : State).freeBud
          c.bud .confirmTimeout = s.freeBud c.bud .confirmTimeout := by
        have hunlinked : ({ s with pairing := { s.pairing with context := some { c with countdown := c.countdown - 1 } } } : State).unlinkBud
            c.bud = s.unlinkBud c.bud := by
          rw [State.unlinkBud_eq, State.unlinkBud_eq]
          simp only [ho, if_true]
        unfold State.freeBud
        rw [hunlinked]
        rfl
      rw [hfreed]
      exact State.freeBud_sound (fun _ => by rw [ho]; exact nofun) _ hs
    · exact htick (by omega)

/-! ## A cadence (R104, R117) -/

theorem State.emitSilence_sound (s : State) : s.Keeps p s.emitSilence :=
  State.Keeps.foldl _ (fun r _ u => u.sendDownlink_sound r _) s

theorem State.emitUplink_sound (s : State) (up : Block) : s.Keeps p (s.emitUplink up) := by
  have hplaced : s.Unseen { s with
      mix := { s.mix with uplinkSeq := s.mix.uplinkSeq + 1 }
      voicePort := { s.voicePort with slot := some { seq := s.mix.uplinkSeq, samples := up } } } :=
    ⟨⟨rfl, rfl, rfl, rfl, rfl⟩, rfl, rfl⟩
  exact hplaced.keeps.trans (State.chooseVoice_sound _)

theorem State.formOutputs_sound (s : State) (far : List Int) (audience : List Recipient) : s.Keeps p (s.formOutputs far audience) := by
  unfold State.formOutputs
  dsimp only
  generalize s.rows far s.laneUnit.handover = rows
  have hclips : s.Keeps p { s with mix := s.mix.countClips rows } := State.Unseen.keeps ⟨⟨rfl, rfl, rfl, rfl, rfl⟩, rfl, rfl⟩
  exact (hclips.trans (State.emitUplink_sound _ _)).trans (State.Keeps.foldl _ (fun r _ u => u.sendDownlink_sound r _) _)

theorem State.takeSwap_sound (s : State) : s.Keeps p s.takeSwap := State.Unseen.keeps ⟨⟨rfl, rfl, rfl, rfl, rfl⟩, rfl, rfl⟩

theorem Cadence.takeMix_sound (c : Cadence) (kind : CadenceKind) : c.state.Keeps p (c.takeMix kind).state := by
  have hswap : c.state.Keeps p c.state.takeSwap := c.state.takeSwap_sound
  unfold Cadence.takeMix
  dsimp only
  split
  · exact hswap
  · exact hswap
  · exact hswap.trans (State.emitSilence_sound _)
  · exact hswap
  · exact hswap

theorem Cadence.form_sound (c : Cadence) (far : List Int) : c.state.Keeps p (c.form far).state := by
  unfold Cadence.form
  split
  · split
    · exact c.state.formOutputs_sound _ _
    · exact .refl _
  · exact .refl _

/-- A cadence under way keeps the laws, and a hold that is due comes in a call (R121). -/
structure Cadence.Follows (p : Prop) (s : State) (c : Cadence) : Prop where
  keeps : s.Keeps p c.state
  due : c.due = true → c.state.callCtl.state ≠ .noCall

/-- Acts that a path of changes makes without a change of call state leave a due hold as it is. -/
theorem Cadence.Follows.act {c d : Cadence} (h : c.Follows p s) (hkeeps : c.state.Keeps p d.state) (hdue : d.due = c.due)
    (hcall : d.state.callCtl.state = c.state.callCtl.state) : d.Follows p s :=
  ⟨h.keeps.trans hkeeps, fun hd => by rw [hcall]; exact h.due (hdue ▸ hd)⟩

theorem Cadence.Follows.takeHold {c : Cadence} (h : c.Follows p s) : c.takeHold.Follows p s ∧ c.takeHold.due = false := by
  unfold Cadence.takeHold
  split
  · next hdue => exact ⟨⟨h.keeps.trans (State.autoHold_sound (h.due hdue)), nofun⟩, rfl⟩
  · next hdue => exact ⟨h, Bool.eq_false_iff.2 hdue⟩

/-- No change of call state, and no start-up, and no removal of power. -/
def onlySwap (a : Part) : Prop := a = .swapTaking

theorem Reaches.call_eq (h : Reaches onlySwap s t) : t.callCtl.state = s.callCtl.state :=
  h.field_eq (·.callCtl.state) fun _ _ hc => hc.call_eq (by unfold onlySwap; exact nofun) (by unfold onlySwap; exact nofun)

theorem visitOrder_nodup {α : Type} [DecidableEq α] (preferred : List α) {all : List α} (h : all.Nodup) :
    (visitOrder preferred all).Nodup := (visitOrder_perm preferred all).nodup_iff.2 h

/-- The lane states that a cadence is given are those of lanes all VACANT, or are not given (R118). -/
def CadenceInput.Fresh (i : CadenceInput) : Prop := ∀ v ∈ i.lanesBefore, ∀ k : LaneIx, v[k] = .vacant

theorem Cadence.takeLanes_sound (c : Cadence) (i : CadenceInput) : c.state.Keeps i.Fresh (c.takeLanes i).state := by
  have htake : c.state.Keeps i.Fresh
      (c.state.lanesTake (i.lanesBefore.getD c.state.laneUnit.states) (visitOrder i.lanes Config.lanes)) := by
    refine State.lanesTake_sound _ (visitOrder_nodup _ (by decide)) fun hfresh => ?_
    cases hb : i.lanesBefore with
    | none => exact .inr fun k => by simp [LaneUnit.states]
    | some v => exact .inl (hfresh v hb)
  unfold Cadence.takeLanes
  split
  · exact .refl _
  · exact htake
  · exact htake

/-- One act of a cadence (R104, R117). -/
theorem Cadence.Follows.step {c : Cadence} {i : CadenceInput} (h : c.Follows i.Fresh s) (a : CadenceAct) :
    (c.act i a).Follows i.Fresh s := by
  cases a with
  | supervise => exact h.act (c.state.supervise_sound _) rfl (Reaches.call_eq (c.state.supervise_reaches _))
  | countdown => exact h.act c.state.countdown_sound rfl (Reaches.call_eq c.state.countdown_reaches)
  | lanes =>
    have hdue : (c.takeLanes i).due = c.due := by
      unfold Cadence.takeLanes
      split <;> rfl
    have hcall : (c.takeLanes i).state.callCtl.state = c.state.callCtl.state := by
      unfold Cadence.takeLanes
      split
      · rfl
      · exact (State.lanesTake_sameParty _ _ _).call
      · exact (State.lanesTake_sameParty _ _ _).call
    exact h.act (c.takeLanes_sound i) hdue hcall
  | mix =>
    have hdue : (c.takeMix i.kind).due = c.due := by
      unfold Cadence.takeMix
      dsimp only
      split <;> rfl
    exact h.act (c.takeMix_sound _) hdue (Reaches.call_eq (c.takeMix_reaches _ rfl))
  | form =>
    have hdue : (c.form i.far).due = c.due := by
      unfold Cadence.form
      split
      · split <;> rfl
      · rfl
    exact h.act (c.form_sound _) hdue (Reaches.call_eq (c.form_reaches _))
  | hold => exact h.takeHold.1
  | call what seq =>
    obtain ⟨hheld, hdue⟩ := h.takeHold
    exact ⟨hheld.keeps.trans (State.takeCall_sound _ what seq []), fun hd => absurd (hdue.symm.trans hd) nofun⟩

/-- A cadence as every block takes it (R117). -/
theorem State.runCadence_sound (s : State) (i : CadenceInput) {due : Bool} (order : List CadenceAct)
    (hdue : due = true → s.callCtl.state ≠ .noCall) : s.Keeps i.Fresh (s.runCadence i due order) := by
  have hacts : ∀ (l : List CadenceAct) (c : Cadence), c.Follows i.Fresh s → (l.foldl (Cadence.act i) c).Follows i.Fresh s := by
    intro l
    induction l with
    | nil => exact fun _ h => h
    | cons a l ih => exact fun c h => ih _ (h.step a)
  have hdone := hacts (visitOrder order (cadenceActs order)) ⟨s, due, none, false⟩ ⟨.refl s, hdue⟩
  exact (hdone.keeps.trans (Cadence.form_sound _ i.far)).trans
    (.of_same ⟨rfl, rfl, rfl, rfl, rfl⟩ fun _ h => h.lawful.congr rfl rfl rfl rfl rfl rfl)

theorem State.timerExpiry_sound (s : State) (o : CadenceOrder) : s.Keeps p (s.timerExpiry o) := by
  have hidle : s.Keeps p (s.idleCadence o) :=
    (State.callCounts_sound (s := s) (c' := { s.callCtl with timer := some .ms5 }) rfl).trans
      ((State.runCadence_sound (s.armTimer .ms5)
        { kind := .idle, far := silentSource, lanesBefore := none, lanes := o.lanes, buds := o.buds } (due := false) o.acts
        nofun).supply fun _ _ => nofun)
  unfold State.timerExpiry
  split
  · exact .refl s
  · next hc =>
    refine (State.callCounts_sound (s := s) (c' := (s.countFill.armTimer .ms5).callCtl) rfl).trans
      ((State.runCadence_sound (s.countFill.armTimer .ms5)
        { kind := .fill, far := silentSource, lanesBefore := none, lanes := o.lanes, buds := o.buds } o.acts fun _ => ?_).supply fun _ _ => nofun)
    change s.callCtl.state ≠ .noCall
    rw [hc]
    exact nofun
  · exact hidle
  · exact hidle

theorem State.voiceCadence_sound (s : State) (far : Block) (before : Option (Vector LaneState 3)) (o : CadenceOrder) :
    s.Keeps (∀ v ∈ before, ∀ k : LaneIx, v[k] = .vacant) (s.voiceCadence far before o) :=
  (State.callCounts_sound (s := s) (c' := (s.zeroFills.armTimer .ms7_5).callCtl) rfl).trans
    (State.runCadence_sound (s.zeroFills.armTimer .ms7_5)
      { kind := .voice, far := blockInts far, lanesBefore := before, lanes := o.lanes, buds := o.buds } (due := false) o.acts nofun)

theorem State.voiceFrame_sound (s : State) (far : Block) (o : CadenceOrder) : s.Keeps p (s.voiceFrame far o) := by
  unfold State.voiceFrame
  split
  · exact (s.voiceCadence_sound far none o).supply fun _ _ => nofun
  · next hc =>
    refine State.Keeps.supply (q := ∀ v ∈ some s.laneUnit.states, ∀ k : LaneIx, v[k] = .vacant)
      ((State.resume_sound (u := s.zeroFills) (by rw [hc]; exact nofun) rfl .voiceReturned).trans
        (State.voiceCadence_sound _ far _ o)) fun _ h v hv k => ?_
    obtain rfl := Option.some.inj hv
    have hidle := h.exclusive.2.2 (by rw [hc]; exact nofun) k
    simpa [LaneUnit.states] using hidle
  · exact State.callCounts_sound (s := s) rfl
  · exact State.callCounts_sound (s := s) rfl

end Sys2Proof.Machine
end

