-- ==== Sys2Proof/Proofs/Offers.lean ====
section
/-! PROOFS. The offer (R3, R13, R14, R24, R29, R30, R33): what it fills, and that it keeps the laws. -/

namespace Sys2Proof.Machine

variable {p : Prop} {s t u : State} {j : JoinRequest} {b : BudIx} {x : ListenerIx} {created : Bool} {a : Admission}

/-! ## What the offer fills -/

/-- The listener that the offered bud joins, opened if it is new (R13). -/
def State.host (s : State) (j : JoinRequest) (x : ListenerIx) (created : Bool) : Listener :=
  if created then Listener.opened s.roster.defaults s.directives.settings.defaultPriority j.setTag else s.roster.listeners[x]

/-- The priority that a bonded admission brings to the listener, if it brings one (R30). -/
def Pairing.broughtPriority (q : Pairing) (l : Listener) (created : Bool) : Admission → Option (Fin 4)
  | .bonded i => if created ∨ l.priority < q.bonds[i].priority then some q.bonds[i].priority else none
  | .window | .refused => none

/-- The bond list, the entry of a bonded admission refreshed while region 8 is OPEN (R30). -/
def Pairing.refreshedBonds (q : Pairing) (region8 : Mode) (j : JoinRequest) : Admission → Vector BondEntry 8
  | .bonded i =>
    if region8 = .opened then q.bonds.set i { q.bonds[i] with setTag := j.setTag, role := j.role } else q.bonds
  | .window | .refused => q.bonds

/-- The listener's record with the offered bud (R14, R30). -/
def State.seat (s : State) (j : JoinRequest) (b : BudIx) (x : ListenerIx) (created : Bool) (a : Admission) : Listener :=
  let l := s.host j x created
  { l.add b with priority := (s.pairing.broughtPriority l created a).getD l.priority }

/-- The tables once the bud is OFFERED, before the wait list is re-sorted and the context filled (R33). -/
def State.seated (s : State) (j : JoinRequest) (b : BudIx) (x : ListenerIx) (created : Bool) (a : Admission) : State :=
  { s with
    roster :=
      { s.roster with
        buds := s.roster.buds.set b (Bud.offered j.handle j.addr j.setTag j.role x a.isBonded)
        listeners := s.roster.listeners.set x (s.seat j b x created a) }
    pairing := { s.pairing with bonds := s.pairing.refreshedBonds s.directives.modes[8] j a }
    intake := { s.intake with discards := s.intake.discards.set b {} } }

/-- The wait list is re-sorted if a listener's priority has changed (R69). -/
def State.resortIf (s : State) (changed : Bool) : State := if changed then s.resortWait else s

/-- The same tables, the wait list re-sorted if a priority has come (R30, R69). -/
def State.welcomed (s : State) (j : JoinRequest) (b : BudIx) (x : ListenerIx) (created : Bool) (a : Admission) : State :=
  (s.seated j b x created a).resortIf (s.pairing.broughtPriority (s.host j x created) created a).isSome

theorem State.allocateBud_eq (s : State) (j : JoinRequest) (b : BudIx) (x : ListenerIx) (created bonded : Bool) :
    (if created then s.openListener x j.setTag else s).allocateBud b j x bonded =
      { s with
        roster :=
          { s.roster with
            buds := s.roster.buds.set b (Bud.offered j.handle j.addr j.setTag j.role x bonded)
            listeners := s.roster.listeners.set x ((s.host j x created).add b) }
        intake := { s.intake with discards := s.intake.discards.set b {} } } := by
  cases created with
  | false => rfl
  | true =>
    have hread : (s.openListener x j.setTag).roster.listeners[x] = s.host j x true := (getElem_set_fin ..).trans (if_pos rfl)
    have hset : ∀ l : Listener, (s.openListener x j.setTag).roster.listeners.set x l = s.roster.listeners.set x l := fun l =>
      Vector.set_set _ x.2
    unfold State.allocateBud
    simp only [if_true, State.setBud, State.setListener, hset, hread]
    rfl

/-- The bond entry's share, as one state (R30). -/
theorem State.applyBond_eq (v : State) (x : ListenerIx) (a : Admission) (created : Bool) (j : JoinRequest) :
    v.applyBond x a created j =
      State.resortIf
        { v with
          roster :=
            { v.roster with
              listeners := v.roster.listeners.set x
                { v.roster.listeners[x] with
                  priority := (v.pairing.broughtPriority v.roster.listeners[x] created a).getD v.roster.listeners[x].priority } }
          pairing := { v.pairing with bonds := v.pairing.refreshedBonds v.directives.modes[8] j a } }
        (v.pairing.broughtPriority v.roster.listeners[x] created a).isSome := by
  have hself : v.roster.listeners.set x v.roster.listeners[x] = v.roster.listeners := Vector.set_getElem_self ..
  have hplain : v = State.resortIf { v with roster := { v.roster with listeners := v.roster.listeners.set x v.roster.listeners[x] } }
      false := by
    rw [hself]
    rfl
  cases a with
  | window => exact hplain
  | refused => exact hplain
  | bonded i =>
    have hrefresh : ∀ w : State, w.pairing = v.pairing → w.directives = v.directives →
        w.refreshBond i j =
          { w with
            pairing := { w.pairing with bonds := v.pairing.refreshedBonds v.directives.modes[8] j (.bonded i) } } := fun w hp hd => by
      unfold State.refreshBond
      rw [hd]
      dsimp only [Pairing.refreshedBonds]
      split
      · rw [hp]
        rfl
      · rw [← hp, ← hd]
    unfold State.applyBond State.bondPriority
    dsimp only [Pairing.broughtPriority]
    split
    · exact hrefresh _ rfl rfl
    · exact (hrefresh v rfl rfl).trans (congrArg (fun l => ({ v with
        roster := { v.roster with listeners := l }
        pairing := { v.pairing with bonds := v.pairing.refreshedBonds v.directives.modes[8] j (.bonded i) } } : State)) hself.symm)

/-- The offer in a record (R33). -/
theorem State.offerAs_eq (s : State) (j : JoinRequest) (b : BudIx) (x : ListenerIx) (created : Bool) (a : Admission) :
    s.offerAs j b x created a =
      (((s.welcomed j b x created a).notice x).fillContext j b x created).sendAir (.offer j.handle j.seq b (some x)) := by
  have hread : (s.roster.listeners.set x ((s.host j x created).add b))[x] = (s.host j x created).add b :=
    (getElem_set_fin ..).trans (if_pos rfl)
  have hset : ∀ l : Listener, (s.roster.listeners.set x ((s.host j x created).add b)).set x l = s.roster.listeners.set x l := fun l =>
    Vector.set_set _ x.2
  unfold State.offerAs
  dsimp only
  rw [State.allocateBud_eq, State.applyBond_eq]
  simp only [hread, hset]
  unfold State.welcomed
  cases hp : s.pairing.broughtPriority (s.host j x created) created a with
  | none =>
    have hp' : s.pairing.broughtPriority ((s.host j x created).add b) created a = none := hp
    rw [hp']
    simp only [State.seated, State.seat, hp]
    rfl
  | some q =>
    have hp' : s.pairing.broughtPriority ((s.host j x created).add b) created a = some q := hp
    rw [hp']
    simp only [State.seated, State.seat, hp]
    rfl

/-! ## The listener that the bud joins (R14, R29) -/

section
variable (hparty : s.PartySound) (hplace : s.roster.place j.setTag j.role = if created then .opened x else .existing x)
include hparty hplace

/-- The listener placed at has room, carries the tag, and its members allow the role (R14, R29). -/
theorem State.host_spec :
    (s.host j x created).inUse = true ∧ (s.host j x created).setTag = j.setTag ∧
      (s.host j x created).members = s.roster.listeners[x].members ∧ s.roster.listeners[x].members.length ≤ 1 ∧
      ∀ c ∈ s.roster.listeners[x].members,
        s.roster.buds[c].role ≠ j.role ∧ s.roster.buds[c].role ≠ .mono ∧ j.role ≠ .mono := by
  obtain ⟨hused, -, -⟩ := hparty.use
  cases created with
  | false =>
    obtain ⟨-, hin, htag, hnone⟩ := Roster.place_eq_existing hplace
    have hlen := (hparty.compatible.1 x).2
    have hconf := mt (Roster.conflicts_eq_true hlen).2 (by rw [hnone]; exact nofun)
    obtain ⟨hroles, htwo⟩ := not_or.1 hconf
    refine ⟨hin, htag, rfl, by omega, fun c hc => ?_⟩
    exact ⟨fun h => hroles ⟨c, hc, .inl h⟩, fun h => hroles ⟨c, hc, .inr (.inl h)⟩, fun h => hroles ⟨c, hc, .inr (.inr h)⟩⟩
  | true =>
    obtain ⟨hunused, -⟩ := Roster.place_eq_opened hplace
    have halone : s.roster.listeners[x].members = [] := by_contra fun hm => by
      rw [(hused x).2 hm] at hunused
      exact absurd hunused nofun
    rw [halone]
    exact ⟨rfl, rfl, rfl, Nat.zero_le _, nofun⟩

/-- A new listener's tag, if it is not 0, is no other listener's (R29). -/
theorem State.host_tag (y : ListenerIx) (hy : y ≠ x) (hu : s.roster.listeners[y].inUse = true)
    (ht : s.roster.listeners[y].setTag = j.setTag) : j.setTag = 0 := by
  cases created with
  | false =>
    obtain ⟨-, hin, htag, -⟩ := Roster.place_eq_existing hplace
    exact ht ▸ hparty.tags y x hy hu hin (ht.trans htag.symm)
  | true =>
    obtain ⟨-, h0 | hnone⟩ := Roster.place_eq_opened hplace
    · exact h0
    · exact absurd ht (hnone y hu)

end

theorem State.seated_bud (s : State) (c : BudIx) :
    (s.seated j b x created a).roster.buds[c] =
      if b = c then Bud.offered j.handle j.addr j.setTag j.role x a.isBonded else s.roster.buds[c] := getElem_set_fin ..

theorem State.seated_listener (s : State) (y : ListenerIx) :
    (s.seated j b x created a).roster.listeners[y] = if x = y then s.seat j b x created a else s.roster.listeners[y] :=
  getElem_set_fin ..

/-- A bud that does not speak and joins a listener leaves its speaking bud (R60). -/
theorem Roster.speakingBud_append {r q : Roster} (hu : q.listeners[x].inUse = r.listeners[x].inUse)
    (hm : q.listeners[x].mute = r.listeners[x].mute) (hl : q.listeners[x].members = r.listeners[x].members ++ [b])
    (hp : q.listeners[x].primary = if r.listeners[x].primary = none then some b else r.listeners[x].primary)
    (hnew : b ∉ r.listeners[x].members) (hsilent : q.buds[b].speaks = false)
    (hs : ∀ c ∈ r.listeners[x].members, q.buds[c].speaks = r.buds[c].speaks) : q.speakingBud x = r.speakingBud x := by
  have hfind : ∀ l : List BudIx, (∀ c ∈ l, c ∈ r.listeners[x].members) →
      l.find? (fun c => q.buds[c].speaks) = l.find? (fun c => r.buds[c].speaks) := fun l hsub => List.find?_congr fun c hc => hs c (hsub c hc)
  have hlast : ∀ l : List BudIx, (∀ c ∈ l, c ∈ r.listeners[x].members) →
      (l ++ [b]).find? (fun c => q.buds[c].speaks) = l.find? (fun c => r.buds[c].speaks) := fun l hsub => by
    rw [List.find?_append, hfind l hsub, List.find?_singleton, if_neg (Bool.eq_false_iff.1 hsilent), Option.or_none]
  have hothers : (r.listeners[x].members ++ [b]).filter (· != b) = r.listeners[x].members := by
    rw [List.filter_append, List.filter_eq_self.2 fun c hc => bne_iff_ne.2 fun e : c = b => hnew (e ▸ hc)]
    simp
  by_cases hbarred : r.listeners[x].inUse = false ∨ r.listeners[x].mute = true
  · rw [Roster.speakingBud_of_barred hbarred, Roster.speakingBud_of_barred]
    rwa [hu, hm]
  obtain ⟨hin, hopen⟩ := not_or.1 hbarred
  rw [Bool.not_eq_false] at hin
  rw [Bool.not_eq_true] at hopen
  by_cases hprimary : ∃ p, r.listeners[x].primary = some p ∧ p ∈ r.listeners[x].members
  · obtain ⟨p, hprim, hmem⟩ := hprimary
    have hne : b ≠ p := fun e => hnew (e ▸ hmem)
    have hprim' : q.listeners[x].primary = some p := by
      rw [hp, if_neg (by rw [hprim]; exact nofun), hprim]
    have hrest : (r.listeners[x].members ++ [b]).filter (· != p) = r.listeners[x].members.filter (· != p) ++ [b] := by
      rw [List.filter_append, show [b].filter (· != p) = [b] by simp [hne]]
    rw [Roster.speakingBud_of_primary hin hopen hprim hmem, Roster.speakingBud_of_primary (hu.trans hin) (hm.trans hopen) hprim'
      (by rw [hl]; exact List.mem_append_left _ hmem), hl, hrest, hlast _ fun c hc => (List.mem_filter.1 hc).1]
    exact if_congr (by rw [hs p hmem]) rfl rfl
  · have hstale : ∀ p, r.listeners[x].primary = some p → p ∉ r.listeners[x].members := fun p hprim hmem => hprimary ⟨p, hprim, hmem⟩
    rw [Roster.speakingBud_of_stale hin hopen hstale]
    by_cases hown : q.listeners[x].primary = some b
    · rw [Roster.speakingBud_of_primary (hu.trans hin) (hm.trans hopen) hown (by rw [hl]; exact List.mem_append_right _ (List.mem_singleton_self b)),
        if_neg (Bool.eq_false_iff.1 hsilent), hl, hothers]
      exact hfind _ fun _ => id
    · have hstale' : ∀ p, q.listeners[x].primary = some p → p ∉ q.listeners[x].members := fun p hprim hmem => by
        rw [hl] at hmem
        rcases List.mem_append.1 hmem with hmem | hmem
        · rw [hp] at hprim hown
          split at hprim
          · next hn => exact hown (if_pos hn)
          · exact hstale p hprim hmem
        · exact hown (List.mem_singleton.1 hmem ▸ hprim)
      rw [Roster.speakingBud_of_stale (hu.trans hin) (hm.trans hopen) hstale', hl]
      exact hlast _ fun _ => id

theorem Bud.offered_silent (h : Handle) (addr : Address) (tag : Word) (role : Role) (x : ListenerIx) (bonded : Bool) :
    (Bud.offered h addr tag role x bonded).speaks = false := rfl

/-- A FREE bud is no member (R14). -/
theorem State.PartySound.not_mem_of_free (h : s.PartySound) (hb : s.roster.buds[b].link = .free) (y : ListenerIx) :
    b ∉ s.roster.listeners[y].members := fun hy => by
  have hnone := (h.membership.2 b).1 hb
  rw [(h.membership.1 b y).1 hy] at hnone
  exact absurd hnone nofun

/-- An offer leaves every speaking bud (R33, R60). -/
theorem State.seated_speakingBud (hparty : s.PartySound) (hb : s.roster.buds[b].link = .free)
    (hplace : s.roster.place j.setTag j.role = if created then .opened x else .existing x) (y : ListenerIx) :
    (s.seated j b x created a).roster.speakingBud y = s.roster.speakingBud y := by
  have hnew := hparty.not_mem_of_free hb
  have hothers : ∀ c, c ≠ b → (s.seated j b x created a).roster.buds[c].speaks = s.roster.buds[c].speaks := fun c hc => by
    rw [State.seated_bud, if_neg (Ne.symm hc)]
  have hsilent : (s.seated j b x created a).roster.buds[b].speaks = false := by
    rw [State.seated_bud, if_pos rfl]
    rfl
  have hmembers : ∀ c ∈ s.roster.listeners[y].members, (s.seated j b x created a).roster.buds[c].speaks = s.roster.buds[c].speaks :=
    fun c hc => hothers c fun e => hnew y (e ▸ hc)
  by_cases hxy : x = y
  · subst hxy
    have hseat : (s.seated j b x created a).roster.listeners[x] = s.seat j b x created a := by rw [State.seated_listener, if_pos rfl]
    cases created with
    | false =>
      refine Roster.speakingBud_append ?_ ?_ ?_ ?_ (hnew x) hsilent hmembers <;> rw [hseat] <;> rfl
    | true =>
      have hunused := (Roster.place_eq_opened hplace).1
      rw [Roster.speakingBud_of_barred (r := s.roster) (.inl hunused)]
      cases hs : (s.seated j b x true a).roster.speakingBud x with
      | none => rfl
      | some c =>
        obtain ⟨hc, hspeaks, -⟩ := Roster.speakingBud_spec hs
        rw [hseat] at hc
        obtain rfl := List.mem_singleton.1 (show c ∈ [b] from hc)
        exact absurd (hsilent.symm.trans hspeaks) nofun
  · have hsame : (s.seated j b x created a).roster.listeners[y] = s.roster.listeners[y] := by rw [State.seated_listener, if_neg hxy]
    exact Roster.speakingBud_congr (by rw [hsame]) (by rw [hsame]) (by rw [hsame]) (by rw [hsame]) hmembers

theorem State.resortIf_eq (s : State) (changed : Bool) :
    s.resortIf changed =
      { s with
        laneUnit := { s.laneUnit with
          waitList := if changed then sortWait s.priorityOf s.laneUnit.waitList else s.laneUnit.waitList } } := by
  cases changed <;> rfl

/-- Settles O47: the tables that the offer fills, the notice that changes nothing, and the context. -/
theorem offerReservesAPlace : Obligations.OfferReservesAPlace := by
  unfold Obligations.OfferReservesAPlace
  intro s j x created b hs hb hplace a t l opened base
  obtain ⟨hfree, -⟩ := Roster.freeBud_eq_some.1 hb
  have hpriority : s.directives.settings.defaultPriority ≤ 3 := (hs.party.settings 8).2
  have hbase : s.host j x created = base := by
    cases created with
    | false => rfl
    | true =>
      change Listener.opened _ _ _ = opened
      rw [Listener.opened, Listener.unused, clampPriority_eq, Nat.min_eq_left hpriority]
  have hbonded : Bud.offered j.handle j.addr j.setTag j.role x a.isBonded =
      { link := .offered, handle := some j.handle, addr := j.addr, setTag := j.setTag, role := j.role, listener := some x,
        bonded := match a with | .bonded _ => true | _ => false } := by
    cases a <;> rfl
  have hquiet : (s.welcomed j b x created a).notice x = s.welcomed j b x created a := by
    refine State.notice_of_same ?_
    rw [State.welcomed, State.resortIf_eq]
    exact (hs.speaking x).trans (State.seated_speakingBud hs.party hfree hplace x).symm
  have ht : t = ((s.welcomed j b x created a).fillContext j b x created).sendAir (.offer j.handle j.seq b (some x)) := by
    have hoffer : t = s.offerAs j b x created a := by
      change s.offer j x created a = _
      simp only [State.offer, hb]
    rw [hoffer, State.offerAs_eq, hquiet]
  rw [ht, State.welcomed, State.resortIf_eq]
  refine ⟨?_, fun y hy => ?_, ?_, rfl, ?_, rfl, rfl, ?_, rfl, rfl, rfl, rfl, rfl, rfl, rfl⟩
  · exact congrArg (s.roster.buds.set b) hbonded
  · exact (State.seated_listener s y).trans (if_neg (Ne.symm hy))
  · refine ((State.seated_listener s x).trans (if_pos rfl)).trans ?_
    rw [State.seat, hbase]
    dsimp only [Listener.add]
    cases a with
    | bonded i =>
      dsimp only [Pairing.broughtPriority]
      by_cases hraised : created = true ∨ base.priority < s.pairing.bonds[i].priority
      · rw [if_pos hraised, if_pos hraised]
        rfl
      · rw [if_neg hraised, if_neg hraised]
        rfl
    | window => rfl
    | refused => rfl
  · cases a with
    | bonded i => rfl
    | window => rfl
    | refused => rfl
  · dsimp only [State.sendAir, State.fillContext]
    split
    · exact sortWait_perm _ _
    · exact .refl _

/-! ## The offer keeps the laws -/

section
variable (hparty : s.PartySound) (hfree : s.roster.buds[b].link = .free)
  (hplace : s.roster.place j.setTag j.role = if created then .opened x else .existing x)
include hparty hfree hplace

omit hfree in
/-- The bud joins its listener's members, and no other's (R14). -/
theorem State.mem_seated {y : ListenerIx} {c : BudIx} :
    c ∈ (s.seated j b x created a).roster.listeners[y].members ↔ c ∈ s.roster.listeners[y].members ∨ y = x ∧ c = b := by
  obtain ⟨-, -, hmembers, -⟩ := State.host_spec hparty hplace
  rw [State.seated_listener]
  split
  · next e =>
    subst e
    have hseat : (s.seat j b x created a).members = s.roster.listeners[x].members ++ [b] :=
      congrArg (· ++ [b]) hmembers
    rw [hseat, List.mem_append, List.mem_singleton]
    simp only [true_and]
  · next e => exact ⟨.inl, fun h => h.resolve_right fun hc => e hc.1.symm⟩

omit hparty hfree hplace in
theorem State.seated_bud_own : (s.seated j b x created a).roster.buds[b] = Bud.offered j.handle j.addr j.setTag j.role x a.isBonded := by
  rw [State.seated_bud, if_pos rfl]

omit hparty hfree hplace in
theorem State.seated_bud_other {c : BudIx} (h : c ≠ b) : (s.seated j b x created a).roster.buds[c] = s.roster.buds[c] := by
  rw [State.seated_bud, if_neg (Ne.symm h)]

omit hparty hfree hplace in
theorem State.seated_listener_own : (s.seated j b x created a).roster.listeners[x] = s.seat j b x created a := by
  rw [State.seated_listener, if_pos rfl]

omit hparty hfree hplace in
theorem State.seated_listener_other {y : ListenerIx} (h : y ≠ x) :
    (s.seated j b x created a).roster.listeners[y] = s.roster.listeners[y] := by
  rw [State.seated_listener, if_neg (Ne.symm h)]

omit hfree in
theorem State.seat_members : (s.seat j b x created a).members = s.roster.listeners[x].members ++ [b] := by
  obtain ⟨-, -, hmembers, -⟩ := State.host_spec hparty hplace
  exact congrArg (· ++ [b]) hmembers

omit hplace in
/-- The bud records with the offered bud (R1, R2). -/
theorem State.seated_buds (hunknown : ∀ c : BudIx, s.roster.buds[c].link ≠ .free → s.roster.buds[c].handle ≠ some j.handle) :
    (s.seated j b x created a).roster.BudsSound := by
  obtain ⟨hblank, hhandle, hdistinct⟩ := hparty.buds
  refine ⟨fun c hc => ?_, fun c hc => ?_, fun c d hcd hc => ?_⟩
  · by_cases hcb : c = b
    · subst hcb
      rw [State.seated_bud_own] at hc
      exact absurd hc nofun
    · rw [State.seated_bud_other hcb] at hc ⊢
      exact hblank c hc
  · by_cases hcb : c = b
    · subst hcb
      rw [State.seated_bud_own]
      rfl
    · rw [State.seated_bud_other hcb] at hc ⊢
      exact hhandle c hc
  · by_cases hcb : c = b
    · subst hcb
      rw [State.seated_bud_own, State.seated_bud_other (Ne.symm hcd)]
      by_cases hd : s.roster.buds[d].link = .free
      · rw [hblank d hd]
        exact nofun
      · exact fun e => hunknown d hd e.symm
    · rw [State.seated_bud_other hcb] at hc ⊢
      by_cases hdb : d = b
      · subst hdb
        rw [State.seated_bud_own]
        exact hunknown c hc
      · rw [State.seated_bud_other hdb]
        exact hdistinct c d hcd hc

/-- Membership with the offered bud (R14). -/
theorem State.seated_membership : (s.seated j b x created a).roster.MembershipLaw := by
  have hnew := hparty.not_mem_of_free hfree
  refine ⟨fun c y => ?_, fun c => ?_⟩
  · rw [State.mem_seated hparty hplace]
    by_cases hcb : c = b
    · subst hcb
      rw [State.seated_bud_own]
      exact ⟨fun h => h.elim (fun h => absurd h (hnew y)) fun h => congrArg some h.1.symm, fun h => .inr ⟨(Option.some.inj h).symm, rfl⟩⟩
    · rw [State.seated_bud_other hcb]
      exact ⟨fun h => (hparty.membership.1 c y).1 (h.resolve_right fun h => hcb h.2), fun h => .inl ((hparty.membership.1 c y).2 h)⟩
  · by_cases hcb : c = b
    · subst hcb
      rw [State.seated_bud_own]
      exact ⟨nofun, nofun⟩
    · rw [State.seated_bud_other hcb]
      exact hparty.membership.2 c

/-- The members of every listener, with the offered bud, are at most two and of roles that agree (R14). -/
theorem State.seated_compatible : (s.seated j b x created a).roster.MembersCompatible := by
  obtain ⟨-, -, -, hroom, hroles⟩ := State.host_spec hparty hplace
  have hnew := hparty.not_mem_of_free hfree
  have hold : ∀ {y : ListenerIx} {c : BudIx}, c ∈ s.roster.listeners[y].members → c ≠ b := fun hc e => hnew _ (e ▸ hc)
  refine ⟨fun y => ?_, fun y c hc d hd hcd => ?_⟩
  · by_cases hyx : y = x
    · subst hyx
      rw [State.seated_listener_own, State.seat_members hparty hplace, List.length_append, List.length_singleton]
      refine ⟨?_, by omega⟩
      rw [List.nodup_append_comm]
      exact List.nodup_cons.2 ⟨hnew y, (hparty.compatible.1 y).1⟩
    · rw [State.seated_listener_other hyx]
      exact hparty.compatible.1 y
  · rw [State.mem_seated hparty hplace] at hc hd
    rcases hc with hc | ⟨rfl, rfl⟩
    · rw [State.seated_bud_other (hold hc)]
      rcases hd with hd | ⟨rfl, rfl⟩
      · rw [State.seated_bud_other (hold hd)]
        exact hparty.compatible.2 y c hc d hd hcd
      · rw [State.seated_bud_own]
        exact ⟨(hroles c hc).1, (hroles c hc).2.1⟩
    · rcases hd with hd | ⟨-, rfl⟩
      · rw [State.seated_bud_other (hold hd), State.seated_bud_own]
        exact ⟨Ne.symm (hroles d hd).1, (hroles d hd).2.2⟩
      · exact absurd rfl hcd

/-- A listener is in use where it has a member, and carries its members' tag (R12, R29). -/
theorem State.seated_use : (s.seated j b x created a).roster.UseSound := by
  obtain ⟨hin, htag, -⟩ := State.host_spec hparty hplace
  obtain ⟨hused, htags, huntagged⟩ := hparty.use
  have hnew := hparty.not_mem_of_free hfree
  refine ⟨fun y => ?_, fun y c hc => ?_, fun y hy => ?_⟩
  · by_cases hyx : y = x
    · subst hyx
      rw [State.seated_listener_own, State.seat_members hparty hplace]
      exact ⟨fun _ => by simp, fun _ => hin⟩
    · rw [State.seated_listener_other hyx]
      exact hused y
  · rw [State.mem_seated hparty hplace] at hc
    rcases hc with hc | ⟨rfl, rfl⟩
    · rw [State.seated_bud_other fun e : c = b => hnew y (e ▸ hc)]
      by_cases hyx : y = x
      · subst hyx
        rw [State.seated_listener_own]
        cases created with
        | false => exact htags y c hc
        | true =>
          have hunused := (Roster.place_eq_opened hplace).1
          rw [(hused y).2 (List.ne_nil_of_mem hc)] at hunused
          exact absurd hunused nofun
      · rw [State.seated_listener_other hyx]
        exact htags y c hc
    · rw [State.seated_bud_own, State.seated_listener_own]
      exact htag.symm
  · by_cases hyx : y = x
    · subst hyx
      rw [State.seated_listener_own] at hy
      exact absurd (hin.symm.trans hy) nofun
    · rw [State.seated_listener_other hyx] at hy ⊢
      exact huntagged y hy

omit hfree in
/-- A set tag has one listener in use (R29). -/
theorem State.seated_tags : (s.seated j b x created a).roster.TagsSound := fun y z hyz hy hz htz => by
  obtain ⟨-, htag, -⟩ := State.host_spec hparty hplace
  have hnew0 := State.host_tag hparty hplace
  by_cases hyx : y = x
  · subst hyx
    rw [State.seated_listener_own, State.seated_listener_other (Ne.symm hyz)] at htz
    rw [State.seated_listener_other (Ne.symm hyz)] at hz
    rw [State.seated_listener_own]
    exact htag.trans (hnew0 z (Ne.symm hyz) hz (htz.symm.trans htag))
  · rw [State.seated_listener_other hyx] at hy htz ⊢
    by_cases hzx : z = x
    · subst hzx
      rw [State.seated_listener_own] at htz
      exact (htz.trans htag).trans (hnew0 y hyx hy (htz.trans htag))
    · rw [State.seated_listener_other hzx] at hz htz
      exact hparty.tags y z hyz hy hz htz

/-- The party with the offered bud and the busy context (R14, R24, R33). -/
theorem State.seated_party (hunknown : ∀ c : BudIx, s.roster.buds[c].link ≠ .free → s.roster.buds[c].handle ≠ some j.handle)
    (hempty : s.pairing.context = none) (t : State) (hroster : t.roster = (s.seated j b x created a).roster)
    (hcontext : t.pairing.context = some { handle := j.handle, bud := b, listener := x, created := created,
                                           countdown := s.directives.settings.confirmTimeout })
    (hsettings : t.directives.settings = s.directives.settings) : t.PartySound := by
  have hother : ∀ c : BudIx, c ≠ b → t.roster.buds[c] = s.roster.buds[c] := fun c hc => by rw [hroster, State.seated_bud_other hc]
  have hown : t.roster.buds[b] = Bud.offered j.handle j.addr j.setTag j.role x a.isBonded := by rw [hroster, State.seated_bud_own]
  refine ⟨hsettings ▸ hparty.settings, hroster ▸ State.seated_buds hparty hfree hunknown, hroster ▸ State.seated_membership hparty hfree hplace,
    hroster ▸ State.seated_compatible hparty hfree hplace, hroster ▸ State.seated_use hparty hfree hplace,
    hroster ▸ State.seated_tags hparty hplace, fun c => ?_, fun c hc => ?_⟩
  · rw [hcontext, Option.map_some]
    by_cases hcb : c = b
    · subst hcb
      rw [hown]
      exact ⟨fun _ => rfl, fun _ => rfl⟩
    · rw [hother c hcb]
      refine ⟨fun h => ?_, fun h => absurd (Option.some.inj h).symm hcb⟩
      have hnone := (hparty.context.1 c).1 h
      rw [hempty] at hnone
      exact absurd hnone nofun
  · rw [hcontext] at hc
    obtain rfl := Option.some.inj hc
    have htimeout := hparty.settings 5
    exact ⟨by rw [hown]; rfl, by rw [hown]; rfl, Nat.le_trans (by decide : 1 ≤ 4) htimeout.1, htimeout.2⟩

omit hparty hfree in
/-- The wait list after the offer is in order for the priorities then (R69). -/
theorem State.welcomed_orderly (hs : s.LanesSound) :
    WaitOrderly (s.seated j b x created a).priorityOf (s.welcomed j b x created a).laneUnit.waitList := by
  have horder := hs.lawful.order
  rw [State.welcomed, State.resortIf_eq]
  dsimp only
  split
  · exact WaitOrderly.sort (p := s.priorityOf) horder
  · next hnone =>
    refine WaitOrderly.congr (p := s.priorityOf) horder fun e he => ?_
    rw [Bool.not_eq_true, Option.isSome_eq_false_iff, Option.isNone_iff_eq_none] at hnone
    unfold State.priorityOf
    rw [State.seated_listener]
    split
    · next hx =>
      subst hx
      rw [State.seat, hnone]
      cases created with
      | false => rfl
      | true =>
        have hunused := (Roster.place_eq_opened hplace).1
        have hwaits := (hs.lawful.waiting e he).1
        rw [hs.speaking, Roster.speakingBud_of_barred (.inl hunused)] at hwaits
        exact absurd hwaits nofun
    · rfl

end

/-- The offer keeps the laws (R33): no speaking bud changes, so that the notice changes nothing. -/
theorem State.offer_sound (hb : s.roster.freeBud = some b)
    (hplace : s.roster.place j.setTag j.role = if created then .opened x else .existing x)
    (hunknown : ∀ c : BudIx, s.roster.buds[c].link ≠ .free → s.roster.buds[c].handle ≠ some j.handle)
    (hempty : s.pairing.context = none) : s.Keeps p (s.offer j x created a) := fun hs => by
  obtain ⟨hfree, -⟩ := Roster.freeBud_eq_some.1 hb
  have hoffer : s.offer j x created a =
      (((s.welcomed j b x created a).notice x).fillContext j b x created).sendAir (.offer j.handle j.seq b (some x)) := by
    simp only [State.offer, hb]
    exact s.offerAs_eq j b x created a
  have hroster : (s.welcomed j b x created a).roster = (s.seated j b x created a).roster := by rw [State.welcomed, State.resortIf_eq]
  have hwelcomed : (s.welcomed j b x created a).directives = s.directives ∧ (s.welcomed j b x created a).laneUnit.speaking =
      s.laneUnit.speaking ∧ (s.welcomed j b x created a).laneUnit.lanes = s.laneUnit.lanes ∧
      (s.welcomed j b x created a).intake.queues = s.intake.queues ∧ (s.welcomed j b x created a).callCtl = s.callCtl ∧
      (s.welcomed j b x created a).laneUnit.waitList.Perm s.laneUnit.waitList := by
    rw [State.welcomed, State.resortIf_eq]
    refine ⟨rfl, rfl, rfl, rfl, rfl, ?_⟩
    dsimp only
    split
    · exact sortWait_perm _ _
    · exact .refl _
  obtain ⟨hdirectives, hspeaking, hlanes, hqueues, hcall, hperm⟩ := hwelcomed
  have honly := (s.welcomed j b x created a).notice_only x
  have hparty : (s.offer j x created a).PartySound := by
    rw [hoffer]
    refine State.seated_party hs hfree hplace hunknown hempty _ (honly.roster.trans hroster) ?_ ?_
    · change some _ = some _
      rw [honly.tables.settings, hdirectives]
    · exact honly.tables.settings.trans (congrArg DirectiveUnit.settings hdirectives)
  have hquiet : s.SpeakingCurrent → (s.welcomed j b x created a).notice x = s.welcomed j b x created a := fun k => by
    refine State.notice_of_same ?_
    rw [hspeaking, hroster]
    exact (k x).trans (State.seated_speakingBud hs hfree hplace x).symm
  have hcurrent : s.SpeakingCurrent → (s.offer j x created a).SpeakingCurrent := fun k y => by
    rw [hoffer, hquiet k]
    change (s.welcomed j b x created a).laneUnit.speaking[y] = (s.welcomed j b x created a).roster.speakingBud y
    rw [hspeaking, hroster]
    exact (k y).trans (State.seated_speakingBud hs hfree hplace y).symm
  refine ⟨hparty.but, fun k y _ => hcurrent k y, fun k => ⟨_, (hparty.but (L := noListener)).homed (hcurrent k)⟩, fun _ k => ?_⟩
  have horder := State.welcomed_orderly hplace (b := b) (a := a) k
  have hdumb : ∀ c, (s.offer j x created a).Dumb c → s.Dumb c := fun c hc => by
    unfold State.Dumb at hc ⊢
    rw [hoffer, hquiet k.speaking] at hc
    change (s.welcomed j b x created a).roster.buds[c].link.supervised = false at hc
    rw [hroster, State.seated_bud] at hc
    split at hc
    · next e => rw [← e, hfree]; rfl
    · exact hc
  have hlaws : (s.welcomed j b x created a).Laws s.callCtl.state (fun x => s.laneUnit.speaking[x]) (fun _ => False) s.Dumb := by
    obtain ⟨range, fields, one, speaks, carry, inj, idle, -, waiting, empty, complete, nodup, unbound, bound, dumb⟩ := k.lawful
    refine ⟨hlanes ▸ range, hlanes ▸ fields, hlanes ▸ one, hlanes ▸ speaks, hlanes ▸ carry, inj, hlanes ▸ idle, ?_, fun e he => ?_,
      fun hc => ?_, fun hc y hy hsome => ?_, hqueues ▸ nodup, ?_, ?_, hqueues ▸ dumb⟩
    · rw [State.priorityOf_congr hroster]
      exact horder
    · rw [hlanes]
      exact waiting e (hperm.mem_iff.1 he)
    · exact List.perm_nil.1 ((empty hc) ▸ hperm)
    · rw [hlanes]
      refine (complete hc y hy hsome).imp id fun ⟨e, he, hy⟩ => ⟨e, hperm.mem_iff.2 he, hy⟩
    · rw [hlanes, hqueues]
      exact unbound
    · rw [hlanes, hqueues]
      exact bound
  have hlawful : (s.welcomed j b x created a).Lawful s.Dumb := by
    unfold State.Lawful
    rw [hspeaking, hcall]
    exact hlaws
  have hdone : (s.offer j x created a).Lawful s.Dumb := by
    rw [hoffer, hquiet k.speaking]
    exact hlawful.congr rfl rfl rfl rfl rfl rfl
  exact { hdone with dumb := fun c hc => hdone.dumb c (hdumb c hc) }

/-- A JOIN from an unknown handle (R32). -/
theorem State.newJoin_sound (hunknown : s.roster.budByHandle j.handle = none) : s.Keeps p (s.newJoin j) := fun hs => by
  cases hc : s.pairing.context with
  | some c =>
    rw [State.newJoin_of_busy hc]
    exact s.sendAir_sound _ hs
  | none =>
    rw [State.newJoin_of_empty hc]
    by_cases ha : s.pairing.admission j.addr = .refused
    · rw [State.admitJoin_of_refused ha]
      exact s.sendAir_sound _ hs
    · rw [State.admitJoin_of_admitted ha]
      have hknown := Roster.budByHandle_eq_none.1 hunknown
      cases hplace : s.roster.place j.setTag j.role with
      | refused reason => exact s.sendAir_sound _ hs
      | existing x =>
        obtain ⟨b, hb⟩ := Roster.freeBud_of_placed hs.membership hs.compatible hs.use (fun r => by rw [hplace]; exact nofun)
        exact State.offer_sound (created := false) hb hplace hknown hc hs
      | opened x =>
        obtain ⟨b, hb⟩ := Roster.freeBud_of_placed hs.membership hs.compatible hs.use (fun r => by rw [hplace]; exact nofun)
        exact State.offer_sound (created := true) hb hplace hknown hc hs

theorem State.joinRequest_sound (s : State) (j : JoinRequest) : s.Keeps p (s.joinRequest j) := fun hs => by
  cases hb : s.roster.budByHandle j.handle with
  | none =>
    rw [State.joinRequest_of_unknown hb]
    exact State.newJoin_sound hb hs
  | some b =>
    by_cases ha : s.roster.buds[b].addr = j.addr
    · rw [State.joinRequest_of_same hb ha]
      exact s.sendAir_sound _ hs
    · rw [State.joinRequest_of_reused hb ha]
      exact ((State.freeBud_sound (fun _ => (Roster.budByHandle_some hb).1) _).trans
        (State.newJoin_sound (State.budByHandle_of_freed _ hs.buds hb))) hs

/-! ## CONFIRM (R35) -/

theorem State.completeHandshake_sound {c : Context} (hc : s.pairing.context = some c) : s.Keeps p (s.completeHandshake c) := fun hs => by
  obtain ⟨hoffered, hbusy⟩ := hs.context
  have ho : s.roster.buds[c.bud].link = .offered := (hoffered c.bud).2 (by rw [hc]; rfl)
  have hkin : s.roster.buds[c.bud].Kin s.roster.buds[c.bud].confirmed :=
    ⟨rfl, rfl, rfl, rfl, ⟨nofun, fun h => absurd (ho.symm.trans h) nofun⟩, fun h => absurd (ho.symm.trans h) nofun⟩
  obtain ⟨party, current, homed, lawful⟩ := State.Keeps.refl (p := p) s hs
  have hbegun : s.Amid p noListener (fun y => noListener y ∨ s.roster.buds[c.bud].listener = some y)
      ((s.setBud c.bud s.roster.buds[c.bud].confirmed).emptyContext) := by
    refine ⟨party.kin (State.setBud_kin hkin) party.settings ⟨fun b => ?_, nofun⟩, fun k => ((current k).setBud party).congr rfl rfl,
      fun k => (homed k).imp fun _ hh => (hh.setBud (b := c.bud) _).congr rfl rfl, fun hp k => ?_⟩
    · refine ⟨fun h => ?_, nofun⟩
      change (s.setBud c.bud s.roster.buds[c.bud].confirmed).roster.buds[b].link = .offered at h
      rw [State.setBud_getElem] at h
      split at h
      · exact absurd h nofun
      · next hne =>
        have hb := (hoffered b).1 h
        rw [hc] at hb
        exact absurd (Option.some.inj hb) hne
    · exact ((lawful hp k).setBud (b := c.bud) (r := s.roster.buds[c.bud].confirmed) nofun).congr rfl rfl rfl rfl rfl rfl
  unfold State.completeHandshake
  exact ((hbegun.noticeFor _).mono (fun _ => id) fun y hy => hy.2 (hy.1.resolve_left id)).post _

theorem State.confirmRequest_sound (s : State) (h : Handle) (seq : Byte) : s.Keeps p (s.confirmRequest h seq) := by
  unfold State.confirmRequest
  split
  · next c hc =>
    split
    · exact State.completeHandshake_sound hc
    · exact s.sendAir_sound _
  · exact s.sendAir_sound _

end Sys2Proof.Machine
end

