-- ==== Sys2Proof/Proofs/SoundSteps.lean ====
section
/-! PROOFS. WRITE, the store and power keep the laws, and so every command and every step does. -/

namespace Sys2Proof.Machine

variable {p : Prop} {s t u : State} {D : BudIx → Prop} {x : ListenerIx}

/-! ## WRITE (R16, R69, R152, R153) -/

/-- What a written word leaves of a listener: its members, whether it is in use, and its set tag (R153). -/
theorem Listener.setWord_place (l : Listener) (i : Nat) (w : Word) :
    (l.setWord i w).members = l.members ∧ (l.setWord i w).inUse = l.inUse ∧ (l.setWord i w).setTag = l.setTag := by
  unfold Listener.setWord
  split <;> exact ⟨rfl, rfl, rfl⟩

/-- The listeners keep their places (R153). -/
def State.SamePlaces (s t : State) : Prop :=
  ∀ y : ListenerIx, t.roster.listeners[y].members = s.roster.listeners[y].members ∧
    t.roster.listeners[y].inUse = s.roster.listeners[y].inUse ∧ t.roster.listeners[y].setTag = s.roster.listeners[y].setTag

theorem State.SamePlaces.refl (s : State) : s.SamePlaces s := fun _ => ⟨rfl, rfl, rfl⟩

theorem State.SamePlaces.trans (h : s.SamePlaces t) (k : t.SamePlaces u) : s.SamePlaces u := fun y => by
  obtain ⟨hmembers, hin, htag⟩ := h y
  obtain ⟨hmembers', hin', htag'⟩ := k y
  exact ⟨hmembers'.trans hmembers, hin'.trans hin, htag'.trans htag⟩

theorem State.writeWord_places (s : State) (r : RegionIx) (i : Nat) (w : Word) :
    s.SamePlaces (s.writeWord r i w) ∧
      (s.directives.settings.InRange → (s.writeWord r i w).directives.settings.InRange) := by
  unfold State.writeWord
  split
  case h_1 =>
    refine ⟨fun y => ?_, id⟩
    have hread : (update s.roster.listeners (Fin.ofNat 4 (i / 8)) fun l => l.setWord (i % 8) w)[y] =
        if Fin.ofNat 4 (i / 8) = y then s.roster.listeners[Fin.ofNat 4 (i / 8)].setWord (i % 8) w else s.roster.listeners[y] :=
      getElem_set_fin ..
    rw [hread]
    split
    · next e => exact e ▸ Listener.setWord_place _ _ _
    · exact ⟨rfl, rfl, rfl⟩
  case h_5 => split <;> exact ⟨.refl _, id⟩
  case h_7 => exact ⟨.refl _, Settings.setWord_inRange _ _⟩
  case h_8 =>
    unfold DirectiveUnit.setProtection
    split
    · exact ⟨.refl _, id⟩
    · exact ⟨.refl _, id⟩
  all_goals exact ⟨.refl _, id⟩

theorem State.writeWords_places (ws : List Word) (s : State) (r : RegionIx) (i : Nat) :
    s.SamePlaces (s.writeWords r i ws) ∧
      (s.directives.settings.InRange → (s.writeWords r i ws).directives.settings.InRange) := by
  induction ws generalizing s i with
  | nil => exact ⟨.refl s, id⟩
  | cons w ws ih =>
    obtain ⟨hplaces, hrange⟩ := s.writeWord_places r i w
    obtain ⟨hplaces', hrange'⟩ := ih (s.writeWord r i w) (i + 1)
    exact ⟨hplaces.trans hplaces', fun h => hrange' (hrange h)⟩

/-- A wait list re-sorted where a priority has changed is in order for the new ones (R69). -/
theorem State.Lawful.resort (h : s.Lawful D) (hlanes : t.laneUnit = s.laneUnit) (hintake : t.intake = s.intake)
    (hcall : t.callCtl = s.callCtl) {q : Prop} [Decidable q] (hq : ¬ q → t.priorityOf = s.priorityOf) :
    (if q then t.resortWait else t).Lawful D := by
  split
  · have hperm := sortWait_perm t.priorityOf t.laneUnit.waitList
    obtain ⟨range, fields, one, speaks, carry, inj, idle, order, waiting, empty, complete, nodup, unbound, bound, dumb⟩ := h
    have horder : WaitOrderly s.priorityOf t.laneUnit.waitList := by
      rw [hlanes]
      exact order
    unfold State.Lawful
    unfold State.resortWait State.setWait
    dsimp only
    rw [hlanes, hcall]
    rw [hlanes] at hperm horder
    refine ⟨range, fields, one, speaks, carry, inj, idle, horder.sort, fun e he => waiting e (hperm.mem_iff.1 he),
      fun hc => List.perm_nil.1 (empty hc ▸ hperm), fun hc y hy hs => ?_, ?_, ?_, ?_, ?_⟩
    · exact (complete hc y hy hs).imp id fun ⟨e, he, hy⟩ => ⟨e, hperm.mem_iff.2 he, hy⟩
    all_goals
      dsimp only
      rw [hintake]
      assumption
  · next hn =>
    exact h.congr (by rw [hlanes]) (by rw [hlanes]) (by rw [hlanes]) (by rw [hintake]) (hq hn) (by rw [hcall])

/-- The listeners are told, one after another, of a change of mute or primary (R16). -/
theorem State.Amid.tells {old new : Vector Listener 4} (l : List ListenerIx)
    (h : s.Amid p noListener (fun y => (old[y].mute ≠ new[y].mute ∨ old[y].primary ≠ new[y].primary) ∧ y ∈ l) t) :
    s.Amid p noListener noListener (l.foldl (State.tell old new) t) := by
  induction l generalizing t with
  | nil => exact h.mono (fun _ => id) fun _ hy => absurd hy.2 List.not_mem_nil
  | cons x l ih =>
    refine ih ?_
    unfold State.tell
    split
    · exact (h.notice x).mono (fun _ => id) fun y hy => ⟨hy.1.1, (List.mem_cons.1 hy.1.2).resolve_left hy.2⟩
    · next hn => exact h.mono (fun _ => id) fun y hy => ⟨hy.1, (List.mem_cons.1 hy.2).resolve_left fun e => hn (e ▸ hy.1)⟩

theorem State.setPointer_sound (s : State) (r : RegionIx) (i : Nat) : s.Keeps p (s.setPointer r i) :=
  State.Unseen.keeps ⟨⟨rfl, rfl, rfl, rfl, rfl⟩, rfl, rfl⟩

/-- A carried out WRITE (R152). -/
theorem State.writeRun_sound (s : State) {r : RegionIx} {i : Nat} {ws : List Word} (hi : i + ws.length ≤ regionCount r) :
    s.Keeps p ((s.writeWords r i ws).afterWrite s.roster.listeners) := fun hs => by
  obtain ⟨honly, -⟩ := State.writeWords_keeps ws s r i hi
  obtain ⟨hplaces, hrange⟩ := s.writeWords_places ws r i
  generalize s.writeWords r i ws = t at honly hplaces hrange
  rw [State.afterWrite_eq]
  refine State.Amid.tells _ (((State.Keeps.refl s hs).relisten
    (U := fun y => s.roster.listeners[y].mute ≠ t.roster.listeners[y].mute ∨ s.roster.listeners[y].primary ≠ t.roster.listeners[y].primary)
    ?_ ?_ ?_ ?_ ?_ ?_ ?_).mono (fun _ => id) fun y hy => ⟨hy.resolve_left id, mem_listeners y⟩)
  · split <;> exact honly.buds
  · split <;> exact hplaces
  · split <;> exact honly.context
  · split <;> exact hrange hs.settings
  · have hspeaking : t.laneUnit.speaking = s.laneUnit.speaking := congrArg LaneUnit.speaking honly.laneUnit
    split <;> exact hspeaking
  · intro y hy
    obtain ⟨hmute, hprimary⟩ := not_or.1 hy
    split <;> exact ⟨(not_ne_iff.1 hmute).symm, (not_ne_iff.1 hprimary).symm⟩
  · intro hl
    refine hl.resort honly.laneUnit honly.intake honly.callCtl fun hsame => funext fun y => ?_
    exact congrArg Fin.val (not_ne_iff.1 fun hne => hsame ⟨y, hne⟩).symm

theorem State.writeDirective_sound (s : State) (m : Option Word) (q : List Byte) : s.Keeps p (s.writeDirective m q).1 := by
  unfold State.writeDirective
  dsimp only
  split
  · exact .refl s
  · next hfit =>
    split
    · exact .refl s
    · split
      · exact .refl s
      · exact (s.writeRun_sound (by rw [State.wordsToWrite_length]; omega)).trans (State.setPointer_sound _ _ _)

/-! ## The other directives -/

theorem State.pointDirective_sound (s : State) (q : List Byte) : s.Keeps p (s.pointDirective q).1 := by
  unfold State.pointDirective
  split
  · exact s.setPointer_sound _ _
  · exact .refl s

theorem State.readDirective_sound (s : State) (q : List Byte) : s.Keeps p (s.readDirective q).1 := by
  unfold State.readDirective
  dsimp only
  split
  · exact .refl s
  · split
    · exact .refl s
    · split
      · exact .refl s
      · exact s.setPointer_sound _ _

theorem State.admissionDirective_sound (s : State) (o : Bool) : s.Keeps p (s.admissionDirective o).1 := by
  unfold State.admissionDirective
  split
  · exact State.Unseen.keeps ⟨⟨rfl, rfl, rfl, rfl, rfl⟩, rfl, rfl⟩
  · exact .refl s

theorem Lane.clearCounters_fieldsSound {l : Lane} (h : l.FieldsSound) : l.clearCounters.FieldsSound := by
  obtain ⟨hvacant, hrest⟩ := h
  refine ⟨fun hv => ?_, hrest⟩
  rw [hvacant hv]
  rfl

/-- The counters cleared leave the laws of the lanes (R158). -/
theorem State.Lawful.clearCounters (h : s.Lawful D) : s.clearCounters.Lawful D := by
  have hlane : ∀ k : LaneIx, s.clearCounters.laneUnit.lanes[k] = s.laneUnit.lanes[k].clearCounters := fun k => Vector.getElem_map ..
  obtain ⟨range, fields, one, speaks, carry, inj, idle, order, waiting, empty, complete, nodup, unbound, bound, dumb⟩ := h
  constructor
  case inj => exact inj
  case order => exact order
  case empty => exact empty
  case nodup => exact nodup
  case dumb => exact dumb
  case fields =>
    intro k
    rw [hlane]
    exact Lane.clearCounters_fieldsSound (fields k)
  all_goals simp only [hlane]
  all_goals assumption

theorem State.clearCountersDirective_sound (s : State) : s.Keeps p s.clearCountersDirective.1 := by
  unfold State.clearCountersDirective
  split
  · exact .of_same ⟨rfl, rfl, rfl, rfl, rfl⟩ fun _ h => h.lawful.clearCounters
  · exact .refl s

/-! ## The store and power (R164, R171, R173, R174) -/

/-- A sound state may follow anything. -/
theorem State.LanesSound.follows (h : t.LanesSound) : s.Keeps p t := fun _ =>
  ⟨h.party.but, fun _ => h.current, fun _ => ⟨_, (h.party.but (L := noListener)).homed h.speaking⟩, fun _ _ => h.lawful⟩

theorem State.storePageDirective_sound (s : State) (n : Byte) : s.Keeps p (s.storePageDirective n).1 := by
  unfold State.storePageDirective
  split
  · exact .refl s
  · split
    · exact .refl s
    · split
      · exact .refl s
      · split
        · exact .refl s
        · exact State.Unseen.keeps ⟨⟨rfl, rfl, rfl, rfl, rfl⟩, rfl, rfl⟩

theorem State.erasePageDirective_sound (s : State) (n : Byte) : s.Keeps p (s.erasePageDirective n).1 := by
  unfold State.erasePageDirective
  split
  · exact .refl s
  · split
    · exact .refl s
    · split
      · exact .refl s
      · exact State.Unseen.keeps ⟨⟨rfl, rfl, rfl, rfl, rfl⟩, rfl, rfl⟩

theorem State.loadPageDirective_sound (s : State) (n : Byte) : s.Keeps p (s.loadPageDirective n).1 := by
  unfold State.loadPageDirective
  split
  · exact .refl s
  · split
    · exact .refl s
    · split
      · exact .refl s
      · exact State.Unseen.keeps ⟨⟨rfl, rfl, rfl, rfl, rfl⟩, rfl, rfl⟩

theorem State.start_sound (s u : State) (cause : StartCause) : s.Keeps p (u.start cause) := (u.start_lanesSound cause).follows

theorem State.restartDirective_sound (s : State) (a : Arriving) : s.Keeps p (s.restartDirective a).1 := by
  unfold State.restartDirective
  split
  · exact State.start_sound _ _ _
  · split
    · exact .refl s
    · exact State.Keeps.trans (State.Unseen.keeps (t := s.deferRestart) ⟨⟨rfl, rfl, rfl, rfl, rfl⟩, rfl, rfl⟩) (State.post_sound _ _)

theorem State.complete_sound (s : State) (a : Arriving) : s.Keeps p (s.complete a) := by
  unfold State.complete
  split
  · exact .refl s
  · dsimp only
    split
    · exact State.start_sound _ _ _
    · exact State.Keeps.trans (State.Unseen.keeps (t := { s with store := s.store.settle }) ⟨⟨rfl, rfl, rfl, rfl, rfl⟩, rfl, rfl⟩)
        (State.post_sound _ _)

/-! ## The ports' own events (R132, R136, R139) -/

theorem State.countMalformed_sound (s : State) (link : Link) : s.Keeps p (s.countMalformed link) := by
  cases link <;> exact State.Unseen.keeps ⟨⟨rfl, rfl, rfl, rfl, rfl⟩, rfl, rfl⟩

theorem State.finishVoice_sound (s : State) : s.Keeps p s.finishVoice :=
  State.Keeps.trans (State.Unseen.keeps (t := { s with voicePort := { s.voicePort with sending := none } })
    ⟨⟨rfl, rfl, rfl, rfl, rfl⟩, rfl, rfl⟩) (State.chooseVoice_sound _)

theorem State.setHoldOff_sound (s : State) (link : Link) (held : Bool) : s.Keeps p (s.setHoldOff link held) := by
  cases link <;> exact State.Unseen.keeps ⟨⟨rfl, rfl, rfl, rfl, rfl⟩, rfl, rfl⟩

theorem State.chooseAt_sound (s : State) (link : Link) : s.Keeps p (s.chooseAt link) := by
  cases link with
  | air => exact State.Unseen.keeps ⟨⟨rfl, rfl, rfl, rfl, rfl⟩, rfl, rfl⟩
  | voice => exact s.chooseVoice_sound

/-! ## Every command -/

/-- WAIT LIST GRANT's share (R68). -/
theorem State.grantAt_sound (hc : s.callCtl.state = .inCall) (k : LaneIx) :
    s.Keeps p (match s.laneUnit.lanes[k].state with
      | .draining => s.drainShare k
      | .vacant => s.grantHead k
      | .priming | .mixing => s) := by
  split
  · exact State.drainShare_sound ‹_›
  · exact State.grantHead_sound hc ‹_›
  · exact .refl s
  · exact .refl s

/-- Every command keeps the laws. -/
theorem exec_sound (c : Instr) (s : State) : ∃ t, exec c s = .next t ∧ s.Keeps p t := by
  cases c with
  | audio h q b => exact ⟨_, rfl, s.atPort_sound _ _ (s.arrival_sound _ _)⟩
  | silence h q => exact ⟨_, rfl, s.atPort_sound _ _ (s.arrival_sound _ _)⟩
  | join h q a t r => exact ⟨_, rfl, s.atPort_sound _ _ (s.joinRequest_sound _)⟩
  | confirm h q => exact ⟨_, rfl, s.atPort_sound _ _ (s.confirmRequest_sound _ _)⟩
  | leave h q => exact ⟨_, rfl, s.atPort_sound _ _ (s.leaveRequest_sound _)⟩
  | park h q => exact ⟨_, rfl, s.atPort_sound _ _ (s.parkRequest_sound _)⟩
  | adjust h q f => exact ⟨_, rfl, s.atPort_sound _ _ (s.adjustRequest_sound _ _ _)⟩
  | handleDropped h q => exact ⟨_, rfl, s.atPort_sound _ _ (s.handleDroppedNotice_sound _)⟩
  | farVoice b2 b3 far o => exact ⟨_, rfl, s.atPort_sound _ _ (s.voiceFrame_sound _ _)⟩
  | frameMalformed link b l => exact ⟨_, rfl, s.atPort_sound _ _ (s.countMalformed_sound _)⟩
  | directiveUnknown code q r => exact ⟨_, rfl, s.atPort_sound _ _ (s.consumeMask_sound.trans (State.post_sound _ _))⟩
  | point q r => exact ⟨_, rfl, s.takeDirective_sound _ _ _ _ fun _ => State.pointDirective_sound _ _⟩
  | read q r => exact ⟨_, rfl, s.takeDirective_sound _ _ _ _ fun _ => State.readDirective_sound _ _⟩
  | write q r => exact ⟨_, rfl, s.takeDirective_sound _ _ _ _ fun _ => State.writeDirective_sound _ _ _⟩
  | mask q r =>
    exact ⟨_, rfl, s.takeDirective_sound _ _ _ _ fun _ => State.Unseen.keeps ⟨⟨rfl, rfl, rfl, rfl, rfl⟩, rfl, rfl⟩⟩
  | beginCall q r => exact ⟨_, rfl, s.takeCall_sound _ _ _⟩
  | endCall q r => exact ⟨_, rfl, s.takeCall_sound _ _ _⟩
  | hold q r => exact ⟨_, rfl, s.takeCall_sound _ _ _⟩
  | resume q r => exact ⟨_, rfl, s.takeCall_sound _ _ _⟩
  | swap q r =>
    exact ⟨_, rfl, s.takeDirective_sound _ _ _ _ fun _ => State.Unseen.keeps ⟨⟨rfl, rfl, rfl, rfl, rfl⟩, rfl, rfl⟩⟩
  | openAdmission q r => exact ⟨_, rfl, s.takeDirective_sound _ _ _ _ fun _ => State.admissionDirective_sound _ _⟩
  | closeAdmission q r => exact ⟨_, rfl, s.takeDirective_sound _ _ _ _ fun _ => State.admissionDirective_sound _ _⟩
  | evict q r => exact ⟨_, rfl, s.takeDirective_sound _ _ _ _ fun _ => State.evictDirective_sound _ _⟩
  | bond q r => exact ⟨_, rfl, s.takeDirective_sound _ _ _ _ fun _ => State.bondDirective_sound _ _⟩
  | storePage q r => exact ⟨_, rfl, s.takeDirective_sound _ _ _ _ fun _ => State.storePageDirective_sound _ _⟩
  | erasePage q r => exact ⟨_, rfl, s.takeDirective_sound _ _ _ _ fun _ => State.erasePageDirective_sound _ _⟩
  | loadPage q r => exact ⟨_, rfl, s.takeDirective_sound _ _ _ _ fun _ => State.loadPageDirective_sound _ _⟩
  | clearCounters q r => exact ⟨_, rfl, s.takeDirective_sound _ _ _ _ fun _ => State.clearCountersDirective_sound _⟩
  | status q r => exact ⟨_, rfl, s.takeDirective_sound _ _ _ _ fun _ => .refl _⟩
  | restart q r a => exact ⟨_, rfl, s.takeDirective_sound _ _ _ _ fun _ => State.restartDirective_sound _ _⟩
  | cadenceTimerExpiry o => exact ⟨_, rfl, s.timerExpiry_sound o⟩
  | fillTimeout o => exact ⟨_, rfl, .ite (fun _ => s.timerExpiry_sound o) fun _ => .refl s⟩
  | confirmTimeout =>
    cases h : s.pairing.context with
    | none => exact ⟨s, by simp only [exec, execConfirmTimeout, h], .refl s⟩
    | some c =>
      exact ⟨_, by simp only [exec, execConfirmTimeout, h]; rfl, .ite (fun _ => s.countdown_sound) fun _ => .refl s⟩
  | noArrivals b => exact ⟨_, rfl, .ite (fun _ => s.supervise_sound _) fun _ => .refl s⟩
  | swapTaken => exact ⟨_, rfl, s.takeSwap_sound⟩
  | promotion k => exact ⟨_, rfl, .ite (fun h => State.examineShare_sound h.2.1) fun _ => .refl s⟩
  | drainLastPull k => exact ⟨_, rfl, .ite (fun h => State.drainShare_sound h.2) fun _ => .refl s⟩
  | reservationComplete k => exact ⟨_, rfl, .ite (fun h => State.drainShare_sound h.2.1) fun _ => .refl s⟩
  | waitListGrant k => exact ⟨_, rfl, .ite (fun h => State.grantAt_sound h.1 k) fun _ => .refl s⟩
  | moveIntoRing b => exact ⟨_, rfl, s.moveFor_sound b⟩
  | operationCompletion a => exact ⟨_, rfl, s.complete_sound a⟩
  | deferredRestartTaken a => exact ⟨_, rfl, .ite (fun _ => s.complete_sound a) fun _ => .refl s⟩
  | powerUp => exact ⟨_, rfl, State.start_sound _ _ _⟩
  | powerRemoval => exact ⟨_, rfl, s.losePower_lanesSound.follows⟩
  | airFrameSent => exact ⟨_, rfl, State.Unseen.keeps ⟨⟨rfl, rfl, rfl, rfl, rfl⟩, rfl, rfl⟩⟩
  | voiceFrameSent => exact ⟨_, rfl, s.finishVoice_sound⟩
  | holdOffReleased link => exact ⟨_, rfl, (s.setHoldOff_sound link false).trans (State.chooseAt_sound _ link)⟩
  | holdOffAsserted link => exact ⟨_, rfl, s.setHoldOff_sound link true⟩
  | frameBegunWhileClosed link => exact ⟨_, rfl, .refl s⟩

/-- A step is a command that keeps the laws, or none. -/
theorem step_sound (h : step s = .next t) : s.Keeps True t := by
  rcases step_cases h with rfl | ⟨c, rest, -, he⟩
  · exact .refl _
  · obtain ⟨u, hu, hkeeps⟩ := exec_sound (p := True) c (s.withPending rest)
    obtain rfl := Host.Outcome.next.inj (hu.symm.trans he)
    have hqueued : s.Unseen (s.withPending rest) := ⟨⟨rfl, rfl, rfl, rfl, rfl⟩, rfl, rfl⟩
    exact hqueued.keeps.trans hkeeps

/-- Settles O5: every command is a path of acts that keep the laws of the party. -/
theorem stepKeepsParty : Obligations.StepKeepsParty := by
  unfold Obligations.StepKeepsParty
  exact fun s t hs h => (step_sound h hs).sound

/-- Settles O6: where the tables change what a listener says, its notice follows within the act (R11, R61). -/
theorem stepKeepsSpeakersCurrent : Obligations.StepKeepsSpeakersCurrent := by
  unfold Obligations.StepKeepsSpeakersCurrent
  exact fun s t hs hc h => (step_sound h hs).speaking hc

/-- Settles O7: the laws of the lanes hold through each act, and with the party's they are those of the statement. -/
theorem stepKeepsLanes : Obligations.StepKeepsLanes := by
  unfold Obligations.StepKeepsLanes
  exact fun s t hs h => (step_sound h hs.party).lanesSound trivial hs

end Sys2Proof.Machine
end

