-- ==== Sys2Proof/Proofs/CadenceFrames.lean ====
section
/-! PROOFS. What the acts of a cadence leave, the account of a cadence without directives, and the cadences of each call state
(R101, R104, R117, R118, R120, R121). -/

namespace Sys2Proof.Machine

variable {s t u : State}

/-! ## What the Roster's and the Lane Unit's acts leave -/

/-- A change that leaves the mix, the Call Controller, the store, the queue of commands, the tables and the line of the Voice
Port. -/
structure State.Aside (s t : State) : Prop where
  mix : t.mix = s.mix
  callCtl : t.callCtl = s.callCtl
  store : t.store = s.store
  pending : t.pending = s.pending
  tables : t.directives.SameTables s.directives
  line : t.voicePort.SameLine s.voicePort

theorem DirectiveUnit.SameTables.refl (d : DirectiveUnit) : d.SameTables d := ⟨rfl, rfl, rfl, rfl, rfl, rfl⟩

theorem DirectiveUnit.SameTables.trans {d e f : DirectiveUnit} (h : e.SameTables d) (k : f.SameTables e) : f.SameTables d := by
  obtain ⟨h1, h2, h3, h4, h5, h6⟩ := h
  obtain ⟨k1, k2, k3, k4, k5, k6⟩ := k
  exact ⟨k1.trans h1, k2.trans h2, k3.trans h3, k4.trans h4, k5.trans h5, k6.trans h6⟩

theorem VoicePort.SameLine.trans {v w z : VoicePort} (h : w.SameLine v) (k : z.SameLine w) : z.SameLine v := by
  obtain ⟨h1, h2, h3, h4⟩ := h
  obtain ⟨k1, k2, k3, k4⟩ := k
  exact ⟨k1.trans h1, k2.trans h2, k3.trans h3, k4.trans h4⟩

theorem State.Aside.refl (s : State) : s.Aside s := ⟨rfl, rfl, rfl, rfl, .refl _, rfl, rfl, rfl, rfl⟩

theorem State.Aside.trans (h : s.Aside t) (k : t.Aside u) : s.Aside u :=
  ⟨k.mix.trans h.mix, k.callCtl.trans h.callCtl, k.store.trans h.store, k.pending.trans h.pending,
    DirectiveUnit.SameTables.trans h.tables k.tables, VoicePort.SameLine.trans h.line k.line⟩

theorem State.Aside.foldl {α : Type} {f : State → α → State} (h : ∀ (s : State) (a : α), s.Aside (f s a)) (l : List α) (s : State) :
    s.Aside (l.foldl f s) := by
  induction l generalizing s with
  | nil => exact .refl s
  | cons a l ih => exact (h s a).trans (ih _)

theorem State.OnlyLanesAndReports.aside (h : s.OnlyLanesAndReports t) : s.Aside t :=
  ⟨h.mix, h.callCtl, h.store, h.pending, h.tables, h.line⟩

theorem State.OnlyReports.aside (h : s.OnlyReports t) : s.Aside t := ⟨h.mix, h.callCtl, h.store, h.pending, h.tables, h.line⟩

theorem State.unlinkBud_aside (s : State) (b : BudIx) : s.Aside (s.unlinkBud b) := by
  rw [State.unlinkBud_eq]
  exact ⟨rfl, rfl, rfl, rfl, .refl _, rfl, rfl, rfl, rfl⟩

theorem State.finishDeparture_aside (s : State) (d : Departure) : s.Aside (s.finishDeparture d) := by
  have halone : ∀ (u : State) (x : ListenerIx), u.Aside (u.emptyIfAlone x) := fun u x => by
    unfold State.emptyIfAlone
    dsimp only
    split
    · exact ⟨rfl, rfl, rfl, rfl, .refl _, rfl, rfl, rfl, rfl⟩
    · exact .refl u
  unfold State.finishDeparture
  dsimp only
  refine State.Aside.trans ?_ (State.postEvent_only _ _).aside
  split
  · exact (s.notice_only _).aside.trans (halone _ _)
  · exact .refl s

theorem State.freeBud_aside (s : State) (b : BudIx) (cause : FreeCause) : s.Aside (s.freeBud b cause) :=
  (s.unlinkBud_aside b).trans (State.finishDeparture_aside _ _)

theorem Supervision.visit_aside (a : Supervision) (b : BudIx) : a.state.Aside (a.visit b).state := by
  have hset : ∀ (u : State) (r : Bud), u.Aside (u.setBud b r) := fun u r => ⟨rfl, rfl, rfl, rfl, .refl _, rfl, rfl, rfl, rfl⟩
  unfold Supervision.visit
  dsimp only
  split
  · split
    · exact (hset _ _).trans (State.unlinkBud_aside _ b)
    · split
      · exact (hset _ _).trans (hset _ _)
      · exact hset _ _
  · exact .refl _

theorem Supervision.visits_aside (l : List BudIx) (a : Supervision) : a.state.Aside (l.foldl Supervision.visit a).state := by
  induction l generalizing a with
  | nil => exact .refl _
  | cons b l ih => exact (a.visit_aside b).trans (ih _)

theorem State.supervise_aside (s : State) (order : List BudIx) : s.Aside (s.supervise order) :=
  ((Supervision.visits_aside order ⟨s, [], []⟩).trans (State.Aside.foldl State.finishDeparture_aside _ _)).trans
    (State.Aside.foldl (fun u x => (u.noticeFor_only x).aside) _ _)

theorem State.countdown_aside (s : State) : s.Aside s.countdown := by
  unfold State.countdown
  split
  · exact .refl s
  · next c _ =>
    have htick : s.Aside { s with pairing := { s.pairing with context := some { c with countdown := c.countdown - 1 } } } :=
      ⟨rfl, rfl, rfl, rfl, .refl _, rfl, rfl, rfl, rfl⟩
    dsimp only
    split
    · exact htick.trans (State.freeBud_aside _ _ _)
    · exact htick

theorem State.laneAtCadence_aside (s : State) (k : LaneIx) (before : LaneState) : s.Aside (s.laneAtCadence k before) := by
  have hcontribute : ∀ (u : State) (y : List Int), u.Aside (u.contribute k y) := fun u y => by
    rw [State.contribute_eq]
    exact ⟨rfl, rfl, rfl, rfl, .refl _, rfl, rfl, rfl, rfl⟩
  have hpull : ∀ (b : BudIx) (pull : Feed → Feed × List Int), s.Aside (s.pullWith k b pull) := fun b pull =>
    State.Aside.trans (t := s.setFeed k b (pull (s.feed k b)).1) ⟨rfl, rfl, rfl, rfl, .refl _, rfl, rfl, rfl, rfl⟩ (hcontribute _ _)
  cases before with
  | vacant => exact .refl s
  | mixing =>
    change s.Aside (s.pullLane k)
    unfold State.pullLane
    split
    · exact hpull _ _
    · exact .refl s
  | priming =>
    change s.Aside (s.examineLane k)
    unfold State.examineLane
    split
    · split
      · exact hpull _ _
      · exact .refl s
    · exact .refl s
  | draining =>
    change s.Aside (s.drainLane k)
    unfold State.drainLane
    refine State.Aside.trans ?_ (State.vacateLane_only _ k false).only.aside
    exact State.Aside.trans (t := s.setLane k _) ⟨rfl, rfl, rfl, rfl, .refl _, rfl, rfl, rfl, rfl⟩ (hcontribute _ _)

theorem State.lanesTake_aside (s : State) (before : Vector LaneState 3) (order : List LaneIx) :
    s.Aside (s.lanesTake before order) := by
  have hclear : s.Aside s.clearHandover := ⟨rfl, rfl, rfl, rfl, .refl _, rfl, rfl, rfl, rfl⟩
  by_cases hcall : s.callCtl.state = .inCall
  · rw [State.lanesTake_of_call before order hcall]
    exact (hclear.trans (State.Aside.foldl (fun u k => u.laneAtCadence_aside k before[k]) order _)).trans
      ⟨rfl, rfl, rfl, rfl, .refl _, rfl, rfl, rfl, rfl⟩
  · rw [State.lanesTake_of_none before order hcall]
    exact hclear

theorem State.sendEach_aside (s : State) (rs : List Recipient) (f : Recipient → AirFrame) : s.Aside (s.sendEach rs f) := by
  rw [State.sendEach_frame]
  exact ⟨rfl, rfl, rfl, rfl, .refl _, rfl, rfl, rfl, rfl⟩

theorem State.emitSilence_aside (s : State) : s.Aside s.emitSilence := s.sendEach_aside _ _

/-! ## The account of a cadence without directives (R104) -/

/-- What a cadence has done: the Mix Engine has taken it, its recipients wait, the Lane Unit has taken it, the hold has had its
turn, and how often outputs were formed. -/
structure Ledger where
  swapped : Bool := false
  waiting : Bool := false
  handed : Bool := false
  held : Bool := false
  formed : Nat := 0

/-- The account after an act, for an idle cadence or another, a hold due at its fill or not, begun in IN CALL or not. -/
def Ledger.act (idle due inCall : Bool) (l : Ledger) : CadenceAct → Ledger
  | .lanes => { l with handed := l.handed || !idle }
  | .mix => { l with swapped := true, waiting := l.waiting || (!idle && inCall && !(due && l.held)) }
  | .form => if l.waiting && l.handed then { l with waiting := false, formed := l.formed + 1 } else l
  | .hold => { l with held := true }
  | .supervise | .countdown | .call _ _ => l

/-- The Call Controller when the automatic hold has had its turn (R121). -/
def CallCtl.afterHold (c : CallCtl) (held : Bool) : CallCtl := if held then { c with state := .holding .auto, fills := 0 } else c

/-- A cadence that agrees with its account. -/
structure Cadence.Books (due : Bool) (s : State) (l : Ledger) (d : Cadence) : Prop where
  handed : d.handed = l.handed
  waiting : d.taken.isSome = l.waiting
  holdDue : d.due = (due && !l.held)
  call : d.state.callCtl = s.callCtl.afterHold (due && l.held)
  mix : d.state.mix =
    { (if l.swapped then s.mix.takeSwap else s.mix) with uplinkSeq := d.state.mix.uplinkSeq, clips := d.state.mix.clips }
  seq : d.state.mix.uplinkSeq = s.mix.uplinkSeq + BitVec.ofNat 8 l.formed
  quiet : l.formed = 0 → d.state.mix.clips = s.mix.clips ∧ d.state.voicePort.SameLine s.voicePort
  store : d.state.store = s.store
  pending : d.state.pending = s.pending
  tables : d.state.directives.SameTables s.directives

theorem Cadence.books_start (due : Bool) (s : State) :
    Cadence.Books due s {} { state := s, due := due, taken := none, handed := false } :=
  ⟨rfl, rfl, by simp, by simp [CallCtl.afterHold], rfl, by simp, fun _ => ⟨rfl, rfl, rfl, rfl, rfl⟩, rfl, rfl, .refl _⟩

/-- Acts aside leave the account of the mix and of the tables. -/
theorem Cadence.Books.aside {due : Bool} {l m : Ledger} {d e : Cadence} (h : d.Books due s l) (ha : d.state.Aside e.state)
    (hswapped : m.swapped = l.swapped) (hheld : m.held = l.held) (hformed : m.formed = l.formed) (hdue : e.due = d.due)
    (hhanded : e.handed = m.handed) (hwaiting : e.taken.isSome = m.waiting) : e.Books due s m where
  handed := hhanded
  waiting := hwaiting
  holdDue := by rw [hdue, hheld]; exact h.holdDue
  call := by rw [ha.callCtl, hheld]; exact h.call
  mix := by rw [ha.mix, hswapped]; exact h.mix
  seq := by rw [ha.mix, hformed]; exact h.seq
  quiet := fun hf => by
    obtain ⟨hclips, hline⟩ := h.quiet (hformed ▸ hf)
    exact ⟨by rw [ha.mix]; exact hclips, VoicePort.SameLine.trans hline ha.line⟩
  store := ha.store.trans h.store
  pending := ha.pending.trans h.pending
  tables := DirectiveUnit.SameTables.trans h.tables ha.tables

theorem Mix.takeSwap_eq (m : Mix) :
    m.takeSwap = { m with active := if m.swapPending then m.staging else m.active, swapPending := false } := by
  unfold Mix.takeSwap
  cases hp : m.swapPending with
  | true => rfl
  | false =>
    obtain ⟨⟩ := m
    simp_all

/-- The outputs formed once more (R105 to R110). -/
theorem State.formOutputs_frame (s : State) (far : List Int) (audience : List Recipient) :
    let t := s.formOutputs far audience
    t.mix = { s.mix with uplinkSeq := s.mix.uplinkSeq + 1, clips := t.mix.clips } ∧ t.callCtl = s.callCtl ∧ t.store = s.store ∧
      t.pending = s.pending ∧ t.directives.SameTables s.directives := by
  intro t
  have ht : t = s.formOutputs far audience := rfl
  rw [State.formOutputs_eq] at ht
  generalize s.rows far s.laneUnit.handover = rows at ht
  have hsent := State.sendEach_aside (({ s with mix := s.mix.countClips rows } : State).emitUplink (outputBlock (rows.getD 0 [])))
    audience fun r => .downlinkAudio r.handle r.seq (outputBlock (rows.getD (r.listener.val + 1) []))
  rw [← ht] at hsent
  have huplink : ({ s with
      mix := { s.mix.countClips rows with uplinkSeq := s.mix.uplinkSeq + 1 }
      voicePort := { s.voicePort with slot := some { seq := s.mix.uplinkSeq, samples := outputBlock (rows.getD 0 []) } } } : State).Aside t :=
    (State.chooseVoice_only _).aside.trans hsent
  refine ⟨?_, huplink.callCtl, huplink.store, huplink.pending, huplink.tables⟩
  rw [huplink.mix]
  rfl

/-- The Mix Engine's taking of a cadence, by the call state that it finds (R104). -/
theorem Cadence.takeMix_eq (c : Cadence) (kind : CadenceKind) :
    c.takeMix kind =
      { c with
        state := match c.state.callCtl.state with
          | .holding _ => c.state.takeSwap.emitSilence
          | .noCall | .inCall => c.state.takeSwap
        taken := if kind ≠ .idle ∧ c.state.callCtl.state = .inCall then some c.state.roster.recipients else c.taken } := by
  have hcall : c.state.takeSwap.callCtl = c.state.callCtl := rfl
  unfold Cadence.takeMix
  dsimp only
  rw [hcall]
  cases c.state.callCtl.state <;> cases kind <;> rfl

theorem Cadence.Books.swap {due : Bool} {l : Ledger} {d : Cadence} (h : d.Books due s l) {e : Cadence} {m : Ledger}
    (ha : d.state.takeSwap.Aside e.state) (hm : m = { l with swapped := true, waiting := m.waiting }) (hdue : e.due = d.due)
    (hhanded : e.handed = d.handed) (hwaiting : e.taken.isSome = m.waiting) : e.Books due s m := by
  have hmix : e.state.mix = d.state.mix.takeSwap := ha.mix
  rw [Mix.takeSwap_eq] at hmix
  have hcall : e.state.callCtl = d.state.callCtl := ha.callCtl
  have hbanks := h.mix
  rw [hm]
  refine ⟨hhanded.trans h.handed, hwaiting, hdue.trans h.holdDue, hcall.trans h.call, ?_, ?_, fun hf => ?_, ha.store.trans h.store,
    ha.pending.trans h.pending, DirectiveUnit.SameTables.trans h.tables ha.tables⟩
  · rw [hmix, hbanks, if_pos rfl]
    rw [Mix.takeSwap_eq]
    split <;> simp
  · rw [hmix]
    exact h.seq
  · obtain ⟨hclips, hline⟩ := h.quiet hf
    exact ⟨by rw [hmix]; exact hclips, VoicePort.SameLine.trans hline ha.line⟩

theorem State.autoHold_frame (s : State) :
    let t := s.autoHold
    t.callCtl = { s.callCtl with state := .holding .auto, fills := 0 } ∧ t.mix = s.mix ∧ t.store = s.store ∧ t.pending = s.pending ∧
      t.directives.SameTables s.directives ∧ t.voicePort.SameLine s.voicePort := by
  have hchanged := (State.postEvent_only ({ s.zeroFills with callCtl := { s.zeroFills.callCtl with state := .holding .auto } })
    (.callState (.holding .auto) s.zeroFills.callCtl.state .fillTimeout)).aside
  have hheld := (State.lanesHold_only (s.zeroFills.changeCall (.holding .auto) .fillTimeout)).only.aside
  obtain ⟨hmix, hcall, hstore, hpending, htables, hline⟩ := hchanged.trans hheld
  exact ⟨hcall, hmix, hstore, hpending, htables, hline⟩

theorem Cadence.takeHold_of_due {c : Cadence} (h : c.due = true) :
    c.takeHold = { c with state := c.state.autoHold, due := false } := if_pos h

theorem Cadence.takeHold_of_not {c : Cadence} (h : c.due = false) : c.takeHold = c := if_neg (Bool.eq_false_iff.1 h)

/-- The automatic hold's turn (R121). -/
theorem Cadence.Books.hold {due : Bool} {l : Ledger} {d : Cadence} (h : d.Books due s l) :
    d.takeHold.Books due s { l with held := true } := by
  have hdue := h.holdDue
  cases hd : d.due with
  | true =>
    rw [hd] at hdue
    obtain ⟨rfl, hheld⟩ := Bool.and_eq_true_iff.1 hdue.symm
    rw [Cadence.takeHold_of_due hd]
    obtain ⟨hcall, hmix, hstore, hpending, htables, hline⟩ := d.state.autoHold_frame
    have hbefore := h.call
    rw [Bool.not_eq_true'] at hheld
    rw [hheld] at hbefore
    refine ⟨h.handed, h.waiting, rfl, ?_, ?_, ?_, fun hf => ?_, hstore.trans h.store, hpending.trans h.pending,
      DirectiveUnit.SameTables.trans h.tables htables⟩
    · rw [hcall, hbefore]
      rfl
    · rw [hmix]
      exact h.mix
    · rw [hmix]
      exact h.seq
    · obtain ⟨hclips, hline'⟩ := h.quiet hf
      exact ⟨by rw [hmix]; exact hclips, VoicePort.SameLine.trans hline' hline⟩
  | false =>
    rw [Cadence.takeHold_of_not hd]
    rw [hd] at hdue
    have hsame : (due && l.held) = (due && true) := by
      cases due with
      | false => rfl
      | true => cases hl : l.held <;> simp [hl] at hdue ⊢
    refine { h with
      holdDue := ?_
      call := ?_ }
    · rw [hd]
      simp
    · rw [h.call, hsame]

/-- The forming of the outputs (R104). -/
theorem Cadence.Books.form {due : Bool} {l : Ledger} {d : Cadence} (h : d.Books due s l) (idle inCall : Bool) (far : List Int) :
    (d.form far).Books due s (l.act idle due inCall .form) := by
  have hwaiting := h.waiting
  have hhanded := h.handed
  unfold Ledger.act
  dsimp only
  cases ht : d.taken with
  | none =>
    rw [ht] at hwaiting
    have hsame : d.form far = d := by
      unfold Cadence.form
      rw [ht]
    rw [hsame, ← hwaiting]
    exact h
  | some audience =>
    rw [ht] at hwaiting
    cases hh : d.handed with
    | false =>
      have hsame : d.form far = d := by
        unfold Cadence.form
        rw [ht]
        dsimp only
        rw [hh]
        rfl
      rw [hsame, ← hhanded, hh, Bool.and_false]
      exact h
    | true =>
      have hformed : d.form far = { d with state := d.state.formOutputs far audience, taken := none } := by
        unfold Cadence.form
        rw [ht]
        dsimp only
        rw [hh]
        rfl
      obtain ⟨hmix, hcall, hstore, hpending, htables⟩ := d.state.formOutputs_frame far audience
      have hready : (l.waiting && l.handed) = true := by
        rw [← hwaiting, ← hhanded, hh]
        rfl
      rw [hformed, if_pos hready]
      refine ⟨hhanded, rfl, h.holdDue, hcall.trans h.call, ?_, ?_, nofun, hstore.trans h.store, hpending.trans h.pending,
        DirectiveUnit.SameTables.trans h.tables htables⟩
      · have hbanks := h.mix
        rw [hmix]
        exact congrArg (fun m : Mix => { m with uplinkSeq := d.state.mix.uplinkSeq + 1
                                                clips := (d.state.formOutputs far audience).mix.clips }) hbanks
      · rw [hmix]
        change d.state.mix.uplinkSeq + 1 = _
        rw [h.seq, BitVec.add_assoc]
        exact congrArg (s.mix.uplinkSeq + ·) (BitVec.ofNat_add l.formed 1).symm

/-- One act of a cadence without directives and its account. -/
theorem Cadence.Books.act {due : Bool} {l : Ledger} {d : Cadence} {i : CadenceInput} (h : d.Books due s l) {a : CadenceAct}
    (ha : a.isCall = false) :
    (d.act i a).Books due s (l.act (decide (i.kind = .idle)) due (decide (s.callCtl.state = .inCall)) a) := by
  cases a with
  | supervise => exact h.aside (d.state.supervise_aside _) rfl rfl rfl rfl h.handed h.waiting
  | countdown => exact h.aside d.state.countdown_aside rfl rfl rfl rfl h.handed h.waiting
  | lanes =>
    have hlanes : d.takeLanes i =
        if i.kind = .idle then d
        else { d with
          state := d.state.lanesTake (i.lanesBefore.getD d.state.laneUnit.states) (visitOrder i.lanes Config.lanes)
          handed := true } := by
      unfold Cadence.takeLanes
      cases i.kind <;> rfl
    change (d.takeLanes i).Books _ _ _
    rw [hlanes]
    unfold Ledger.act
    dsimp only
    by_cases hk : i.kind = .idle
    · rw [if_pos hk]
      exact h.aside (.refl _) rfl rfl rfl rfl (by simp [hk, h.handed]) h.waiting
    · rw [if_neg hk]
      exact h.aside (d.state.lanesTake_aside _ _) rfl rfl rfl rfl (by simp [hk]) h.waiting
  | mix =>
    have hcall := h.call
    change (d.takeMix i.kind).Books _ _ _
    rw [Cadence.takeMix_eq]
    refine h.swap ?_ rfl rfl rfl ?_
    · dsimp only
      split
      · exact State.emitSilence_aside _
      · exact .refl _
      · exact .refl _
    · have hstate : d.state.callCtl.state = .inCall ↔ s.callCtl.state = .inCall ∧ (due && l.held) = false := by
        rw [hcall]
        unfold CallCtl.afterHold
        cases hdh : (due && l.held) <;> simp
      dsimp only [Ledger.act]
      by_cases hk : i.kind ≠ .idle ∧ d.state.callCtl.state = .inCall
      · obtain ⟨hs, hdh⟩ := hstate.1 hk.2
        rw [if_pos hk]
        simp [hk.1, hs, hdh]
      · rw [if_neg hk, h.waiting]
        have hnone : (!decide (i.kind = .idle) && decide (s.callCtl.state = .inCall) && !(due && l.held)) = false := by
          rw [hstate] at hk
          cases hdh : (due && l.held) with
          | true => simp
          | false =>
            rw [hdh] at hk
            by_cases hi : i.kind = .idle <;> by_cases hs : s.callCtl.state = .inCall <;> simp [hi, hs] at hk ⊢
        rw [hnone, Bool.or_false]
  | form => exact h.form _ _ _
  | hold => exact h.hold
  | call what seq => exact absurd ha nofun

end Sys2Proof.Machine
end

