-- ==== Sys2Proof/Proofs/CadenceKinds.lean ====
section
/-! PROOFS. The account of a whole cadence in any order of its acts, and what each call state makes of a voice frame and of an
expiry (R104, R117, R118, R120, R121, R127). -/

namespace Sys2Proof.Machine

variable {s t u : State}

/-! ## Orders of visit -/

/-- An order that names each one once is followed as it stands. -/
theorem visitOrder_of_perm {α : Type} [DecidableEq α] {l all : List α} (h : l.Perm all) : visitOrder l all = l := by
  induction l generalizing all with
  | nil => exact h.nil_eq.symm
  | cons x l ih =>
    have hx : x ∈ all := h.mem_iff.1 List.mem_cons_self
    rw [visitOrder, if_pos hx, ih ((List.perm_cons_erase hx).symm.trans h.symm |>.symm.cons_inv)]

/-- One that an order names before another is visited before it. -/
theorem visitOrder_before {α : Type} [DecidableEq α] {x y : α} (rest : List α) (before all : List α) (hx : x ∈ all)
    (hy : y ∉ before) : ∃ l1 l2, visitOrder (before ++ x :: rest) all = l1 ++ x :: l2 ∧ y ∉ l1 := by
  induction before generalizing all with
  | nil =>
    refine ⟨[], visitOrder rest (all.erase x), ?_, List.not_mem_nil⟩
    exact if_pos hx
  | cons z before ih =>
    obtain ⟨hzy, hy⟩ := not_or.1 (mt List.mem_cons.2 hy)
    by_cases hz : z ∈ all
    · by_cases hzx : x = z
      · subst hzx
        exact ⟨[], visitOrder (before ++ x :: rest) (all.erase x), if_pos hz, List.not_mem_nil⟩
      · obtain ⟨l1, l2, hl, hyl⟩ := ih (all.erase z) ((List.mem_erase_of_ne hzx).2 hx) hy
        refine ⟨z :: l1, l2, ?_, fun hm => (List.mem_cons.1 hm).elim hzy hyl⟩
        rw [List.cons_append, visitOrder, if_pos hz, hl]
        rfl
    · obtain ⟨l1, l2, hl, hyl⟩ := ih all hx hy
      refine ⟨l1, l2, ?_, hyl⟩
      rw [List.cons_append, visitOrder, if_neg hz, hl]

/-! ## The account of a whole cadence -/

section
variable (idle due inCall : Bool)

/-- The account after a list of acts. -/
def Ledger.acts (l : Ledger) (as : List CadenceAct) : Ledger := as.foldl (Ledger.act idle due inCall) l

theorem Ledger.acts_cons (l : Ledger) (a : CadenceAct) (as : List CadenceAct) :
    l.acts idle due inCall (a :: as) = (l.act idle due inCall a).acts idle due inCall as := rfl

theorem Ledger.acts_append (l : Ledger) (as bs : List CadenceAct) :
    l.acts idle due inCall (as ++ bs) = (l.acts idle due inCall as).acts idle due inCall bs := List.foldl_append ..

/-- How often outputs have been formed, with those that are to be formed. -/
def Ledger.credit (l : Ledger) : Nat := l.formed + l.waiting.toNat

theorem Ledger.held_acts (l : Ledger) (as : List CadenceAct) :
    (l.acts idle due inCall as).held = (l.held || decide (.hold ∈ as)) := by
  induction as generalizing l with
  | nil => simp [Ledger.acts]
  | cons a as ih =>
    rw [Ledger.acts_cons, ih]
    cases a with
    | hold => simp [Ledger.act]
    | form =>
      unfold Ledger.act
      dsimp only
      split <;> simp
    | supervise | countdown | lanes | mix | call => simp [Ledger.act]

theorem Ledger.swapped_acts (l : Ledger) (as : List CadenceAct) :
    (l.acts idle due inCall as).swapped = (l.swapped || decide (.mix ∈ as)) := by
  induction as generalizing l with
  | nil => simp [Ledger.acts]
  | cons a as ih =>
    rw [Ledger.acts_cons, ih]
    cases a with
    | mix => simp [Ledger.act]
    | form =>
      unfold Ledger.act
      dsimp only
      split <;> simp
    | supervise | countdown | lanes | hold | call => simp [Ledger.act]

theorem Ledger.handed_acts (l : Ledger) (as : List CadenceAct) :
    (l.acts idle due inCall as).handed = (l.handed || (!idle && decide (.lanes ∈ as))) := by
  induction as generalizing l with
  | nil => simp [Ledger.acts]
  | cons a as ih =>
    rw [Ledger.acts_cons, ih]
    cases a with
    | lanes =>
      simp only [Ledger.act, List.mem_cons, true_or, decide_true, Bool.and_true]
      cases l.handed <;> cases idle <;> simp
    | form =>
      unfold Ledger.act
      dsimp only
      split <;> simp
    | supervise | countdown | mix | hold | call => simp [Ledger.act]

theorem Ledger.credit_form (l : Ledger) : (l.act idle due inCall .form).credit = l.credit := by
  unfold Ledger.act Ledger.credit
  dsimp only
  split
  · next h => rw [(Bool.and_eq_true_iff.1 h).1]; rfl
  · rfl

/-- The Mix Engine's taking alone adds to the account of the outputs. -/
theorem Ledger.credit_acts (l : Ledger) (as : List CadenceAct) (hm : .mix ∉ as) :
    (l.acts idle due inCall as).credit = l.credit := by
  induction as generalizing l with
  | nil => rfl
  | cons a as ih =>
    obtain ⟨ha, hm⟩ := not_or.1 (mt List.mem_cons.2 hm)
    rw [Ledger.acts_cons, ih _ hm]
    cases a with
    | mix => exact absurd rfl ha
    | form => exact l.credit_form idle due inCall
    | supervise | countdown | lanes | hold | call => rfl

/-- The account once outputs not formed by then are formed last. -/
def Ledger.close (l : Ledger) (as : List CadenceAct) : Ledger := (l.acts idle due inCall as).act idle due inCall .form

/-- Outputs are formed once if the Mix Engine takes a cadence in a call, a due hold not having come first (R104, R121). -/
theorem Ledger.formed_close {as l1 l2 : List CadenceAct} (hn : as.Nodup) (hl : as = l1 ++ .mix :: l2) (hlanes : .lanes ∈ as) :
    (Ledger.close idle due inCall {} as).formed = (!idle && inCall && !(due && decide (.hold ∈ l1))).toNat := by
  obtain ⟨-, hn2, hdisjoint⟩ := List.nodup_append.1 (hl ▸ hn)
  have hm1 : .mix ∉ l1 := fun hm => hdisjoint _ hm _ List.mem_cons_self rfl
  have hm2 : .mix ∉ l2 := (List.nodup_cons.1 hn2).1
  have hcredit1 := Ledger.credit_acts idle due inCall {} l1 hm1
  have hheld1 := Ledger.held_acts idle due inCall {} l1
  have hcredit : (Ledger.acts idle due inCall {} as).credit = (!idle && inCall && !(due && decide (.hold ∈ l1))).toNat := by
    rw [hl, Ledger.acts_append, Ledger.acts_cons, Ledger.credit_acts _ _ _ _ l2 hm2]
    generalize Ledger.acts idle due inCall {} l1 = m at hcredit1 hheld1
    have hzero : m.formed = 0 ∧ m.waiting = false := by
      unfold Ledger.credit at hcredit1
      cases hw : m.waiting with
      | true => rw [hw] at hcredit1; exact absurd hcredit1 (by simp)
      | false => rw [hw] at hcredit1; exact ⟨by simpa using hcredit1, rfl⟩
    unfold Ledger.act Ledger.credit
    dsimp only
    rw [hzero.1, hzero.2, hheld1]
    simp
  have hhanded := Ledger.handed_acts idle due inCall {} as
  rw [decide_eq_true hlanes, Bool.and_true, Bool.false_or] at hhanded
  unfold Ledger.close
  rw [← hcredit, ← Ledger.credit_form idle due inCall]
  generalize Ledger.acts idle due inCall {} as = m at hcredit hhanded
  unfold Ledger.credit
  suffices hw : (m.act idle due inCall .form).waiting = false by rw [hw]; rfl
  unfold Ledger.act
  dsimp only
  split
  · rfl
  · next hnot =>
    rw [hhanded] at hnot
    cases idle with
    | false => simpa using hnot
    | true =>
      unfold Ledger.credit at hcredit
      simp at hcredit
      exact hcredit.2

end

/-- The blocks' acts of a cadence, each once. -/
abbrev blockActs : List CadenceAct := [.supervise, .countdown, .lanes, .mix, .form, .hold]

section
variable {order : List CadenceAct} (hplain : ∀ a ∈ order, a.isCall = false)
include hplain

theorem cadenceActs_of_plain : cadenceActs order = blockActs := by
  have hnone : order.filter CadenceAct.isCall = [] := List.filter_eq_nil_iff.2 fun a ha => by rw [hplain a ha]; exact nofun
  rw [cadenceActs, hnone]
  rfl

/-- A cadence without directives agrees with its account to its end (R104). -/
theorem State.runCadence_books (s : State) (i : CadenceInput) (due : Bool) :
    ∃ d : Cadence,
      d.Books due s (Ledger.close (decide (i.kind = .idle)) due (decide (s.callCtl.state = .inCall)) {} (visitOrder order blockActs)) ∧
      s.runCadence i due order = d.state.clearHandover := by
  have hfold : ∀ (as : List CadenceAct) (l : Ledger) (d : Cadence), (∀ a ∈ as, a.isCall = false) → d.Books due s l →
      (as.foldl (Cadence.act i) d).Books due s (l.acts (decide (i.kind = .idle)) due (decide (s.callCtl.state = .inCall)) as) := by
    intro as
    induction as with
    | nil => exact fun _ _ _ h => h
    | cons a as ih =>
      intro l d has h
      obtain ⟨ha, has⟩ := List.forall_mem_cons.1 has
      exact ih _ _ has (h.act ha)
  have hacts : ∀ a ∈ visitOrder order blockActs, a.isCall = false := fun a ha => by
    have hblock := (visitOrder_perm _ _).mem_iff.1 ha
    fin_cases hblock <;> rfl
  refine ⟨_, (hfold _ _ _ hacts (Cadence.books_start due s)).form _ _ i.far, ?_⟩
  unfold State.runCadence
  dsimp only
  rw [cadenceActs_of_plain hplain]

/-- What a cadence without directives makes of the bridge (R101, R104, R109, R121). -/
theorem State.runCadence_plain (s : State) (i : CadenceInput) (due : Bool) {l1 l2 : List CadenceAct}
    (hl : visitOrder order blockActs = l1 ++ .mix :: l2) :
    let t := s.runCadence i due order
    let n := !decide (i.kind = .idle) && decide (s.callCtl.state = .inCall) && !(due && decide (.hold ∈ l1))
    t.mix = { s.mix.takeSwap with uplinkSeq := t.mix.uplinkSeq, clips := t.mix.clips } ∧ t.store = s.store ∧ t.pending = s.pending ∧
      t.directives.SameTables s.directives ∧ t.callCtl = s.callCtl.afterHold due ∧
      t.mix.uplinkSeq = s.mix.uplinkSeq + BitVec.ofNat 8 n.toNat ∧
      (n = false → t.mix.clips = s.mix.clips ∧ t.voicePort.SameLine s.voicePort) := by
  intro t n
  obtain ⟨d, hbooks, ht⟩ := State.runCadence_books hplain s i due
  have hperm := visitOrder_perm order blockActs
  have hformed := Ledger.formed_close (decide (i.kind = .idle)) due (decide (s.callCtl.state = .inCall)) (hperm.nodup_iff.2 (by decide)) hl
    (hperm.mem_iff.2 (by decide))
  have hswapped : (Ledger.close (decide (i.kind = .idle)) due (decide (s.callCtl.state = .inCall)) {} (visitOrder order blockActs)).swapped =
      true := by
    have hall := Ledger.swapped_acts (decide (i.kind = .idle)) due (decide (s.callCtl.state = .inCall)) {} (visitOrder order blockActs)
    rw [decide_eq_true (hperm.mem_iff.2 (by decide)), Bool.or_true] at hall
    unfold Ledger.close
    generalize Ledger.acts _ _ _ {} (visitOrder order blockActs) = m at hall
    unfold Ledger.act
    dsimp only
    split <;> exact hall
  have hheld : (Ledger.close (decide (i.kind = .idle)) due (decide (s.callCtl.state = .inCall)) {} (visitOrder order blockActs)).held =
      true := by
    have hall := Ledger.held_acts (decide (i.kind = .idle)) due (decide (s.callCtl.state = .inCall)) {} (visitOrder order blockActs)
    rw [decide_eq_true (hperm.mem_iff.2 (by decide)), Bool.or_true] at hall
    unfold Ledger.close
    generalize Ledger.acts _ _ _ {} (visitOrder order blockActs) = m at hall
    unfold Ledger.act
    dsimp only
    split <;> exact hall
  have hmix := hbooks.mix
  have hcall := hbooks.call
  have hseq := hbooks.seq
  rw [hswapped, if_pos rfl] at hmix
  rw [hheld, Bool.and_true] at hcall
  rw [hformed] at hseq
  have htd : t = d.state.clearHandover := ht
  rw [htd]
  refine ⟨hmix, hbooks.store, hbooks.pending, hbooks.tables, hcall, hseq, fun hn => hbooks.quiet ?_⟩
  rw [hformed]
  change n.toNat = 0
  rw [hn]
  rfl

end

/-! ## Voice frames and expiries by call state -/

/-- The Mix Engine's turn comes once (R104). -/
theorem exists_mix (order : List CadenceAct) : ∃ l1 l2, visitOrder order blockActs = l1 ++ .mix :: l2 :=
  List.append_of_mem ((visitOrder_perm order blockActs).mem_iff.2 (by decide))

/-- A hold that the order names before the Mix Engine comes before it, and after it otherwise (R104, R121). -/
theorem hold_mem_of_order {order before between after : List CadenceAct} {x y : CadenceAct}
    (ho : order = before ++ x :: between ++ y :: after) (hx : x ∈ blockActs) (hy : y ∉ before) :
    ∃ l1 l2, visitOrder order blockActs = l1 ++ x :: l2 ∧ y ∉ l1 := by
  rw [ho, List.append_assoc, List.cons_append]
  exact visitOrder_before _ before blockActs hx hy

theorem State.voiceFrame_of_call (far : Block) (o : CadenceOrder) (h : s.callCtl.state = .inCall) :
    s.voiceFrame far o = s.voiceCadence far none o := by
  unfold State.voiceFrame
  rw [h]

theorem State.voiceFrame_of_hold (far : Block) (o : CadenceOrder) (h : s.callCtl.state = .holding .auto) :
    s.voiceFrame far o =
      ((s.zeroFills.changeCall .inCall .voiceReturned).lanesEnter false).voiceCadence far (some s.laneUnit.states) o := by
  unfold State.voiceFrame
  rw [h]

theorem State.voiceFrame_of_other (far : Block) (o : CadenceOrder) (h : s.callCtl.state = .noCall ∨ s.callCtl.state = .holding .directed) :
    s.voiceFrame far o = s.discardVoice := by
  unfold State.voiceFrame
  rcases h with h | h <;> rw [h]

theorem State.timerExpiry_of_none (o : CadenceOrder) (h : s.callCtl.timer = none) : s.timerExpiry o = s := by
  unfold State.timerExpiry
  rw [h]

theorem State.timerExpiry_of_call (o : CadenceOrder) (ht : s.callCtl.timer ≠ none) (h : s.callCtl.state = .inCall) :
    s.timerExpiry o = s.fillCadence o := by
  obtain ⟨i, hi⟩ := Option.ne_none_iff_exists'.1 ht
  unfold State.timerExpiry
  rw [hi, h]

theorem State.timerExpiry_of_other (o : CadenceOrder) (ht : s.callCtl.timer ≠ none) (h : s.callCtl.state ≠ .inCall) :
    s.timerExpiry o = s.idleCadence o := by
  obtain ⟨i, hi⟩ := Option.ne_none_iff_exists'.1 ht
  unfold State.timerExpiry
  rw [hi]
  cases hc : s.callCtl.state with
  | noCall => rfl
  | inCall => exact absurd hc h
  | holding m => rfl

/-- VOICE RETURNED's entry into IN CALL (R79, R118). -/
theorem State.voiceReturned_aside (s : State) :
    ({ s with callCtl := { s.callCtl with state := .inCall, fills := 0 } } : State).Aside
      ((s.zeroFills.changeCall .inCall .voiceReturned).lanesEnter false) :=
  (State.postEvent_only _ _).aside.trans (State.lanesEnter_only _ false).only.aside

/-- The banks, the store, the tables and the queue of commands as a cadence leaves them (R101). -/
def State.Swapped (s t : State) : Prop :=
  t.mix = { s.mix.takeSwap with uplinkSeq := t.mix.uplinkSeq, clips := t.mix.clips } ∧ t.store = s.store ∧ t.pending = s.pending ∧
    t.directives.SameTables s.directives

theorem State.zeroFills_armTimer {i : TimerInterval} {c : CallState} (h : s.callCtl.state = c) :
    s.zeroFills.armTimer i = { s with callCtl := { s.callCtl with state := c, fills := 0, timer := some i } } := by
  subst h
  rfl

/-- A voice cadence that begins in IN CALL and has no directives mixes once (R104, R109, R118). -/
theorem State.voiceCadence_plain {v : State} {c' : CallCtl} (hv : ({ s with callCtl := c' } : State).Aside v) (hc : c'.state = .inCall)
    (far : Block) (before : Option (Vector LaneState 3)) {o : CadenceOrder} (hplain : ∀ a ∈ o.acts, a.isCall = false) :
    let t := v.voiceCadence far before o
    s.Swapped t ∧ t.mix.uplinkSeq = s.mix.uplinkSeq + 1 ∧ t.callCtl = { c' with fills := 0, timer := some .ms7_5 } := by
  intro t
  obtain ⟨l1, l2, hl⟩ := exists_mix o.acts
  obtain ⟨hmix, hstore, hpending, htables, hcall, hseq, -⟩ := State.runCadence_plain hplain (v.zeroFills.armTimer .ms7_5)
    { kind := .voice, far := blockInts far, lanesBefore := before, lanes := o.lanes, buds := o.buds } false hl
  have hcall0 : v.callCtl = c' := hv.callCtl
  have hcalled : (v.zeroFills.armTimer .ms7_5).callCtl = { c' with fills := 0, timer := some .ms7_5 } := by
    rw [← hcall0]
    rfl
  have hin : (v.zeroFills.armTimer .ms7_5).callCtl.state = .inCall := by rw [hcalled]; exact hc
  have hbanks : (v.zeroFills.armTimer .ms7_5).mix = s.mix := hv.mix
  rw [hbanks] at hmix hseq
  rw [hcalled] at hcall
  rw [hin] at hseq
  exact ⟨⟨hmix, hstore.trans hv.store, hpending.trans hv.pending, DirectiveUnit.SameTables.trans hv.tables htables⟩, hseq, hcall⟩

theorem State.voiceFrame_plain (far : Block) {o : CadenceOrder} (hc : s.callCtl.state = .inCall ∨ s.callCtl.state = .holding .auto)
    (hplain : ∀ a ∈ o.acts, a.isCall = false) :
    let t := s.voiceFrame far o
    s.Swapped t ∧ t.mix.uplinkSeq = s.mix.uplinkSeq + 1 ∧
      t.callCtl = { s.callCtl with state := .inCall, fills := 0, timer := some .ms7_5 } := by
  intro t
  rcases hc with hc | hc
  · have ht : t = s.voiceCadence far none o := State.voiceFrame_of_call far o hc
    rw [ht, ← hc]
    exact State.voiceCadence_plain (c' := s.callCtl) (.refl s) hc far none hplain
  · have ht : t = _ := State.voiceFrame_of_hold far o hc
    rw [ht]
    exact State.voiceCadence_plain s.voiceReturned_aside rfl far _ hplain

/-- An idle cadence without directives forms nothing (R117). -/
theorem State.idleCadence_plain {o : CadenceOrder} (hplain : ∀ a ∈ o.acts, a.isCall = false) :
    let t := s.idleCadence o
    s.Swapped t ∧ t.mix.uplinkSeq = s.mix.uplinkSeq ∧ t.mix.clips = s.mix.clips ∧
      t.callCtl = { s.callCtl with timer := some .ms5 } ∧ t.voicePort.SameLine s.voicePort := by
  intro t
  obtain ⟨l1, l2, hl⟩ := exists_mix o.acts
  obtain ⟨hmix, hstore, hpending, htables, hcall, hseq, hquiet⟩ := State.runCadence_plain hplain (s.armTimer .ms5)
    { kind := .idle, far := silentSource, lanesBefore := none, lanes := o.lanes, buds := o.buds } false hl
  obtain ⟨hclips, hline⟩ := hquiet rfl
  exact ⟨⟨hmix, hstore, hpending, htables⟩, hseq.trans (BitVec.add_zero _), hclips, hcall, hline⟩

/-- A fill cadence without directives: the hold at its timeout, and the outputs, formed unless the hold came first
(R104, R120, R121). -/
theorem State.fillCadence_plain {o : CadenceOrder} (hc : s.callCtl.state = .inCall) (hplain : ∀ a ∈ o.acts, a.isCall = false) :
    let t := s.fillCadence o
    let fills := satInc Config.runMax s.callCtl.fills
    let held := s.directives.settings.autoHold ≤ fills
    s.Swapped t ∧
      t.callCtl =
        { s.callCtl with
          state := if held then .holding .auto else .inCall
          fills := if held then 0 else fills
          fillTotal := satInc Config.counterMax s.callCtl.fillTotal
          timer := some .ms5 } ∧
      ∀ l1 l2, visitOrder o.acts blockActs = l1 ++ .mix :: l2 →
        (¬ held ∨ .hold ∉ l1 → t.mix.uplinkSeq = s.mix.uplinkSeq + 1) ∧
        (held ∧ .hold ∈ l1 → t.mix.uplinkSeq = s.mix.uplinkSeq ∧ t.mix.clips = s.mix.clips) := by
  intro t fills held
  have hbegin : ∀ l1 l2, visitOrder o.acts blockActs = l1 ++ .mix :: l2 → _ := fun l1 l2 hl =>
    State.runCadence_plain hplain (s.countFill.armTimer .ms5)
      { kind := .fill, far := silentSource, lanesBefore := none, lanes := o.lanes, buds := o.buds } (decide held) hl
  have hin : (s.countFill.armTimer .ms5).callCtl.state = .inCall := hc
  obtain ⟨l1, l2, hl⟩ := exists_mix o.acts
  obtain ⟨hmix, hstore, hpending, htables, hcall, -⟩ := hbegin l1 l2 hl
  refine ⟨⟨hmix, hstore, hpending, htables⟩, hcall.trans ?_, fun l1 l2 hl => ?_⟩
  · unfold CallCtl.afterHold
    by_cases hh : held
    · rw [decide_eq_true hh, if_pos rfl, if_pos hh, if_pos hh]
      rfl
    · rw [decide_eq_false hh, if_neg hh, if_neg hh, ← hc]
      rfl
  · obtain ⟨-, -, -, -, -, hseq, hquiet⟩ := hbegin l1 l2 hl
    rw [hin] at hseq hquiet
    refine ⟨fun h => ?_, fun ⟨hh, hm⟩ => ?_⟩
    · have hone : (!(decide held && decide (.hold ∈ l1))) = true := by
        rcases h with h | h <;> simp [h]
      simp only [reduceCtorEq, decide_false, decide_true, Bool.not_false, Bool.true_and, hone] at hseq
      exact hseq
    · have hnone : (!(decide held && decide (.hold ∈ l1))) = false := by simp [hh, hm]
      rw [hnone, Bool.and_false] at hseq hquiet
      exact ⟨hseq.trans (BitVec.add_zero _), (hquiet rfl).1⟩

/-- A voice frame in IN CALL begins its cadence with the timer armed for 7.5 ms (R118). -/
theorem State.voiceFrame_run (far : Block) (o : CadenceOrder) (hc : s.callCtl.state = .inCall) :
    s.voiceFrame far o =
      ({ s with callCtl := { s.callCtl with state := .inCall, fills := 0, timer := some .ms7_5 } } : State).runCadence
        { kind := .voice, far := blockInts far, lanesBefore := none, lanes := o.lanes, buds := o.buds } false o.acts := by
  rw [State.voiceFrame_of_call far o hc, State.voiceCadence, State.zeroFills_armTimer hc]

/-- VOICE RETURNED enters the call before the cadence, which reaches the lanes as they were (R79, R118). -/
theorem State.voiceFrame_run_entered (far : Block) (o : CadenceOrder) (hc : s.callCtl.state = .holding .auto) :
    s.voiceFrame far o =
      ({ (s.zeroFills.changeCall .inCall .voiceReturned).lanesEnter false with
          callCtl := { s.callCtl with state := .inCall, fills := 0, timer := some .ms7_5 } } : State).runCadence
        { kind := .voice, far := blockInts far, lanesBefore := some s.laneUnit.states, lanes := o.lanes, buds := o.buds } false
        o.acts := by
  have hcall : ((s.zeroFills.changeCall .inCall .voiceReturned).lanesEnter false).callCtl =
      { s.callCtl with state := .inCall, fills := 0 } := s.voiceReturned_aside.callCtl
  rw [State.voiceFrame_of_hold far o hc, State.voiceCadence, State.zeroFills_armTimer (congrArg CallCtl.state hcall), hcall]

/-- VOICE RETURNED's entry, its CALL STATE report written out (R79, R127). -/
theorem State.voiceReturned_eq (hc : s.callCtl.state = .holding .auto) :
    s.zeroFills.changeCall .inCall .voiceReturned =
      ({ s with callCtl := { s.callCtl with state := .inCall, fills := 0 } } : State).post
        (.event (.callState .inCall (.holding .auto) .voiceReturned)) := by
  rw [← hc]
  rfl

/-- Settles O51: the cadence is the model's fold of its acts, and its account tells what it leaves. -/
theorem cadencesCountAndArm : Obligations.CadencesCountAndArm := by
  unfold Obligations.CadencesCountAndArm
  intro s o c taking hold form act run plain swapped fills held
  have htaking : ∀ u : State, taking u = u.takeSwap := fun u =>
    congrArg (fun m => ({ u with mix := m } : State)) u.mix.takeSwap_eq.symm
  have hhold : ∀ d : Cadence, hold d = d.takeHold := fun d => rfl
  have hform : ∀ (far : List Int) (d : Cadence), form far d = d.form far := fun far d => by
    obtain ⟨u, due, taken, handed⟩ := d
    cases taken <;> cases handed <;> rfl
  have hact : ∀ (kind : CadenceKind) (far : List Int) (before : Option (Vector LaneState 3)),
      act kind far before = Cadence.act { kind := kind, far := far, lanesBefore := before, lanes := o.lanes, buds := o.buds } :=
    fun kind far before => funext fun d => funext fun a => by
      cases a with
      | supervise => rfl
      | countdown => rfl
      | lanes =>
        cases before <;> cases kind <;> rfl
      | mix =>
        change _ = d.takeMix kind
        rw [Cadence.takeMix_eq, ← htaking]
        dsimp only [act]
        cases d.state.callCtl.state <;> cases kind <;> rfl
      | form => exact hform far d
      | hold => exact hhold d
      | call what seq => rfl
  have hrun : ∀ (kind : CadenceKind) (far : List Int) (before : Option (Vector LaneState 3)) (due : Bool) (u : State),
      run kind far before due u =
        u.runCadence { kind := kind, far := far, lanesBefore := before, lanes := o.lanes, buds := o.buds } due o.acts :=
    fun kind far before due u => by
      dsimp only [run]
      rw [hact, hform]
      rfl
  have hswapped : ∀ t : State, s.Swapped t → swapped t := fun t h => by
    dsimp only [swapped]
    rw [htaking]
    exact h
  have hmixed : exec .swapTaken s = .next (taking s) := congrArg Host.Outcome.next (htaking s).symm
  clear_value swapped run act form hold taking
  refine ⟨fun x y far ht => ?_, fun ht => congrArg Host.Outcome.next (State.timerExpiry_of_none o ht), fun ht hc => ?_, fun ht hc => ?_,
    fun blocks hperm => visitOrder_of_perm ?_, ?_, hmixed⟩
  · have hexec : exec (.farVoice x y far o) s = .next (s.voiceFrame far o) := congrArg Host.Outcome.next (State.atPort_voice _ ht)
    refine ⟨fun hc => hexec.trans ?_, fun hc => hexec.trans ?_, fun hc => hexec.trans ?_, fun hc hplain => ⟨_, hexec, ?_⟩⟩
    · exact congrArg Host.Outcome.next (State.voiceFrame_of_other far o hc)
    · refine congrArg Host.Outcome.next (Eq.trans ?_ (hrun ..).symm)
      exact State.voiceFrame_run far o hc
    · refine congrArg Host.Outcome.next (Eq.trans ?_ (hrun ..).symm)
      rw [State.voiceFrame_run_entered far o hc, State.voiceReturned_eq hc]
      rfl
    · obtain ⟨hswap, hseq, hcall⟩ := State.voiceFrame_plain far hc hplain
      exact ⟨hswapped _ hswap, hseq, hcall⟩
  · have hexec : exec (.cadenceTimerExpiry o) s = .next (s.idleCadence o) :=
      congrArg Host.Outcome.next (State.timerExpiry_of_other o ht hc)
    refine ⟨hexec.trans (congrArg Host.Outcome.next (hrun ..).symm), fun hplain => ⟨_, hexec, ?_⟩⟩
    obtain ⟨hswap, hrest⟩ := State.idleCadence_plain (s := s) hplain
    exact ⟨hswapped _ hswap, hrest⟩
  · have hexec : exec (.cadenceTimerExpiry o) s = .next (s.fillCadence o) :=
      congrArg Host.Outcome.next (State.timerExpiry_of_call o ht hc)
    refine ⟨hexec.trans (congrArg Host.Outcome.next (hrun ..).symm), fun hplain => ⟨_, hexec, ?_⟩⟩
    obtain ⟨hswap, hcall, horder⟩ := State.fillCadence_plain hc hplain
    refine ⟨hswapped _ hswap, hcall, fun hh => ?_, fun before between after hh ho hb => ?_, fun before between after hh ho hb => ?_⟩
    · obtain ⟨l1, l2, hl⟩ := exists_mix o.acts
      exact (horder l1 l2 hl).1 (.inl hh)
    · obtain ⟨l1, l2, hl, hm⟩ := hold_mem_of_order ho (by decide) hb
      exact (horder l1 l2 hl).1 (.inr hm)
    · obtain ⟨l1, l2, hl, hm⟩ := hold_mem_of_order ho (by decide) hb
      have hmix : .mix ∈ l2 := by
        have hall : CadenceAct.mix ∈ l1 ++ .hold :: l2 := hl ▸ (visitOrder_perm o.acts blockActs).mem_iff.2 (by decide)
        rcases List.mem_append.1 hall with hm' | hm'
        · exact absurd hm' hm
        · exact (List.mem_cons.1 hm').resolve_left nofun
      obtain ⟨l3, l4, rfl⟩ := List.append_of_mem hmix
      exact (horder (l1 ++ .hold :: l3) l4 (by rw [hl]; simp)).2 ⟨hh, by simp⟩
  · exact ((List.filter_append_perm (fun a => !a.isCall) o.acts).symm.trans (by simpa using hperm.append_right _))
  · change Host.Outcome.next _ = _
    have hdue : s.fillTimeoutDue = true ↔ c.state = .inCall ∧ c.timer ≠ none ∧ held := by
      unfold State.fillTimeoutDue
      rw [Bool.and_eq_true, Bool.and_eq_true, beq_iff_eq, decide_eq_true_eq, Option.isSome_iff_ne_none, and_assoc]
      rfl
    by_cases h : s.fillTimeoutDue = true
    · rw [if_pos h, if_pos (hdue.1 h)]
      rfl
    · rw [if_neg h, if_neg (mt hdue.2 h)]

end Sys2Proof.Machine
end

