-- ==== Sys2Proof/Proofs/CadenceRecords.lean ====
section
/-! PROOFS. What a cadence makes of one bud's record, whatever the order of its acts (R6, R8, R36, R104, R110, R111). -/

namespace Sys2Proof.Machine

variable {s t u : State} {b : BudIx} {r q : Bud} {set : Settings}

/-! ## Supervision and one record (R6) -/

theorem Bud.passPeriod_link (r : Bud) : r.passPeriod.link = r.link := by
  unfold Bud.passPeriod
  split <;> rfl

/-- What supervision makes of a record (R6, R17). -/
def Bud.supervise (r : Bud) (set : Settings) : Bud :=
  if r.link.supervised then
    if r.passPeriod.isLost set then {} else if r.passPeriod.fades set then { r.passPeriod with link := .fading } else r.passPeriod
  else r

theorem Bud.supervise_of_not (h : r.link.supervised = false) : r.supervise set = r := if_neg (Bool.eq_false_iff.1 h)

theorem Bud.supervise_of_lost (h : r.link.supervised = true) (hl : r.passPeriod.isLost set = true) : r.supervise set = {} := by
  rw [Bud.supervise, if_pos h, if_pos hl]

theorem Bud.supervise_of_kept (h : r.link.supervised = true) (hl : r.passPeriod.isLost set = false) :
    r.supervise set = if r.passPeriod.fades set then { r.passPeriod with link := .fading } else r.passPeriod := by
  rw [Bud.supervise, if_pos h, if_neg (Bool.eq_false_iff.1 hl)]

/-- A record that supervision leaves supervised was so before, and has its downlink sequence. -/
theorem Bud.supervise_supervised (h : (r.supervise set).link.supervised = true) :
    r.link.supervised = true ∧ (r.supervise set).dlSeq = r.dlSeq := by
  have hpassed : r.passPeriod.dlSeq = r.dlSeq := by
    unfold Bud.passPeriod
    split <;> rfl
  cases hr : r.link.supervised with
  | false =>
    rw [Bud.supervise_of_not hr, hr] at h
    exact absurd h nofun
  | true =>
    refine ⟨rfl, ?_⟩
    cases hl : r.passPeriod.isLost set with
    | true =>
      rw [Bud.supervise_of_lost hr hl] at h
      exact absurd h nofun
    | false =>
      rw [Bud.supervise_of_kept hr hl]
      split <;> exact hpassed

theorem Supervision.visit_record (a : Supervision) (b c : BudIx) :
    (a.visit b).state.roster.buds[c] =
      if b = c then a.state.roster.buds[c].supervise a.state.directives.settings else a.state.roster.buds[c] := by
  by_cases hbc : b = c
  · subst hbc
    rw [if_pos rfl]
    unfold Supervision.visit Bud.supervise
    dsimp only
    split
    · split
      · rw [State.unlinkBud_eq]
        exact (getElem_set_fin ..).trans (if_pos rfl)
      · split
        · exact (State.setBud_getElem ..).trans (if_pos rfl)
        · exact (State.setBud_getElem ..).trans (if_pos rfl)
    · rfl
  · rw [if_neg hbc]
    have hset : ∀ (u : State) (r : Bud), (u.setBud b r).roster.buds[c] = u.roster.buds[c] := fun u r =>
      (State.setBud_getElem ..).trans (if_neg hbc)
    unfold Supervision.visit
    dsimp only
    split
    · split
      · rw [State.unlinkBud_eq]
        exact ((getElem_set_fin ..).trans (if_neg hbc)).trans (hset _ _)
      · split
        · exact (hset _ _).trans (hset _ _)
        · exact hset _ _
    · rfl

theorem Supervision.visit_pairing (a : Supervision) (b : BudIx) : (a.visit b).state.pairing = a.state.pairing := by
  unfold Supervision.visit
  dsimp only
  split
  · next hsup =>
    split
    · rw [State.unlinkBud_eq, State.setBud_getElem, if_pos rfl, Bud.passPeriod_link, if_neg (fun h => by rw [h] at hsup; exact absurd hsup nofun)]
      rfl
    · split <;> rfl
  · rfl

/-- Visits to buds, each once, supervise each of their records. -/
theorem Supervision.visits_records {l : List BudIx} (hn : l.Nodup) (s : State) (c : BudIx) :
    (l.foldl Supervision.visit ⟨s, [], []⟩).state.roster.buds[c] =
      if c ∈ l then s.roster.buds[c].supervise s.directives.settings else s.roster.buds[c] := by
  induction l using List.reverseRecOn with
  | nil => rfl
  | append_singleton l b ih =>
    obtain ⟨hn, -, hdisjoint⟩ := List.nodup_append.1 hn
    have hb : b ∉ l := fun h => hdisjoint b h b (List.mem_singleton_self b) rfl
    have hsettings : (l.foldl Supervision.visit ⟨s, [], []⟩).state.directives.settings = s.directives.settings :=
      (Supervision.visits_aside l ⟨s, [], []⟩).tables.settings
    rw [List.foldl_append, List.foldl_cons, List.foldl_nil, Supervision.visit_record, ih hn, hsettings]
    by_cases hbc : b = c
    · subst hbc
      rw [if_pos rfl, if_neg hb, if_pos (by simp)]
    · have hmem : c ∈ l ++ [b] ↔ c ∈ l := by simp [Ne.symm hbc]
      rw [if_neg hbc]
      simp only [hmem]

theorem foldl_field {α β : Type} (g : State → β) {f : State → α → State} (h : ∀ u a, g (f u a) = g u) (l : List α) (u : State) :
    g (l.foldl f u) = g u := by
  induction l generalizing u with
  | nil => rfl
  | cons a l ih => exact (ih _).trans (h u a)

/-- Supervision of all the buds: each record is supervised, and the Pairing Unit is left as it is (R6). -/
theorem State.supervise_record (s : State) {order : List BudIx} (ho : order.Perm Config.buds) (c : BudIx) :
    (s.supervise order).roster.buds[c] = s.roster.buds[c].supervise s.directives.settings ∧ (s.supervise order).pairing = s.pairing := by
  have hall : c ∈ order := ho.mem_iff.2 (by fin_cases c <;> decide)
  have hnodup : order.Nodup := ho.nodup_iff.2 (by decide)
  have hvisits := Supervision.visits_records hnodup s c
  have hpairing : ∀ (l : List BudIx) (a : Supervision), (l.foldl Supervision.visit a).state.pairing = a.state.pairing := by
    intro l
    induction l with
    | nil => exact fun _ => rfl
    | cons b l ih => exact fun a => (ih _).trans (a.visit_pairing b)
  rw [if_pos hall] at hvisits
  unfold State.supervise
  dsimp only
  have hbuds : ∀ (faded : List (Option ListenerIx)) (lost : List Departure) (u : State),
      (faded.foldl State.noticeFor (lost.foldl State.finishDeparture u)).roster.buds = u.roster.buds := fun faded lost u =>
    (foldl_field (·.roster.buds) (fun v x => congrArg Roster.buds (v.noticeFor_only x).roster) faded _).trans
      (foldl_field (·.roster.buds) (fun v d => (v.finishDeparture_keeps d).1) lost u)
  have hcontext : ∀ (faded : List (Option ListenerIx)) (lost : List Departure) (u : State),
      (faded.foldl State.noticeFor (lost.foldl State.finishDeparture u)).pairing = u.pairing := fun faded lost u =>
    (foldl_field (·.pairing) (fun v x => (v.noticeFor_only x).pairing) faded _).trans
      (foldl_field (·.pairing) (fun v d => (v.finishDeparture_keeps d).2.2.1) lost u)
  exact ⟨by rw [hbuds]; exact hvisits, (hcontext _ _ _).trans (hpairing order ⟨s, [], []⟩)⟩

/-! ## The countdown and one record (R36) -/

/-- Whether the countdown of the context ends at the next cadence (R36). -/
def State.lapses (s : State) : Bool := s.pairing.context.any fun c => decide (c.countdown ≤ 1)

theorem State.countdown_record (hp : s.PartySound) (b : BudIx) :
    s.countdown.roster.buds[b] = if s.lapses = true ∧ s.roster.buds[b].link = .offered then {} else s.roster.buds[b] := by
  have hoffered := hp.context.1 b
  cases hc : s.pairing.context with
  | none =>
    have hsame : s.countdown = s := by
      unfold State.countdown
      rw [hc]
    rw [hsame, if_neg fun h => ?_]
    have hbusy := hoffered.1 h.2
    rw [hc] at hbusy
    exact absurd hbusy nofun
  | some c =>
    rw [hc] at hoffered
    have hbud : s.roster.buds[b].link = .offered ↔ c.bud = b := hoffered.trans (by simp)
    have hlapses : s.lapses = true ↔ c.countdown ≤ 1 := by
      rw [State.lapses, hc]
      exact decide_eq_true_iff
    rw [State.countdown_of_busy hc]
    by_cases hlapse : c.countdown ≤ 1
    · rw [if_pos hlapse, State.freeBud_buds]
      refine (getElem_set_fin ..).trans ?_
      by_cases hb : c.bud = b
      · rw [if_pos hb, if_pos ⟨hlapses.2 hlapse, hbud.2 hb⟩]
      · rw [if_neg hb, if_neg fun h => hb (hbud.1 h.2)]
    · rw [if_neg hlapse, if_neg fun h => hlapse (hlapses.1 h.1)]

/-! ## Downlink frames and one record (R110, R111) -/

/-- A record but for the downlink frames sent since, which a supervised bud alone is sent. -/
def Bud.Sends (r q : Bud) : Prop := q = { r with dlSeq := q.dlSeq } ∧ (r.link.supervised = false → q = r)

theorem Bud.Sends.refl (r : Bud) : r.Sends r := ⟨rfl, fun _ => rfl⟩

theorem Bud.Sends.link (h : r.Sends q) : q.link = r.link := by rw [h.1]

theorem Bud.Sends.advance (h : r.Sends q) (hr : r.link.supervised = true) (seq : Byte) : r.Sends { q with dlSeq := seq } :=
  ⟨by rw [h.1], fun hn => absurd (hr.symm.trans hn) nofun⟩

theorem Bud.Sends.supervise (h : r.Sends q) (set : Settings) : (r.supervise set).Sends (q.supervise set) := by
  cases hr : r.link.supervised with
  | false =>
    rw [h.2 hr]
    exact .refl _
  | true =>
    obtain ⟨hq, -⟩ := h
    have hqr : q.link.supervised = true := by rw [hq]; exact hr
    have hpassed : q.passPeriod = { r.passPeriod with dlSeq := q.dlSeq } := by
      rw [hq]
      unfold Bud.passPeriod
      dsimp only
      split <;> rfl
    have hlost : q.passPeriod.isLost set = r.passPeriod.isLost set := by rw [hpassed]; rfl
    have hfades : q.passPeriod.fades set = r.passPeriod.fades set := by rw [hpassed]; rfl
    cases hl : r.passPeriod.isLost set with
    | true =>
      rw [Bud.supervise_of_lost hr hl, Bud.supervise_of_lost hqr (hlost.trans hl)]
      exact .refl _
    | false =>
      rw [Bud.supervise_of_kept hr hl, Bud.supervise_of_kept hqr (hlost.trans hl), hfades, hpassed]
      split
      · exact ⟨rfl, fun hn => absurd hn nofun⟩
      · exact ⟨rfl, fun hn => by rw [Bud.passPeriod_link, hr] at hn; exact absurd hn nofun⟩

/-- What one frame makes of one bud's record: nothing if it is not the recipient or has been freed (R110, R112). -/
theorem State.sendDownlink_bud (s : State) (p : Recipient) (f : AirFrame) (b : BudIx) :
    (s.sendDownlink p f).roster.buds[b] =
      if s.roster.buds[b].link ≠ .free ∧ p.bud = b then { s.roster.buds[b] with dlSeq := p.seq + 1 } else s.roster.buds[b] := by
  have hroster : (s.sendAir f).roster = s.roster := rfl
  unfold State.sendDownlink
  dsimp only
  rw [hroster]
  by_cases hfree : s.roster.buds[p.bud].link = .free
  · rw [if_pos hfree, if_neg fun h => h.1 (h.2 ▸ hfree), hroster]
  · rw [if_neg hfree, State.setBud_getElem, hroster]
    by_cases hb : p.bud = b
    · subst hb
      rw [if_pos rfl, if_pos ⟨hfree, rfl⟩]
    · rw [if_neg hb, if_neg fun h => hb h.2]

/-- What frames to an audience make of one bud's record. -/
theorem State.sendEach_bud (s : State) (rs : List Recipient) (f : Recipient → AirFrame) (b : BudIx) {seq : Byte}
    (h : ∀ p ∈ rs, p.bud = b → p.seq = seq) :
    (s.sendEach rs f).roster.buds[b] =
      if s.roster.buds[b].link ≠ .free ∧ ∃ p ∈ rs, p.bud = b then { s.roster.buds[b] with dlSeq := seq + 1 }
      else s.roster.buds[b] := by
  induction rs using List.reverseRecOn with
  | nil => simp [sendEach]
  | append_singleton rs p ih =>
    have hbefore := ih fun p hp => h p (List.mem_append_left _ hp)
    have hstep : s.sendEach (rs ++ [p]) f = (s.sendEach rs f).sendDownlink p (f p) := List.foldl_append ..
    have hlink : (s.sendEach rs f).roster.buds[b].link = s.roster.buds[b].link := by
      rw [hbefore]
      split <;> rfl
    rw [hstep, State.sendDownlink_bud, hlink, hbefore]
    by_cases hb : p.bud = b
    · have hex : ∃ p' ∈ rs ++ [p], p'.bud = b := ⟨p, by simp, hb⟩
      have hseq := h p (by simp) hb
      by_cases hfree : s.roster.buds[b].link = .free
      · rw [if_neg fun h => h.1 hfree, if_neg fun h => h.1 hfree, if_neg fun h => h.1 hfree]
      · rw [if_pos ⟨hfree, hb⟩, hseq]
        refine Eq.trans ?_ (if_pos ⟨hfree, hex⟩).symm
        split <;> rfl
    · have hex : (∃ p' ∈ rs ++ [p], p'.bud = b) ↔ ∃ p' ∈ rs, p'.bud = b := by simp [hb]
      rw [if_neg fun h => hb h.2]
      simp only [hex]

theorem Roster.recipients_seq_of {x : Roster} {p : Recipient} (h : p ∈ x.recipients) (hb : p.bud = b) : p.seq = x.buds[b].dlSeq := by
  subst hb
  exact (Roster.recipients_seq h).1

/-- What the forming of the outputs makes of one bud's record (R110). -/
theorem State.formOutputs_bud (s : State) (far : List Int) (audience : List Recipient) (b : BudIx) {seq : Byte}
    (h : ∀ p ∈ audience, p.bud = b → p.seq = seq) :
    (s.formOutputs far audience).roster.buds[b] =
      if s.roster.buds[b].link ≠ .free ∧ ∃ p ∈ audience, p.bud = b then { s.roster.buds[b] with dlSeq := seq + 1 }
      else s.roster.buds[b] := by
  rw [State.formOutputs_eq, State.sendEach_bud _ audience _ b h, (State.emitUplink_only _ _).1]

/-- What DOWNLINK SILENCE to the eligible buds makes of one bud's record (R111). -/
theorem State.emitSilence_bud (hp : s.PartySound) (b : BudIx) :
    s.emitSilence.roster.buds[b] =
      if s.roster.buds[b].link.supervised then { s.roster.buds[b] with dlSeq := s.roster.buds[b].dlSeq + 1 }
      else s.roster.buds[b] := by
  have hsent := State.sendEach_bud s s.roster.recipients (fun r => .downlinkSilence r.handle r.seq) b (seq := s.roster.buds[b].dlSeq)
    fun _ hm hb => Roster.recipients_seq_of hm hb
  refine Eq.trans hsent ?_
  cases hsup : s.roster.buds[b].link.supervised with
  | true =>
    have hfree : s.roster.buds[b].link ≠ .free := fun hf => by
      rw [hf] at hsup
      exact absurd hsup nofun
    exact if_pos ⟨hfree, (State.mem_recipients hp b).2 hsup⟩
  | false => exact if_neg fun h => absurd (hsup.symm.trans ((State.mem_recipients hp b).1 h.2)) nofun

theorem State.emitSilence_pairing (s : State) : s.emitSilence.pairing = s.pairing := by
  have hsent := congrArg State.pairing (s.sendEach_frame s.roster.recipients fun r => .downlinkSilence r.handle r.seq)
  exact hsent

/-! ## Acts that leave the records -/

/-- A change that leaves the Roster, the context and the settings. -/
structure State.Rests (s t : State) : Prop where
  roster : t.roster = s.roster
  context : t.pairing.context = s.pairing.context
  settings : t.directives.settings = s.directives.settings

theorem State.Rests.refl (s : State) : s.Rests s := ⟨rfl, rfl, rfl⟩

theorem State.Rests.trans (h : s.Rests t) (k : t.Rests u) : s.Rests u :=
  ⟨k.roster.trans h.roster, k.context.trans h.context, k.settings.trans h.settings⟩

theorem State.OnlyReports.rests (h : s.OnlyReports t) : s.Rests t :=
  ⟨h.roster, congrArg Pairing.context h.pairing, h.tables.settings⟩

theorem State.OnlyBindings.rests (h : s.OnlyBindings t) : s.Rests t :=
  ⟨h.only.roster, congrArg Pairing.context h.only.pairing, h.only.tables.settings⟩

/-- A change of call state, after the counts and the timer. -/
theorem State.changeCall_rests {v : State} (hv : v = { s with callCtl := v.callCtl }) (new : CallState) (cause : ChangeCause) :
    s.Rests (v.changeCall new cause) := by
  have ho := State.postEvent_only ({ v with callCtl := { v.callCtl with state := new } }) (.callState new v.callCtl.state cause)
  have hrests : v.Rests (v.changeCall new cause) := ⟨ho.roster, congrArg Pairing.context ho.pairing, ho.tables.settings⟩
  exact .trans ⟨by rw [hv], by rw [hv], by rw [hv]⟩ hrests

theorem State.autoHold_rests (s : State) : s.Rests s.autoHold :=
  (State.changeCall_rests (v := s.zeroFills) rfl (.holding .auto) .fillTimeout).trans (State.lanesHold_only _).rests

theorem State.takeDirective_rests (s : State) (code seq : Byte) (q : List Byte) (act : State → State × Reply)
    (h : ∀ u : State, u.Rests (act u).1) : s.Rests (s.takeDirective code seq q (answered act)) := by
  have hmask : s.Rests s.consumeMask := ⟨rfl, rfl, rfl⟩
  unfold State.takeDirective State.atPort
  split
  · split
    · exact ⟨rfl, rfl, rfl⟩
    · split
      · exact (hmask.trans (h _)).trans (State.post_only _ _).rests
      · exact hmask.trans (State.post_only _ _).rests
  · exact .refl s

/-- A call-control directive leaves the records (R122 to R125). -/
theorem State.takeCall_rests (s : State) (what : CallDirective) (seq : Byte) (q : List Byte) : s.Rests (s.takeCall what seq q) := by
  cases what with
  | beginCall =>
    refine s.takeDirective_rests _ _ _ _ fun u => ?_
    unfold State.beginCallDirective
    split
    · dsimp only
      exact (State.changeCall_rests (s := u) (v := { u with callCtl := { u.callCtl with fills := 0, fillTotal := 0, timer := some .ms7_5 } }) rfl
        .inCall .beginCall).trans (State.lanesEnter_only _ true).rests
    · exact .refl u
    · exact .refl u
  | endCall =>
    refine s.takeDirective_rests _ _ _ _ fun u => ?_
    unfold State.endCallDirective
    split
    · dsimp only
      exact (State.changeCall_rests (s := u) (v := u.zeroFills.armTimer .ms5) rfl .noCall .endCall).trans (State.lanesEnd_only _).rests
    · dsimp only
      exact (State.changeCall_rests (s := u) (v := u.zeroFills.armTimer .ms5) rfl .noCall .endCall).trans (State.lanesEnd_only _).rests
    · exact .refl u
  | hold =>
    refine s.takeDirective_rests _ _ _ _ fun u => ?_
    unfold State.holdDirective
    split
    · dsimp only
      exact (State.changeCall_rests (s := u) (v := u.zeroFills.armTimer .ms5) rfl (.holding .directed) .hold).trans (State.lanesHold_only _).rests
    · exact State.changeCall_rests (s := u) (v := u) rfl _ _
    · exact .refl u
    · exact .refl u
  | resume =>
    refine s.takeDirective_rests _ _ _ _ fun u => ?_
    unfold State.resumeDirective
    split
    · dsimp only
      exact (State.changeCall_rests (s := u) (v := u.zeroFills.armTimer .ms7_5) rfl .inCall .resume).trans (State.lanesEnter_only _ false).rests
    · exact .refl u
    · exact .refl u
    · exact .refl u

theorem State.lanesTake_rests (s : State) (before : Vector LaneState 3) (order : List LaneIx) : s.Rests (s.lanesTake before order) :=
  have hsame := s.lanesTake_sameParty before order
  ⟨hsame.roster, hsame.context, hsame.settings⟩

end Sys2Proof.Machine
end

