-- ==== Sys2Proof/Proofs/CadenceCredits.lean ====
section
/-! PROOFS. The account of one bud's record over a whole cadence: supervision, the countdown and the downlink sequence
(R6, R8, R36, R104, R110, R111). -/

namespace Sys2Proof.Machine

variable {s t u : State} {b : BudIx} {r q : Bud} {set : Settings}

/-! ## The record as the turns taken so far leave it -/

/-- Which of the acts that a record depends on have had their turn. -/
structure Turns where
  roster : Bool
  pairing : Bool
  lanes : Bool
  mix : Bool

def Turns.of (l : List CadenceAct) : Turns where
  roster := decide (.supervise ∈ l)
  pairing := decide (.countdown ∈ l)
  lanes := decide (.lanes ∈ l)
  mix := decide (.mix ∈ l)

def Turns.after (n : Turns) : CadenceAct → Turns
  | .supervise => { n with roster := true }
  | .countdown => { n with pairing := true }
  | .lanes => { n with lanes := true }
  | .mix => { n with mix := true }
  | .form | .hold | .call _ _ => n

def Turns.had (n : Turns) : CadenceAct → Bool
  | .supervise => n.roster
  | .countdown => n.pairing
  | .lanes => n.lanes
  | .mix => n.mix
  | .form | .hold | .call _ _ => false

theorem Turns.of_append (l : List CadenceAct) (a : CadenceAct) : Turns.of (l ++ [a]) = (Turns.of l).after a := by
  cases a <;> simp [Turns.of, Turns.after]

theorem Turns.mem_of_had {l : List CadenceAct} {a : CadenceAct} (h : (Turns.of l).had a = true) : a ∈ l ∧ a.isCall = false := by
  cases a with
  | supervise | countdown | lanes | mix => exact ⟨of_decide_eq_true h, rfl⟩
  | form | hold | call => exact absurd h nofun

theorem Bud.supervise_offered : (r.supervise set).link = .offered ↔ r.link = .offered := by
  cases hr : r.link.supervised with
  | false => rw [Bud.supervise_of_not hr]
  | true =>
    have hr' : r.link ≠ .offered := fun h => by rw [h] at hr; exact absurd hr nofun
    refine ⟨fun h => ?_, fun h => absurd h hr'⟩
    cases hl : r.passPeriod.isLost set with
    | true =>
      rw [Bud.supervise_of_lost hr hl] at h
      exact absurd h nofun
    | false =>
      rw [Bud.supervise_of_kept hr hl] at h
      split at h
      · exact absurd h nofun
      · exact absurd (r.passPeriod_link.symm.trans h) hr'

/-- A supervised record that supervision leaves unsupervised is FREE (R6). -/
theorem Bud.supervise_free (hr : r.link.supervised = true) (h : (r.supervise set).link.supervised = false) :
    (r.supervise set).link = .free := by
  cases hl : r.passPeriod.isLost set with
  | true => rw [Bud.supervise_of_lost hr hl]
  | false =>
    rw [Bud.supervise_of_kept hr hl] at h
    split at h
    · exact absurd h nofun
    · rw [Bud.passPeriod_link, hr] at h
      exact absurd h nofun

/-- The record of a bud once supervision and the countdown have had their turns or not (R6, R36). -/
def State.aged (s : State) (b : BudIx) (n : Turns) : Bud :=
  if (n.pairing && s.lapses) = true ∧ s.roster.buds[b].link = .offered then {}
  else if n.roster then s.roster.buds[b].supervise s.directives.settings else s.roster.buds[b]

theorem State.aged_roster {n : Turns} (hn : n.roster = false) :
    s.aged b { n with roster := true } = (s.aged b n).supervise s.directives.settings := by
  unfold State.aged
  dsimp only
  split
  · rfl
  · rw [hn, if_pos rfl]
    rfl

theorem State.aged_pairing {n : Turns} (hn : n.pairing = false) :
    s.aged b { n with pairing := true } = if s.lapses = true ∧ (s.aged b n).link = .offered then {} else s.aged b n := by
  have hbefore : s.aged b n = if n.roster then s.roster.buds[b].supervise s.directives.settings else s.roster.buds[b] :=
    if_neg fun h => by rw [hn] at h; exact absurd h.1 nofun
  have hlink : (s.aged b n).link = .offered ↔ s.roster.buds[b].link = .offered := by
    rw [hbefore]
    split
    · exact Bud.supervise_offered
    · exact Iff.rfl
  simp only [hlink]
  rw [hbefore]
  unfold State.aged
  dsimp only
  rw [Bool.true_and]

theorem State.aged_supervised {n : Turns} (h : (s.aged b n).link.supervised = true) : s.roster.buds[b].link.supervised = true := by
  unfold State.aged at h
  split at h
  · exact absurd h nofun
  · split at h
    · exact (Bud.supervise_supervised h).1
    · exact h

theorem State.aged_free {n : Turns} (hs : s.roster.buds[b].link.supervised = true) (h : (s.aged b n).link.supervised = false) :
    (s.aged b n).link = .free := by
  unfold State.aged at h ⊢
  split
  · rfl
  · next hnot =>
    rw [if_neg hnot] at h
    split at h
    · next hn =>
      rw [if_pos hn]
      exact Bud.supervise_free hs h
    · rw [hs] at h
      exact absurd h nofun

/-! ## The account -/

/-- What a downlink sequence comes to, by the call states in which the Mix Engine may take the cadence (R104). -/
structure Sequel (idle : Prop) (seq : Byte) (C : CallState → Prop) (Q : Byte → Prop) : Prop where
  hold : ∀ c, C c → c ≠ .noCall → C (.holding .auto)
  none : C .noCall → Q seq
  unmixed : C .inCall → idle → Q seq
  mixed : C .inCall → ¬ idle → Q (seq + 1)
  silence : ∀ m, C (.holding m) → Q (seq + 1)

/-- One bud's record in a cadence under way, and the recipient that waits for it. -/
structure Cadence.Serves (s : State) (i : CadenceInput) (b : BudIx) (C : CallState → Prop) (Q : Byte → Prop) (n : Turns)
    (d : Cadence) : Prop where
  follows : d.Follows i.Fresh s
  settings : d.state.directives.settings = s.directives.settings
  context : n.pairing = false → d.state.pairing.context = s.pairing.context
  call : C d.state.callCtl.state
  record : (s.aged b n).Sends d.state.roster.buds[b]
  handed : n.lanes = true → i.kind ≠ .idle → d.handed = true
  fresh : n.mix = false → d.taken = none
  named : ∀ audience, d.taken = some audience → i.kind ≠ .idle ∧ Q (s.roster.buds[b].dlSeq + 1) ∧
    (∀ p ∈ audience, p.bud = b → p.seq = s.roster.buds[b].dlSeq ∧ s.roster.buds[b].link.supervised = true) ∧
    ((s.aged b n).link.supervised = true → ∃ p ∈ audience, p.bud = b)
  unsent : n.mix = false ∨ d.taken ≠ none → (s.aged b n).link.supervised = true →
    d.state.roster.buds[b].dlSeq = s.roster.buds[b].dlSeq
  sent : n.mix = true → d.taken = none → (s.aged b n).link.supervised = true → Q d.state.roster.buds[b].dlSeq

section
variable {i : CadenceInput} {C : CallState → Prop} {Q : Byte → Prop} {n : Turns} {d e : Cadence}

/-- Acts that leave the records. -/
theorem Cadence.Serves.rest (h : d.Serves s i b C Q n) (hf : e.Follows i.Fresh s) (hr : d.state.Rests e.state)
    (hC : C e.state.callCtl.state) (htaken : e.taken = d.taken) {l : Bool} (hh : l = true → i.kind ≠ .idle → e.handed = true) :
    e.Serves s i b C Q { n with lanes := l } where
  follows := hf
  settings := hr.settings.trans h.settings
  context := fun hn => hr.context.trans (h.context hn)
  call := hC
  record := by rw [hr.roster]; exact h.record
  handed := hh
  fresh := fun hn => htaken.trans (h.fresh hn)
  named := fun audience ha => h.named audience (htaken ▸ ha)
  unsent := fun hn hsup => by
    rw [hr.roster]
    exact h.unsent (hn.imp_right fun ht => htaken ▸ ht) hsup
  sent := fun hn ht hsup => by
    rw [hr.roster]
    exact h.sent hn (htaken ▸ ht) hsup

/-- Supervision's turn (R6). -/
theorem Cadence.Serves.supervise (h : d.Serves s i b C Q n) (hn : n.roster = false) :
    Cadence.Serves s i b C Q { n with roster := true } (d.act i .supervise) := by
  obtain ⟨hrecord, hpairing⟩ := d.state.supervise_record (visitOrder_perm i.buds Config.buds) b
  have haside := d.state.supervise_aside (visitOrder i.buds Config.buds)
  rw [h.settings] at hrecord
  have hsends := h.record.supervise s.directives.settings
  rw [← State.aged_roster hn, ← hrecord] at hsends
  have hbefore : (s.aged b { n with roster := true }).link.supervised = true → (s.aged b n).link.supervised = true ∧
      (d.act i .supervise).state.roster.buds[b].dlSeq = d.state.roster.buds[b].dlSeq := fun hsup => by
    refine ⟨(Bud.supervise_supervised (State.aged_roster hn ▸ hsup)).1, ?_⟩
    have hsup' := hsup
    rw [← hsends.link, hrecord] at hsup'
    exact (congrArg Bud.dlSeq hrecord).trans (Bud.supervise_supervised hsup').2
  refine ⟨h.follows.step .supervise, haside.tables.settings.trans h.settings, fun hp => (congrArg Pairing.context hpairing).trans (h.context hp),
    ?_, hsends, h.handed, h.fresh, fun audience ha => ?_, fun hm hsup => ?_, fun hm ht hsup => ?_⟩
  · have hcall := h.call
    rw [← haside.callCtl] at hcall
    exact hcall
  · obtain ⟨hidle, hq, hall, hex⟩ := h.named audience ha
    exact ⟨hidle, hq, hall, fun hsup => hex (hbefore hsup).1⟩
  · obtain ⟨hsup, hseq⟩ := hbefore hsup
    exact hseq.trans (h.unsent hm hsup)
  · obtain ⟨hsup, hseq⟩ := hbefore hsup
    rw [hseq]
    exact h.sent hm ht hsup

/-- The countdown's turn (R36). -/
theorem Cadence.Serves.countdown (h : d.Serves s i b C Q n) (hs : s.PartySound) (hn : n.pairing = false) :
    Cadence.Serves s i b C Q { n with pairing := true } (d.act i .countdown) := by
  have hrecord := State.countdown_record (h.follows.keeps hs).sound b
  have haside := d.state.countdown_aside
  have hlapses : d.state.lapses = s.lapses := by rw [State.lapses, h.context hn]; rfl
  have hbefore := h.record
  rw [hlapses, hbefore.link] at hrecord
  have haged := State.aged_pairing (s := s) (b := b) hn
  have hcall : C (d.act i .countdown).state.callCtl.state := by
    have hcall := h.call
    rw [← haside.callCtl] at hcall
    exact hcall
  have hsettings := haside.tables.settings.trans h.settings
  by_cases hends : s.lapses = true ∧ (s.aged b n).link = .offered
  · rw [if_pos hends] at hrecord haged
    have hnot : ¬ (s.aged b { n with pairing := true }).link.supervised = true := by rw [haged]; exact nofun
    refine ⟨h.follows.step .countdown, hsettings, nofun, hcall, ?_, h.handed, h.fresh, fun audience ha => ?_,
      fun _ hsup => absurd hsup hnot, fun _ _ hsup => absurd hsup hnot⟩
    · rw [haged]
      exact hrecord ▸ .refl _
    · obtain ⟨hidle, hq, hall, -⟩ := h.named audience ha
      exact ⟨hidle, hq, hall, fun hsup => absurd hsup hnot⟩
  · rw [if_neg hends] at hrecord haged
    have hseq : (d.act i .countdown).state.roster.buds[b].dlSeq = d.state.roster.buds[b].dlSeq := congrArg Bud.dlSeq hrecord
    refine ⟨h.follows.step .countdown, hsettings, nofun, hcall, ?_, h.handed, h.fresh, fun audience ha => ?_, fun hm hsup => ?_,
      fun hm ht hsup => ?_⟩
    · rw [haged]
      exact hrecord ▸ hbefore
    · rw [haged]
      exact h.named audience ha
    · rw [haged] at hsup
      exact hseq.trans (h.unsent hm hsup)
    · rw [haged] at hsup
      rw [hseq]
      exact h.sent hm ht hsup

/-- The forming of the outputs (R104, R110). -/
theorem Cadence.Serves.form (h : d.Serves s i b C Q n) (hseen : n.mix = true ∨ d.taken = none) :
    (d.form i.far).Serves s i b C Q n := by
  have hstep : (d.form i.far).Follows i.Fresh s := h.follows.step .form
  by_cases hforms : ∃ audience, d.taken = some audience ∧ d.handed = true
  · obtain ⟨audience, ha, hh⟩ := hforms
    have hform : d.form i.far = { d with state := d.state.formOutputs i.far audience, taken := none } := by
      unfold Cadence.form
      rw [ha]
      exact if_pos hh
    rw [hform] at hstep ⊢
    obtain ⟨-, hq, hall, hex⟩ := h.named audience ha
    have hmix := hseen.resolve_right fun hn => absurd (ha.symm.trans hn) nofun
    obtain ⟨-, hcall, -, -, htables⟩ := d.state.formOutputs_frame i.far audience
    have hpairing : (d.state.formOutputs i.far audience).pairing = d.state.pairing := by
      rw [State.formOutputs_eq, State.sendEach_frame]
      exact (State.chooseVoice_only _).pairing
    have hrecord := d.state.formOutputs_bud i.far audience b fun p hp hb => (hall p hp hb).1
    have hsends : (s.aged b n).Sends (d.state.formOutputs i.far audience).roster.buds[b] ∧
        ((s.aged b n).link.supervised = true → (d.state.formOutputs i.far audience).roster.buds[b].dlSeq = s.roster.buds[b].dlSeq + 1) := by
      rw [hrecord]
      cases hsup : (s.aged b n).link.supervised with
      | true =>
        have hfree : d.state.roster.buds[b].link ≠ .free := fun hf => by
          rw [← h.record.link, hf] at hsup
          exact absurd hsup nofun
        rw [if_pos ⟨hfree, hex hsup⟩]
        exact ⟨h.record.advance hsup _, fun _ => rfl⟩
      | false =>
        rw [if_neg fun ⟨hfree, p, hp, hb⟩ => hfree (h.record.link.trans (State.aged_free (hall p hp hb).2 hsup))]
        exact ⟨h.record, nofun⟩
    have hcalled := h.call
    rw [← hcall] at hcalled
    exact ⟨hstep, htables.settings.trans h.settings, fun hp => (congrArg Pairing.context hpairing).trans (h.context hp), hcalled, hsends.1,
      h.handed, fun _ => rfl, nofun, fun hm => absurd hm (by rw [hmix]; simp), fun _ _ hsup => (hsends.2 hsup).symm ▸ hq⟩
  · have hform : d.form i.far = d := by
      unfold Cadence.form
      split
      · next audience ha => exact if_neg fun hh => hforms ⟨audience, ha, hh⟩
      · rfl
    rw [hform]
    exact h

/-- The Mix Engine's turn (R104, R111). -/
theorem Cadence.Serves.mix (h : d.Serves s i b C Q n) (hs : s.PartySound) (hseq : Sequel (i.kind = .idle) s.roster.buds[b].dlSeq C Q)
    (hn : n.mix = false) : Cadence.Serves s i b C Q { n with mix := true } (d.act i .mix) := by
  have hparty := (h.follows.keeps hs).sound
  have hstep : (d.takeMix i.kind).Follows i.Fresh s := h.follows.step .mix
  have hmix := d.takeMix_eq i.kind
  have hunsent := h.unsent (.inl hn)
  have hkept : (s.aged b n).link.supervised = true → Q s.roster.buds[b].dlSeq → Q d.state.roster.buds[b].dlSeq := fun hsup hq => by
    rw [hunsent hsup]
    exact hq
  have hC := h.call
  change (d.takeMix i.kind).Serves s i b C Q _
  rw [h.fresh hn] at hmix
  cases hc : d.state.callCtl.state with
  | holding m =>
    rw [hc, if_neg fun h => absurd h.2 nofun] at hmix
    rw [hmix] at hstep ⊢
    rw [hc] at hC
    have haside := d.state.takeSwap.emitSilence_aside
    have hpairing : d.state.takeSwap.emitSilence.pairing = d.state.pairing := d.state.takeSwap.emitSilence_pairing
    have hrecord : d.state.takeSwap.emitSilence.roster.buds[b] =
        if d.state.roster.buds[b].link.supervised then { d.state.roster.buds[b] with dlSeq := d.state.roster.buds[b].dlSeq + 1 }
        else d.state.roster.buds[b] :=
      State.emitSilence_bud (s := d.state.takeSwap) (State.takeSwap_sound (p := True) d.state hparty).sound b
    have hsends : (s.aged b n).Sends d.state.takeSwap.emitSilence.roster.buds[b] ∧
        ((s.aged b n).link.supervised = true → d.state.takeSwap.emitSilence.roster.buds[b].dlSeq = s.roster.buds[b].dlSeq + 1) := by
      rw [hrecord, h.record.link]
      cases hsup : (s.aged b n).link.supervised with
      | true =>
        rw [if_pos rfl]
        exact ⟨h.record.advance hsup _, fun _ => congrArg (· + 1) (hunsent hsup)⟩
      | false =>
        rw [if_neg nofun]
        exact ⟨h.record, nofun⟩
    have hcall : C d.state.takeSwap.emitSilence.callCtl.state := by
      rw [haside.callCtl]
      exact h.call
    exact ⟨hstep, haside.tables.settings.trans h.settings, fun hp => (congrArg Pairing.context hpairing).trans (h.context hp), hcall,
      hsends.1, h.handed, nofun, nofun, fun hm => absurd rfl (hm.resolve_left nofun),
      fun _ _ hsup => (hsends.2 hsup).symm ▸ hseq.silence m hC⟩
  | noCall =>
    rw [hc, if_neg fun h => absurd h.2 nofun] at hmix
    rw [hmix] at hstep ⊢
    rw [hc] at hC
    exact ⟨hstep, h.settings, h.context, h.call, h.record, h.handed, nofun, nofun, fun hm => absurd rfl (hm.resolve_left nofun),
      fun _ _ hsup => hkept hsup (hseq.none hC)⟩
  | inCall =>
    by_cases hidle : i.kind = .idle
    · rw [hc, if_neg fun h => h.1 hidle] at hmix
      rw [hmix] at hstep ⊢
      rw [hc] at hC
      exact ⟨hstep, h.settings, h.context, h.call, h.record, h.handed, nofun, nofun, fun hm => absurd rfl (hm.resolve_left nofun),
        fun _ _ hsup => hkept hsup (hseq.unmixed hC hidle)⟩
    · rw [hc, if_pos ⟨hidle, rfl⟩] at hmix
      rw [hmix] at hstep ⊢
      rw [hc] at hC
      refine ⟨hstep, h.settings, h.context, h.call, h.record, h.handed, nofun, fun audience ha => ⟨hidle, hseq.mixed hC hidle, ?_, ?_⟩,
        fun _ => hunsent, fun _ hnone => absurd hnone nofun⟩
      all_goals obtain rfl := Option.some.inj ha
      · intro p hp hb
        have hsup := (State.mem_recipients hparty b).1 ⟨p, hp, hb⟩
        rw [h.record.link] at hsup
        exact ⟨(Roster.recipients_seq_of hp hb).trans (hunsent hsup), State.aged_supervised hsup⟩
      · intro hsup
        exact (State.mem_recipients hparty b).2 (h.record.link ▸ hsup)

/-- The Lane Unit's turn (R72). -/
theorem Cadence.Serves.lanes (h : d.Serves s i b C Q n) : Cadence.Serves s i b C Q { n with lanes := true } (d.act i .lanes) := by
  have hstep := h.follows.step (i := i) .lanes
  have hcall : (d.takeLanes i).state.callCtl = d.state.callCtl ∧ d.state.Rests (d.takeLanes i).state ∧
      (d.takeLanes i).taken = d.taken ∧ (i.kind ≠ .idle → (d.takeLanes i).handed = true) := by
    unfold Cadence.takeLanes
    split
    · next hi => exact ⟨rfl, .refl _, rfl, fun hk => absurd hi hk⟩
    · exact ⟨(State.lanesTake_aside _ _ _).callCtl, State.lanesTake_rests _ _ _, rfl, fun _ => rfl⟩
    · exact ⟨(State.lanesTake_aside _ _ _).callCtl, State.lanesTake_rests _ _ _, rfl, fun _ => rfl⟩
  obtain ⟨hcall, hrests, htaken, hhanded⟩ := hcall
  refine h.rest hstep hrests ?_ htaken fun _ => hhanded
  change C (d.takeLanes i).state.callCtl.state
  rw [hcall]
  exact h.call

/-- The automatic hold's turn (R121). -/
theorem Cadence.Serves.hold (h : d.Serves s i b C Q n) (hC : ∀ c, C c → c ≠ .noCall → C (.holding .auto)) :
    d.takeHold.Serves s i b C Q n := by
  have hstep := h.follows.step (i := i) .hold
  cases hd : d.due with
  | true =>
    change d.takeHold.Follows i.Fresh s at hstep
    rw [Cadence.takeHold_of_due hd] at hstep ⊢
    refine h.rest (l := n.lanes) hstep d.state.autoHold_rests ?_ rfl h.handed
    have hheld : d.state.autoHold.callCtl.state = .holding .auto := congrArg CallCtl.state d.state.autoHold_frame.1
    change C d.state.autoHold.callCtl.state
    rw [hheld]
    exact hC _ h.call (h.follows.due hd)
  | false =>
    rw [Cadence.takeHold_of_not hd]
    exact h

/-- A call-control directive's turn (R104). -/
theorem Cadence.Serves.directive (h : d.Serves s i b C Q n) (hC : ∀ c, C c) (what : CallDirective) (seq : Byte) :
    (d.takeCall what seq).Serves s i b C Q n :=
  (h.hold fun _ _ _ => hC _).rest (l := n.lanes) (h.follows.step (i := i) (.call what seq)) (State.takeCall_rests _ _ _ _) (hC _) rfl
    (h.hold fun _ _ _ => hC _).handed

/-- One act of a cadence, each block's at its one turn (R104). -/
theorem Cadence.Serves.step (h : d.Serves s i b C Q n) (hs : s.PartySound) (hseq : Sequel (i.kind = .idle) s.roster.buds[b].dlSeq C Q)
    {a : CadenceAct} (ha : n.had a = false) (hC : a.isCall = true → ∀ c, C c) : (d.act i a).Serves s i b C Q (n.after a) := by
  cases a with
  | supervise => exact h.supervise ha
  | countdown => exact h.countdown hs ha
  | lanes => exact h.lanes
  | mix => exact h.mix hs hseq ha
  | form =>
    refine h.form ?_
    cases hm : n.mix with
    | true => exact .inl rfl
    | false => exact .inr (h.fresh hm)
  | hold => exact h.hold hseq.hold
  | call what seq => exact h.directive (hC rfl) what seq

/-- All the acts of a cadence, those of the blocks each once. -/
theorem Cadence.Serves.acts (h : d.Serves s i b C Q (Turns.of [])) (hs : s.PartySound)
    (hseq : Sequel (i.kind = .idle) s.roster.buds[b].dlSeq C Q) (l : List CadenceAct) (hl : ∀ a, a.isCall = false → l.count a ≤ 1)
    (hC : (∃ a ∈ l, a.isCall = true) → ∀ c, C c) : (l.foldl (Cadence.act i) d).Serves s i b C Q (Turns.of l) := by
  induction l using List.reverseRecOn with
  | nil => exact h
  | append_singleton l a ih =>
    have hbefore := ih (fun x hx => ((List.sublist_append_left l [a]).count_le x).trans (hl x hx)) fun ⟨x, hx, hcall⟩ =>
      hC ⟨x, List.mem_append_left _ hx, hcall⟩
    rw [List.foldl_append, Turns.of_append]
    refine hbefore.step hs hseq (Bool.eq_false_iff.2 fun hhad => ?_) fun hcall => hC ⟨a, by simp, hcall⟩
    obtain ⟨hmem, hnot⟩ := Turns.mem_of_had hhad
    have honce := hl a hnot
    rw [List.count_append, List.count_singleton_self] at honce
    have hcount := List.count_pos_iff.2 hmem
    omega

end

end Sys2Proof.Machine
end

