-- ==== Sys2Proof/Proofs/Supervisions.lean ====
section
/-! PROOFS. Cadence commands and a bud's record, and supervision written out: its records, the leaving of the lost, their
notices and reports (R6, R8, R17, R19). -/

namespace Sys2Proof.Machine

variable {s t u : State} {b : BudIx} {r q : Bud} {set : Settings}

/-! ## A whole cadence and one record -/

/-- Every act that a record depends on has had its turn. -/
abbrev Turns.all : Turns := ⟨true, true, true, true⟩

theorem cadenceActs_count (order : List CadenceAct) {a : CadenceAct} (ha : a.isCall = false) :
    (visitOrder order (cadenceActs order)).count a ≤ 1 := by
  have hcalls : (order.filter CadenceAct.isCall).count a = 0 :=
    List.count_eq_zero.2 fun hm => by
      have hcall := (List.mem_filter.1 hm).2
      rw [ha] at hcall
      exact absurd hcall nofun
  rw [(visitOrder_perm order (cadenceActs order)).count_eq, cadenceActs, List.count_append, hcalls]
  exact List.nodup_iff_count_le_one.1 (by decide) a

theorem Turns.of_cadenceActs (order : List CadenceAct) : Turns.of (visitOrder order (cadenceActs order)) = Turns.all := by
  have hmem : ∀ a ∈ blockActs, a ∈ visitOrder order (cadenceActs order) := fun a ha =>
    (visitOrder_perm order (cadenceActs order)).mem_iff.2 (List.mem_append_left _ ha)
  unfold Turns.of
  rw [decide_eq_true (hmem _ (by decide)), decide_eq_true (hmem _ (by decide)), decide_eq_true (hmem _ (by decide)),
    decide_eq_true (hmem _ (by decide))]

/-- What a cadence makes of one bud's record, in any order of its acts (R6, R8, R36, R110, R111). -/
theorem State.runCadence_record (hs : s.PartySound) (i : CadenceInput) {due : Bool} (order : List CadenceAct)
    (hdue : due = true → s.callCtl.state ≠ .noCall) (b : BudIx) {C : CallState → Prop} {Q : Byte → Prop}
    (hseq : Sequel (i.kind = .idle) s.roster.buds[b].dlSeq C Q) (hbegun : C s.callCtl.state)
    (hC : (∃ a ∈ order, a.isCall = true) → ∀ c, C c) :
    (s.aged b Turns.all).Sends (s.runCadence i due order).roster.buds[b] ∧
      ((s.aged b Turns.all).link.supervised = true → Q (s.runCadence i due order).roster.buds[b].dlSeq) := by
  have hstart : Cadence.Serves s i b C Q (Turns.of []) { state := s, due := due, taken := none, handed := false } :=
    ⟨⟨.refl s, hdue⟩, rfl, fun _ => rfl, hbegun, .refl _, nofun, fun _ => rfl, nofun, fun _ _ => rfl, nofun⟩
  have hacts := hstart.acts hs hseq (visitOrder order (cadenceActs order)) (fun a => cadenceActs_count order) fun ⟨a, ha, hcall⟩ => by
    refine hC ⟨a, ?_, hcall⟩
    rcases List.mem_append.1 ((visitOrder_perm order (cadenceActs order)).mem_iff.1 ha) with ha | ha
    · fin_cases ha <;> exact absurd hcall nofun
    · exact (List.mem_filter.1 ha).1
  rw [Turns.of_cadenceActs] at hacts
  have hformed := hacts.form (.inl rfl)
  unfold State.runCadence
  dsimp only
  generalize (visitOrder order (cadenceActs order)).foldl (Cadence.act i) { state := s, due := due, taken := none, handed := false } = d
    at hacts hformed
  refine ⟨hformed.record, hformed.sent rfl ?_⟩
  cases ht : d.taken with
  | none =>
    unfold Cadence.form
    rw [ht]
    exact ht
  | some audience =>
    have hidle := (hacts.named audience ht).1
    unfold Cadence.form
    rw [ht]
    dsimp only
    rw [if_pos (hacts.handed rfl hidle)]

/-- What begins a cadence leaves the records, and the call as it was but for VOICE RETURNED (R117, R118). -/
theorem cadence_begins (hs : s.PartySound) {c : Instr} (ht : exec c s = .next t)
    (hc : (∃ o, c = .cadenceTimerExpiry o ∧ s.callCtl.timer ≠ none) ∨
      (∃ x y far o, c = .farVoice x y far o ∧ s.VoiceTakes ∧ (s.callCtl.state = .inCall ∨ s.callCtl.state = .holding .auto))) :
    ∃ (u : State) (i : CadenceInput) (due : Bool), t = u.runCadence i due c.order.acts ∧ s.Rests u ∧ u.PartySound ∧
      (due = true → u.callCtl.state ≠ .noCall) ∧ (i.kind = .idle → u.callCtl.state ≠ .inCall) ∧
      (u.callCtl.state = .noCall ↔ s.callCtl.state = .noCall) := by
  have hcounts : ∀ (v : State) (k : CallCtl), k.state = v.callCtl.state → v.PartySound →
      ({ v with callCtl := k } : State).PartySound := fun v k hk hv => (State.callCounts_sound (p := True) hk hv).sound
  rcases hc with ⟨o, rfl, htimer⟩ | ⟨x, y, far, o, rfl, htakes, hcall⟩
  · have hexec : t = s.timerExpiry o := (Host.Outcome.next.inj ht).symm
    by_cases hcall : s.callCtl.state = .inCall
    · rw [State.timerExpiry_of_call o htimer hcall] at hexec
      have hin : (s.countFill.armTimer .ms5).callCtl.state = .inCall := hcall
      exact ⟨s.countFill.armTimer .ms5, _, _, hexec, ⟨rfl, rfl, rfl⟩, hcounts s _ rfl hs, fun _ => by rw [hin]; exact nofun, nofun,
        Iff.rfl⟩
    · rw [State.timerExpiry_of_other o htimer hcall] at hexec
      exact ⟨s.armTimer .ms5, _, _, hexec, ⟨rfl, rfl, rfl⟩, hcounts s _ rfl hs, nofun, fun _ => hcall, Iff.rfl⟩
  · have hexec : t = s.voiceFrame far o := (Host.Outcome.next.inj (ht.symm.trans (congrArg Host.Outcome.next (State.atPort_voice _ htakes))))
    rcases hcall with hcall | hcall
    · rw [State.voiceFrame_of_call far o hcall] at hexec
      exact ⟨s.zeroFills.armTimer .ms7_5, _, _, hexec, ⟨rfl, rfl, rfl⟩, hcounts s _ rfl hs, nofun, nofun, Iff.rfl⟩
    · rw [State.voiceFrame_of_hold far o hcall] at hexec
      have hentered : ((s.zeroFills.changeCall .inCall .voiceReturned).lanesEnter false).PartySound :=
        (State.resume_sound (p := True) (s := s) (u := s.zeroFills) (by rw [hcall]; exact nofun) rfl .voiceReturned hs).sound
      have hrests : s.Rests ((s.zeroFills.changeCall .inCall .voiceReturned).lanesEnter false) :=
        (State.changeCall_rests (v := s.zeroFills) rfl .inCall .voiceReturned).trans (State.lanesEnter_only _ false).rests
      have hin : ((s.zeroFills.changeCall .inCall .voiceReturned).lanesEnter false).callCtl.state = .inCall :=
        congrArg CallCtl.state s.voiceReturned_aside.callCtl
      generalize (s.zeroFills.changeCall .inCall .voiceReturned).lanesEnter false = v at hexec hentered hrests hin
      refine ⟨v.zeroFills.armTimer .ms7_5, _, _, hexec, hrests.trans ⟨rfl, rfl, rfl⟩, hcounts v _ rfl hentered, nofun, nofun, ?_⟩
      rw [hcall]
      exact ⟨fun h => absurd (hin.symm.trans h) nofun, nofun⟩

/-- The record of a bud that is supervised and not lost (R6, R8). -/
def Bud.credited (r : Bud) (set : Settings) : Bud :=
  { r.passPeriod with link := if r.link = .live ∧ set.fadeThreshold ≤ r.passPeriod.missRun then .fading else r.link }

theorem Bud.supervise_eq_credited (h : r.link.supervised = true) (hl : r.passPeriod.missRun < set.lostThreshold) :
    r.supervise set = r.credited set := by
  rw [Bud.supervise_of_kept h (decide_eq_false (Nat.not_le.2 hl)), Bud.fades, r.passPeriod_link, Bud.credited]
  by_cases hf : r.link = .live ∧ set.fadeThreshold ≤ r.passPeriod.missRun
  · rw [if_pos hf, if_pos (by rw [hf.1, decide_eq_true hf.2]; rfl)]
  · rw [if_neg hf, if_neg (by rwa [Bool.and_eq_true, beq_iff_eq, decide_eq_true_eq]), ← r.passPeriod_link]

/-- The record of a bud that is not OFFERED after a cadence (R6). -/
theorem State.aged_all (h : s.roster.buds[b].link ≠ .offered) :
    s.aged b Turns.all = s.roster.buds[b].supervise s.directives.settings := by
  rw [State.aged, if_neg fun hn => h hn.2, if_pos rfl]

theorem State.aged_offered (h : s.roster.buds[b].link = .offered) :
    s.aged b Turns.all = if s.lapses then {} else s.roster.buds[b] := by
  unfold State.aged
  rw [Bool.true_and, Bud.supervise_of_not (by rw [h]; rfl), if_pos rfl]
  simp only [h, and_true]

/-- A cadence command and one record (R6, R8, R36, R110, R111). -/
theorem cadence_record (hs : s.PartySound) {c : Instr} (ht : exec c s = .next t)
    (hc : (∃ o, c = .cadenceTimerExpiry o ∧ s.callCtl.timer ≠ none) ∨
      (∃ x y far o, c = .farVoice x y far o ∧ s.VoiceTakes ∧ (s.callCtl.state = .inCall ∨ s.callCtl.state = .holding .auto)))
    (b : BudIx) :
    (s.aged b Turns.all).Sends t.roster.buds[b] ∧ ((s.aged b Turns.all).link.supervised = true →
      (t.roster.buds[b].dlSeq = s.roster.buds[b].dlSeq ∨ t.roster.buds[b].dlSeq = s.roster.buds[b].dlSeq + 1) ∧
      ((∀ a ∈ c.order.acts, a.isCall = false) →
        t.roster.buds[b].dlSeq = if s.callCtl.state = .noCall then s.roster.buds[b].dlSeq else s.roster.buds[b].dlSeq + 1)) := by
  obtain ⟨u, i, due, rfl, hrests, hu, hdue, hidle, hnone⟩ := cadence_begins hs ht hc
  have hrecord : u.roster.buds[b] = s.roster.buds[b] := by rw [hrests.roster]
  have haged : u.aged b Turns.all = s.aged b Turns.all := by
    unfold State.aged State.lapses
    rw [hrests.roster, hrests.context, hrests.settings]
  obtain ⟨hsends, hany⟩ := State.runCadence_record hu i c.order.acts hdue b (C := fun _ => True)
    (Q := fun v => v = u.roster.buds[b].dlSeq ∨ v = u.roster.buds[b].dlSeq + 1)
    ⟨fun _ _ _ => trivial, fun _ => .inl rfl, fun _ _ => .inl rfl, fun _ _ => .inr rfl, fun _ _ => .inr rfl⟩ trivial fun _ _ => trivial
  rw [haged] at hsends hany
  rw [hrecord] at hany
  refine ⟨hsends, fun hsup => ⟨hany hsup, fun hplain => ?_⟩⟩
  obtain ⟨-, hexact⟩ := State.runCadence_record hu i c.order.acts hdue b
    (C := fun v => (v = .noCall ↔ s.callCtl.state = .noCall) ∧ (i.kind = .idle → v ≠ .inCall))
    (Q := fun v => v = if s.callCtl.state = .noCall then u.roster.buds[b].dlSeq else u.roster.buds[b].dlSeq + 1)
    ⟨fun v hv hne => ⟨⟨nofun, fun hn => absurd (hv.1.2 hn) hne⟩, fun _ => nofun⟩, fun hv => (if_pos (hv.1.1 rfl)).symm,
      fun hv hi => absurd rfl (hv.2 hi), fun hv _ => (if_neg fun hn => absurd (hv.1.2 hn) nofun).symm,
      fun m hv => (if_neg fun hn => absurd (hv.1.2 hn) nofun).symm⟩
    ⟨hnone, hidle⟩ fun ⟨a, ha, hcall⟩ => absurd ((hplain a ha).symm.trans hcall) nofun
  rw [haged, hrecord] at hexact
  exact hexact hsup

end Sys2Proof.Machine
end

