-- ==== Sys2Proof/Proofs/Losses.lean ====
section
/-! PROOFS. Supervision as a whole: the credited records, the leaving of the lost buds, their notices, and the notices for
FADING (R6, R8, R11, R17, R19). -/

namespace Sys2Proof.Machine

variable {s t u : State} {b c : BudIx} {r q : Bud} {x : ListenerIx}

/-! ## The parts of supervision -/

theorem Bud.passPeriod_place (r : Bud) : r.passPeriod.listener = r.listener ∧ r.passPeriod.addr = r.addr ∧ r.passPeriod.bonded = r.bonded := by
  unfold Bud.passPeriod
  split <;> exact ⟨rfl, rfl, rfl⟩

/-- A bud that supervision takes from LIVE to FADING (R6). -/
def State.fadesBud (s : State) (b : BudIx) : Bool :=
  decide (s.roster.buds[b].link = .live ∧ s.roster.buds[b].passPeriod.missRun < s.directives.settings.lostThreshold ∧
    s.directives.settings.fadeThreshold ≤ s.roster.buds[b].passPeriod.missRun)

/-- The record of a supervised bud once the period has passed (R6, R8). -/
def State.credited (s : State) (b : BudIx) : Bud :=
  { s.roster.buds[b].passPeriod with link := if s.fadesBud b then .fading else s.roster.buds[b].link }

/-- The supervised buds of a list, their records credited. -/
def State.credit (s : State) (l : List BudIx) : State :=
  (l.filter fun b => s.roster.buds[b].link.supervised).foldl (fun u b => u.setBud b (s.credited b)) s

/-- A bud leaves the party and its listener, whom its record names at the beginning of supervision (steps 1 to 5 of R17). -/
def State.leave (s u : State) (b : BudIx) : State :=
  match s.roster.buds[b].listener with
  | some x =>
    { u with
      roster :=
        { u.roster with
          buds := u.roster.buds.set b {}
          listeners := u.roster.listeners.set x
            { u.roster.listeners[x] with
              members := u.roster.listeners[x].members.filter (· ≠ b)
              primary :=
                if u.roster.listeners[x].primary = some b then (u.roster.listeners[x].members.filter (· ≠ b)).head?
                else u.roster.listeners[x].primary } }
      intake := { u.intake with queues := u.intake.queues.set b [] } }
  | none => u

theorem State.leave_of_listener (u : State) (hx : s.roster.buds[b].listener = some x) :
    s.leave u b =
      { u with
        roster :=
          { u.roster with
            buds := u.roster.buds.set b {}
            listeners := u.roster.listeners.set x
              { u.roster.listeners[x] with
                members := u.roster.listeners[x].members.filter (· ≠ b)
                primary :=
                  if u.roster.listeners[x].primary = some b then (u.roster.listeners[x].members.filter (· ≠ b)).head?
                  else u.roster.listeners[x].primary } }
        intake := { u.intake with queues := u.intake.queues.set b [] } } := by
  unfold State.leave
  rw [hx]

theorem State.leave_setBud (h : b ≠ c) (r : Bud) : s.leave (u.setBud c r) b = (s.leave u b).setBud c r := by
  cases hx : s.roster.buds[b].listener with
  | none =>
    unfold State.leave
    rw [hx]
  | some x =>
    rw [State.leave_of_listener _ hx, State.leave_of_listener _ hx]
    exact congrArg (fun v => ({ u with
      roster :=
        { u.roster with
          buds := v
          listeners := _ }
      intake := { u.intake with queues := u.intake.queues.set b [] } } : State))
      (Vector.set_comm r {} (fun e => h (Fin.ext e).symm))

theorem State.leaves_setBud {l : List BudIx} (h : c ∉ l) (u : State) (r : Bud) :
    l.foldl s.leave (u.setBud c r) = (l.foldl s.leave u).setBud c r := by
  induction l generalizing u with
  | nil => rfl
  | cons b l ih =>
    obtain ⟨hb, hl⟩ := not_or.1 (mt List.mem_cons.2 h)
    rw [List.foldl_cons, State.leave_setBud (Ne.symm hb), ih hl]
    rfl

theorem State.leave_setBud_self (hx : s.roster.buds[b].listener = some x) (u : State) (r : Bud) :
    s.leave (u.setBud b r) b = s.leave u b := by
  rw [State.leave_of_listener _ hx, State.leave_of_listener _ hx]
  exact congrArg (fun v => ({ u with
    roster :=
      { u.roster with
        buds := v
        listeners := _ }
    intake := { u.intake with queues := u.intake.queues.set b [] } } : State)) (Vector.set_set ..)

/-- The unlinking of a bud that is not OFFERED is its leaving (R17). -/
theorem State.unlinkBud_eq_leave (hx : s.roster.buds[b].listener = some x) (hu : u.roster.buds[b].listener = some x)
    (ho : u.roster.buds[b].link ≠ .offered) (hn : u.roster.listeners[x].members.Nodup) : u.unlinkBud b = s.leave u b := by
  rw [State.unlinkBud_eq, State.leave_of_listener _ hx, if_neg ho, hu]
  dsimp only
  rw [Listener.drop_eq _ hn]

/-- What the report of a loss carries (R19). -/
def State.loss (s : State) (b : BudIx) : Departure := s.departure b .noArrivals

theorem State.losesBud_iff (s : State) (b : BudIx) : s.losesBud b = true ↔
    s.roster.buds[b].link.supervised = true ∧ s.directives.settings.lostThreshold ≤ s.roster.buds[b].passPeriod.missRun := by
  unfold State.losesBud Bud.isLost
  rw [Bool.and_eq_true, decide_eq_true_iff]

/-- A bud that fades is supervised and is not lost. -/
theorem State.supervised_of_fades (h : s.fadesBud b = true) : s.roster.buds[b].link.supervised = true := by
  rw [(of_decide_eq_true h).1]
  rfl

section
variable {a : Supervision} (hrecord : a.state.roster.buds[b] = s.roster.buds[b])
  (hset : a.state.directives.settings = s.directives.settings)
include hrecord

theorem Supervision.visit_of_not (h : s.roster.buds[b].link.supervised = false) : a.visit b = a := by
  unfold Supervision.visit
  dsimp only
  rw [hrecord, h]
  exact if_neg nofun

include hset

/-- The visit to a bud that is lost (R6, R17). -/
theorem Supervision.visit_of_lost (h : s.losesBud b = true) (hx : s.roster.buds[b].listener = some x)
    (hn : a.state.roster.listeners[x].members.Nodup) :
    a.visit b = { a with state := s.leave a.state b, lost := a.lost ++ [s.loss b] } := by
  obtain ⟨hsup, hlost⟩ := (s.losesBud_iff b).1 h
  obtain ⟨hlistener, haddr, hbonded⟩ := s.roster.buds[b].passPeriod_place
  have hunlinked : (a.state.setBud b s.roster.buds[b].passPeriod).unlinkBud b = s.leave a.state b := by
    rw [State.unlinkBud_eq_leave hx, State.leave_setBud_self hx]
    · rw [State.setBud_getElem, if_pos rfl]
      exact hlistener.trans hx
    · rw [State.setBud_getElem, if_pos rfl, Bud.passPeriod_link]
      exact fun ho => absurd hsup (by rw [ho]; exact nofun)
    · exact hn
  have hdeparture : (a.state.setBud b s.roster.buds[b].passPeriod).departure b .noArrivals = s.loss b := by
    unfold State.loss State.departure
    rw [State.setBud_getElem, if_pos rfl, hlistener, haddr, hbonded]
  unfold Supervision.visit
  dsimp only
  rw [hrecord, hset, if_pos hsup, if_pos (show Bud.isLost _ _ = true from decide_eq_true hlost), hunlinked, hdeparture]

/-- The visit to a bud that is supervised and not lost (R6, R8). -/
theorem Supervision.visit_of_kept (hsup : s.roster.buds[b].link.supervised = true) (h : s.losesBud b = false) :
    a.visit b =
      { a with
        state := a.state.setBud b (s.credited b)
        faded := a.faded ++ if s.fadesBud b then [s.roster.buds[b].listener] else [] } := by
  have hkept : s.roster.buds[b].passPeriod.missRun < s.directives.settings.lostThreshold := by
    by_contra hn
    exact absurd (h.symm.trans ((s.losesBud_iff b).2 ⟨hsup, Nat.not_lt.1 hn⟩)) nofun
  have hlistener := s.roster.buds[b].passPeriod_place.1
  have hfades : s.roster.buds[b].passPeriod.fades s.directives.settings = s.fadesBud b := by
    unfold Bud.fades State.fadesBud
    rw [Bud.passPeriod_link, Bool.eq_iff_iff, Bool.and_eq_true, beq_iff_eq, decide_eq_true_iff, decide_eq_true_iff]
    exact ⟨fun hf => ⟨hf.1, hkept, hf.2⟩, fun hf => ⟨hf.1, hf.2.2⟩⟩
  unfold Supervision.visit State.credited
  dsimp only
  rw [hrecord, hset, if_pos hsup, if_neg (show ¬ Bud.isLost _ _ = true by rw [Bud.isLost, decide_eq_true_iff]; omega), hfades, hlistener]
  cases s.fadesBud b with
  | true =>
    rw [if_pos rfl, if_pos rfl, if_pos rfl]
    exact congrArg (fun v => ({
      state := { a.state with roster := { a.state.roster with buds := v } }
      lost := a.lost
      faded := a.faded ++ [s.roster.buds[b].listener] } : Supervision)) (Vector.set_set ..)
  | false =>
    rw [if_neg nofun, if_neg nofun, if_neg nofun, ← Bud.passPeriod_link, List.append_nil, ← hlistener]

end

theorem State.credit_append (s : State) (l : List BudIx) (b : BudIx) :
    s.credit (l ++ [b]) = if s.roster.buds[b].link.supervised then (s.credit l).setBud b (s.credited b) else s.credit l := by
  unfold State.credit
  rw [List.filter_append, List.foldl_append, List.filter_singleton]
  cases s.roster.buds[b].link.supervised <;> rfl

/-- The visits of supervision to buds, each once, written out. -/
theorem Supervision.visits_eq (hs : s.PartySound) {l : List BudIx} (hn : l.Nodup) :
    l.foldl Supervision.visit ⟨s, [], []⟩ =
      { state := (l.filter s.losesBud).foldl s.leave (s.credit l)
        lost := (l.filter s.losesBud).map s.loss
        faded := (l.filter s.fadesBud).map fun b => s.roster.buds[b].listener } := by
  induction l using List.reverseRecOn with
  | nil => rfl
  | append_singleton l b ih =>
    obtain ⟨hn, -, hdisjoint⟩ := List.nodup_append.1 hn
    have hb : b ∉ l := fun h => hdisjoint b h b (List.mem_singleton_self b) rfl
    have hout : b ∉ l.filter s.losesBud := fun h => hb (List.mem_filter.1 h).1
    have hrecord := Supervision.visits_records hn s b
    rw [if_neg hb] at hrecord
    have hset : (l.foldl Supervision.visit ⟨s, [], []⟩).state.directives.settings = s.directives.settings :=
      (Supervision.visits_aside l ⟨s, [], []⟩).tables.settings
    have hbegun : Supervision.Follows True s { state := s, lost := [], faded := [] } :=
      ⟨nofun, (State.Keeps.refl s hs).mono (fun _ => False.elim) fun _ => False.elim⟩
    have hmembers := (hbegun.visits l).amid.party.compatible.1
    rw [List.foldl_append, List.filter_append, List.filter_append, List.map_append, List.map_append, List.foldl_append,
      List.filter_singleton, List.filter_singleton, State.credit_append, List.foldl_cons, List.foldl_nil]
    cases hsup : s.roster.buds[b].link.supervised with
    | false =>
      have hlost : s.losesBud b = false := Bool.eq_false_iff.2 fun h =>
        absurd (hsup.symm.trans ((s.losesBud_iff b).1 h).1) nofun
      have hfades : s.fadesBud b = false := Bool.eq_false_iff.2 fun h => absurd (hsup.symm.trans (State.supervised_of_fades h)) nofun
      rw [Supervision.visit_of_not hrecord hsup, hlost, hfades, ih hn]
      simp
    | true =>
      cases hlost : s.losesBud b with
      | true =>
        obtain ⟨x, hx⟩ := State.PartyBut.listener_of_link (L := noListener) hs.but (b := b) fun hf => by
          rw [hf] at hsup
          exact absurd hsup nofun
        have hfades : s.fadesBud b = false := decide_eq_false fun hf => by
          have hmiss := ((s.losesBud_iff b).1 hlost).2
          omega
        rw [Supervision.visit_of_lost hrecord hset hlost hx (hmembers x).1, hfades, ih hn, if_pos rfl, State.leaves_setBud hout]
        simp [State.leave_setBud_self hx]
      | false =>
        rw [Supervision.visit_of_kept hrecord hset hsup hlost, ih hn, if_pos rfl, State.leaves_setBud hout]
        cases s.fadesBud b <;> simp

/-! ## The statement -/

theorem foldl_setBud (l : List BudIx) (f : BudIx → Bud) (u : State) :
    let v := l.foldl (fun u b => u.setBud b (f b)) u
    v = { u with roster := { u.roster with buds := v.roster.buds } } ∧
      ∀ b : BudIx, v.roster.buds[b] = if b ∈ l then f b else u.roster.buds[b] := by
  induction l using List.reverseRecOn with
  | nil => exact ⟨rfl, fun _ => rfl⟩
  | append_singleton l c ih =>
    obtain ⟨hframe, hbuds⟩ := ih
    rw [List.foldl_append, List.foldl_cons, List.foldl_nil]
    refine ⟨?_, fun b => ?_⟩
    · rw [hframe]
      rfl
    · rw [State.setBud_getElem, hbuds]
      by_cases hc : c = b
      · subst hc
        rw [if_pos rfl, if_pos (by simp)]
      · have hmem : b ∈ l ++ [c] ↔ b ∈ l := by simp [Ne.symm hc]
        rw [if_neg hc]
        simp only [hmem]

/-- The credited state as its records (R6). -/
theorem State.credit_eq (s : State) {order : List BudIx} (ho : order.Perm Config.buds) :
    s.credit order =
      { s with
        roster :=
          { s.roster with
            buds := Vector.ofFn fun b => if s.roster.buds[b].link.supervised then s.credited b else s.roster.buds[b] } } := by
  obtain ⟨hframe, hbuds⟩ := foldl_setBud (order.filter fun b => s.roster.buds[b].link.supervised) s.credited s
  have hone : ∀ b ∈ order, (if b ∈ order.filter fun b => s.roster.buds[b].link.supervised then s.credited b else s.roster.buds[b]) =
      if s.roster.buds[b].link.supervised then s.credited b else s.roster.buds[b] := fun b hb => by
    cases hsup : s.roster.buds[b].link.supervised with
    | true => exact if_pos (List.mem_filter.2 ⟨hb, hsup⟩)
    | false =>
      have hout : b ∉ order.filter fun b => s.roster.buds[b].link.supervised := fun h =>
        absurd (hsup.symm.trans (List.mem_filter.1 h).2) nofun
      exact if_neg hout
  have hrecords : (s.credit order).roster.buds =
      Vector.ofFn fun b => if s.roster.buds[b].link.supervised then s.credited b else s.roster.buds[b] := by
    refine Vector.ext fun k hk => ?_
    have hmem : (⟨k, hk⟩ : BudIx) ∈ order := ho.mem_iff.2 (by
      generalize (⟨k, hk⟩ : BudIx) = b
      fin_cases b <;> decide)
    rw [Vector.getElem_ofFn]
    exact (hbuds ⟨k, hk⟩).trans (hone _ hmem)
  unfold State.credit at hrecords ⊢
  rw [hframe, hrecords]

/-- The last steps of a loss, told of at the bud's listener (steps 6 to 8 of R17). -/
def State.tellLoss (s u : State) (b : BudIx) : State :=
  match s.roster.buds[b].listener with
  | some x =>
    (if (u.notice x).roster.listeners[x].inUse = true ∧ (u.notice x).roster.listeners[x].members = [] then
      { u.notice x with
        roster :=
          { (u.notice x).roster with
            listeners := (u.notice x).roster.listeners.set x
              { inUse := false, setTag := 0, members := [], primary := none,
                priority := Fin.ofNat 4 s.directives.settings.defaultPriority, volume := s.roster.defaults.volume,
                sidetone := s.roster.defaults.sidetone, micGain := s.roster.defaults.micGain, mute := s.roster.defaults.mute,
                budControls := s.roster.defaults.budControls } } }
    else u.notice x).post
      (.event (.departed
        { bud := b, listener := some x, addr := s.roster.buds[b].addr, bonded := s.roster.buds[b].bonded, cause := .noArrivals }))
  | none => u

section
variable (hp : s.directives.settings.defaultPriority ≤ 3)
include hp

theorem State.tellLoss_eq (hx : s.roster.buds[b].listener = some x) (hd : u.roster.defaults = s.roster.defaults)
    (hset : u.directives.settings = s.directives.settings) : s.tellLoss u b = u.finishDeparture (s.loss b) := by
  have honly := u.notice_only x
  have hunused : Listener.unused (u.notice x).roster.defaults (u.notice x).directives.settings.defaultPriority =
      { inUse := false, setTag := 0, members := [], primary := none,
        priority := Fin.ofNat 4 s.directives.settings.defaultPriority, volume := s.roster.defaults.volume,
        sidetone := s.roster.defaults.sidetone, micGain := s.roster.defaults.micGain, mute := s.roster.defaults.mute,
        budControls := s.roster.defaults.budControls } := by
    have hsettings : (u.notice x).directives.settings = s.directives.settings := honly.tables.settings.trans hset
    rw [honly.roster, hd, hsettings, Listener.unused, clampPriority_eq, Nat.min_eq_left hp]
  have hloss : s.loss b =
      { bud := b, listener := some x, addr := s.roster.buds[b].addr, bonded := s.roster.buds[b].bonded, cause := .noArrivals } := by
    rw [State.loss, State.departure, hx]
  rw [State.finishDeparture_of_listener (d := s.loss b) hx, hloss, State.emptyIfAlone, hunused, State.tellLoss, hx]
  rfl

theorem State.tellLosses_eq (l : List BudIx) (hx : ∀ b ∈ l, ∃ x, s.roster.buds[b].listener = some x)
    (hd : u.roster.defaults = s.roster.defaults) (hset : u.directives.settings = s.directives.settings) :
    l.foldl s.tellLoss u = (l.map s.loss).foldl State.finishDeparture u := by
  induction l generalizing u with
  | nil => rfl
  | cons b l ih =>
    obtain ⟨⟨x, hb⟩, hx⟩ := List.forall_mem_cons.1 hx
    rw [List.foldl_cons, List.map_cons, List.foldl_cons, State.tellLoss_eq hp hb hd hset]
    exact ih hx ((u.finishDeparture_keeps _).2.1.trans hd) ((u.finishDeparture_aside _).tables.settings.trans hset)

end

theorem State.leaves_keep (l : List BudIx) (u : State) :
    (l.foldl s.leave u).roster.defaults = u.roster.defaults ∧ (l.foldl s.leave u).directives = u.directives := by
  have hone : ∀ (v : State) (b : BudIx), (s.leave v b).roster.defaults = v.roster.defaults ∧ (s.leave v b).directives = v.directives :=
    fun v b => by
      unfold State.leave
      split <;> exact ⟨rfl, rfl⟩
  exact ⟨foldl_field (·.roster.defaults) (fun v b => (hone v b).1) l u, foldl_field (·.directives) (fun v b => (hone v b).2) l u⟩

theorem State.listener_of_loses (hs : s.PartySound) (h : s.losesBud b = true) : ∃ x, s.roster.buds[b].listener = some x := by
  have hsup := ((s.losesBud_iff b).1 h).1
  exact State.PartyBut.listener_of_link (L := noListener) hs.but fun hf => absurd hsup (by rw [hf]; exact nofun)

/-- Supervision as a whole (R6, R11, R17). -/
theorem State.supervise_eq (hs : s.PartySound) {order : List BudIx} (ho : order.Perm Config.buds) :
    s.supervise order =
      (order.filter s.fadesBud).foldl (fun u b => u.noticeFor s.roster.buds[b].listener)
        ((order.filter s.losesBud).foldl s.tellLoss ((order.filter s.losesBud).foldl s.leave (s.credit order))) := by
  have hcredit : (s.credit order).roster.defaults = s.roster.defaults ∧ (s.credit order).directives = s.directives := by
    rw [State.credit_eq s ho]
    exact ⟨rfl, rfl⟩
  obtain ⟨hdefaults, htables⟩ := State.leaves_keep (s := s) (order.filter s.losesBud) (s.credit order)
  have hfinish := State.tellLosses_eq (hs.settings 8).2 (order.filter s.losesBud)
    (fun b hb => State.listener_of_loses hs (List.mem_filter.1 hb).2) (hdefaults.trans hcredit.1)
    (congrArg DirectiveUnit.settings (htables.trans hcredit.2))
  unfold State.supervise
  dsimp only
  rw [Supervision.visits_eq hs (ho.nodup_iff.2 (by decide)), hfinish, List.foldl_map]

/-- The leaving of one lost bud, and its telling, are its freeing (R17). -/
theorem State.freeBud_eq_tellLoss (hs : s.PartySound) {order : List BudIx} (ho : order.Perm Config.buds) (h : s.losesBud b = true) :
    (s.credit order).freeBud b .noArrivals = s.tellLoss (s.leave (s.credit order) b) b := by
  obtain ⟨x, hx⟩ := State.listener_of_loses hs h
  have hsup := ((s.losesBud_iff b).1 h).1
  obtain ⟨hlistener, haddr, hbonded⟩ := s.roster.buds[b].passPeriod_place
  have hcredit := State.credit_eq s ho
  have hrecord : (s.credit order).roster.buds[b] = s.credited b := by
    rw [hcredit]
    exact (Vector.getElem_ofFn ..).trans (if_pos hsup)
  have hlink : (s.credited b).link ≠ .offered := by
    unfold State.credited
    dsimp only
    split
    · exact nofun
    · exact fun ho => absurd hsup (by rw [ho]; exact nofun)
  have hdeparture : (s.credit order).departure b .noArrivals = s.loss b := by
    unfold State.loss State.departure
    rw [hrecord, State.credited, hlistener, haddr, hbonded]
  obtain ⟨hdefaults, htables⟩ := State.leaves_keep (s := s) [b] (s.credit order)
  have hkept : (s.credit order).roster.defaults = s.roster.defaults ∧ (s.credit order).directives = s.directives ∧
      (s.credit order).roster.listeners = s.roster.listeners := by
    rw [hcredit]
    exact ⟨rfl, rfl, rfl⟩
  rw [State.freeBud, hdeparture, State.unlinkBud_eq_leave hx (by rw [hrecord]; exact hlistener.trans hx) (by rw [hrecord]; exact hlink)
    (by rw [hkept.2.2]; exact (hs.compatible.1 x).1)]
  exact (State.tellLoss_eq (hs.settings 8).2 hx (hdefaults.trans hkept.1) (congrArg DirectiveUnit.settings (htables.trans hkept.2.1))).symm

/-- NO ARRIVALS alone is the supervision of the one bud, and frees it (R6, log entry 6). -/
theorem State.supervise_one (h : s.losesBud b = true) :
    s.supervise [b] = (s.setBud b s.roster.buds[b].passPeriod).freeBud b .noArrivals := by
  obtain ⟨hsup, hlost⟩ := (s.losesBud_iff b).1 h
  unfold State.supervise
  dsimp only
  rw [List.foldl_cons, List.foldl_nil, Supervision.visit, if_pos hsup, if_pos (show Bud.isLost _ _ = true from decide_eq_true hlost)]
  rfl

/-- Settles O52: the account of one record over a cadence's acts, and supervision as credits, leavings, losses and notices. -/
theorem supervisionCreditsOrFrees : Obligations.SupervisionCreditsOrFrees := by
  unfold Obligations.SupervisionCreditsOrFrees
  intro s set passed supervised
  have hpassed : ∀ r : Bud, passed r = r.passPeriod := fun r => rfl
  have hsupervised : ∀ r : Bud, supervised r ↔ r.link.supervised = true := fun r => (LinkState.supervised_iff r.link).symm
  refine ⟨fun c t hs ht hc b => ?_, fun b => ?_, fun o => visitOrder_perm _ _, fun order hs ho => ?_⟩
  · obtain ⟨⟨hrecord, hsame⟩, hseq⟩ := cadence_record hs ht hc b
    intro r p
    have hp : p = r.passPeriod := hpassed r
    rw [hp]
    have hoffered : ∀ l : LinkState, l.supervised = true → l ≠ .offered := fun l hl ho => absurd hl (by rw [ho]; exact nofun)
    refine ⟨fun hsup hlost => ?_, fun hsup hkept => ?_, fun ho => ?_, fun hstill => ?_⟩
    · have hsup := (hsupervised r).1 hsup
      have haged : s.aged b Turns.all = {} :=
        (State.aged_all (hoffered _ hsup)).trans (Bud.supervise_of_lost hsup (decide_eq_true hlost))
      rw [haged] at hsame
      exact hsame rfl
    · have hsup := (hsupervised r).1 hsup
      have haged : s.aged b Turns.all = s.roster.buds[b].credited s.directives.settings :=
        (State.aged_all (hoffered _ hsup)).trans (Bud.supervise_eq_credited hsup hkept)
      have hstays : (s.roster.buds[b].credited s.directives.settings).link.supervised = true := by
        unfold Bud.credited
        dsimp only
        split
        · rfl
        · exact hsup
      rw [haged] at hrecord hseq
      exact ⟨hrecord, hseq hstays⟩
    · rw [State.aged_offered ho] at hsame
      refine (hsame ?_).trans rfl
      split
      · rfl
      · rw [ho]
        rfl
    · have hnot : s.roster.buds[b].link.supervised = false ∧ s.roster.buds[b].link ≠ .offered := by
        rcases hstill with hl | hl <;> exact ⟨congrArg LinkState.supervised hl, fun ho => absurd (hl.symm.trans ho) nofun⟩
      rw [State.aged_all hnot.2, Bud.supervise_of_not hnot.1] at hsame
      exact hsame hnot.1
  · intro r
    refine congrArg Host.Outcome.next ?_
    have hloses : s.losesBud b = true ↔ supervised r ∧ set.lostThreshold ≤ (passed r).missRun := by
      rw [s.losesBud_iff, hsupervised, hpassed]
    by_cases h : s.losesBud b = true
    · rw [if_pos h, if_pos (hloses.1 h), State.supervise_one h]
      rfl
    · rw [if_neg h, if_neg (mt hloses.2 h)]
  · intro record lost faded credited leave tell fade
    have hlost : lost = order.filter s.losesBud := List.filter_congr fun b _ => by
      rw [Bool.eq_iff_iff, decide_eq_true_iff, s.losesBud_iff, hsupervised, hpassed]
    have hfaded : faded = order.filter s.fadesBud := rfl
    have hall : ∀ b : BudIx, b ∈ order := fun b => ho.mem_iff.2 (by fin_cases b <;> decide)
    have hcredited : credited = s.credit order := by
      rw [State.credit_eq s ho]
      refine congrArg (fun v => ({ s with roster := { s.roster with buds := v } } : State)) (congrArg Vector.ofFn (funext fun b => ?_))
      have hmem : b ∈ faded ↔ s.fadesBud b = true := by
        rw [hfaded, List.mem_filter]
        exact and_iff_right (hall b)
      have hrecord : ({ passed (record b) with link := if b ∈ faded then .fading else (record b).link } : Bud) = s.credited b := by
        unfold State.credited
        simp only [hmem]
        rfl
      rw [hrecord]
      simp only [hsupervised]
      rfl
    have hleave : leave = s.leave := rfl
    have htell : tell = s.tellLoss := rfl
    have hfade : fade = fun u b => u.noticeFor s.roster.buds[b].listener := funext fun u => funext fun b => by
      dsimp only [fade, record]
      cases s.roster.buds[b].listener <;> rfl
    have hwhole : s.supervise order = faded.foldl fade (lost.foldl tell (lost.foldl leave credited)) := by
      rw [State.supervise_eq hs ho, hfade, htell, hleave, hcredited, hlost, hfaded]
    refine ⟨hwhole, fun b hone => ?_⟩
    have hloses : s.losesBud b = true :=
      (List.mem_filter.1 (hlost ▸ hone ▸ List.mem_singleton_self b : b ∈ order.filter s.losesBud)).2
    rw [hwhole, hone, hcredited, State.freeBud_eq_tellLoss hs ho hloses, htell, hleave]
    rfl

end Sys2Proof.Machine
end
